-- ==== Sys2Proof/Word.lean ====
section
/-! DEFINITION. The plain words of the CX22: the bit vectors and small bounded numbers the manual names. -/

namespace Sys2Proof

/-- One byte on the line, in the configuration record or in a request. -/
abbrev Byte := BitVec 8

/-- A controller's serial (10: a 32-bit number fixed at manufacture). -/
abbrev Serial := BitVec 32

/-- A 32-bit counter; it stops at its greatest value (00 section 6, Arithmetic). -/
abbrev Counter := BitVec 32

/-- A set of slots 0..31; bit k stands for slot k (09 section 9.6). -/
abbrev SlotSet := BitVec 32

/-- A set of station numbers 0..15; bit n stands for station n. -/
abbrev StationSet := BitVec 16

/-- A set of crossing peer table indices 0..7; bit j stands for index j (R18). -/
abbrev IndexSet := BitVec 8

/-- A 12-bit sample of the digitizer (04 section 4.1). -/
abbrev Sample := BitVec 12

/-- A station number 0..15. -/
abbrev StationNo := Fin 16

/-- The 5-bit sender field of a frame header (R151). -/
abbrev Sender := BitVec 5

/-- A slot of the firing cycle, 0..31. -/
abbrev Slot := Fin 32

/-- A position in the firing cycle (01 section 1.1): slot 0..31 and phase 0..249 microseconds. -/
structure Position where
  slot : Slot
  phase : Fin 250
  deriving DecidableEq, Repr

end Sys2Proof
end

