-- ==== Sys2Proof/Config.lean ====
section
/-! DEFINITION. What is fixed in the CX22 whatever the configuration record says, and the free values. -/

namespace Sys2Proof.Config

/-- Microseconds of one slot (R1). -/
def slotLength : Nat := 250

/-- Microseconds of a nominal cycle (R1). -/
def cycleLength : Nat := 8000

/-- Cycles after which a heard-table or crossing peer entry lapses (R6, R21). -/
def lapseAge : Nat := 200

/-- The greatest offset that is slewed rather than stepped (R9). -/
def stepThreshold : Nat := 20

/-- Microseconds from the start bit of a NOTICE to its end delimiter: 169 bits of 4 (R11). -/
def noticeLead : Nat := 676

/-- Microseconds from the start of an end delimiter to the dispatch at its last bit: 8 bits of 4
(R150, R151, R160; 04 section 4.8 dispatches a frame 32 microseconds after its latch). DEDUCED, log 8. -/
def delimiterLength : Nat := 32

/-- Cycles between periodic NOTICE frames (R30), and of the hold-off (R167). -/
def noticePeriod : Nat := 64

/-- Cycles of the hold-off countdown (R167). -/
def holdOffPeriod : Nat := 64

/-- Cycles of the listen countdown (R166). -/
def listenPeriod : Nat := 250

/-- Cycles in a second (00 section 6, Time). -/
def cyclesPerSecond : Nat := 125

/-- Entries of the exposure ring (03 section 3.8). -/
def ringLength : Nat := 125

/-- The greatest energy code the monitor can return (R59). -/
def greatestCode : Nat := 255

/-- Bins of a profile, range samples of a shot (00 section 7). -/
def bins : Nat := 800

/-- Pre-trigger samples of a shot (00 section 7). -/
def preSamples : Nat := 32

/-- Microseconds of the shot window (R64). -/
def windowLength : Nat := 100

/-- Conversions of the digitizer in one microsecond: 15 MHz (R62). -/
def conversionsPerMicrosecond : Nat := 15

/-- Microseconds of one bit time at 250 kbit/s (R150). -/
def bitTime : Nat := 4

/-- Recessive bit times of the idle gap (R150). -/
def idleGap : Nat := 11

/-- Collision errors after which a frame is dropped (R155). -/
def maxCollisions : Nat := 8

/-- Tracks of the layer table (R113). -/
def maxTracks : Nat := 5

/-- Candidates of a result record (R102). -/
def maxCandidates : Nat := 6

/-- Outcomes of a history (R115). -/
def maxHistory : Nat := 16

/-- FREE VALUE (log 3): the sample of the n-th conversion of the digitizer for which no command carries one.
It is an input of the block, and nothing constrains it. -/
opaque digitizerSample : Nat → Sample

/-- FREE VALUE (log 25): the level of the n-th bit time in which another party has the line and time passes before the
command that says which frame it sent. It is an input of the block, and nothing constrains it. -/
opaque lineBit : Nat → Bool

end Sys2Proof.Config
end

