-- ==== Sys2Proof/Syntax.lean ====
section
/-! DEFINITION. The commands of the CX22: one constructor of Instr per row of spec/opcode_table.json, with the
operands the spec's text gives the event, and the fields of the frames that commands carry (09 section 9.6). -/

namespace Sys2Proof

/-- The band the supply comparator reports (03 section 3.2). -/
inductive Band where
  | full
  | reduced
  | low
  | inhibit
  deriving DecidableEq, Repr

/-- The fields of a NOTICE payload after its serial, as they stand on the line (09 section 9.6). -/
structure NoticeBody where
  slot : Byte
  phase : BitVec 16
  claimed : SlotSet
  settled : SlotSet
  level : Byte
  shots : Byte
  deriving DecidableEq, Repr

/-- The fields of a NOTICE payload as they stand on the line (09 section 9.6). -/
structure NoticeFields extends NoticeBody where
  serial : Serial
  deriving DecidableEq, Repr

/-- The flags byte of a REPORT (09 section 9.6), bit 7 first. -/
structure ReportFlags where
  thin : Bool
  obscured : Bool
  fullyObscured : Bool
  slip : Bool
  more : Bool
  saturated : Bool
  overflow : Bool
  halted : Bool
  deriving DecidableEq, Repr

/-- One layer of a REPORT as it stands on the line (09 section 9.6). -/
structure LayerFields where
  id : Byte
  base : BitVec 16
  top : BitVec 16
  cover : BitVec 4
  peerOnly : Bool
  spare : BitVec 3
  peers : Byte
  deriving DecidableEq, Repr

/-- The fields of a REPORT payload as they stand on the line; the layer count byte is the length of the list. -/
structure ReportFields where
  seq : BitVec 16
  flags : ReportFlags
  visibility : BitVec 16
  ceiling : BitVec 16
  reach : BitVec 16
  layers : List LayerFields
  deriving DecidableEq, Repr

/-- The commands: the steps of spec/opcode_table.json, one constructor per row. -/
inductive Instr where
  /-- POWER_ON: the reset values (R16); at its release the supply comparator reports `band` (R43). -/
  | powerOn (band : Band)
  /-- PIN_RESET: the same effect on every block (R16). -/
  | pinReset (band : Band)
  /-- SLOT_START: the start of `slot` by the advance of time (R2). -/
  | slotStart (slot : Slot)
  /-- CYCLE_BOUNDARY: the end of slot 31 by the advance of time (R3). -/
  | cycleBoundary
  /-- HEARD_ENTRY_LAPSE: the heard-table entry of `station` lapses (R6). -/
  | heardEntryLapse (station : StationNo)
  /-- SUPPRESSION_END: the suppression count reaches 0 (R14). -/
  | suppressionEnd
  /-- CROSSING_PEER_LAPSE: the crossing peer entry of `index` lapses (R21). -/
  | crossingPeerLapse (index : Fin 8)
  /-- NOTICE_COUNTDOWN_EXPIRY (R30). -/
  | noticeCountdownExpiry
  /-- CHARGE_TIMEOUT (R47). -/
  | chargeTimeout
  /-- DEADLINE_EXPIRY (R70). -/
  | deadlineExpiry
  /-- LISTEN_COUNTDOWN_EXPIRY (R166). -/
  | listenCountdownExpiry
  /-- HOLD_OFF_EXPIRY (R168). -/
  | holdOffExpiry
  /-- QUIET_END (R174). -/
  | quietEnd
  /-- CHARGE_DONE: the charge comparator's report (R46). -/
  | chargeDone
  /-- BAND_CHANGE: the supply comparator reports `band` (R44). -/
  | bandChange (band : Band)
  /-- ENERGY_READING: the energy monitor returns `code` (R51, R52, R54). -/
  | energyReading (code : Byte)
  /-- SHOT_WINDOW_END: 100 microseconds after the trigger (R53). -/
  | shotWindowEnd
  /-- RANGE_CAPTURE_COMPLETE: the conversions up to that of bin 799, in order (R63). -/
  | rangeCaptureComplete (samples : List Sample)
  /-- REDUCTION_COMPLETE (R81). -/
  | reductionComplete
  /-- LOAD_COMPLETE: the 64 bytes of the record have been read (R163). -/
  | loadComplete (record : List Byte)
  /-- LINE_IDLE: the recessive run reaches 11 (R150). -/
  | lineIdle
  /-- ATTEMPT_START: the start bit of an own attempt (R153). -/
  | attemptStart
  /-- ARBITRATION_LOSS: bit `bit` of the arbitration field, from 0, was sent recessive and read dominant (R154). -/
  | arbitrationLoss (bit : Nat)
  /-- COLLISION_ERROR: bit `bit` of the frame, 0 the start bit, was read back wrong (R155). -/
  | collisionError (bit : Nat)
  /-- FRAME_TRANSMITTED: the last end-delimiter bit of the own attempt (R157). -/
  | frameTransmitted
  /-- FRAME_DISCARD: a frame is heard to its end; `bits` are its bits after the start bit and before the end delimiter,
  `delimiter` those of the end delimiter; the receive checks are applied (R152, R158). -/
  | frameDiscard (bits : List Bool) (delimiter : List Bool)
  /-- NOTICE dispatched (R19, R160); its serial is apart, as in a CLAIM. -/
  | notice (sender : Sender) (serial : Serial) (body : NoticeBody)
  /-- CLAIM dispatched; its sender field is the number wanted (R168). -/
  | claim (sender : Sender) (serial : Serial)
  /-- REPORT dispatched (R138). -/
  | report (sender : Sender) (fields : ReportFields)
  /-- STATUS of another station dispatched (R160). -/
  | status (sender : Sender) (payload : List Byte)
  /-- QUERY dispatched (R173). -/
  | query (sender : Sender) (target : Byte) (item : Byte)
  /-- QUIET dispatched (R174). -/
  | quiet (sender : Sender) (target : Byte) (seconds : Byte)
  /-- RESTART of scope 0, tracking, dispatched (R77). -/
  | restartTracking (sender : Sender) (target : Byte)
  /-- RESTART of scope 1, firing, dispatched (R38). -/
  | restartFiring (sender : Sender) (target : Byte)
  /-- RESTART of scope 2, station, dispatched (R175). -/
  | restartStation (sender : Sender) (target : Byte)
  /-- START_BIT: a dominant bit of another party (R150). -/
  | startBit
  deriving DecidableEq, Repr

end Sys2Proof
end

