-- ==== Sys2Proof/Decode.lean ====
section
/-! DEFINITION. The table's words. No row of spec/opcode_table.json gives its command any bits, so no word spells a
command; the frames of the station line have their codec in Machine/Operands.lean. -/

namespace Sys2Proof

/-- The command a word spells by the bits of spec/opcode_table.json: none, for the table gives no bits. -/
def decodeTableWord (_nbits _w : Nat) : Option Instr := none

end Sys2Proof
end

