-- ==== Sys2Proof/Machine/State.lean ====
section
/-! DEFINITION. The state of the CX22, block by block (00 section 3), as plain data, and its values after reset. -/

namespace Sys2Proof.Machine

/-! ## Cycle timer (01 section 1.1) -/

/-- The timer record of 01 section 1.1. -/
structure Timer where
  /-- Where the station stands in the cycle (R1). -/
  pos : Position
  /-- Phase 249 of a slot 31 lengthened by 1 is in its second microsecond (R1). -/
  held : Bool
  /-- The change to the length of slot 31 in the cycle before the one in progress, by which a position some
  microseconds back is found (R1, R9). -/
  prevAdj : Int
  /-- The change to the length of slot 31 in the cycle in progress (R3). -/
  curAdj : Int
  /-- The change to the length of slot 31 in the following cycle (R4). -/
  nextAdj : Int
  /-- The part of the last measured offset not yet handed to an adjustment (R5). -/
  slew : Int
  /-- The heard table: entry n is absent or the age in cycles of the last NOTICE of station n (R6). -/
  heard : List (Option Nat)
  /-- The reference station (R7). -/
  ref : Option StationNo
  /-- Cycle boundaries still to pass before firing may resume (R14). -/
  suppress : Nat
  /-- Cycle boundaries raised (R3). -/
  cycles : Counter
  /-- Slips raised (R13). -/
  slips : Counter
  /-- A step was taken since the last slot start or cycle boundary that time raised: the next one it raises is that of
  the position stepped to (R2, R12, R15). -/
  stepped : Bool
  deriving DecidableEq, Repr

/-! ## Firing calendar (02) -/

/-- The states of the calendar (R24). -/
inductive CalendarState where
  | inactive
  | active
  | releasing
  deriving DecidableEq, Repr

/-- TENTATIVE or SETTLED (R23). -/
inductive ClaimState where
  | tentative
  | settled
  deriving DecidableEq, Repr

/-- An entry of the own claim list (R23). -/
structure Claim where
  slot : Slot
  state : ClaimState
  /-- Transmitted NOTICE frames that carried the slot while tentative, 0..2. -/
  count : Nat
  deriving DecidableEq, Repr

/-- An entry of the crossing peer table (R18). -/
structure PeerEntry where
  /-- The peer's station number. -/
  peer : StationNo
  /-- The crossing bins lo..hi. -/
  lo : Nat
  hi : Nat
  /-- Heard with this notice age, or not heard. -/
  age : Option Nat
  claimed : SlotSet
  settled : SlotSet
  serial : Option Serial
  deriving DecidableEq, Repr

/-- The calendar's state (R18, R23, R24, R30, R41). -/
structure Calendar where
  state : CalendarState
  /-- The own claim list: one element per position, empty or an entry (R23). -/
  claims : List (Option Claim)
  /-- The crossing peer table, in index order. -/
  peers : List PeerEntry
  /-- The notice countdown, or stopped. -/
  countdown : Option Nat
  /-- The release counter. -/
  releases : Counter
  deriving DecidableEq, Repr

/-! ## Laser control unit and exposure monitor (03) -/

/-- The driver states (R42). -/
inductive Driver where
  | idle
  | charging
  | charged
  | fired
  | fault
  deriving DecidableEq, Repr

/-- The fault cause (R55). -/
inductive Cause where
  | none
  | charge
  | dud
  | stray
  deriving DecidableEq, Repr

/-- The reasons of the shot decision, in the order of its tests (R48). -/
inductive Reason where
  | fault
  | quiet
  | suppressed
  | noBank
  | supplyInhibit
  | notCharged
  | budget
  deriving DecidableEq, Repr

/-- The withheld counters, one per reason (03 section 3.1). -/
structure Withheld where
  fault : Counter
  quiet : Counter
  suppressed : Counter
  noBank : Counter
  supplyInhibit : Counter
  notCharged : Counter
  budget : Counter
  deriving DecidableEq, Repr

/-- The driver record of 03 section 3.1. -/
structure Laser where
  driver : Driver
  /-- The charge level, present while CHARGING or CHARGED. -/
  level : Option Nat
  band : Band
  /-- The target level Lt (R43). -/
  lt : Nat
  /-- The charge timeout count (R47). -/
  timeout : Nat
  /-- The dud run (R52). -/
  dudRun : Nat
  cause : Cause
  shotsFired : Counter
  withheld : Withheld
  deriving DecidableEq, Repr

/-- The exposure monitor of 03 section 3.8. -/
structure Exposure where
  /-- The sums of the last 125 completed cycles, oldest first. -/
  ring : List Nat
  /-- The window total. -/
  total : Nat
  /-- The current-cycle sum. -/
  current : Nat
  /-- The exposure limit. -/
  limit : Nat
  deriving DecidableEq, Repr

/-! ## Receive front end and accumulation banks (04) -/

/-- Bank A or bank B. -/
inductive BankId where
  | a
  | b
  deriving DecidableEq, Repr

/-- The window state (04 section 4.1). -/
inductive WindowState where
  | idle
  | capturing
  | holding
  deriving DecidableEq, Repr

/-- What a shot's completion will do (04 section 4.1). -/
inductive Disposition where
  | accumulate
  | dud
  | discard
  deriving DecidableEq, Repr

/-- The shot record (04 section 4.1). -/
structure Shot where
  bank : BankId
  /-- The copy of the pre-trigger record taken at the trigger. -/
  pre : List Sample
  /-- The range samples taken so far, in bin order. -/
  range : List Sample
  /-- The energy code of the reading, absent until it arrives. -/
  code : Option Nat
  disposition : Disposition
  /-- Microseconds since the trigger (R64). -/
  age : Nat
  deriving DecidableEq, Repr

/-- The front end of 04 section 4.1. -/
structure FrontEnd where
  /-- The pre-trigger record, oldest first. -/
  pre : List Sample
  window : WindowState
  shot : Option Shot
  /-- MODEL's own: conversions made so far, the argument of the next free sample (log 3). -/
  conversions : Nat
  deriving DecidableEq, Repr

/-- The states of a bank (04 section 4.2). -/
inductive BankState where
  | empty
  | accepting
  | closed
  | reducing
  deriving DecidableEq, Repr

/-- The bank record of 04 section 4.2. -/
structure Bank where
  state : BankState
  seq : BitVec 16
  /-- The bin sums of bins 0..799. -/
  sums : List Nat
  /-- The background sum bg. -/
  bg : Nat
  /-- The energy sum. -/
  esum : Nat
  /-- The shot count m. -/
  m : Nat
  /-- The in-flight count, 0 or 1. -/
  inFlight : Nat
  /-- The deadline countdown. -/
  deadline : Nat
  closePending : Bool
  /-- The lowest saturated bin. -/
  lowSat : Option Nat
  /-- The slip mark. -/
  slip : Bool
  /-- The suspect peer set. -/
  suspects : IndexSet
  deriving DecidableEq, Repr

/-- The two banks and the sequence counter they share. -/
structure Banks where
  a : Bank
  b : Bank
  seq : BitVec 16
  deriving DecidableEq, Repr

/-! ## Reduction unit (05, 06) -/

/-- The class of a bin (05 section 5.6). -/
inductive BinClass where
  | strong
  | weak
  | neither
  deriving DecidableEq, Repr

/-- A run of the scan (06 section 6.1). -/
structure Run where
  base : Nat
  top : Option Nat
  peakBin : Nat
  peakI : Int
  deriving DecidableEq, Repr

/-- The scan state (06 section 6.1). The bins e+1 and e+2 that end a run (R100) are passed over by `passing`, whose
argument counts those still to come: they belong to SEARCHING with the position already at e+3. -/
inductive ScanMode where
  | searching
  | inRun
  | passing (left : Nat)
  | ended
  deriving DecidableEq, Repr

/-- Why the scan ended (06 section 6.1). -/
inductive EndCause where
  | exhausted
  | openRun
  | limit
  deriving DecidableEq, Repr

/-- The extraction record (06 section 6.1). -/
structure Scan where
  mode : ScanMode
  position : Nat
  openRun : Option Run
  obscuring : Option Run
  candidates : List Run
  cause : Option EndCause
  deriving DecidableEq, Repr

/-- The working profile (05 section 5.1, 06 section 6.1). -/
structure Work where
  background : Nat
  net : List Int
  intensity : List Int
  classes : List BinClass
  fraw : Nat
  scan : Scan
  deriving DecidableEq, Repr

/-- A candidate of a result record (R108). -/
structure Candidate where
  base : Nat
  top : Option Nat
  peakBin : Nat
  peakI : Int
  suspect : Bool
  deriving DecidableEq, Repr

/-- The result record (R86, R111). -/
structure ResultRecord where
  seq : BitVec 16
  m : Nat
  thin : Bool
  slip : Bool
  obscured : Bool
  fullyObscured : Bool
  more : Bool
  saturated : Bool
  fraw : Option Nat
  reach : Option Nat
  visibility : Option Nat
  candidates : List Candidate
  deriving DecidableEq, Repr

/-- A reduction in progress: the bank under reduction, the working profile (none for a thin profile) and the result
record under construction. The reduction unit is BUSY while there is one (R79; log 20). -/
structure Reduction where
  bank : BankId
  work : Option Work
  result : ResultRecord
  deriving DecidableEq, Repr

/-! ## Layer tracker (07, 08) -/

/-- The origin of a track (R114). -/
inductive Origin where
  | own
  | peerOnly
  deriving DecidableEq, Repr

/-- An outcome of a history (R115). -/
inductive HistoryMark where
  | hit
  | miss
  deriving DecidableEq, Repr

/-- The track record of 07 section 7.2. -/
structure Track where
  id : Byte
  origin : Origin
  base : Nat
  top : Option Nat
  peak : Option Int
  /-- The outcomes, newest first. -/
  history : List HistoryMark
  age : Nat
  unseen : Nat
  /-- The peer set. -/
  peers : StationSet
  /-- The peer lapse. -/
  lapse : Option Nat
  deriving DecidableEq, Repr

/-- The tracker record of 07 section 7.1. -/
structure Tracker where
  tracks : List Track
  /-- The last reach height. -/
  reach : Option Nat
  /-- The track id counter. -/
  nextId : Byte
  overflow : Bool
  ceiling : Option Nat
  deriving DecidableEq, Repr

/-! ## Line interface (09) -/

/-- The line state (09 section 9.1). -/
inductive LineState where
  | waitIdle
  | idle
  | sending
  | receiving
  deriving DecidableEq, Repr

/-- A frame of the transmit set: its content and its collision count (R156). -/
structure Queued (α : Type) where
  content : α
  collisions : Nat
  deriving DecidableEq, Repr

/-- The content of a STATUS (R173): the asker, the item and the payload bytes fixed at queuing. -/
structure StatusReply where
  asker : Sender
  item : Byte
  payload : List Byte
  deriving DecidableEq, Repr

/-- The transmit set: at most one frame of each kind (R156). Kinds 3, 5, 6 and 7 are never queued by a station. The
content of a NOTICE is composed at its start bit (R31), so a queued one holds none. -/
structure TransmitSet where
  claim : Option (Queued StationNo)
  notice : Option (Queued Unit)
  report : Option (Queued ReportFields)
  status : Option (Queued StatusReply)
  deriving DecidableEq, Repr

/-- An own frame as it goes onto the line from its start bit on (R153). -/
inductive Sending where
  | claim (wanted : StationNo) (serial : Serial)
  | notice (sender : StationNo) (fields : NoticeFields)
  | report (sender : StationNo) (fields : ReportFields)
  | status (sender : StationNo) (reply : StatusReply)
  deriving DecidableEq, Repr

/-- The attempt (09 section 9.1). -/
structure Attempt where
  frame : Sending
  collisions : Nat
  /-- Its kind was withdrawn, or a RESTART station scope was taken, during the attempt (R156, R162). -/
  withdrawn : Bool
  deriving DecidableEq, Repr

/-- The eleven line counters (R161). -/
structure LineCounters where
  sent : Counter
  arbitrationLosses : Counter
  collisionErrors : Counter
  dropped : Counter
  superseded : Counter
  dispatched : Counter
  discardCrc : Counter
  discardLength : Counter
  discardKind : Counter
  discardSender : Counter
  discardOwn : Counter
  deriving DecidableEq, Repr

/-- The line interface record of 09 section 9.1. -/
structure Line where
  state : LineState
  /-- The recessive run. -/
  run : Nat
  /-- The microsecond within the bit time (log 2). -/
  bitPhase : Fin 4
  set : TransmitSet
  attempt : Option Attempt
  /-- The receive buffer. -/
  rx : List Bool
  /-- The position latched at the start of the end delimiter of the last frame. -/
  latched : Position
  /-- The slots that left the own claim list since the start bit of the NOTICE on the line: an entry that stands at one
  of them entered the list after that start bit (R32). -/
  recalled : SlotSet
  /-- MODEL's own: bit times of other parties' frames that passed before their commands, the argument of the next free
  line bit (log 25). -/
  heard : Nat
  counters : LineCounters
  deriving DecidableEq, Repr

/-! ## Start-up loader and numbering unit (10) -/

/-- The station states (R165). -/
inductive StationState where
  | loading
  | unconfigured
  | numbering
  | running
  | haltedDuplicate
  deriving DecidableEq, Repr

/-- The number mode (R163). -/
inductive NumberMode where
  | auto
  | fixed
  deriving DecidableEq, Repr

/-- The values of a valid configuration record after clamping (R164). The crossing entries stand in the crossing peer
table (R18). -/
structure StationConfig where
  mode : NumberMode
  /-- The fixed number; read in fixed mode only. -/
  fixedNo : StationNo
  elevation : Nat
  /-- The tilt cosine c in units of 1/1024. -/
  tilt : Nat
  /-- Shots per cycle S. -/
  shots : Nat
  /-- The profile exponent k. -/
  exponent : Nat
  /-- The profile period in seconds. -/
  period : Nat
  /-- The nominal charge level L. -/
  level : Nat
  limit : Nat
  /-- The overlap bin n0. -/
  overlap : Nat
  tMin : Nat
  mMin : Nat
  deriving DecidableEq, Repr

/-- What the start-up loader and the numbering unit hold jointly, and the loader's record (10). -/
structure Loader where
  station : StationState
  cfg : Option StationConfig
  valid : Bool
  clamped : Bool
  deriving DecidableEq, Repr

/-- The numbering state (10 section 10.2). -/
inductive NumState where
  | listen
  | claiming
  | numbered
  deriving DecidableEq, Repr

/-- The numbering unit (10 section 10.2). -/
structure Numbering where
  state : NumState
  own : Option StationNo
  taken : StationSet
  wanted : Option StationNo
  /-- The listen countdown, or stopped. -/
  listen : Option Nat
  /-- The hold-off countdown, or stopped. -/
  holdOff : Option Nat
  yieldMark : Bool
  mode : NumberMode
  serial : Serial
  deriving DecidableEq, Repr

/-! ## Request handler (11) -/

/-- The request handler's items (11). -/
structure Request where
  /-- The quiet countdown. -/
  quiet : Nat
  /-- The pending reply: the asker and the item. -/
  reply : Option (Sender × Byte)
  deriving DecidableEq, Repr

/-- Why the machine stops with a fault: there is no such event in the spec. FAULT is a driver state (R55) and
HALTED-DUPLICATE a station state (R165), both ordinary state, so the type has no constructor and no command can stop
with a fault. -/
inductive Fault where
  deriving DecidableEq, Repr

/-- Why a command has no meaning. -/
inductive Refusal where
  /-- Raised by an arm of exec whose command has no meaning yet; safe. No arm is such now. -/
  | notModelled (mnemonic : String)
  deriving DecidableEq, Repr

/-- The state of the controller: one field per block of 00 section 3, and the queue of waiting commands. -/
structure State where
  timer : Timer
  calendar : Calendar
  laser : Laser
  expo : Exposure
  front : FrontEnd
  banks : Banks
  /-- The reduction unit: none while IDLE. -/
  red : Option Reduction
  tracker : Tracker
  line : Line
  loader : Loader
  num : Numbering
  req : Request
  /-- The commands that are waiting, first in, first out. -/
  pending : List Instr
  deriving DecidableEq, Repr

/-! ## Values after power-on and pin reset -/

/-- R16. -/
def Timer.reset : Timer where
  pos := ⟨0, 0⟩
  held := false
  prevAdj := 0
  curAdj := 0
  nextAdj := 0
  slew := 0
  heard := List.replicate 16 none
  ref := none
  suppress := 0
  cycles := 0
  slips := 0
  stepped := false

/-- R40. The list has no position while S has no value: how many it has then the manual leaves open (DESIGN CHOICE, log
35). -/
def Calendar.reset : Calendar where
  state := .inactive
  claims := []
  peers := []
  countdown := none
  releases := 0

/-- Every withheld counter at 0 (R60). -/
def Withheld.zero : Withheld := ⟨0, 0, 0, 0, 0, 0, 0⟩

/-- R60, with the band the supply comparator reports at the release (R43). -/
def Laser.reset (band : Band) : Laser where
  driver := .idle
  level := none
  band := band
  lt := 0
  timeout := 0
  dudRun := 0
  cause := .none
  shotsFired := 0
  withheld := Withheld.zero

/-- R61. -/
def Exposure.reset : Exposure where
  ring := List.replicate Config.ringLength 0
  total := 0
  current := 0
  limit := 0

/-- R78. -/
def FrontEnd.reset : FrontEnd where
  pre := List.replicate Config.preSamples 0
  window := .idle
  shot := none
  conversions := 0

/-- An EMPTY bank (R78: its other fields have no meaning and are not read; DESIGN CHOICE zeros, log 12). -/
def Bank.blank : Bank where
  state := .empty
  seq := 0
  sums := List.replicate Config.bins 0
  bg := 0
  esum := 0
  m := 0
  inFlight := 0
  deadline := 0
  closePending := false
  lowSat := none
  slip := false
  suspects := 0

/-- R78. -/
def Banks.reset : Banks where
  a := Bank.blank
  b := Bank.blank
  seq := 0

/-- R136. -/
def Tracker.reset : Tracker where
  tracks := []
  reach := none
  nextId := 0
  overflow := false
  ceiling := none

/-- The empty transmit set (R162). -/
def TransmitSet.none : TransmitSet := ⟨Option.none, Option.none, Option.none, Option.none⟩

/-- Every line counter at 0 (R162). -/
def LineCounters.zero : LineCounters := ⟨0, 0, 0, 0, 0, 0, 0, 0, 0, 0, 0⟩

/-- R162; the latched position and the phase of the bit time are DESIGN CHOICE (log 2, log 9). -/
def Line.reset : Line where
  state := .waitIdle
  run := 0
  bitPhase := 0
  set := TransmitSet.none
  attempt := none
  rx := []
  latched := ⟨0, 0⟩
  recalled := 0
  heard := 0
  counters := LineCounters.zero

/-- R171. -/
def Loader.reset : Loader where
  station := .loading
  cfg := none
  valid := false
  clamped := false

/-- R171; the serial is the one the controller was made with. -/
def Numbering.reset (serial : Serial) : Numbering where
  state := .listen
  own := none
  taken := 0
  wanted := none
  listen := none
  holdOff := none
  yieldMark := false
  mode := .auto
  serial := serial

/-- R176. -/
def Request.reset : Request where
  quiet := 0
  reply := none

/-- The machine right after reset (R16, R40, R60, R61, R78, R96, R136, R162, R171, R176). The serial 0 (log 10), the
supply band FULL (log 11) and the latched position (log 9) are DESIGN CHOICE: the spec gives no value for them. -/
def State.reset : State where
  timer := Timer.reset
  calendar := Calendar.reset
  laser := Laser.reset .full
  expo := Exposure.reset
  front := FrontEnd.reset
  banks := Banks.reset
  red := none
  tracker := Tracker.reset
  line := Line.reset
  loader := Loader.reset
  num := Numbering.reset 0
  req := Request.reset
  pending := []

end Sys2Proof.Machine
end

