-- ==== Sys2Proof/Machine/Flags.lean ====
section
/-! DEFINITION. The flag and code bytes of the frames (09 section 9.6): the flags byte of a REPORT, the packed byte of
a REPORT layer, and the state bytes of a STATUS. -/

namespace Sys2Proof.Machine

/-- A byte from its bits, bit 7 first. -/
def byteOfFlags (b7 b6 b5 b4 b3 b2 b1 b0 : Bool) : Byte :=
  BitVec.ofNat 8 (128 * b7.toNat + 64 * b6.toNat + 32 * b5.toNat + 16 * b4.toNat + 8 * b3.toNat + 4 * b2.toNat
    + 2 * b1.toNat + b0.toNat)

/-- REPORT byte 2: bit 7 thin, 6 obscured, 5 fully obscured, 4 slip, 3 more, 2 saturated, 1 overflow, 0 halted. -/
def reportFlagsByte (f : ReportFlags) : Byte :=
  byteOfFlags f.thin f.obscured f.fullyObscured f.slip f.more f.saturated f.overflow f.halted

/-- The flags a REPORT byte 2 holds. -/
def reportFlagsOf (b : Byte) : ReportFlags where
  thin := b.getLsbD 7
  obscured := b.getLsbD 6
  fullyObscured := b.getLsbD 5
  slip := b.getLsbD 4
  more := b.getLsbD 3
  saturated := b.getLsbD 2
  overflow := b.getLsbD 1
  halted := b.getLsbD 0

/-- REPORT layer byte 5: bits 7..4 cover, bit 3 origin (1 peer-only), bits 2..0 spare. -/
def layerByte (l : LayerFields) : Byte :=
  BitVec.ofNat 8 (16 * l.cover.toNat + 8 * l.peerOnly.toNat + l.spare.toNat)

/-- STATUS byte 2. -/
def stationCode : StationState → Byte
  | .loading => 0
  | .unconfigured => 1
  | .numbering => 2
  | .running => 3
  | .haltedDuplicate => 4

/-- STATUS byte 3, bit 7: the number mode. -/
def modeBit : NumberMode → Bool
  | .auto => false
  | .fixed => true

/-- STATUS byte 3, bits 1..0: the numbering state. -/
def numStateCode : NumState → Nat
  | .listen => 0
  | .claiming => 1
  | .numbered => 2

/-- STATUS byte 3. -/
def numberingByte (n : Numbering) : Byte :=
  BitVec.ofNat 8 (128 * (modeBit n.mode).toNat + numStateCode n.state)

/-- STATUS byte 4, bits 7..4: the driver state. -/
def driverCode : Driver → Nat
  | .idle => 0
  | .charging => 1
  | .charged => 2
  | .fired => 3
  | .fault => 4

/-- STATUS byte 4, bits 3..0: the fault cause. -/
def causeCode : Cause → Nat
  | .none => 0
  | .charge => 1
  | .dud => 2
  | .stray => 3

/-- STATUS byte 4. -/
def driverByte (l : Laser) : Byte :=
  BitVec.ofNat 8 (16 * driverCode l.driver + causeCode l.cause)

/-- STATUS byte 5: bit 0 configuration valid, bit 1 clamped. -/
def validityByte (l : Loader) : Byte :=
  BitVec.ofNat 8 (l.valid.toNat + 2 * l.clamped.toNat)

/-- The last byte of a track in the layer table item of a STATUS: bit 7 origin, bits 6..4 age, bits 3..0 unseen. -/
def trackStateByte (t : Track) : Byte :=
  BitVec.ofNat 8 ((if t.origin = .peerOnly then 128 else 0) + 16 * (t.age % 8) + t.unseen % 16)

end Sys2Proof.Machine
end

