-- ==== Sys2Proof/Machine/Operands.lean ====
section
/-! DEFINITION. The frames of the station line: bits and bytes, the CRC, the layout of every frame kind, the receive
checks and the reading of a frame's fields (R151, R152, R158, R159; 09 section 9.6). -/

namespace Sys2Proof.Machine

/-! ## Bits and bytes, most significant first -/

/-- The bits of a byte, most significant first. -/
def byteBits (b : Byte) : List Bool :=
  [b.getLsbD 7, b.getLsbD 6, b.getLsbD 5, b.getLsbD 4, b.getLsbD 3, b.getLsbD 2, b.getLsbD 1, b.getLsbD 0]

/-- The bits of a list of bytes, in the order they are sent. -/
def bytesBits (bytes : List Byte) : List Bool := bytes.flatMap byteBits

/-- The number that bits spell, most significant first. -/
def bitsNat (bits : List Bool) : Nat := bits.foldl (fun n b => 2 * n + b.toNat) 0

/-- The next `n` bytes of a list of bits. -/
def takeBytes : Nat → List Bool → List Byte
  | 0, _ => []
  | n + 1, bits => BitVec.ofNat 8 (bitsNat (bits.take 8)) :: takeBytes n (bits.drop 8)

/-- The number that bytes spell, most significant first. -/
def bytesNat (bytes : List Byte) : Nat := bytes.foldl (fun n b => 256 * n + b.toNat) 0

/-- The field of `n` bytes at byte `at`. -/
def field (bytes : List Byte) (start n : Nat) : Nat := bytesNat ((bytes.drop start).take n)

/-- The two bytes of a 16-bit field. -/
def word16 (w : BitVec 16) : List Byte := [w.extractLsb' 8 8, w.extractLsb' 0 8]

/-- The four bytes of a 32-bit field. -/
def word32 (w : BitVec 32) : List Byte :=
  [w.extractLsb' 24 8, w.extractLsb' 16 8, w.extractLsb' 8 8, w.extractLsb' 0 8]

/-- A height on the line: 0xFFFF where it is absent (00 section 5, Absent). -/
def heightWord : Option Nat → BitVec 16
  | none => 0xFFFF
  | some h => BitVec.ofNat 16 h

/-! ## CRC (R152) -/

/-- One bit through the CRC register. -/
def crcStep (r : BitVec 16) (bit : Bool) : BitVec 16 :=
  if r.getLsbD 15 ≠ bit then (r <<< 1) ^^^ 0x1021#16 else r <<< 1

/-- The CRC over bits, from a register of 0xFFFF. -/
def crc16 (bits : List Bool) : BitVec 16 := bits.foldl crcStep 0xFFFF#16

/-! ## Frames -/

/-- A frame of the station line with its fields (R151). -/
inductive Frame where
  | claim (sender : Sender) (serial : Serial)
  | notice (sender : Sender) (fields : NoticeFields)
  | report (sender : Sender) (fields : ReportFields)
  | query (sender : Sender) (target item : Byte)
  | status (sender : Sender) (payload : List Byte)
  | quiet (sender : Sender) (target seconds : Byte)
  | restart (sender : Sender) (target scope : Byte)
  deriving DecidableEq, Repr

/-- The kind code of a frame (R151). -/
def Frame.kind : Frame → Nat
  | .claim .. => 0
  | .notice .. => 1
  | .report .. => 2
  | .query .. => 3
  | .status .. => 4
  | .quiet .. => 5
  | .restart .. => 6

/-- The sender field of a frame. -/
def Frame.sender : Frame → Sender
  | .claim n _ => n
  | .notice n _ => n
  | .report n _ => n
  | .query n _ _ => n
  | .status n _ => n
  | .quiet n _ _ => n
  | .restart n _ _ => n

/-- NOTICE payload. -/
def noticePayload (f : NoticeFields) : List Byte :=
  word32 f.serial ++ [f.slot] ++ word16 f.phase ++ word32 f.claimed ++ word32 f.settled ++ [f.level, f.shots]

/-- One layer of a REPORT payload. -/
def layerPayload (l : LayerFields) : List Byte :=
  [l.id] ++ word16 l.base ++ word16 l.top ++ [layerByte l, l.peers]

/-- REPORT payload. -/
def reportPayload (f : ReportFields) : List Byte :=
  word16 f.seq ++ [reportFlagsByte f.flags, BitVec.ofNat 8 f.layers.length] ++ word16 f.visibility
    ++ word16 f.ceiling ++ word16 f.reach ++ f.layers.flatMap layerPayload

/-- The payload bytes of a frame. -/
def Frame.payload : Frame → List Byte
  | .claim .. => []
  | .notice _ f => noticePayload f
  | .report _ f => reportPayload f
  | .query _ target item => [target, item]
  | .status _ payload => payload
  | .quiet _ target seconds => [target, seconds]
  | .restart _ target scope => [target, scope]

/-- The header byte: kind in bits 7..5, sender in bits 4..0. -/
def headerByte (kind : Nat) (sender : Sender) : Byte := BitVec.ofNat 8 (32 * kind + sender.toNat)

/-- The bytes of the arbitration field (R151): the header, and the serial of a CLAIM. -/
def Frame.arbitrationBytes : Frame → List Byte
  | .claim n serial => headerByte 0 n :: word32 serial
  | f => [headerByte f.kind f.sender]

/-- The bytes the CRC covers (R152): header, serial if present, length and payload. -/
def Frame.coveredBytes (f : Frame) : List Byte :=
  f.arbitrationBytes ++ BitVec.ofNat 8 f.payload.length :: f.payload

/-- The bits of the arbitration field. -/
def Frame.arbitrationBits (f : Frame) : List Bool := bytesBits f.arbitrationBytes

/-- The end delimiter: 8 recessive bits (R151). -/
def endDelimiter : List Bool := List.replicate 8 true

/-- The bits of a frame after its start bit (R151). -/
def Frame.bits (f : Frame) : List Bool :=
  bytesBits f.coveredBytes ++ bytesBits (word16 (crc16 (bytesBits f.coveredBytes))) ++ endDelimiter

/-- The sender field of a station number. -/
def senderOf (n : StationNo) : Sender := BitVec.ofNat 5 n.val

/-- The station number a sender field holds, if it is one (check 4 of R158). -/
def stationOf (n : Sender) : Option StationNo :=
  if h : n.toNat < 16 then some ⟨n.toNat, h⟩ else none

/-- Check 4 of R158 for kinds 0, 1, 2 and 4: the sender is a station. -/
def isStation (n : Sender) : Bool := (stationOf n).isSome

/-- Check 4 of R158 for kinds 3, 5 and 6: the sender is a recorder. -/
def isRecorder (n : Sender) : Bool := decide (24 ≤ n.toNat ∧ n.toNat ≤ 30)

/-- The frame an attempt puts on the line. -/
def Sending.frame : Sending → Frame
  | .claim wanted serial => .claim (senderOf wanted) serial
  | .notice n f => .notice (senderOf n) f
  | .report n f => .report (senderOf n) f
  | .status n reply => .status (senderOf n) reply.payload

/-! ## The receive checks (R158, R159) -/

/-- The reasons of the receive checks (R158). -/
inductive Discard where
  | crc
  | length
  | kind
  | sender
  | own
  deriving DecidableEq, Repr

/-- The length rule of a REPORT payload (R159). -/
def reportLengthAgrees (payload : List Byte) : Bool :=
  field payload 3 1 ≤ 5 && payload.length == 10 + 7 * field payload 3 1

/-- The length rule of a STATUS payload (R159), by its item byte and its track count byte. -/
def statusLengthAgrees (payload : List Byte) : Bool :=
  match field payload 1 1 with
  | 0 => payload.length == 38
  | 1 => field payload 2 1 ≤ 5 && payload.length == 3 + 8 * field payload 2 1
  | 2 => payload.length == 38
  | 3 => payload.length == 30
  | _ => false

/-- The length agrees with the kind (R159); kind 7 passes whatever its length (R158). -/
def lengthAgrees (kind : Nat) (payload : List Byte) : Bool :=
  match kind with
  | 0 => payload.length == 0
  | 1 => payload.length == 17
  | 2 => reportLengthAgrees payload
  | 3 => payload.length == 2
  | 4 => statusLengthAgrees payload
  | 5 => payload.length == 2
  | 6 => payload.length == 2
  | _ => true

/-- The sender is one the kind allows (check 4 of R158). -/
def senderAgrees (kind : Nat) (sender : Sender) : Bool :=
  if kind = 3 ∨ kind = 5 ∨ kind = 6 then isRecorder sender else isStation sender

/-- The fields of a NOTICE payload. -/
def parseNotice (p : List Byte) : NoticeFields where
  serial := BitVec.ofNat 32 (field p 0 4)
  slot := BitVec.ofNat 8 (field p 4 1)
  phase := BitVec.ofNat 16 (field p 5 2)
  claimed := BitVec.ofNat 32 (field p 7 4)
  settled := BitVec.ofNat 32 (field p 11 4)
  level := BitVec.ofNat 8 (field p 15 1)
  shots := BitVec.ofNat 8 (field p 16 1)

/-- The fields of one layer of a REPORT payload. -/
def parseLayer (p : List Byte) : LayerFields where
  id := BitVec.ofNat 8 (field p 0 1)
  base := BitVec.ofNat 16 (field p 1 2)
  top := BitVec.ofNat 16 (field p 3 2)
  cover := BitVec.ofNat 4 (field p 5 1 / 16)
  peerOnly := (BitVec.ofNat 8 (field p 5 1)).getLsbD 3
  spare := BitVec.ofNat 3 (field p 5 1 % 8)
  peers := BitVec.ofNat 8 (field p 6 1)

/-- The layers of a REPORT payload, `n` of them. -/
def parseLayers : Nat → List Byte → List LayerFields
  | 0, _ => []
  | n + 1, p => parseLayer (p.take 7) :: parseLayers n (p.drop 7)

/-- The fields of a REPORT payload. -/
def parseReport (p : List Byte) : ReportFields where
  seq := BitVec.ofNat 16 (field p 0 2)
  flags := reportFlagsOf (BitVec.ofNat 8 (field p 2 1))
  visibility := BitVec.ofNat 16 (field p 4 2)
  ceiling := BitVec.ofNat 16 (field p 6 2)
  reach := BitVec.ofNat 16 (field p 8 2)
  layers := parseLayers (field p 3 1) (p.drop 10)

/-- The frame with these header fields, serial and payload; kind 7 has none. -/
def parseFrame (kind : Nat) (sender : Sender) (serial : Serial) (p : List Byte) : Option Frame :=
  match kind with
  | 0 => some (.claim sender serial)
  | 1 => some (.notice sender (parseNotice p))
  | 2 => some (.report sender (parseReport p))
  | 3 => some (.query sender (BitVec.ofNat 8 (field p 0 1)) (BitVec.ofNat 8 (field p 1 1)))
  | 4 => some (.status sender p)
  | 5 => some (.quiet sender (BitVec.ofNat 8 (field p 0 1)) (BitVec.ofNat 8 (field p 1 1)))
  | 6 => some (.restart sender (BitVec.ofNat 8 (field p 0 1)) (BitVec.ofNat 8 (field p 1 1)))
  | _ => none

/-- The bits of the end delimiter heard in the bits of a frame after its start bit: up to the first dominant one, at
which the frame ends, and at most 8; none of them where reception is cut short before it (R152). -/
def delimiterHeard (bits : List Bool) : Nat :=
  let lead := if bitsNat (bits.take 3) = 0 then 40 else 8
  let length := bitsNat ((bits.drop lead).take 8)
  let delimiter := bits.drop (lead + 8 + 8 * length + 16)
  if bits.length < lead + 8 ∨ length > 48 then 0
  else min 8 (min delimiter.length ((delimiter.takeWhile id).length + 1))

/-- The receive checks 1 to 4 of R158 over the bits of a frame after its start bit, in their order, and the frame where
it passes them. A frame cut off before its CRC and delimiter are whole fails the CRC check (log 28). -/
def checkFrame (bits : List Bool) : Except Discard Frame :=
  let kind := bitsNat (bits.take 3)
  let sender : Sender := BitVec.ofNat 5 (bitsNat ((bits.drop 3).take 5))
  let lead := if kind = 0 then 40 else 8
  let length := bitsNat ((bits.drop lead).take 8)
  if bits.length < lead + 8 then .error .crc
  else if length > 48 then .error .length
  else
    let covered := bits.take (lead + 8 + 8 * length)
    let tail := bits.drop (lead + 8 + 8 * length)
    let payload := takeBytes length (bits.drop (lead + 8))
    let serial : Serial := BitVec.ofNat 32 (bitsNat ((bits.drop 8).take 32))
    if tail.take 16 ≠ bytesBits (word16 (crc16 covered)) ∨ tail.drop 16 ≠ endDelimiter then .error .crc
    else if lengthAgrees kind payload = false then .error .length
    else
      match parseFrame kind sender serial payload with
      | none => .error .kind
      | some f => if senderAgrees kind sender then .ok f else .error .sender

end Sys2Proof.Machine
end

