-- ==== Sys2Proof/Machine/Ops.lean ====
section
/-! DEFINITION. The named operations shared by every block: saturating counters, sets, block updates of the state,
station tests, and the cycle timer's position and reference. -/

namespace Sys2Proof.Machine

/-! ## Counters and sets -/

/-- Add `n` to a 32-bit counter, which stops at 4,294,967,295 (00 section 6, Arithmetic). -/
def bumpBy (n : Nat) (c : Counter) : Counter := BitVec.ofNat 32 (min (c.toNat + n) 4294967295)

/-- Increment a 32-bit counter. -/
def bump (c : Counter) : Counter := bumpBy 1 c

/-- The set with `k` added. -/
def setInsert {w : Nat} (k : Nat) (s : BitVec w) : BitVec w := s ||| (1#w <<< k)

/-- The set with `k` removed. -/
def setErase {w : Nat} (k : Nat) (s : BitVec w) : BitVec w := s &&& ~~~(1#w <<< k)

/-- The number of members of a set. -/
def setCard {w : Nat} (s : BitVec w) : Nat := (List.range w).countP (fun k => s.getLsbD k)

/-- The station numbers, lowest first. -/
def allStations : List StationNo := [0, 1, 2, 3, 4, 5, 6, 7, 8, 9, 10, 11, 12, 13, 14, 15]

/-! ## Block updates -/

/-- Update the cycle timer. -/
def State.mapTimer (f : Timer → Timer) (s : State) : State := { s with timer := f s.timer }

/-- Update the firing calendar. -/
def State.mapCalendar (f : Calendar → Calendar) (s : State) : State := { s with calendar := f s.calendar }

/-- Update the laser control unit. -/
def State.mapLaser (f : Laser → Laser) (s : State) : State := { s with laser := f s.laser }

/-- Update the exposure monitor. -/
def State.mapExpo (f : Exposure → Exposure) (s : State) : State := { s with expo := f s.expo }

/-- Update the receive front end. -/
def State.mapFront (f : FrontEnd → FrontEnd) (s : State) : State := { s with front := f s.front }

/-- Update the banks. -/
def State.mapBanks (f : Banks → Banks) (s : State) : State := { s with banks := f s.banks }

/-- Set the reduction unit. -/
def State.setRed (r : Option Reduction) (s : State) : State := { s with red := r }

/-- Update the layer tracker. -/
def State.mapTracker (f : Tracker → Tracker) (s : State) : State := { s with tracker := f s.tracker }

/-- Update the line interface. -/
def State.mapLine (f : Line → Line) (s : State) : State := { s with line := f s.line }

/-- Update the loader. -/
def State.mapLoader (f : Loader → Loader) (s : State) : State := { s with loader := f s.loader }

/-- Update the numbering unit. -/
def State.mapNum (f : Numbering → Numbering) (s : State) : State := { s with num := f s.num }

/-- Update the request handler. -/
def State.mapReq (f : Request → Request) (s : State) : State := { s with req := f s.req }

/-! ## Station tests -/

/-- The station is RUNNING. -/
def State.running (s : State) : Bool := s.loader.station == .running

/-- The station is live: RUNNING or HALTED-DUPLICATE (04 section 4.2). -/
def State.live (s : State) : Bool := s.loader.station == .running || s.loader.station == .haltedDuplicate

/-- A configuration quantity; 0 where no valid configuration is held (log 13). -/
def State.cfgNat (s : State) (f : StationConfig → Nat) : Nat :=
  match s.loader.cfg with
  | some c => f c
  | none => 0

/-- The profile shot count N = 2^k (R164). -/
def State.profileShots (s : State) : Nat := s.cfgNat (fun c => 2 ^ c.exponent)

/-- The byte names this station: its own number (R172). -/
def State.isOwnTarget (s : State) (target : Byte) : Bool :=
  match s.num.own with
  | some n => target.toNat == n.val
  | none => false

/-! ## The timer's position (R1, R9, R11, R12) -/

/-- The position as a single number, 250 × slot + phase (01 section 1.1). -/
def positionNumber (p : Position) : Nat := Config.slotLength * p.slot.val + p.phase.val

/-- The position with this single number, modulo 8,000. -/
def positionOf (n : Nat) : Position where
  slot := ⟨n / 250 % 32, Nat.mod_lt _ (by decide)⟩
  phase := ⟨n % 250, Nat.mod_lt _ (by decide)⟩

/-- Microseconds elapsed in the cycle in progress; the second microsecond of a held phase counts (R1). -/
def Timer.elapsed (t : Timer) : Nat := positionNumber t.pos + t.held.toNat

/-- The length of the cycle in progress: 7,999, 8,000 or 8,001 microseconds (R1). -/
def Timer.cycleLength (t : Timer) : Nat := (Int.ofNat Config.cycleLength + t.curAdj).toNat

/-- The position `e` microseconds into a cycle: slot 31 is the last, and its phase 249 is held (R1). -/
def positionAt (e : Nat) : Position :=
  if e < Config.cycleLength then positionOf e else ⟨31, 249⟩

/-- The position the station will hold `n` microseconds on, counting the current adjustment of the cycle in progress
(R11). -/
def Timer.ahead (n : Nat) (t : Timer) : Position :=
  if t.elapsed + n < t.cycleLength then positionAt (t.elapsed + n) else positionAt (t.elapsed + n - t.cycleLength)

/-- The position the station held `n` microseconds ago by the advance of time, counting the adjustment of the cycle
before the one in progress (R1, R9). -/
def Timer.behind (n : Nat) (t : Timer) : Position :=
  if n ≤ t.elapsed then positionAt (t.elapsed - n)
  else positionAt ((Int.ofNat Config.cycleLength + t.prevAdj).toNat + t.elapsed - n)

/-! ## Heard table and reference (R6, R7) -/

/-- The heard-table entry of a station is present. -/
def isHeard (heard : List (Option Nat)) (n : StationNo) : Bool :=
  match heard[n.val]? with
  | some (some _) => true
  | _ => false

/-- The lowest number among the own number and the heard stations (R7). -/
def referenceOf (own : Option StationNo) (heard : List (Option Nat)) : Option StationNo :=
  allStations.find? (fun n => own == some n || isHeard heard n)

/-- Recompute the reference. A different one sets the slew remaining to 0 (R5, R7), and so does one that is none, which
is what a unit without a number then holds, or the own number: such a station has no slew (R8). That the slew goes at
the recomputation is DEDUCED (log 34). -/
def recomputeReference (s : State) : State :=
  let ref := referenceOf s.num.own s.timer.heard
  s.mapTimer fun t => { t with ref := ref, slew := if ref = t.ref ∧ ref ≠ s.num.own then t.slew else 0 }

/-! ## Banks by name -/

/-- A bank's record. -/
def Banks.get (bs : Banks) : BankId → Bank
  | .a => bs.a
  | .b => bs.b

/-- Replace a bank's record. -/
def Banks.put (bs : Banks) (i : BankId) (b : Bank) : Banks :=
  match i with
  | .a => { bs with a := b }
  | .b => { bs with b := b }

/-- The other bank. -/
def BankId.other : BankId → BankId
  | .a => .b
  | .b => .a

/-- The bank that is ACCEPTING, if one is (R73: at most one is). -/
def Banks.accepting (bs : Banks) : Option BankId :=
  if bs.a.state = .accepting then some .a
  else if bs.b.state = .accepting then some .b
  else none

end Sys2Proof.Machine
end

