-- ==== Sys2Proof/Machine/Laser.lean ====
section
/-! DEFINITION. The laser control unit and the exposure monitor (03): charging, supply bands, the fault latch, energy
in the window. -/

namespace Sys2Proof.Machine

/-! ## Exposure monitor (R57, R58, R59) -/

/-- Add a reading's code to the current-cycle sum, which stops at 65,535 (R57). -/
def Exposure.add (code : Nat) (e : Exposure) : Exposure := { e with current := min (e.current + code) 65535 }

/-- The ring at a cycle boundary: the oldest entry leaves, the current-cycle sum enters as the newest (R58). -/
def Exposure.rotate (e : Exposure) : Exposure :=
  { e with
    total := e.total - e.ring.headD 0 + e.current
    ring := e.ring.tail ++ [e.current]
    current := 0 }

/-- The budget test fails: the exposure total plus 255 is greater than the limit (R48, R59). -/
def Exposure.overBudget (e : Exposure) : Bool := decide (e.total + e.current + Config.greatestCode > e.limit)

/-! ## Supply bands and the target level (R43) -/

/-- The cap of a band; INHIBIT allows no charging (03 section 3.2). -/
def bandCap : Band → Nat
  | .full => 15
  | .reduced => 12
  | .low => 8
  | .inhibit => 0

/-- Lt: min(L, cap), and 0 in INHIBIT (R43). -/
def targetLevel (nominal : Nat) (band : Band) : Nat := min nominal (bandCap band)

/-- Recompute Lt from the configured L (R43). -/
def recomputeTarget (s : State) : State :=
  s.mapLaser fun l => { l with lt := targetLevel (s.cfgNat StationConfig.level) l.band }

/-! ## Charging and bleeding (R42, R45) -/

/-- Start of charging: the level is Lt, the timeout count 2 (R45). -/
def Laser.beginCharging (l : Laser) : Laser := { l with driver := .charging, level := some l.lt, timeout := 2 }

/-- The driver is bled to IDLE (R42). -/
def Laser.bleed (l : Laser) : Laser := { l with driver := .idle, level := none, timeout := 0 }

/-- Charging begins if the station is RUNNING and the band is not INHIBIT; otherwise the driver becomes IDLE (R45,
R51). -/
def chargeOrIdle (s : State) : State :=
  if s.running ∧ s.laser.band ≠ .inhibit then s.mapLaser Laser.beginCharging else s.mapLaser Laser.bleed

/-- The driver enters FAULT (R55). -/
def Laser.enterFault (cause : Cause) (l : Laser) : Laser :=
  { l with driver := .fault, level := none, timeout := 0, cause := cause }

/-- The driver as the station enters RUNNING (R42). -/
def driverEntersRunning (s : State) : State :=
  if s.laser.driver = .idle ∧ s.laser.band ≠ .inhibit then s.mapLaser Laser.beginCharging else s

/-- The driver as the station leaves RUNNING: bled if CHARGING or CHARGED (R42). -/
def Laser.leaveRunning (l : Laser) : Laser :=
  if l.driver = .charging ∨ l.driver = .charged then l.bleed else l

/-- The driver at a band change, with the new band and Lt already taken (R44). -/
def driverAtBandChange (s : State) : State :=
  match s.laser.driver with
  | .idle => if s.running ∧ s.laser.band ≠ .inhibit then s.mapLaser Laser.beginCharging else s
  | .charging => if s.laser.band = .inhibit then s.mapLaser Laser.bleed else s
  | .charged =>
    if s.laser.band = .inhibit then s.mapLaser Laser.bleed
    else if s.laser.level.getD 0 > bandCap s.laser.band then chargeOrIdle s
    else s
  | .fired => s
  | .fault => s

/-- The supply comparator reports a band; the band already held is no change (R43, R44). -/
def bandReport (band : Band) (s : State) : State :=
  if band = s.laser.band then s
  else driverAtBandChange (recomputeTarget (s.mapLaser fun l => { l with band := band }))

/-- The charge comparator reports charge done (R46). -/
def chargeReport (s : State) : State :=
  if s.laser.driver = .charging then
    if s.laser.level.getD 0 ≤ bandCap s.laser.band then
      s.mapLaser fun l => { l with driver := .charged, timeout := 0 }
    else chargeOrIdle s
  else s

/-- The charge timeout count at a cycle boundary (R47). -/
def Laser.boundary (l : Laser) : Laser :=
  if l.driver = .charging then
    if l.timeout ≤ 1 then l.enterFault .charge else { l with timeout := l.timeout - 1 }
  else l

/-! ## The shot decision's counters (R48) -/

/-- Increment the withheld counter of a reason (R48). -/
def Withheld.count (r : Reason) (w : Withheld) : Withheld :=
  match r with
  | .fault => { w with fault := bump w.fault }
  | .quiet => { w with quiet := bump w.quiet }
  | .suppressed => { w with suppressed := bump w.suppressed }
  | .noBank => { w with noBank := bump w.noBank }
  | .supplyInhibit => { w with supplyInhibit := bump w.supplyInhibit }
  | .notCharged => { w with notCharged := bump w.notCharged }
  | .budget => { w with budget := bump w.budget }

/-- The laser control unit at a RESTART station scope: bled if CHARGING or CHARGED, counters cleared (R60). -/
def Laser.restart (l : Laser) : Laser := { l.leaveRunning with shotsFired := 0, withheld := Withheld.zero }

end Sys2Proof.Machine
end

