-- ==== Sys2Proof/Machine/Reduction.lean ====
section
/-! DEFINITION. Profile reduction (05) and layer extraction (06): the arithmetic of one closed bank, as pure functions
of the bank record, the configuration and the crossing bins. -/

namespace Sys2Proof.Machine

/-! ## Arithmetic of the profile (R86..R94) -/

/-- The thin test: m is less than N/4 (R86). -/
def isThin (shots m : Nat) : Bool := decide (m < shots / 4)

/-- The background B: bg divided by 32, to nearest, halves up (R87). -/
def background (bg : Nat) : Nat := (bg + 16) / 32

/-- Divide to the nearest integer, halves away from zero (R90). -/
def roundAway (numerator : Int) (q : Nat) : Int :=
  let quotient := numerator.natAbs / q
  let remainder := numerator.natAbs % q
  let magnitude : Int := if 2 * remainder < q then quotient else quotient + 1
  if numerator < 0 then -magnitude else magnitude

/-- The clamp of R91. -/
def clampIntensity (i : Int) : Int := if i > 4194303 then 4194303 else if i < -4194304 then -4194304 else i

/-- The normalized intensity of bin `n` (R89, R90, R91). -/
def intensityOf (esum n : Nat) (net : Int) : Int :=
  clampIntensity (roundAway (net * ((n + 1) ^ 2 * 49 : Nat)) (esum * 16))

/-- The intensities of the bins from `n` on. -/
def intensitiesFrom (esum : Nat) : Nat → List Int → List Int
  | _, [] => []
  | n, x :: rest => intensityOf esum n x :: intensitiesFrom esum (n + 1) rest

/-- The noise floor over the net signals of bins 736..799 (R92). -/
def noiseFloor (net : List Int) : Nat :=
  max 1 ((((net.drop 736).map Int.natAbs).sum + 32) / 64)

/-- The class of a bin (R93, R94). -/
def classOf (tMin fraw : Nat) (net i : Int) : BinClass :=
  if net ≥ 4 * (fraw : Int) ∧ i ≥ (tMin : Int) then .strong
  else if net < 2 * (fraw : Int) ∨ i < (((tMin + 1) / 2 : Nat) : Int) then .weak
  else .neither

/-! ## The scan (R97..R104) -/

/-- The scan at its start (R97). -/
def Scan.start (n0 : Nat) : Scan where
  mode := .searching
  position := n0
  openRun := none
  obscuring := none
  candidates := []
  cause := none

/-- Add a bin to the open run: a greater intensity takes the peak, an equal one does not (R101). -/
def Run.addBin (bin : Nat) (i : Int) (r : Run) : Run :=
  if i > r.peakI then { r with peakBin := bin, peakI := i } else r

/-- Add the bins from `bin` on to the open run. -/
def Run.addBins : Nat → List (BinClass × Int) → Run → Run
  | _, [], r => r
  | bin, (_, i) :: rest, r => Run.addBins (bin + 1) rest (r.addBin bin i)

/-- Record a finished run: with base n0 it is the obscuring run, otherwise the next candidate (R102). -/
def Scan.record (n0 : Nat) (r : Run) (k : Scan) : Scan :=
  if r.base = n0 then { k with obscuring := some r, openRun := none }
  else { k with candidates := k.candidates ++ [r], openRun := none }

/-- All three bins are of the class. -/
def threeOf (c : BinClass) (here : BinClass) (rest : List (BinClass × Int)) : Bool :=
  match rest with
  | (c1, _) :: (c2, _) :: _ => here == c && c1 == c && c2 == c
  | _ => false

/-- The scan at bin `b`, of class `c` and intensity `i`, with the bins above it in `rest`. -/
def Scan.atBin (n0 b : Nat) (c : BinClass) (i : Int) (rest : List (BinClass × Int)) (k : Scan) : Scan :=
  match k.mode with
  | .ended => k
  | .passing left =>
    -- a bin of the three weak bins that ended a run (R100); the position already stands above them
    if left ≤ 1 then { k with mode := .searching } else { k with mode := .passing (left - 1) }
  | .searching =>
    if rest.length < 2 then { k with mode := .ended, cause := some .exhausted, position := b }
    else if threeOf .strong c rest then
      if b ≠ n0 ∧ k.candidates.length ≥ Config.maxCandidates then
        { k with mode := .ended, cause := some .limit, position := b }
      else { k with mode := .inRun, openRun := some ⟨b, none, b, i⟩, position := b + 1 }
    else { k with position := b + 1 }
  | .inRun =>
    match k.openRun with
    | none => { k with mode := .ended, cause := some .exhausted, position := b }
    | some r =>
      if rest.length < 2 then
        { k.record n0 (Run.addBins b ((c, i) :: rest) r) with mode := .ended, cause := some .openRun, position := b }
      else if threeOf .weak c rest then
        { k.record n0 { r with top := some (b - 1) } with mode := .passing 2, position := b + 3 }
      else { k with openRun := some (r.addBin b i), position := b + 1 }

/-- The scan of the bins from `b` on, to its end. -/
def Scan.bins (n0 : Nat) : Nat → List (BinClass × Int) → Scan → Scan
  | _, [], k => if k.mode = .ended then k else { k with mode := .ended, cause := some .exhausted }
  | b, (c, i) :: rest, k => Scan.bins n0 (b + 1) rest (k.atBin n0 b c i rest)

/-- The scan of a classed profile from n0 up (R97). -/
def scanProfile (n0 : Nat) (classes : List BinClass) (intensity : List Int) : Scan :=
  Scan.bins n0 n0 ((classes.zip intensity).drop n0) (Scan.start n0)

/-! ## The result record (R86, R95, R105..R111) -/

/-- The datum height of a bin (R107). -/
def datumHeight (elevation tilt bin : Nat) : Nat := elevation + ((10 * bin + 5) * tilt + 512) / 1024

/-- The last recorded run of an ended scan: the last candidate or, when there is none, the obscuring run (R106). -/
def Scan.lastRun (k : Scan) : Option Run :=
  match k.candidates.getLast? with
  | some r => some r
  | none => k.obscuring

/-- The reach bin (R106). -/
def Scan.reachBin (k : Scan) : Nat :=
  match k.cause, k.lastRun with
  | some .openRun, some r => r.base
  | _, _ => 799

/-- The span of a run meets the bins lo..hi (R109): its bins from base to top, or to 799 without a top. -/
def Run.meets (lo hi : Nat) (r : Run) : Bool := decide (r.base ≤ hi ∧ lo ≤ r.top.getD 799)

/-- A run is suspect: it meets the crossing bins of an entry whose index is in the suspect peer set (R109). -/
def suspectFrom (suspects : IndexSet) (r : Run) : Nat → List PeerEntry → Bool
  | _, [] => false
  | j, e :: rest => (suspects.getLsbD j && r.meets e.lo e.hi) || suspectFrom suspects r (j + 1) rest

/-- A candidate of the result record (R108). -/
def candidateOf (elevation tilt : Nat) (suspects : IndexSet) (peers : List PeerEntry) (r : Run) : Candidate where
  base := datumHeight elevation tilt r.base
  top := r.top.map (datumHeight elevation tilt)
  peakBin := r.peakBin
  peakI := r.peakI
  suspect := suspectFrom suspects r 0 peers

/-- The working profile of a profile that is not thin (R87..R94, R97). -/
def workOf (c : StationConfig) (b : Bank) : Work :=
  let bgd := background b.bg
  let net := b.sums.map (fun (x : Nat) => (x : Int) - (bgd : Int))
  let intensity := intensitiesFrom b.esum 0 net
  let fraw := noiseFloor net
  let classes := (net.zip intensity).map (fun p => classOf c.tMin fraw p.1 p.2)
  { background := bgd, net := net, intensity := intensity, classes := classes, fraw := fraw,
    scan := scanProfile c.overlap classes intensity }

/-- The result record of a thin profile (R86). -/
def thinResult (b : Bank) : ResultRecord where
  seq := b.seq
  m := b.m
  thin := true
  slip := b.slip
  obscured := false
  fullyObscured := false
  more := false
  saturated := b.lowSat.isSome
  fraw := none
  reach := none
  visibility := none
  candidates := []

/-- The result record of a profile that is not thin (R95, R105, R106, R108, R110, R111). -/
def fullResult (c : StationConfig) (peers : List PeerEntry) (b : Bank) (w : Work) : ResultRecord where
  seq := b.seq
  m := b.m
  thin := false
  slip := b.slip
  obscured := w.scan.obscuring.isSome
  fullyObscured := match w.scan.obscuring with
    | some r => r.top.isNone
    | none => false
  more := w.scan.cause == some .limit
  saturated := b.lowSat.isSome
  fraw := some w.fraw
  reach := some (datumHeight c.elevation c.tilt w.scan.reachBin)
  visibility := match w.scan.obscuring with
    | some r => r.top.map (datumHeight c.elevation c.tilt)
    | none => none
  candidates := w.scan.candidates.map (candidateOf c.elevation c.tilt b.suspects peers)

/-- The reduction of a closed bank: it depends on the record as it closed, the configuration and the crossing bins,
and on nothing else (R80, R82). A bank closes only after a valid load; without a configuration the profile counts as
thin (log 13). -/
def reduce (cfg : Option StationConfig) (peers : List PeerEntry) (i : BankId) (b : Bank) : Reduction :=
  match cfg with
  | none => { bank := i, work := none, result := thinResult b }
  | some c =>
    if isThin (2 ^ c.exponent) b.m then { bank := i, work := none, result := thinResult b }
    else { bank := i, work := some (workOf c b), result := fullResult c peers b (workOf c b) }

end Sys2Proof.Machine
end

