-- ==== Sys2Proof/Machine/Banks.lean ====
section
/-! DEFINITION. The receive front end and the accumulation banks (04), and the start and end of a reduction (R79..R84). -/

namespace Sys2Proof.Machine

/-! ## Opening, closing, handoff (R66, R69..R75) -/

/-- A bank opens (R66). -/
def openBank (i : BankId) (s : State) : State :=
  s.mapBanks fun bs =>
    { bs.put i { Bank.blank with
        state := .accepting
        seq := bs.seq
        deadline := s.cfgNat StationConfig.period * Config.cyclesPerSecond } with
      seq := bs.seq + 1 }

/-- A bank moves to REDUCING and the reduction unit takes its inputs and becomes BUSY (R80). -/
def startReduction (i : BankId) (s : State) : State :=
  (s.mapBanks fun bs => bs.put i { bs.get i with state := .reducing }).setRed
    (some (reduce s.loader.cfg s.calendar.peers i (s.banks.get i)))

/-- A bank closes, and the handoff follows (R69, R73). -/
def closeBank (i : BankId) (s : State) : State :=
  let closed := s.mapBanks fun bs => bs.put i { bs.get i with state := .closed, closePending := false }
  if (s.banks.get i.other).state = .empty then
    let reducing := startReduction i closed
    if s.live then openBank i.other reducing else reducing
  else closed

/-- The deadline countdown of the ACCEPTING bank at a cycle boundary (R70). -/
def banksBoundary (s : State) : State :=
  match s.banks.accepting with
  | none => s
  | some i =>
    let b := s.banks.get i
    if b.deadline = 0 then s
    else if b.deadline = 1 then
      if b.inFlight = 0 then closeBank i (s.mapBanks fun bs => bs.put i { b with deadline := 0 })
      else s.mapBanks fun bs => bs.put i { b with deadline := 0, closePending := true }
    else s.mapBanks fun bs => bs.put i { b with deadline := b.deadline - 1 }

/-- The station has left its live states: the ACCEPTING bank closes, or its close is pending (R72). -/
def banksLeaveLive (s : State) : State :=
  match s.banks.accepting with
  | none => s
  | some i =>
    if (s.banks.get i).inFlight = 0 then closeBank i s
    else s.mapBanks fun bs => bs.put i { bs.get i with closePending := true }

/-- The station has entered a live state from one that is not live (R75). -/
def banksEnterLive (s : State) : State :=
  if s.banks.accepting.isSome then s
  else
    match s.banks.a.state, s.banks.b.state with
    | .empty, .empty => openBank .a s
    | .empty, .reducing => openBank .a s
    | .reducing, .empty => openBank .b s
    | _, _ => s

/-- The reduced bank becomes EMPTY and the handoff of reduction complete follows (R74, R81). -/
def endReduction (i : BankId) (s : State) : State :=
  let emptied := (s.mapBanks fun bs => bs.put i Bank.blank).setRed none
  match (s.banks.get i.other).state with
  | .closed =>
    let next := startReduction i.other emptied
    if s.live then openBank i next else next
  | .empty => if s.live then openBank .a emptied else emptied
  | .accepting => emptied
  | .reducing => emptied

/-- Steps 1 to 3 of R77: the shot in flight is discarded, the reduction abandoned (R84), both banks emptied. -/
def emptyBanks (s : State) : State :=
  ((s.mapFront fun f => { f with shot := f.shot.map (fun sh => { sh with disposition := .discard }) }).setRed
    none).mapBanks fun bs => { bs with a := Bank.blank, b := Bank.blank }

/-- Step 4 of R77: if the station is live, bank A opens. -/
def reopenBanks (s : State) : State := if s.live then openBank .a s else s

/-! ## Marks (R68) -/

/-- A release enters the releasing entry's index in the suspect peer set of the ACCEPTING bank (R35). -/
def markSuspect (index : Nat) (s : State) : State :=
  match s.banks.accepting with
  | none => s
  | some i => s.mapBanks fun bs => bs.put i { bs.get i with suspects := setInsert index (bs.get i).suspects }

/-- The set of the first `n` indices. -/
def indicesBelow (n : Nat) : IndexSet := BitVec.ofNat 8 (2 ^ n - 1)

/-- A slip marks the ACCEPTING bank and enters every index of the crossing peer table (R13). -/
def markSlip (s : State) : State :=
  match s.banks.accepting with
  | none => s
  | some i =>
    s.mapBanks fun bs => bs.put i
      { bs.get i with slip := true, suspects := (bs.get i).suspects ||| indicesBelow s.calendar.peers.length }

/-! ## The shot window (R49, R63..R67, R71) -/

/-- A shot is triggered into a bank: in-flight count 1, and the window opens with a copy of the pre-trigger record
(R49, R63). Windows do not overlap (R65); where a queue of commands triggers into an open one, the record of the older
shot is replaced (DESIGN CHOICE, log 31). -/
def openWindow (i : BankId) (s : State) : State :=
  (s.mapBanks fun bs => bs.put i { bs.get i with inFlight := 1 }).mapFront fun f =>
    { f with
      window := .capturing
      shot := some { bank := i, pre := f.pre, range := [], code := none, disposition := .accumulate, age := 0 } }

/-- The lower of two optional bins. -/
def lowerBin : Option Nat → Option Nat → Option Nat
  | some x, some y => some (min x y)
  | none, y => y
  | x, none => x

/-- A bank's record with a shot added (R67, steps 1 to 6). -/
def Bank.addShot (sh : Shot) (b : Bank) : Bank :=
  { b with
    sums := List.zipWith (· + ·) b.sums (sh.range.map BitVec.toNat)
    bg := b.bg + (sh.pre.map BitVec.toNat).sum
    esum := b.esum + sh.code.getD 0
    m := b.m + 1
    lowSat := lowerBin b.lowSat (sh.range.findIdx? (· == 4095#12))
    inFlight := 0 }

/-- The ACCEPTING bank of a shot takes it, and closes on count or by a pending close (R67, R69, R71). -/
def accumulateShot (sh : Shot) (s : State) : State :=
  let b := s.banks.get sh.bank
  if b.state = .accepting then
    let added := s.mapBanks fun bs => bs.put sh.bank (b.addShot sh)
    if b.m + 1 = s.profileShots ∨ b.closePending then closeBank sh.bank added else added
  else s

/-- A reading of the shot has been taken, or its window's end was taken as a dud (R65). A discarded shot no longer says
so by its disposition: the driver has left FIRED, which it does at the shot's reading alone (R42, R77). -/
def Shot.readingTaken (driver : Driver) (sh : Shot) : Bool :=
  sh.code.isSome || sh.disposition == .dud || (sh.disposition == .discard && driver != .fired)

/-- Shot completion, if both of its events have come (R65). -/
def completeShot (s : State) : State :=
  match s.front.shot with
  | none => s
  | some sh =>
    if s.front.window = .holding ∧ sh.readingTaken s.laser.driver then
      let ended := s.mapFront fun f => { f with window := .idle, shot := none }
      if sh.disposition = .accumulate then accumulateShot sh ended else ended
    else s

/-- A dud clears the in-flight count of the shot's bank, which may take a pending close (R52, R71). -/
def clearInFlight (i : BankId) (s : State) : State :=
  let b := s.banks.get i
  if b.state = .accepting then
    let cleared := s.mapBanks fun bs => bs.put i { b with inFlight := 0 }
    if b.closePending then closeBank i cleared else cleared
  else s

/-- The newest `n` members of a list. -/
def newest {α : Type} (n : Nat) (l : List α) : List α := l.drop (l.length - n)

/-- Conversions of the digitizer: every sample enters the pre-trigger record (R62); while CAPTURING it is the sample of
the next bin, and that of bin 799 makes the window HOLDING (R63), which may complete the shot (R65). -/
def convert (samples : List Sample) (s : State) : State :=
  let recorded := s.mapFront fun f =>
    { f with pre := newest Config.preSamples (f.pre ++ samples), conversions := f.conversions + samples.length }
  match s.front.window, s.front.shot with
  | .capturing, some sh =>
    let range := (sh.range ++ samples).take Config.bins
    if range.length = Config.bins then
      completeShot (recorded.mapFront fun f => { f with window := .holding, shot := some { sh with range := range } })
    else recorded.mapFront fun f => { f with shot := some { sh with range := range } }
  | _, _ => recorded

/-- The next `n` free samples from conversion `start` on (log 3). -/
def freeSamples (start : Nat) : Nat → List Sample
  | 0 => []
  | n + 1 => Config.digitizerSample start :: freeSamples (start + 1) n

/-- The conversions still missing to bin 799, from those a command carries and, beyond them, free ones (R63, log 4). The
age of the shot window stays as it is: how much of its 100 microseconds the command stands for is left open (R64; DESIGN
CHOICE, log 4). -/
def captureRest (samples : List Sample) (s : State) : State :=
  match s.front.window, s.front.shot with
  | .capturing, some sh =>
    let missing := Config.bins - sh.range.length
    let given := samples.take missing
    convert (given ++ freeSamples (s.front.conversions + given.length) (missing - given.length)) s
  | _, _ => s

/-! ## Energy readings (R51..R54) -/

/-- A reading of 1..255 for the shot in flight (R51, R64). -/
def shotReading (code : Nat) (s : State) : State :=
  completeShot (chargeOrIdle
    ((s.mapLaser fun l => { l with dudRun := 0 }).mapFront fun f =>
      { f with shot := f.shot.map (fun sh => { sh with code := some code }) }))

/-- The driver after a dud: FAULT at the third in a row, otherwise out of FIRED (R52). -/
def driverAfterDud (s : State) : State :=
  if s.laser.dudRun + 1 ≥ 3 then s.mapLaser fun l => { l.enterFault .dud with dudRun := 3 }
  else chargeOrIdle (s.mapLaser fun l => { l with dudRun := l.dudRun + 1 })

/-- A dud: a code of 0 for the shot in flight, or the end of its window without a reading (R52, R53, R64). -/
def dudReading (s : State) : State :=
  let told := s.mapFront fun f => { f with shot := f.shot.map (fun sh => { sh with disposition := .dud }) }
  let cleared := match s.front.shot with
    | some sh => clearInFlight sh.bank told
    | none => told
  completeShot (driverAfterDud cleared)

/-- A stray emission latches FAULT; a fault already latched keeps its cause (R54, R55). -/
def strayReading (s : State) : State :=
  if s.laser.driver = .fault then s else s.mapLaser (Laser.enterFault .stray)

/-- An energy reading (R51, R52, R54, R57). -/
def takeReading (code : Nat) (s : State) : State :=
  let counted := s.mapExpo (Exposure.add code)
  if s.laser.driver = .fired then
    if code = 0 then dudReading counted else shotReading code counted
  else strayReading counted

/-- The end of the shot window with the driver still FIRED for the shot is taken as a dud (R53). R64 has it come with the
window HOLDING; a SHOT_WINDOW_END at a window still CAPTURING is taken so too, and the capture goes on (DESIGN CHOICE,
log 37). -/
def windowEnd (s : State) : State :=
  if s.front.shot.isSome ∧ s.laser.driver = .fired then dudReading s else s

end Sys2Proof.Machine
end

