-- ==== Sys2Proof/Machine/Line.lean ====
section
/-! DEFINITION. The line interface: the transmit set, attempts and their ends, and the end of a received frame (09
sections 9.1 to 9.5; R150, R153..R158, R161). -/

namespace Sys2Proof.Machine

/-! ## The transmit set (R156) -/

/-- Count a supersession where there is one (R156). -/
def countSuperseded (superseded : Bool) (c : LineCounters) : LineCounters :=
  if superseded then { c with superseded := bump c.superseded } else c

/-- A CLAIM for a number enters the set and supersedes one already there (R156). -/
def Line.queueClaim (n : StationNo) (l : Line) : Line :=
  { l with set := { l.set with claim := some ⟨n, 0⟩ }, counters := countSuperseded l.set.claim.isSome l.counters }

/-- A NOTICE enters the set (R156); its content is composed at its start bit (R31). -/
def Line.queueNotice (l : Line) : Line :=
  { l with set := { l.set with notice := some ⟨(), 0⟩ }, counters := countSuperseded l.set.notice.isSome l.counters }

/-- A REPORT enters the set (R134, R156). -/
def Line.queueReport (r : ReportFields) (l : Line) : Line :=
  { l with set := { l.set with report := some ⟨r, 0⟩ }, counters := countSuperseded l.set.report.isSome l.counters }

/-- A STATUS enters the set (R156, R173). -/
def Line.queueStatus (r : StatusReply) (l : Line) : Line :=
  { l with set := { l.set with status := some ⟨r, 0⟩ }, counters := countSuperseded l.set.status.isSome l.counters }

/-- The attempt is a NOTICE. -/
def Attempt.isNotice (a : Attempt) : Bool :=
  match a.frame with
  | .notice .. => true
  | _ => false

/-- The attempt is a CLAIM. -/
def Attempt.isClaim (a : Attempt) : Bool :=
  match a.frame with
  | .claim .. => true
  | _ => false

/-- Slots leave the own claim list: those a NOTICE on the line carries no longer count at its completion (R32). -/
def Line.recall (set : SlotSet) (l : Line) : Line :=
  if l.attempt.any Attempt.isNotice then { l with recalled := l.recalled ||| set } else l

/-- Withdraw the NOTICE kind; the list is emptied at the same event (R24, R156). -/
def Line.withdrawNotice (l : Line) : Line :=
  { l.recall (BitVec.allOnes 32) with
    set := { l.set with notice := none }
    attempt := l.attempt.map (fun a => { a with withdrawn := a.withdrawn || a.isNotice }) }

/-- Withdraw the CLAIM kind (R156, R170). -/
def Line.withdrawClaim (l : Line) : Line :=
  { l with
    set := { l.set with claim := none }
    attempt := l.attempt.map (fun a => { a with withdrawn := a.withdrawn || a.isClaim }) }

/-- A RESTART station scope: the set is emptied, the counters are cleared, and an attempt on the line will be discarded
without report if it is not transmitted (R162). -/
def Line.restart (l : Line) : Line :=
  { l.recall (BitVec.allOnes 32) with
    set := TransmitSet.none
    attempt := l.attempt.map (fun a => { a with withdrawn := true })
    counters := LineCounters.zero }

/-- The frame of an attempt that ended without transmission returns to the set with its collision count; a frame of its
kind queued meanwhile supersedes it, and a withdrawn kind is discarded (R156, log 16). -/
def Line.returnFrame (a : Attempt) (l : Line) : Line :=
  if a.withdrawn then l
  else
    match a.frame with
    | .claim n _ =>
      if l.set.claim.isSome then { l with counters := countSuperseded true l.counters }
      else { l with set := { l.set with claim := some ⟨n, a.collisions⟩ } }
    | .notice _ _ =>
      if l.set.notice.isSome then { l with counters := countSuperseded true l.counters }
      else { l with set := { l.set with notice := some ⟨(), a.collisions⟩ } }
    | .report _ r =>
      if l.set.report.isSome then { l with counters := countSuperseded true l.counters }
      else { l with set := { l.set with report := some ⟨r, a.collisions⟩ } }
    | .status _ r =>
      if l.set.status.isSome then { l with counters := countSuperseded true l.counters }
      else { l with set := { l.set with status := some ⟨r, a.collisions⟩ } }

/-! ## Starting an attempt (R31, R153) -/

/-- The slots of all entries of the own claim list (R23). -/
def claimedSet (claims : List (Option Claim)) : SlotSet :=
  claims.foldl (fun acc c => match c with
    | some e => setInsert e.slot.val acc
    | none => acc) 0

/-- The own-settled slots (R23). -/
def settledSet (claims : List (Option Claim)) : SlotSet :=
  claims.foldl (fun acc c => match c with
    | some e => if e.state = .settled then setInsert e.slot.val acc else acc
    | none => acc) 0

/-- The content of an own NOTICE, fixed at its start bit (R11, R31). -/
def composeNotice (s : State) : NoticeFields where
  serial := s.num.serial
  slot := BitVec.ofNat 8 (s.timer.ahead Config.noticeLead).slot.val
  phase := BitVec.ofNat 16 (s.timer.ahead Config.noticeLead).phase.val
  claimed := claimedSet s.calendar.claims
  settled := settledSet s.calendar.claims
  level := BitVec.ofNat 8 s.laser.lt
  shots := BitVec.ofNat 8 (s.cfgNat StationConfig.shots)

/-- The frame of the lowest kind that may be sent, as the attempt, with the set it leaves (R153). Kinds 1, 2 and 4 need
a number; the sender field is filled now, and the content of a NOTICE is composed now. -/
def nextAttempt (s : State) : Option (Attempt × TransmitSet) :=
  match s.line.set.claim with
  | some q => some (⟨.claim q.content s.num.serial, q.collisions, false⟩, { s.line.set with claim := none })
  | none =>
    match s.num.own with
    | none => none
    | some n =>
      match s.line.set.notice with
      | some q => some (⟨.notice n (composeNotice s), q.collisions, false⟩, { s.line.set with notice := none })
      | none =>
        match s.line.set.report with
        | some q => some (⟨.report n q.content, q.collisions, false⟩, { s.line.set with report := none })
        | none =>
          match s.line.set.status with
          | some q => some (⟨.status n q.content, q.collisions, false⟩, { s.line.set with status := none })
          | none => none

/-- With the line IDLE, begin an attempt if a frame may be sent (R153). Its start bit, the station's own or one it joins,
aligns the bit times (R150). -/
def startAttempt (s : State) : State :=
  if s.line.state = .idle ∧ s.line.attempt = none then
    match nextAttempt s with
    | some (a, set) =>
      s.mapLine fun l =>
        { l with state := .sending, run := 0, bitPhase := 0, rx := [], set := set, attempt := some a }
    | none => s
  else s

/-! ## Ends of attempts and frames -/

/-- A frame ends: WAIT-IDLE with a run of 0 (R150). -/
def Line.frameEnd (l : Line) : Line := { l with state := .waitIdle, run := 0, bitPhase := 0, rx := [] }

/-- A frame of another party ends; while this station is SENDING the frame on the line is its own (log 14). -/
def Line.receiveEnd (l : Line) : Line := if l.state = .sending then l else l.frameEnd

/-- The position held `n` microseconds ago is latched (R9, R152). -/
def latchAt (n : Nat) (s : State) : State := s.mapLine fun l => { l with latched := s.timer.behind n }

/-- The position the timer held at the start of the end delimiter of the frame that ends now is latched: 32 microseconds
ago (R9, R152; log 8, log 9). -/
def latch (s : State) : State := latchAt Config.delimiterLength s

/-- A frame that passed every check is dispatched (R160). -/
def Line.countDispatched (l : Line) : Line :=
  { l.receiveEnd with counters := { l.counters with dispatched := bump l.counters.dispatched } }

/-- Count a discard under its reason (R158, R161). -/
def LineCounters.countDiscard (r : Discard) (c : LineCounters) : LineCounters :=
  match r with
  | .crc => { c with discardCrc := bump c.discardCrc }
  | .length => { c with discardLength := bump c.discardLength }
  | .kind => { c with discardKind := bump c.discardKind }
  | .sender => { c with discardSender := bump c.discardSender }
  | .own => { c with discardOwn := bump c.discardOwn }

/-- A frame is discarded under a reason (R158). -/
def Line.discard (r : Discard) (l : Line) : Line :=
  { l.receiveEnd with counters := l.counters.countDiscard r }

/-- The line after a frame that passed every check: dispatched, with the position latched for it (R9, R160). -/
def State.lineAfterFrame (s : State) : Line :=
  { s.line.countDispatched with latched := s.timer.behind Config.delimiterLength }

/-- A frame dispatched, as a step of the state, with the position latched for it. -/
def dispatched (s : State) : State := { s with line := s.lineAfterFrame }

/-- A frame discarded, as a step of the state. -/
def discarded (r : Discard) (s : State) : State := s.mapLine (Line.discard r)

/-- The bit of the arbitration field at which the attempt loses it: sent recessive (R154). -/
def Attempt.losesAt (bit : Nat) (a : Attempt) : Bool := a.frame.frame.arbitrationBits[bit]? == some true

/-- The attempt loses arbitration at a bit: it holds every bit since the start bit, the last read dominant, and its
frame returns to the set with its collision count unchanged (R154). -/
def Line.loseArbitration (bit : Nat) (a : Attempt) (l : Line) : Line :=
  Line.returnFrame a
    { l with
      state := .receiving
      attempt := none
      recalled := 0
      run := 0
      rx := (a.frame.frame.bits.take bit) ++ [false]
      counters := { l.counters with arbitrationLosses := bump l.counters.arbitrationLosses } }

/-- A wrong readback of bit `bit` of the frame, 0 the start bit, is a collision error: the start bit, a dominant bit of
the arbitration field, or any bit after it (R155). -/
def Attempt.collidesAt (bit : Nat) (a : Attempt) : Bool :=
  match bit with
  | 0 => true
  | k + 1 =>
    if k < a.frame.frame.arbitrationBits.length then a.frame.frame.arbitrationBits[k]? == some false
    else decide (k < a.frame.frame.bits.length)

/-- The bits received up to a collision error: those sent before it, and the wrong one (R155). -/
def Attempt.receivedAt (bit : Nat) (a : Attempt) : List Bool :=
  match bit with
  | 0 => []
  | k + 1 => a.frame.frame.bits.take k ++ (a.frame.frame.bits[k]?.toList.map (!·))

/-- The recessive run at the end of these bits of a frame, up to 11 (R150). -/
def trailingRun (bits : List Bool) : Nat := min Config.idleGap (bits.reverse.takeWhile id).length

/-- The recessive run after a wrong readback at bit `bit`: a start bit read recessive leaves the run of an idle line
(R150, R155). -/
def Attempt.runAt (bit : Nat) (a : Attempt) : Nat := if bit = 0 then Config.idleGap else trailingRun (a.receivedAt bit)

/-- The line at a collision error, before the frame's fate is decided (R155). -/
def Line.stopSending (bit : Nat) (a : Attempt) (l : Line) : Line :=
  { l with
    state := .receiving
    attempt := none
    recalled := 0
    run := a.runAt bit
    rx := a.receivedAt bit
    counters := { l.counters with collisionErrors := bump l.counters.collisionErrors } }

/-- A dropped frame is counted (R155). -/
def Line.countDropped (l : Line) : Line := { l with counters := { l.counters with dropped := bump l.counters.dropped } }

/-- The own attempt reaches the end of its end delimiter: it is transmitted (R157), and the readback of it is discarded
under "own" (R158; log 15). -/
def Line.transmitted (l : Line) : Line :=
  { l.frameEnd with
    attempt := none
    recalled := 0
    counters := { l.counters with sent := bump l.counters.sent, discardOwn := bump l.counters.discardOwn } }

/-! ## The idle gap (R150) -/

/-- One recessive bit time: the run grows up to 11, where WAIT-IDLE becomes IDLE (R150). -/
def Line.recessiveBit (l : Line) : Line :=
  { l with
    run := min (l.run + 1) Config.idleGap
    state := if l.state = .waitIdle ∧ l.run + 1 ≥ Config.idleGap then .idle else l.state }

/-- A bit of the frame on the line enters the receive buffer and the recessive run (R150). -/
def Line.takeBit (b : Bool) (l : Line) : Line :=
  { l with rx := l.rx ++ [b], run := if b then min (l.run + 1) Config.idleGap else 0 }

/-- A bit time of an own frame: its next bit, read back as sent, until the last (R150, R153; a bit read back otherwise
comes as a command). -/
def Line.sentBit (l : Line) : Line :=
  match l.attempt with
  | none => l
  | some a =>
    match a.frame.frame.bits[l.rx.length]? with
    | some b => l.takeBit b
    | none => l

/-- A bit time of another party's frame: its level is an input, free until the command that says what the frame was
(R150; log 25). -/
def Line.heardBit (l : Line) : Line := { l.takeBit (Config.lineBit l.heard) with heard := l.heard + 1 }

/-- A dominant bit of another party, taken as the start bit of its frame (R150). -/
def Line.startReceiving (l : Line) : Line := { l with state := .receiving, run := 0, bitPhase := 0, rx := [] }

/-- A dominant bit in WAIT-IDLE sets the run to 0 and is no start bit (R150). It is taken at the end of its bit time, so
that the next one begins (DESIGN CHOICE, log 25). -/
def Line.dominantBit (l : Line) : Line := { l with run := 0, bitPhase := 0 }

/-- The recessive run reaches 11 (R150). As a command it keeps the microsecond within the bit time that stands
(DESIGN CHOICE, log 25). -/
def Line.becomeIdle (l : Line) : Line :=
  if l.state = .waitIdle then { l with run := Config.idleGap, state := .idle } else l

end Sys2Proof.Machine
end

