-- ==== Sys2Proof/Machine/Calendar.lean ====
section
/-! DEFINITION. The firing calendar (02): the crossing peer table, the own claim list, claiming, settling, releasing
and the queuing of NOTICE frames. -/

namespace Sys2Proof.Machine

/-! ## The crossing peer table (R18..R22) -/

/-- The entry is active: its peer number is not the number held (R18). -/
def PeerEntry.active (own : Option StationNo) (e : PeerEntry) : Bool := own != some e.peer

/-- The entry is heard. -/
def PeerEntry.heard (e : PeerEntry) : Bool := e.age.isSome

/-- Not heard, with empty sets and no serial: a lapse (R21), and an entry as it is built or inactive (R18). -/
def PeerEntry.silence (e : PeerEntry) : PeerEntry := { e with age := none, claimed := 0, settled := 0, serial := none }

/-- The entry would lapse at this boundary (R21). -/
def PeerEntry.lapses (e : PeerEntry) : Bool :=
  match e.age with
  | some k => decide (k + 1 ≥ Config.lapseAge)
  | none => false

/-- The entry at a cycle boundary (R21). -/
def PeerEntry.boundary (e : PeerEntry) : PeerEntry :=
  match e.age with
  | some k => if k + 1 ≥ Config.lapseAge then e.silence else { e with age := some (k + 1) }
  | none => e

/-- The entry after a NOTICE of its peer (R19). -/
def PeerEntry.take (f : NoticeFields) (e : PeerEntry) : PeerEntry :=
  { e with age := some 0, claimed := f.claimed ||| f.settled, settled := f.settled, serial := some f.serial }

/-- The index of the active entry whose peer number this is (R19). -/
def entryOf (own : Option StationNo) (sender : StationNo) (peers : List PeerEntry) : Option Nat :=
  peers.findIdx? (fun e => e.peer == sender && e.active own)

/-- The held slots: those in the claimed set of an active, heard entry (R22). -/
def heldSet (own : Option StationNo) (peers : List PeerEntry) : SlotSet :=
  peers.foldl (fun acc e => if e.active own && e.heard then acc ||| e.claimed else acc) 0

/-! ## The claiming procedure (R25, R26) -/

/-- The ideal slot of position `i` (R25). -/
def idealSlot (number shots i : Nat) : Nat := (number % (32 / shots) + i * (32 / shots)) % 32

/-- The first slot from `start` upward, modulo 32, that is not in the set (R26). -/
def firstFree (occupied : SlotSet) (start : Nat) : Option Nat :=
  ((List.range 32).map (fun j => (start + j) % 32)).find? (fun k => !occupied.getLsbD k)

/-- A new entry of the own claim list (R26). -/
def newClaim (slot : Nat) : Claim := ⟨⟨slot % 32, Nat.mod_lt _ (by decide)⟩, .tentative, 0⟩

/-- Fill the empty positions from position `i` on; at the first that finds no free slot the procedure ends (R26). -/
def fillClaims (number shots : Nat) : Nat → SlotSet → List (Option Claim) → List (Option Claim)
  | _, _, [] => []
  | i, occupied, some c :: rest => some c :: fillClaims number shots (i + 1) occupied rest
  | i, occupied, none :: rest =>
    match firstFree occupied (idealSlot number shots i) with
    | some k => some (newClaim k) :: fillClaims number shots (i + 1) (setInsert k occupied) rest
    | none => none :: rest

/-- The own claim list after the claiming procedure (R26). -/
def claimedList (s : State) : List (Option Claim) :=
  match s.num.own with
  | some n =>
    fillClaims n.val (s.cfgNat StationConfig.shots) 0
      (heldSet s.num.own s.calendar.peers ||| claimedSet s.calendar.claims) s.calendar.claims
  | none => s.calendar.claims

/-- Run the claiming procedure (R26). -/
def runClaiming (s : State) : State := s.mapCalendar fun c => { c with claims := claimedList s }

/-- The own claim list has an empty position. -/
def hasEmpty (claims : List (Option Claim)) : Bool := claims.any Option.isNone

/-! ## Queuing a NOTICE (R29) -/

/-- Queue a NOTICE and set the notice countdown to 64 (R29). -/
def queueNotice (s : State) : State :=
  (s.mapLine Line.queueNotice).mapCalendar fun c => { c with countdown := some Config.noticePeriod }

/-! ## The calendar's states (R24, R38, R39) -/

/-- The calendar as the station enters RUNNING: ACTIVE, claiming, and a NOTICE queued (R24). -/
def calendarEntersRunning (s : State) : State :=
  queueNotice (runClaiming (s.mapCalendar fun c => { c with state := .active }))

/-- Every position of the list is emptied. -/
def emptied (claims : List (Option Claim)) : List (Option Claim) := claims.map (fun _ => none)

/-- The calendar as the station leaves RUNNING: INACTIVE, list emptied, NOTICE withdrawn, countdown stopped (R24). -/
def calendarLeavesRunning (s : State) : State :=
  (s.mapCalendar fun c => { c with state := .inactive, claims := emptied c.claims, countdown := none }).mapLine
    Line.withdrawNotice

/-- The calendar as a load gives it S and the crossing peer table: S empty positions (R23), the entries as built (R18).
The state is kept. Without a value of S there is no position (DESIGN CHOICE, log 35). -/
def Calendar.configure (shots : Nat) (peers : List PeerEntry) (c : Calendar) : Calendar :=
  { c with claims := List.replicate shots none, peers := peers }

/-- RESTART firing scope (R38). -/
def calendarRestartFiring (s : State) : State :=
  queueNotice (s.mapCalendar fun c => { c with state := .releasing, claims := emptied c.claims })

/-- RELEASING ends: ACTIVE, claiming, and a NOTICE queued (R39). -/
def releasingEnds (s : State) : State := queueNotice (runClaiming (s.mapCalendar fun c => { c with state := .active }))

/-! ## Own NOTICE frames transmitted or dropped (R32, R39) -/

/-- A tentative entry whose slot a transmitted NOTICE carried counts it, and becomes SETTLED at 2 (R32). -/
def Claim.carried (set : SlotSet) (c : Claim) : Claim :=
  if c.state = .tentative ∧ set.getLsbD c.slot.val then
    if c.count + 1 ≥ 2 then { c with state := .settled, count := 2 } else { c with count := c.count + 1 }
  else c

/-- An entry becomes SETTLED by a transmitted NOTICE (R32). -/
def Claim.settles (set : SlotSet) (c : Claim) : Bool :=
  c.state == .tentative && set.getLsbD c.slot.val && decide (c.count + 1 ≥ 2)

/-- The calendar is told of a transmitted NOTICE with these sets (R32, R39). A slot of `recalled` left the list while the
frame was on the line: an entry now at it entered the list after the start bit and does not count (R32). -/
def noticeTransmitted (f : NoticeFields) (recalled : SlotSet) (s : State) : State :=
  let carried := f.claimed &&& ~~~recalled
  match s.calendar.state with
  | .inactive => s
  | .active =>
    let counted := s.mapCalendar fun c => { c with claims := c.claims.map (Option.map (Claim.carried carried)) }
    if s.calendar.claims.any (fun c => match c with
      | some e => e.settles carried
      | none => false) then queueNotice counted
    else counted
  | .releasing => if f.claimed = 0 ∧ f.settled = 0 then releasingEnds s else s

/-- The calendar is told of a dropped NOTICE with these sets (R32, R39). -/
def noticeDropped (f : NoticeFields) (s : State) : State :=
  if s.calendar.state = .releasing ∧ f.claimed = 0 ∧ f.settled = 0 then releasingEnds s else s

/-! ## A NOTICE of a crossing peer (R19, R20, R33..R37) -/

/-- The own slots that a lower-numbered peer's claimed set contains are released (R33). -/
def releaseClaims (set : SlotSet) (claims : List (Option Claim)) : List (Option Claim) :=
  claims.map (fun c => match c with
    | some e => if set.getLsbD e.slot.val then none else some e
    | none => none)

/-- The number of own slots that a claimed set contains. -/
def conflicts (set : SlotSet) (claims : List (Option Claim)) : Nat :=
  claims.countP (fun c => match c with
    | some e => set.getLsbD e.slot.val
    | none => false)

/-- Release on conflict with the peer of entry `index`, if it is lower than the own number (R33, R34, R35, R41). -/
def releaseConflicts (index : Nat) (sender : StationNo) (set : SlotSet) (s : State) : State :=
  match s.num.own with
  | none => s
  | some n =>
    if sender < n ∧ conflicts set s.calendar.claims ≠ 0 then
      markSuspect index ((s.mapCalendar fun c =>
        { c with claims := releaseClaims set c.claims, releases := bumpBy (conflicts set c.claims) c.releases }).mapLine
          (Line.recall set))
    else s

/-- The calendar ACTIVE after an entry was updated: conflicts, claiming, and at most one NOTICE (R20, R27, R29, R33,
R37). `before` is the set of held slots before the frame, `new` says that R20 queues a NOTICE. -/
def activeAfterNotice (index : Nat) (sender : StationNo) (set before : SlotSet) (new : Bool) (s : State) : State :=
  let released := releaseConflicts index sender set s
  let anyReleased := decide (released.calendar.claims ≠ s.calendar.claims)
  let freed := before &&& ~~~(heldSet s.num.own s.calendar.peers) != 0
  let claimed :=
    if anyReleased || (freed && hasEmpty released.calendar.claims) then runClaiming released else released
  if new || anyReleased || decide (claimed.calendar.claims ≠ released.calendar.claims) then queueNotice claimed
  else claimed

/-- The calendar takes a NOTICE, if its sender is the peer of an active entry (R19). -/
def calendarTakesNotice (sender : StationNo) (f : NoticeFields) (s : State) : State :=
  match entryOf s.num.own sender s.calendar.peers with
  | none => s
  | some j =>
    match s.calendar.peers[j]? with
    | none => s
    | some e =>
      let new := !e.heard || e.serial != some f.serial
      let updated := s.mapCalendar fun c => { c with peers := c.peers.set j (e.take f) }
      match s.calendar.state with
      | .inactive => updated
      | .active =>
        activeAfterNotice j sender (e.take f).claimed (heldSet s.num.own s.calendar.peers) new updated
      | .releasing => if new then queueNotice updated else updated

/-! ## The calendar at a cycle boundary (R21, R30) -/

/-- The notice countdown expires (R30). -/
def countdownExpires (s : State) : State :=
  let claimed := if s.calendar.state = .active ∧ hasEmpty s.calendar.claims then runClaiming s else s
  queueNotice claimed

/-- The notice countdown at a cycle boundary (R30). -/
def countdownBoundary (s : State) : State :=
  if s.calendar.state = .inactive then s
  else
    match s.calendar.countdown with
    | none => s
    | some k =>
      if k ≤ 1 then countdownExpires (s.mapCalendar fun c => { c with countdown := some 0 })
      else s.mapCalendar fun c => { c with countdown := some (k - 1) }

/-- The calendar at a cycle boundary: ages and lapses first, then the countdown (R21, R27, R30). -/
def calendarBoundary (s : State) : State :=
  countdownBoundary (s.mapCalendar fun c => { c with peers := c.peers.map PeerEntry.boundary })

/-- The calendar at a RESTART station scope, the station having left RUNNING (R40). -/
def Calendar.restart (c : Calendar) : Calendar :=
  { state := .inactive, claims := emptied c.claims, peers := [], countdown := none, releases := 0 }

end Sys2Proof.Machine
end

