-- ==== Sys2Proof/Machine/Tracker.lean ====
section
/-! DEFINITION. The layer tracker: the own update (07) and peer reports (08). -/

namespace Sys2Proof.Machine

/-! ## Tracks (R114..R117) -/

/-- The hits of a track: the hits of its history (R115). -/
def Track.hits (t : Track) : Nat := t.history.countP (· == .hit)

/-- The tolerance of a track (R117). -/
def Track.tol (mMin : Nat) (t : Track) : Nat := max mMin (t.base / 16)

/-- The magnitude of the difference of two heights. -/
def distance (x y : Nat) : Nat := max x y - min x y

/-- A height lies within a track's tolerance (R117). -/
def Track.within (mMin height : Nat) (t : Track) : Bool := decide (distance height t.base ≤ t.tol mMin)

/-- An outcome is appended at the newest end; the list holds at most 16 (R115). -/
def appendOutcome (o : HistoryMark) (h : List HistoryMark) : List HistoryMark := (o :: h).take Config.maxHistory

/-- The smoothed base (R122). -/
def smooth (old new : Nat) : Nat := (3 * old + new + 2) / 4

/-- The first id from `id` on, counting 255 on to 0, that no track holds; `n` more may be tried (R116). -/
def freeIdFrom (tracks : List Track) : Nat → Byte → Byte
  | 0, id => id
  | n + 1, id => if tracks.any (fun t => t.id == id) then freeIdFrom tracks n (id + 1) else id

/-- The id of the next track created (R116). -/
def Tracker.freeId (k : Tracker) : Byte := freeIdFrom k.tracks (k.tracks.length + 1) k.nextId

/-! ## Matching (R121) -/

/-- A pair of a candidate and a track, by their places, with the keys of its order (R121). -/
structure Pair where
  candidate : Nat
  track : Nat
  distance : Nat
  trackBase : Nat
  candidateBase : Nat
  deriving DecidableEq, Repr

/-- The order of the pairs: distance, then track base, then candidate base (R121). -/
def Pair.before (p q : Pair) : Bool :=
  decide (p.distance < q.distance ∨
    (p.distance = q.distance ∧
      (p.trackBase < q.trackBase ∨ (p.trackBase = q.trackBase ∧ p.candidateBase ≤ q.candidateBase))))

/-- Insert an element before the first that it comes before. -/
def insertBy {α : Type} (before : α → α → Bool) (x : α) : List α → List α
  | [] => [x]
  | y :: rest => if before x y then x :: y :: rest else y :: insertBy before x rest

/-- Sort a list. -/
def sortBy {α : Type} (before : α → α → Bool) (l : List α) : List α := l.foldr (insertBy before) []

/-- The elements of a list with their places, from `n` on. -/
def placed {α : Type} : Nat → List α → List (Nat × α)
  | _, [] => []
  | n, x :: rest => (n, x) :: placed (n + 1) rest

/-- Every pair of a candidate and a track within whose tolerance its base lies (R121, step 1). -/
def pairsOf (mMin : Nat) (candidates : List Candidate) (tracks : List Track) : List Pair :=
  (placed 0 candidates).flatMap fun c =>
    (placed 0 tracks).filterMap fun t =>
      if t.2.within mMin c.2.base then
        some ⟨c.1, t.1, distance c.2.base t.2.base, t.2.base, c.2.base⟩
      else none

/-- The pairs taken, in order: those whose candidate and track are both still unused (R121, step 3). -/
def takePairs : List Pair → List Pair → List Pair
  | taken, [] => taken
  | taken, p :: rest =>
    if taken.any (fun q => q.candidate == p.candidate || q.track == p.track) then takePairs taken rest
    else takePairs (taken ++ [p]) rest

/-- The matches of an own update (R121). -/
def matchesOf (mMin : Nat) (candidates : List Candidate) (tracks : List Track) : List Pair :=
  takePairs [] (sortBy Pair.before (pairsOf mMin candidates tracks))

/-- The candidate that matched the track at a place. -/
def matchOf (ms : List Pair) (candidates : List Candidate) (place : Nat) : Option Candidate :=
  match ms.find? (fun p => p.track == place) with
  | some p => candidates[p.candidate]?
  | none => none

/-! ## Outcomes (R122..R126) -/

/-- An own-origin track takes a hit (R122). -/
def Track.hit (c : Candidate) (t : Track) : Track :=
  { t with
    history := appendOutcome .hit t.history
    base := smooth t.base c.base
    top := c.top
    peak := some c.peakI
    age := 0
    unseen := 0 }

/-- A peer-only track is confirmed and becomes own-origin (R123). -/
def Track.promote (c : Candidate) (t : Track) : Track :=
  { t with
    origin := .own
    history := [.hit]
    base := smooth t.base c.base
    top := c.top
    peak := some c.peakI
    age := 0
    unseen := 0
    lapse := none }

/-- Step 4 for a matched track (R122, R123, R124). -/
def Track.matched (c : Candidate) (t : Track) : Track :=
  if c.suspect then t
  else
    match t.origin with
    | .own => t.hit c
    | .peerOnly => t.promote c

/-- Step 5 for an unmatched own-origin track: unseen above the reach, missed at or below it (R125). -/
def Track.missed (reach : Nat) (t : Track) : Track :=
  if t.base > reach then { t with unseen := t.unseen + 1 }
  else { t with history := appendOutcome .miss t.history, age := t.age + 1 }

/-- The age or the unseen count removes the track (R125). -/
def Track.outlived (t : Track) : Bool := decide (t.age ≥ 8 ∨ t.unseen ≥ 16)

/-- Step 6 for an unmatched peer-only track: one off its peer lapse, and removed at 0 (R126). -/
def Track.lapsed (t : Track) : Option Track :=
  match t.lapse with
  | some k => if k ≤ 1 then none else some { t with lapse := some (k - 1) }
  | none => some t

/-- Steps 4, 5 and 6 for one track and the candidate that matched it. -/
def Track.judge (reach : Nat) (c : Option Candidate) (t : Track) : Option Track :=
  match c with
  | some c => some (t.matched c)
  | none =>
    match t.origin with
    | .own => if (t.missed reach).outlived then none else some (t.missed reach)
    | .peerOnly => t.lapsed

/-- Steps 3 to 6 over the table (R121..R126). -/
def judgeTracks (mMin reach : Nat) (candidates : List Candidate) (tracks : List Track) : List Track :=
  (placed 0 tracks).filterMap fun p => p.2.judge reach (matchOf (matchesOf mMin candidates tracks) candidates p.1)

/-- The candidates that no track matched and whose suspect mark is clear (R127). -/
def freshCandidates (mMin : Nat) (candidates : List Candidate) (tracks : List Track) : List Candidate :=
  (placed 0 candidates).filterMap fun c =>
    if (matchesOf mMin candidates tracks).any (fun p => p.candidate == c.1) || c.2.suspect then none else some c.2

/-! ## New tracks and displacement (R127, R128) -/

/-- A new own-origin track (R127). -/
def newTrack (id : Byte) (c : Candidate) : Track where
  id := id
  origin := .own
  base := c.base
  top := c.top
  peak := some c.peakI
  history := [.hit]
  age := 0
  unseen := 0
  peers := 0
  lapse := none

/-- `t` is chosen as the victim before `u`: peer-only, fewest hits, highest base, lower id (R128). -/
def Track.victimBefore (t u : Track) : Bool :=
  let rank (x : Track) : Nat := match x.origin with
    | .peerOnly => 0
    | .own => 1
  decide (rank t < rank u ∨ (rank t = rank u ∧ (t.hits < u.hits ∨ (t.hits = u.hits ∧
    (u.base < t.base ∨ (t.base = u.base ∧ t.id.toNat ≤ u.id.toNat))))))

/-- The victim of a displacement (R128). -/
def victimOf (tracks : List Track) : Option Track := (sortBy Track.victimBefore tracks).head?

/-- A new track is added under the next id (R116, R127). -/
def Tracker.addTrack (c : Candidate) (k : Tracker) : Tracker :=
  { k with tracks := k.tracks ++ [newTrack k.freeId c], nextId := k.freeId + 1 }

/-- A new track is due: it is added, displaces a victim, or is dropped with the overflow flag set (R127, R128). -/
def Tracker.takeFresh (k : Tracker) (c : Candidate) : Tracker :=
  if k.tracks.length < Config.maxTracks then k.addTrack c
  else
    match victimOf k.tracks with
    | none => { k with overflow := true }
    | some v =>
      if v.origin = .peerOnly ∨ v.hits < 2 then
        ({ k with tracks := k.tracks.erase v }).addTrack c
      else { k with overflow := true }

/-! ## Ordering and merging (R129, R130) -/

/-- The order of the table: base, then id (R129). -/
def Track.below (t u : Track) : Bool := decide (t.base < u.base ∨ (t.base = u.base ∧ t.id.toNat ≤ u.id.toNat))

/-- Two histories combined, newest outcomes aligned (R130). -/
def combineHistory : List HistoryMark → List HistoryMark → List HistoryMark
  | [], h => h
  | h, [] => h
  | x :: xs, y :: ys => (if x = .hit ∨ y = .hit then .hit else .miss) :: combineHistory xs ys

/-- The greater of two optional lapses. -/
def laterLapse : Option Nat → Option Nat → Option Nat
  | some x, some y => some (max x y)
  | none, y => y
  | x, none => x

/-- A merge seen from the survivor `t` and the removed track `u` (R130). -/
def Track.absorb (u t : Track) : Track :=
  { t with
    history := combineHistory t.history u.history
    peers := t.peers ||| u.peers
    age := if t.origin = .own ∧ u.origin = .own then min t.age u.age else if t.origin = .own then t.age else 0
    unseen :=
      if t.origin = .own ∧ u.origin = .own then min t.unseen u.unseen else if t.origin = .own then t.unseen else 0
    lapse := if t.origin = .own then none else laterLapse t.lapse u.lapse }

/-- The survivor of a merge: more hits, then lower base, then lower id (R130). -/
def Track.survives (t u : Track) : Bool :=
  decide (u.hits < t.hits ∨ (u.hits = t.hits ∧ (t.base < u.base ∨ (t.base = u.base ∧ t.id.toNat ≤ u.id.toNat))))

/-- Two tracks merged (R130). -/
def mergeTracks (t u : Track) : Track := if t.survives u then u.absorb t else t.absorb u

/-- The first adjacent pair within the lower track's tolerance merged, from the lowest pair upward (R129). -/
def mergeFirst (mMin : Nat) : List Track → Option (List Track)
  | [] => none
  | [_] => none
  | t :: u :: rest =>
    if u.base - t.base ≤ t.tol mMin then some (mergeTracks t u :: rest)
    else (mergeFirst mMin (u :: rest)).map (t :: ·)

/-- Merge until no adjacent pair lies within the lower track's tolerance; each merge removes a track (R129). -/
def mergeAll (mMin : Nat) : Nat → List Track → List Track
  | 0, tracks => tracks
  | n + 1, tracks =>
    match mergeFirst mMin tracks with
    | some merged => mergeAll mMin n merged
    | none => tracks

/-- The ordering pass (R129). -/
def orderingPass (mMin : Nat) (tracks : List Track) : List Track :=
  mergeAll mMin tracks.length (sortBy Track.below tracks)

/-! ## Cover and ceiling (R131, R132) -/

/-- The cover of a track in oktas (R131). -/
def Track.cover (t : Track) : Nat :=
  if t.history.length = 0 then 0 else (t.hits * 16 + t.history.length) / (2 * t.history.length)

/-- The ceiling: the base of the lowest own-origin track with a cover of 5 oktas or more (R132). -/
def ceilingOf (tracks : List Track) : Option Nat :=
  (tracks.find? (fun t => t.origin == .own && decide (t.cover ≥ 5))).map Track.base

/-! ## The own update (R118..R120) -/

/-- Steps 1 to 9 of the own update: the table, the last reach height, the counter, overflow flag and ceiling. -/
def Tracker.ownUpdate (mMin : Nat) (r : ResultRecord) (k : Tracker) : Tracker :=
  let updated :=
    if r.thin then
      { k with tracks := k.tracks.filterMap fun t => match t.origin with
          | .own => some t
          | .peerOnly => t.lapsed }
    else
      let reach := r.reach.getD 0
      let judged := { k with reach := r.reach, tracks := judgeTracks mMin reach r.candidates k.tracks }
      let added := (freshCandidates mMin r.candidates k.tracks).foldl Tracker.takeFresh judged
      { added with tracks := orderingPass mMin added.tracks }
  { updated with ceiling := ceilingOf updated.tracks }

/-- One layer of the REPORT (R133). -/
def layerOf (t : Track) : LayerFields where
  id := t.id
  base := BitVec.ofNat 16 t.base
  top := heightWord t.top
  cover := BitVec.ofNat 4 t.cover
  peerOnly := t.origin == .peerOnly
  spare := 0
  peers := BitVec.ofNat 8 (setCard t.peers)

/-- The REPORT of an own update (R133). -/
def composeReport (r : ResultRecord) (k : Tracker) (halted : Bool) : ReportFields where
  seq := r.seq
  flags :=
    { thin := r.thin, obscured := r.obscured, fullyObscured := r.fullyObscured, slip := r.slip, more := r.more,
      saturated := r.saturated, overflow := k.overflow, halted := halted }
  visibility := heightWord r.visibility
  ceiling := heightWord k.ceiling
  reach := heightWord r.reach
  layers := k.tracks.map layerOf

/-- What follows the queuing of a REPORT: peer sets emptied, overflow flag cleared (R134). -/
def Tracker.afterReport (k : Tracker) : Tracker :=
  { k with tracks := k.tracks.map (fun t => { t with peers := 0 }), overflow := false }

/-- The own update at reduction complete, and its REPORT if the station is live (R118, R133, R134). -/
def ownUpdate (r : ResultRecord) (s : State) : State :=
  let updated := s.mapTracker (Tracker.ownUpdate (s.cfgNat StationConfig.mMin) r)
  if s.live then
    (updated.mapLine (Line.queueReport
      (composeReport r updated.tracker (s.loader.station == .haltedDuplicate)))).mapTracker Tracker.afterReport
  else updated

/-! ## Peer reports (R138..R146) -/

/-- The layer is usable (R139). -/
def LayerFields.usable (l : LayerFields) : Bool :=
  !l.peerOnly
    && decide (3 ≤ l.base.toNat ∧ l.base.toNat ≤ 11995)
    && decide (l.top.toNat = 65535 ∨ (3 ≤ l.top.toNat ∧ l.top.toNat ≤ 11995 ∧ l.base.toNat ≤ l.top.toNat))
    && decide (l.cover.toNat ≤ 8)

/-- The height a line word gives, absent for 0xFFFF. -/
def heightOf (w : BitVec 16) : Option Nat := if w.toNat = 65535 then none else some w.toNat

/-- A peer report under way: the tracks with whether this report has matched them, the id counter, and whether a base
was smoothed or a track adopted (R140, R145). -/
structure PeerPass where
  tracks : List (Track × Bool)
  nextId : Byte
  changed : Bool
  deriving DecidableEq, Repr

/-- The place of `t` before `u` for a layer's base: nearer, then the lower base (R140). -/
def nearerThan (base : Nat) (t u : Nat × Track × Bool) : Bool :=
  decide (distance base t.2.1.base < distance base u.2.1.base ∨
    (distance base t.2.1.base = distance base u.2.1.base ∧ t.2.1.base ≤ u.2.1.base))

/-- The nearest track within its tolerance, with its place (R140). -/
def nearestTrack (mMin base : Nat) (tracks : List (Track × Bool)) : Option (Nat × Track × Bool) :=
  (sortBy (nearerThan base) ((placed 0 tracks).filter (fun t => t.2.1.within mMin base))).head?

/-- A track that a peer layer matches (R141, R142). -/
def Track.confirmedBy (sender : StationNo) (base : Nat) (t : Track) : Track :=
  match t.origin with
  | .own => { t with peers := setInsert sender.val t.peers }
  | .peerOnly =>
    { t with peers := setInsert sender.val t.peers, base := smooth t.base base, lapse := some 3 }

/-- A peer-only track adopted from a peer layer (R143). -/
def adoptedTrack (id : Byte) (sender : StationNo) (l : LayerFields) : Track where
  id := id
  origin := .peerOnly
  base := l.base.toNat
  top := heightOf l.top
  peak := none
  history := []
  age := 0
  unseen := 0
  peers := setInsert sender.val 0
  lapse := some 3

/-- The layer lies above the last reach height; an absent one stands below every height (R120, R143). -/
def aboveReach (reach : Option Nat) (base : Nat) : Bool :=
  match reach with
  | some h => decide (base > h)
  | none => true

/-- One usable layer of a peer report (R140..R144). -/
def PeerPass.take (mMin : Nat) (reach : Option Nat) (sender : StationNo) (p : PeerPass) (l : LayerFields) : PeerPass :=
  match nearestTrack mMin l.base.toNat p.tracks with
  | some (place, t, already) =>
    if already then p
    else
      { p with
        tracks := p.tracks.set place (t.confirmedBy sender l.base.toNat, true)
        changed := p.changed || t.origin == .peerOnly }
  | none =>
    if aboveReach reach l.base.toNat ∧ 3 ≤ l.cover.toNat ∧ p.tracks.length < Config.maxTracks then
      let id := freeIdFrom (p.tracks.map Prod.fst) (p.tracks.length + 1) p.nextId
      { tracks := p.tracks ++ [(adoptedTrack id sender l, true)], nextId := id + 1, changed := true }
    else p

/-- The table after a peer report (R139..R145). -/
def Tracker.peerReport (mMin : Nat) (sender : StationNo) (layers : List LayerFields) (k : Tracker) : Tracker :=
  let pass := (layers.filter LayerFields.usable).foldl (PeerPass.take mMin k.reach sender)
    ⟨k.tracks.map (fun t => (t, false)), k.nextId, false⟩
  { k with
    tracks := if pass.changed then orderingPass mMin (pass.tracks.map Prod.fst) else pass.tracks.map Prod.fst
    nextId := pass.nextId }

/-- The tracker takes a REPORT as a peer report (R138). -/
def takesReport (sender : StationNo) (f : ReportFields) (s : State) : Bool :=
  (s.loader.station == .numbering || s.loader.station == .running || s.loader.station == .haltedDuplicate)
    && s.num.own != some sender && !f.flags.halted

/-- A REPORT at the layer tracker (R138). -/
def trackerTakesReport (sender : StationNo) (f : ReportFields) (s : State) : State :=
  if takesReport sender f s then
    s.mapTracker (Tracker.peerReport (s.cfgNat StationConfig.mMin) sender f.layers)
  else s

/-- The number the numbering unit takes leaves the peer set of every track (R146). -/
def Tracker.forget (n : StationNo) (k : Tracker) : Tracker :=
  { k with tracks := k.tracks.map (fun t => { t with peers := setErase n.val t.peers }) }

/-- RESTART tracking scope at the tracker: the id counter is kept (R136). -/
def Tracker.restartTracking (k : Tracker) : Tracker :=
  { tracks := [], reach := none, nextId := k.nextId, overflow := false, ceiling := none }

end Sys2Proof.Machine
end

