-- ==== Sys2Proof/Machine/Numbering.lean ====
section
/-! DEFINITION. The station state and the numbering unit (10 sections 10.2 to 10.4): entering and leaving RUNNING, the
roll call, duplicates. -/

namespace Sys2Proof.Machine

/-! ## The station state (R165) -/

/-- Set the station state. -/
def setStation (st : StationState) (s : State) : State := s.mapLoader fun l => { l with station := st }

/-- The station enters RUNNING: the calendar (R24), the driver (R42) and the banks (R75) act on it. -/
def enterRunning (s : State) : State :=
  banksEnterLive (driverEntersRunning (calendarEntersRunning (setStation .running s)))

/-- The calendar and the driver as the station leaves RUNNING (R24, R42). -/
def leaveRunning (s : State) : State :=
  if s.running then (calendarLeavesRunning s).mapLaser Laser.leaveRunning else s

/-- An auto-numbered station passes from RUNNING to NUMBERING: it is no longer live, so the ACCEPTING bank closes
(R72, R165). -/
def leaveForNumbering (s : State) : State :=
  if s.running then banksLeaveLive (setStation .numbering (leaveRunning s)) else s

/-- The station enters HALTED-DUPLICATE; from RUNNING it stays live (R72), from a state that is not live a bank opens
(R75). -/
def enterHalted (s : State) : State :=
  if s.live then setStation .haltedDuplicate (leaveRunning s)
  else banksEnterLive (setStation .haltedDuplicate s)

/-! ## The own number (R7, R18, R146) -/

/-- The numbering unit takes, gives up or changes its number: the crossing peer entry of a number taken becomes
inactive (R18), a number taken leaves every peer set (R146), and the reference is recomputed (R7). -/
def setOwnNumber (own : Option StationNo) (s : State) : State :=
  let numbered := s.mapNum fun u => { u with own := own }
  let silenced := numbered.mapCalendar fun c =>
    { c with peers := c.peers.map (fun e => if e.active own then e else e.silence) }
  let forgotten := match own with
    | some n => silenced.mapTracker (Tracker.forget n)
    | none => silenced
  recomputeReference forgotten

/-! ## The roll call (R166..R168) -/

/-- LISTEN entered afresh (R166). -/
def Numbering.enterListen (u : Numbering) : Numbering :=
  { u with state := .listen, taken := 0, wanted := none, listen := some Config.listenPeriod, holdOff := none }

/-- The lowest number not in the taken set (R167). -/
def lowestFree (taken : StationSet) : Option StationNo := allStations.find? (fun n => !taken.getLsbD n.val)

/-- The unit chooses a number and queues a CLAIM, or returns to LISTEN if every number is taken (R167). -/
def choose (s : State) : State :=
  match lowestFree s.num.taken with
  | some w =>
    (s.mapNum fun u => { u with state := .claiming, wanted := some w, listen := none, holdOff := none }).mapLine
      (Line.queueClaim w)
  | none => s.mapNum Numbering.enterListen

/-- A sender number joins the taken set (R166). -/
def joinTaken (n : StationNo) (s : State) : State := s.mapNum fun u => { u with taken := setInsert n.val u.taken }

/-- The hold-off ends: the unit is NUMBERED with the wanted number; a NUMBERING station enters RUNNING (R165, R168). -/
def holdOffEnds (s : State) : State :=
  let ended := s.mapNum fun u => { u with holdOff := none }
  match s.num.wanted with
  | none => ended
  | some w =>
    let numbered := setOwnNumber (some w) (ended.mapNum fun u => { u with state := .numbered })
    if s.loader.station = .numbering then enterRunning numbered else numbered

/-- The listen and hold-off countdowns at a cycle boundary (R166, R168). -/
def numberingBoundary (s : State) : State :=
  match s.num.listen with
  | some k => if k ≤ 1 then choose s else s.mapNum fun u => { u with listen := some (k - 1) }
  | none =>
    match s.num.holdOff with
    | some k => if k ≤ 1 then holdOffEnds s else s.mapNum fun u => { u with holdOff := some (k - 1) }
    | none => s

/-! ## Duplicates (R170) -/

/-- The unit queues a CLAIM for a number (R167, R168, R170). -/
def sendClaim (n : StationNo) (s : State) : State := s.mapLine (Line.queueClaim n)

/-- A NUMBERED unit yields its number `n` (R170). -/
def yieldNumber (n : StationNo) (s : State) : State :=
  if s.num.mode = .auto ∨ s.loader.station = .unconfigured then
    leaveForNumbering ((setOwnNumber none (s.mapNum fun u =>
      { u with
        state := .claiming
        taken := setInsert n.val 0
        wanted := none
        listen := some Config.listenPeriod
        holdOff := none })).mapLine Line.withdrawClaim)
  else if s.loader.station = .loading then s.mapNum fun u => { u with yieldMark := true }
  else if s.loader.station = .haltedDuplicate then s
  else enterHalted s

/-- The numbering unit takes a NOTICE or CLAIM (with its serial) or a REPORT (without one) of number `n` (R166, R167,
R168, R170). Equal serials change nothing (log 19). -/
def numberingTakes (n : StationNo) (serial : Option Serial) (s : State) : State :=
  match s.num.state with
  | .listen => joinTaken n s
  | .claiming =>
    if s.num.wanted = some n then
      match s.num.holdOff with
      | none => choose (joinTaken n s)
      | some _ =>
        match serial with
        | none => choose (joinTaken n s)
        | some x =>
          if x < s.num.serial then choose (joinTaken n s)
          else if s.num.serial < x then sendClaim n s
          else s
    else joinTaken n s
  | .numbered =>
    match serial with
    | none => s
    | some x =>
      if s.num.own = some n then
        if s.num.serial < x then sendClaim n s
        else if x < s.num.serial then yieldNumber n s
        else s
      else s

/-! ## Own CLAIM frames transmitted or dropped (R167, R168, R170) -/

/-- The unit is told of a transmitted CLAIM for `n` (R167, R168, R170). -/
def claimTransmitted (n : StationNo) (s : State) : State :=
  if s.num.state = .claiming ∧ s.num.wanted = some n ∧ s.num.holdOff = none then
    s.mapNum fun u => { u with holdOff := some Config.holdOffPeriod }
  else s

/-- The unit is told of its CLAIM for `n` dropped after 8 collision errors: in CLAIMING it queues the CLAIM for the
current wanted number again (R167, R168), and NUMBERED it defends again the number `n` while it holds it (R170). A CLAIM
queued by a keep in the hold-off, and dropped once the unit is NUMBERED, is queued again like a defence (DESIGN CHOICE,
log 36). -/
def claimDropped (n : StationNo) (s : State) : State :=
  match s.num.state with
  | .listen => s
  | .claiming =>
    match s.num.wanted with
    | some w => sendClaim w s
    | none => s
  | .numbered => if s.num.own = some n then sendClaim n s else s

/-- The numbering unit at a RESTART station scope: a fixed number is kept, an auto number given up by the caller (R169,
R171). -/
def Numbering.restart (u : Numbering) : Numbering :=
  { u with
    state := match u.mode with
      | .fixed => .numbered
      | .auto => .listen
    taken := 0
    wanted := none
    listen := none
    holdOff := none
    yieldMark := false }

end Sys2Proof.Machine
end

