-- ==== Sys2Proof/Machine/Loader.lean ====
section
/-! DEFINITION. The start-up loader (10 section 10.1): the configuration record, its clamping and load complete. -/

namespace Sys2Proof.Machine

/-- The 64 bytes read: a byte the memory does not give reads as 0xFF (R163). -/
def recordBytes (record : List Byte) : List Byte := (record ++ List.replicate 64 0xFF#8).take 64

/-- The record is valid: its magic and its CRC are right (R163). -/
def recordValid (r : List Byte) : Bool :=
  field r 0 2 == 0x5A3C && BitVec.ofNat 16 (field r 62 2) == crc16 (bytesBits (r.take 62))

/-- A value clamped to a range, with whether it changed (R164). -/
def clamp (lo hi v : Nat) : Nat × Bool := if v < lo then (lo, true) else if v > hi then (hi, true) else (v, false)

/-- S as the loader judges it (R164). -/
def clampShots (v : Nat) : Nat × Bool :=
  if v = 0 then (1, true)
  else if v = 1 ∨ v = 2 ∨ v = 4 ∨ v = 8 then (v, false)
  else if v > 8 then (8, true)
  else if v = 3 then (2, true)
  else (4, true)

/-- The number mode and the fixed number of a record (R164). -/
def numberByte (v : Nat) : NumberMode × StationNo × Bool :=
  if v ≥ 128 then (.auto, 0, false)
  else if h : v < 16 then (.fixed, ⟨v, h⟩, false)
  else (.fixed, 15, true)

/-- A crossing peer table entry as it is built: not heard, with empty sets and no serial (R18). -/
def builtEntry (peer : StationNo) (lo hi : Nat) : PeerEntry := ⟨peer, lo, hi, none, 0, 0, none⟩

/-- The crossing entries of a record, the `n` from entry `j` on, judged in order onto those accepted before them
(R164); the second part says whether one was changed or ignored. -/
def crossingEntries (r : List Byte) : Nat → Nat → List PeerEntry × Bool → List PeerEntry × Bool
  | 0, _, acc => acc
  | n + 1, j, acc =>
    let peer := field r (22 + 5 * j) 1
    let lo := clamp 0 799 (field r (23 + 5 * j) 2)
    let hi := clamp 0 799 (field r (25 + 5 * j) 2)
    let flagged := acc.2 || lo.2 || hi.2
    if h : peer < 16 then
      if lo.1 > hi.1 ∨ acc.1.any (fun e => e.peer == ⟨peer, h⟩) then crossingEntries r n (j + 1) (acc.1, true)
      else crossingEntries r n (j + 1) (acc.1 ++ [builtEntry ⟨peer, h⟩ lo.1 hi.1], flagged)
    else crossingEntries r n (j + 1) (acc.1, true)

/-- What the loader takes from a valid record: the configuration, the crossing peer table and the clamped flag
(R164). -/
structure Loaded where
  cfg : StationConfig
  peers : List PeerEntry
  clamped : Bool
  deriving DecidableEq, Repr

/-- The fields of a valid record, clamped, and its crossing entries (R164). -/
def loadRecord (r : List Byte) : Loaded :=
  let number := numberByte (field r 2 1)
  let elevation := clamp 0 4000 (field r 3 2)
  let tilt := clamp 512 1024 (field r 5 2)
  let shots := clampShots (field r 7 1)
  let exponent := clamp 6 12 (field r 8 1)
  let period := clamp 2 60 (field r 9 1)
  let level := clamp 8 15 (field r 10 1)
  let limit := clamp 1 1000000 (field r 11 4)
  let overlap := clamp 5 40 (field r 15 1)
  let tMin := clamp 1 4194303 (field r 16 4)
  let mMin := clamp 30 200 (field r 20 1)
  let count := clamp 0 8 (field r 21 1)
  let crossing := crossingEntries r count.1 0 ([], false)
  { cfg :=
      { mode := number.1, fixedNo := number.2.1, elevation := elevation.1, tilt := tilt.1, shots := shots.1,
        exponent := exponent.1, period := period.1, level := level.1, limit := limit.1, overlap := overlap.1,
        tMin := tMin.1, mMin := mMin.1 }
    peers := crossing.1
    clamped := number.2.2 || elevation.2 || tilt.2 || shots.2 || exponent.2 || period.2 || level.2 || limit.2
      || overlap.2 || tMin.2 || mMin.2 || count.2 || crossing.2 }

/-- Load complete with an invalid record (R163, R165, R169). -/
def loadInvalid (s : State) : State :=
  let loaded := (recomputeTarget (s.mapLoader fun _ =>
      { station := .unconfigured, cfg := none, valid := false, clamped := false })).mapExpo
        fun e => { e with limit := 0 }
  let cleared := loaded.mapCalendar (Calendar.configure 0 [])
  setOwnNumber none (cleared.mapNum fun u => { u.enterListen with mode := .auto, yieldMark := false })

/-- The values of a valid record go to the blocks that use them (R18, R23, R43, R61, R163). -/
def takeRecord (r : Loaded) (s : State) : State :=
  ((recomputeTarget (s.mapLoader fun l => { l with cfg := some r.cfg, valid := true, clamped := r.clamped })).mapExpo
    fun e => { e with limit := r.cfg.limit }).mapCalendar (Calendar.configure r.cfg.shots r.peers)

/-- Load complete with a valid record in auto mode (R165, R169). -/
def loadAuto (s : State) : State :=
  setStation .numbering
    (setOwnNumber none (s.mapNum fun u => { u.enterListen with mode := .auto, yieldMark := false }))

/-- Load complete with a valid record in fixed mode naming `n` (R165, R169, R170). -/
def loadFixed (n : StationNo) (s : State) : State :=
  let numbered := setOwnNumber (some n) (s.mapNum fun u =>
    { u with state := .numbered, mode := .fixed, yieldMark := false, listen := none, holdOff := none })
  if s.num.yieldMark ∧ s.num.own = some n then enterHalted numbered else enterRunning numbered

/-- Load complete (R163, R165, R169). -/
def loadDone (record : List Byte) (s : State) : State :=
  let r := recordBytes record
  if recordValid r then
    let loaded := loadRecord r
    let taken := takeRecord loaded s
    match loaded.cfg.mode with
    | .auto => loadAuto taken
    | .fixed => loadFixed loaded.cfg.fixedNo taken
  else loadInvalid s

end Sys2Proof.Machine
end

