-- ==== Sys2Proof/Machine/Timer.lean ====
section
/-! DEFINITION. The cycle timer's events (01): the slot start with its shot decision, the cycle boundary through every
block, the measurement, the step and the slip. -/

namespace Sys2Proof.Machine

/-! ## Adjustments (R4) -/

/-- The next adjustment fixed from the slew remaining at the start of slot 31 (R4). -/
def Timer.fixNext (t : Timer) : Timer :=
  if t.slew > 0 then { t with nextAdj := -1, slew := t.slew - 1 }
  else if t.slew < 0 then { t with nextAdj := 1, slew := t.slew + 1 }
  else { t with nextAdj := 0 }

/-! ## The shot decision (R48, R49) -/

/-- The firing calendar holds the slot as own-settled (R23). -/
def ownSettled (slot : Slot) (claims : List (Option Claim)) : Bool :=
  claims.any (fun c => match c with
    | some e => e.slot == slot && e.state == .settled
    | none => false)

/-- Test 4 of the shot decision fails: no bank is ACCEPTING, or m plus the in-flight count equals N (R48, R76). -/
def noBank (s : State) : Bool :=
  match s.banks.accepting with
  | none => true
  | some i => (s.banks.get i).m + (s.banks.get i).inFlight == s.profileShots

/-- The first test of the shot decision that fails (R48). -/
def withholdReason (s : State) : Option Reason :=
  if s.laser.driver = .fault then some .fault
  else if s.req.quiet > 0 then some .quiet
  else if s.timer.suppress > 0 then some .suppressed
  else if noBank s then some .noBank
  else if s.laser.band = .inhibit then some .supplyInhibit
  else if s.laser.driver ≠ .charged then some .notCharged
  else if s.expo.overBudget then some .budget
  else none

/-- The laser is triggered into the ACCEPTING bank (R49, R63). -/
def trigger (s : State) : State :=
  match s.banks.accepting with
  | none => s
  | some i =>
    openWindow i (s.mapLaser fun l => { l with driver := .fired, level := none, shotsFired := bump l.shotsFired })

/-- The shot decision at the start of an own-settled slot (R48). -/
def shotDecision (s : State) : State :=
  match withholdReason s with
  | some r => s.mapLaser fun l => { l with withheld := l.withheld.count r }
  | none => trigger s

/-- A slot start is raised (R2): the shot decision at an own-settled slot, the next adjustment at slot 31. -/
def raiseSlotStart (slot : Slot) (s : State) : State :=
  let decided := if ownSettled slot s.calendar.claims then shotDecision s else s
  if slot = 31 then decided.mapTimer Timer.fixNext else decided

/-! ## The cycle boundary (R3) -/

/-- A heard-table entry lapses at this boundary (R6). -/
def heardLapses (e : Option Nat) : Bool :=
  match e with
  | some k => decide (k + 1 ≥ Config.lapseAge)
  | none => false

/-- A heard-table entry at a cycle boundary (R6). -/
def ageHeard (e : Option Nat) : Option Nat :=
  match e with
  | some k => if k + 1 ≥ Config.lapseAge then none else some (k + 1)
  | none => none

/-- Steps 1 to 4 of the boundary at the timer (R3). -/
def timerBoundary (s : State) : State :=
  let counted := s.mapTimer fun t =>
    { t with
      cycles := bump t.cycles
      prevAdj := t.curAdj
      curAdj := t.nextAdj
      nextAdj := 0
      suppress := t.suppress - 1
      heard := t.heard.map ageHeard }
  if s.timer.heard.any heardLapses then recomputeReference counted else counted

/-- The quiet countdown at a cycle boundary (R174). -/
def Request.boundary (r : Request) : Request := { r with quiet := r.quiet - 1 }

/-- The cycle boundary: the timer's steps, then the other blocks (R3). The numbering unit comes after the calendar, the
driver and the banks, so that what an entry into RUNNING starts is not decremented by this boundary (R47, R70; log 5). -/
def cycleBoundary (s : State) : State :=
  (numberingBoundary (banksBoundary (calendarBoundary
    (((timerBoundary s).mapLaser Laser.boundary).mapExpo Exposure.rotate)))).mapReq Request.boundary

/-! ## Hearing and measuring a NOTICE (R6, R9, R10, R12, R13) -/

/-- The heard-table entry of the sender becomes present with age 0, and the reference is recomputed (R6, R7). -/
def hearNotice (n : StationNo) (s : State) : State :=
  recomputeReference (s.mapTimer fun t => { t with heard := t.heard.set n.val (some 0) })

/-- The offset d: the sender's number less the latched own number, taken into −4,000..3,999 (R9). -/
def offset (sender latched : Nat) : Int :=
  let d := ((sender : Int) - (latched : Int)) % 8000
  if d ≥ 4000 then d - 8000 else d

/-- A slip (R13). -/
def slip (s : State) : State := markSlip (s.mapTimer fun t => { t with suppress := 2, slips := bump t.slips })

/-- A step to the reference's position (R12): `sender` is the position read from the NOTICE as a number. Until time
raises the next slot start or boundary, one that was due before the step is no longer raised (R15). -/
def stepTimer (sender : Nat) (d : Int) (s : State) : State :=
  let moved := s.mapTimer fun t =>
    { t with
      pos := positionOf ((sender + Config.delimiterLength) % Config.cycleLength)
      held := false
      curAdj := 0
      nextAdj := 0
      slew := 0
      stepped := true }
  let bounded :=
    if d > 0 ∧ (positionNumber s.timer.pos : Int) + d ≥ 8000 then cycleBoundary moved else moved
  slip bounded

/-- The timer measures a NOTICE of the reference against the position latched for it (R8, R9, R10, R12). -/
def measure (n : StationNo) (f : NoticeFields) (s : State) : State :=
  if s.timer.ref = some n ∧ s.num.own ≠ some n ∧ f.slot.toNat ≤ 31 ∧ f.phase.toNat ≤ 249 then
    let sender := Config.slotLength * f.slot.toNat + f.phase.toNat
    let d := offset sender (positionNumber s.line.latched)
    if d.natAbs ≤ Config.stepThreshold then s.mapTimer fun t => { t with slew := d }
    else stepTimer sender d s
  else s

/-- A NOTICE is dispatched to its blocks: the timer hears it, the calendar takes it, the timer measures it and may
step, the numbering unit takes it (R6, R9, R19, R35, R160, R170; log 7). -/
def takeNotice (n : StationNo) (f : NoticeFields) (s : State) : State :=
  numberingTakes n (some f.serial) (measure n f (calendarTakesNotice n f (hearNotice n s)))

/-! ## The advance of time (R1, R2, R3) -/

/-- Time has brought the position to phase 0 of a slot (R2). -/
def Timer.arrive (slot : Slot) (t : Timer) : Timer := { t with pos := ⟨slot, 0⟩, held := false, stepped := false }

/-- One microsecond of the cycle timer: the position advances, and a slot start or the cycle boundary with the slot
start of slot 0 is raised where it falls (R1, R2, R3). -/
def advance (s : State) : State :=
  let e := s.timer.elapsed + 1
  if e ≥ s.timer.cycleLength then
    raiseSlotStart 0 (cycleBoundary (s.mapTimer (Timer.arrive 0)))
  else
    let moved := s.mapTimer fun t =>
      { t with pos := positionAt e, held := decide (e ≥ Config.cycleLength) }
    if e < Config.cycleLength ∧ e % Config.slotLength = 0 then
      raiseSlotStart (positionAt e).slot (s.mapTimer (Timer.arrive (positionAt e).slot))
    else moved

end Sys2Proof.Machine
end

