-- ==== Sys2Proof/Machine/Requests.lean ====
section
/-! DEFINITION. The request handler (11): acceptance, the STATUS reply, quiet, and the scopes of RESTART. -/

namespace Sys2Proof.Machine

/-! ## The STATUS reply (R173; 09 section 9.6) -/

/-- Counter group 0: shots fired and the withheld counters. -/
def groupZero (l : Laser) : List Counter :=
  [l.shotsFired, l.withheld.fault, l.withheld.quiet, l.withheld.suppressed, l.withheld.noBank,
    l.withheld.supplyInhibit, l.withheld.notCharged, l.withheld.budget]

/-- Counter group 1: timer, calendar and sending. -/
def groupOne (s : State) : List Counter :=
  [s.timer.cycles, s.timer.slips, s.calendar.releases, s.line.counters.sent, s.line.counters.arbitrationLosses,
    s.line.counters.collisionErrors, s.line.counters.dropped, s.line.counters.superseded]

/-- Counter group 2: receiving. -/
def groupTwo (c : LineCounters) : List Counter :=
  [c.dispatched, c.discardCrc, c.discardLength, c.discardKind, c.discardSender, c.discardOwn]

/-- The asker byte of a STATUS. -/
def askerByte (asker : Sender) : Byte := BitVec.ofNat 8 asker.toNat

/-- A status item: the state bytes and the counters of a group. -/
def statusItem (asker : Sender) (item : Byte) (group : List Counter) (s : State) : List Byte :=
  [askerByte asker, item, stationCode s.loader.station, numberingByte s.num, driverByte s.laser, validityByte s.loader]
    ++ group.flatMap word32

/-- One track of the layer table item. -/
def trackBytes (t : Track) : List Byte :=
  [t.id] ++ word16 (BitVec.ofNat 16 t.base) ++ word16 (heightWord t.top)
    ++ [BitVec.ofNat 8 t.hits, BitVec.ofNat 8 t.history.length, trackStateByte t]

/-- The layer table item. -/
def tableItem (asker : Sender) (item : Byte) (tracks : List Track) : List Byte :=
  [askerByte asker, item, BitVec.ofNat 8 tracks.length] ++ tracks.flatMap trackBytes

/-- The payload of a STATUS for an item, from the state as it stands (R173); an item above 3 is never accepted. -/
def statusPayload (asker : Sender) (item : Byte) (s : State) : List Byte :=
  match item.toNat with
  | 0 => statusItem asker item (groupZero s.laser) s
  | 1 => tableItem asker item s.tracker.tracks
  | 2 => statusItem asker item (groupOne s) s
  | _ => statusItem asker item (groupTwo s.line.counters) s

/-- An accepted QUERY: the STATUS is composed and queued, and is the pending reply (R173). -/
def acceptQuery (asker : Sender) (item : Byte) (s : State) : State :=
  (s.mapLine (Line.queueStatus ⟨asker, item, statusPayload asker item s⟩)).mapReq
    fun r => { r with reply := some (asker, item) }

/-- The handler is told that a STATUS was transmitted or dropped; one queued since is still pending (R173; log 18). -/
def replyEnded (s : State) : State :=
  if s.line.set.status.isSome then s else s.mapReq fun r => { r with reply := none }

/-- An accepted QUIET (R174). -/
def acceptQuiet (seconds : Byte) (s : State) : State :=
  s.mapReq fun r => { r with quiet := seconds.toNat * Config.cyclesPerSecond }

/-! ## Acceptance (R172) -/

/-- The target names this station or all stations (R172). -/
def targetsUs (target : Byte) (s : State) : Bool := s.isOwnTarget target || target.toNat == 31

/-- A QUERY at the request handler (R172, R173). -/
def takeQuery (asker : Sender) (target item : Byte) (s : State) : State :=
  if targetsUs target s ∧ item.toNat ≤ 3 then acceptQuery asker item s else s

/-- A QUIET at the request handler (R172, R174). -/
def takeQuiet (target seconds : Byte) (s : State) : State :=
  if targetsUs target s then acceptQuiet seconds s else s

/-! ## RESTART (R175) -/

/-- RESTART tracking scope, by block (R77, R84, R136). -/
def restartTracking (s : State) : State := (reopenBanks (emptyBanks s)).mapTracker Tracker.restartTracking

/-- RESTART firing scope (R38). -/
def restartFiring (s : State) : State := calendarRestartFiring s

/-- The timer at station scope: the position, adjustments and suppression are kept (R17). -/
def Timer.restart (own : Option StationNo) (t : Timer) : Timer :=
  { t with
    slew := 0
    heard := List.replicate 16 none
    ref := referenceOf own (List.replicate 16 none)
    cycles := 0
    slips := 0 }

/-- The number kept at station scope: a fixed number is kept, an auto number given up (R169, R171). -/
def numberKept (u : Numbering) : Option StationNo :=
  match u.mode with
  | .fixed => u.own
  | .auto => none

/-- RESTART station scope, by block (R17, R40, R60, R61, R77, R78, R96, R136, R162, R163, R171, R175). -/
def restartStation (s : State) : State :=
  let own := numberKept s.num
  { emptyBanks s with
    timer := s.timer.restart own
    calendar := s.calendar.restart
    laser := s.laser.restart
    banks := Banks.reset
    tracker := Tracker.reset
    line := s.line.restart
    loader := { s.loader with station := .loading }
    num := { s.num.restart with own := own }
    req := Request.reset }

/-- A RESTART at the request handler: the first case of R172's table that applies decides. -/
def takeRestart (target scope : Byte) (s : State) : State :=
  if s.isOwnTarget target then
    match scope.toNat with
    | 0 => restartTracking s
    | 1 => if s.running then restartFiring s else s
    | 2 => restartStation s
    | _ => s
  else s

end Sys2Proof.Machine
end

