-- ==== Sys2Proof/Machine/InstrumentEvents.lean ====
section
/-! DEFINITION. The meanings of the events of the instrument interface and of the reduction unit. -/

namespace Sys2Proof.Machine

/-- CHARGE_DONE (R46). -/
def execChargeDone (s : State) : Host.Outcome State Fault Refusal := .next (chargeReport s)

/-- BAND_CHANGE (R43, R44). -/
def execBandChange (band : Band) (s : State) : Host.Outcome State Fault Refusal := .next (bandReport band s)

/-- ENERGY_READING (R51, R52, R54, R57). -/
def execEnergyReading (code : Byte) (s : State) : Host.Outcome State Fault Refusal := .next (takeReading code.toNat s)

/-- SHOT_WINDOW_END (R53). -/
def execShotWindowEnd (s : State) : Host.Outcome State Fault Refusal := .next (windowEnd s)

/-- RANGE_CAPTURE_COMPLETE (R63, R65). -/
def execRangeCaptureComplete (samples : List Sample) (s : State) : Host.Outcome State Fault Refusal :=
  .next (captureRest samples s)

/-- REDUCTION_COMPLETE (R81): the result goes to the tracker, the unit becomes IDLE, the bank EMPTY, and the handoff
follows. Without a reduction in progress there is none to complete (log 1). -/
def execReductionComplete (s : State) : Host.Outcome State Fault Refusal :=
  match s.red with
  | some r => .next (endReduction r.bank (ownUpdate r.result s))
  | none => .next s

end Sys2Proof.Machine
end

