-- ==== Sys2Proof/Machine/FrameEvents.lean ====
section
/-! DEFINITION. The meanings of the dispatched frames (R160), each after the receive checks its operands can still
fail (R158, R159; log 23). -/

namespace Sys2Proof.Machine

/-- A REPORT is dispatched to its blocks: the layer tracker and the numbering unit (R138, R160). -/
def takeReport (n : StationNo) (f : ReportFields) (s : State) : State :=
  numberingTakes n none (trackerTakesReport n f s)

/-- A frame is dispatched to the blocks that take its kind (R160); a STATUS acts on none. -/
def takeFrame (f : Frame) (s : State) : State :=
  match f with
  | .claim n serial =>
    match stationOf n with
    | some n => numberingTakes n (some serial) s
    | none => s
  | .notice n fields =>
    match stationOf n with
    | some n => takeNotice n fields s
    | none => s
  | .report n fields =>
    match stationOf n with
    | some n => takeReport n fields s
    | none => s
  | .query n target item => takeQuery n target item s
  | .status _ _ => s
  | .quiet _ target seconds => takeQuiet target seconds s
  | .restart _ target scope => takeRestart target scope s

/-- NOTICE (R6, R9, R19, R170). -/
def execNotice (sender : Sender) (serial : Serial) (body : NoticeBody) (s : State) : Host.Outcome State Fault Refusal :=
  match stationOf sender with
  | some n => .next (takeNotice n ⟨body, serial⟩ (dispatched s))
  | none => .next (discarded .sender (latch s))

/-- CLAIM (R166, R167, R168, R170). -/
def execClaim (sender : Sender) (serial : Serial) (s : State) : Host.Outcome State Fault Refusal :=
  match stationOf sender with
  | some n => .next (numberingTakes n (some serial) (dispatched s))
  | none => .next (discarded .sender (latch s))

/-- REPORT (R138..R145, R166..R168). -/
def execReport (sender : Sender) (fields : ReportFields) (s : State) : Host.Outcome State Fault Refusal :=
  if fields.layers.length > 5 then .next (discarded .length (latch s))
  else
    match stationOf sender with
    | some n => .next (takeReport n fields (dispatched s))
    | none => .next (discarded .sender (latch s))

/-- STATUS (R160): counted as dispatched, acting on no block. -/
def execStatus (sender : Sender) (payload : List Byte) (s : State) : Host.Outcome State Fault Refusal :=
  if statusLengthAgrees payload then
    if isStation sender then .next (dispatched s) else .next (discarded .sender (latch s))
  else .next (discarded .length (latch s))

/-- QUERY (R172, R173). -/
def execQuery (sender : Sender) (target item : Byte) (s : State) : Host.Outcome State Fault Refusal :=
  if isRecorder sender then .next (takeQuery sender target item (dispatched s)) else .next (discarded .sender (latch s))

/-- QUIET (R172, R174). -/
def execQuiet (sender : Sender) (target seconds : Byte) (s : State) : Host.Outcome State Fault Refusal :=
  if isRecorder sender then .next (takeQuiet target seconds (dispatched s)) else .next (discarded .sender (latch s))

/-- RESTART of tracking scope (R77, R84, R136, R172, R175). -/
def execRestartTracking (sender : Sender) (target : Byte) (s : State) : Host.Outcome State Fault Refusal :=
  if isRecorder sender then .next (takeRestart target 0 (dispatched s)) else .next (discarded .sender (latch s))

/-- RESTART of firing scope (R38, R172, R175). -/
def execRestartFiring (sender : Sender) (target : Byte) (s : State) : Host.Outcome State Fault Refusal :=
  if isRecorder sender then .next (takeRestart target 1 (dispatched s)) else .next (discarded .sender (latch s))

/-- RESTART of station scope (R163, R169, R171, R172, R175). -/
def execRestartStation (sender : Sender) (target : Byte) (s : State) : Host.Outcome State Fault Refusal :=
  if isRecorder sender then .next (takeRestart target 2 (dispatched s)) else .next (discarded .sender (latch s))

end Sys2Proof.Machine
end

