-- ==== Sys2Proof/Machine/LineEvents.lean ====
section
/-! DEFINITION. The meanings of the events of the line interface (R150, R153..R158). -/

namespace Sys2Proof.Machine

/-- The queuing block is told of a transmission (R157): the calendar, the numbering unit or the request handler. -/
def tellTransmitted (f : Sending) (recalled : SlotSet) (s : State) : State :=
  match f with
  | .claim n _ => claimTransmitted n s
  | .notice _ fields => noticeTransmitted fields recalled s
  | .report _ _ => s
  | .status _ _ => replyEnded s

/-- The queuing block is told of a drop (R157). -/
def tellDropped (f : Sending) (s : State) : State :=
  match f with
  | .claim n _ => claimDropped n s
  | .notice _ fields => noticeDropped fields s
  | .report _ _ => s
  | .status _ _ => replyEnded s

/-- The own attempt has gone onto the line to its end: transmitted, its readback discarded under "own", and its block
told (R157, R158; log 15). Without an attempt there is no such frame (log 1). -/
def ownFrameEnds (s : State) : State :=
  match s.line.attempt with
  | some a => tellTransmitted a.frame s.line.recalled ((latch s).mapLine Line.transmitted)
  | none => s

/-- A collision error of the attempt: the frame returns to the set, or is dropped at 8 and its block told, unless its
kind was withdrawn (R155, R156, R157; log 16). -/
def collide (bit : Nat) (s : State) : State :=
  match s.line.attempt with
  | none => s
  | some a =>
    if a.collidesAt bit then
      let stopped := s.mapLine (Line.stopSending bit a)
      if a.collisions + 1 ≥ Config.maxCollisions then
        let counted := stopped.mapLine Line.countDropped
        if a.withdrawn then counted else tellDropped a.frame counted
      else stopped.mapLine (Line.returnFrame { a with collisions := a.collisions + 1 })
    else s

/-- The attempt loses arbitration (R154). -/
def loseArbitration (bit : Nat) (s : State) : State :=
  match s.line.attempt with
  | none => s
  | some a => if a.losesAt bit then s.mapLine (Line.loseArbitration bit a) else s

/-- A frame is heard to its end: the receive checks discard it under the first that fails, or dispatch it (R158, R160).
The bits the command carries are those the receive buffer holds at the frame's end, and the position is latched where
they reach the end delimiter (R9, R152; log 28). While SENDING the frame is the own attempt, and with no frame on the
line nothing is heard (log 14, log 15). -/
def hearFrame (bits : List Bool) (s : State) : State :=
  match s.line.state with
  | .waitIdle => s
  | .idle => s
  | .sending => ownFrameEnds s
  | .receiving =>
    let heard := s.mapLine fun l => { l with rx := bits }
    match checkFrame heard.line.rx with
    | .error r => discarded r (if delimiterHeard bits = 0 then heard else latchAt (4 * delimiterHeard bits) heard)
    | .ok f => takeFrame f (dispatched heard)

/-- A start bit of another party: in IDLE a station with a frame that may be sent joins the arbitration (R150, R153). -/
def otherStartBit (s : State) : State :=
  match s.line.state with
  | .waitIdle => s.mapLine Line.dominantBit
  | .idle => if s.line.attempt = none ∧ (nextAttempt s).isSome then startAttempt s else s.mapLine Line.startReceiving
  | .sending => s
  | .receiving => s

/-- LINE_IDLE (R150). -/
def execLineIdle (s : State) : Host.Outcome State Fault Refusal := .next (s.mapLine Line.becomeIdle)

/-- ATTEMPT_START (R11, R31, R153). -/
def execAttemptStart (s : State) : Host.Outcome State Fault Refusal := .next (startAttempt s)

/-- ARBITRATION_LOSS (R154). -/
def execArbitrationLoss (bit : Nat) (s : State) : Host.Outcome State Fault Refusal := .next (loseArbitration bit s)

/-- COLLISION_ERROR (R155). -/
def execCollisionError (bit : Nat) (s : State) : Host.Outcome State Fault Refusal := .next (collide bit s)

/-- FRAME_TRANSMITTED (R157). -/
def execFrameTransmitted (s : State) : Host.Outcome State Fault Refusal := .next (ownFrameEnds s)

/-- FRAME_DISCARD (R158): the frame is the bits with those of its end delimiter after them. -/
def execFrameDiscard (bits delimiter : List Bool) (s : State) : Host.Outcome State Fault Refusal :=
  .next (hearFrame (bits ++ delimiter) s)

/-- START_BIT (R150, R153). -/
def execStartBit (s : State) : Host.Outcome State Fault Refusal := .next (otherStartBit s)

end Sys2Proof.Machine
end

