-- ==== Sys2Proof/Machine/ResetEvents.lean ====
section
/-! DEFINITION. The meanings of POWER_ON, PIN_RESET and LOAD_COMPLETE. -/

namespace Sys2Proof.Machine

/-- Every block at its reset values, the reset released, the supply comparator reporting `band` (R16, R40, R43, R60,
R61, R78, R96, R136, R162, R171, R176). The serial is fixed (R171); the model's counts of conversions and of free line
bits go on, so that later free values stay fresh (log 3, log 25). -/
def resetAll (band : Band) (s : State) : State :=
  { State.reset with
    laser := Laser.reset band
    front := { FrontEnd.reset with conversions := s.front.conversions }
    line := { Line.reset with heard := s.line.heard }
    num := Numbering.reset s.num.serial
    pending := s.pending }

/-- POWER_ON (R16). -/
def execPowerOn (band : Band) (s : State) : Host.Outcome State Fault Refusal := .next (resetAll band s)

/-- PIN_RESET (R16): the same effect as power-on on every block. -/
def execPinReset (band : Band) (s : State) : Host.Outcome State Fault Refusal := .next (resetAll band s)

/-- LOAD_COMPLETE (R163): only a station that is LOADING has a load to complete (log 1). -/
def execLoadComplete (record : List Byte) (s : State) : Host.Outcome State Fault Refusal :=
  if s.loader.station = .loading then .next (loadDone record s) else .next s

end Sys2Proof.Machine
end

