-- ==== Sys2Proof/Machine/TimeEvents.lean ====
section
/-! DEFINITION. The meanings of the timer's events and of the expiries of the cycle-counted countdowns. An expiry is
its block's own share of the cycle boundary that brings the countdown to 0, taken as a step of its own; at any other
count nothing expires (log 6). -/

namespace Sys2Proof.Machine

/-- SLOT_START (R2): time has brought the position to phase 0 of the slot, and its slot start is raised. After a step
the next slot start is that of the slot after the one stepped into; one that was due before the step is not raised
(R2, R12, R15). A slot that is not the next one is taken too, and the slot starts and the boundary passed over are not
raised; and the time the command stands for is the timer's alone: it makes no conversions and ages no shot window
(DESIGN CHOICE, log 5). -/
def execSlotStart (slot : Slot) (s : State) : Host.Outcome State Fault Refusal :=
  if s.timer.stepped = true ∧ slot.val ≠ s.timer.pos.slot.val + 1 then .next s
  else .next (raiseSlotStart slot (s.mapTimer (Timer.arrive slot)))

/-- CYCLE_BOUNDARY (R3): time has brought slot 31 to its end. The slot start of slot 0 is the SLOT_START that follows.
After a step into another slot than 31 the boundary that was due is not raised (R12, R15). With no step before, it is
taken outside slot 31 too, and the slot starts passed over are not raised (DESIGN CHOICE, log 5). -/
def execCycleBoundary (s : State) : Host.Outcome State Fault Refusal :=
  if s.timer.stepped = true ∧ s.timer.pos.slot ≠ 31 then .next s
  else .next (cycleBoundary (s.mapTimer (Timer.arrive 0)))

/-- HEARD_ENTRY_LAPSE (R6, R7). -/
def execHeardEntryLapse (station : StationNo) (s : State) : Host.Outcome State Fault Refusal :=
  match s.timer.heard[station.val]? with
  | some e =>
    if heardLapses e then
      .next (recomputeReference (s.mapTimer fun t => { t with heard := t.heard.set station.val none }))
    else .next s
  | none => .next s

/-- SUPPRESSION_END (R14). -/
def execSuppressionEnd (s : State) : Host.Outcome State Fault Refusal :=
  if s.timer.suppress = 1 then .next (s.mapTimer fun t => { t with suppress := 0 }) else .next s

/-- CROSSING_PEER_LAPSE (R21). -/
def execCrossingPeerLapse (index : Fin 8) (s : State) : Host.Outcome State Fault Refusal :=
  match s.calendar.peers[index.val]? with
  | some e =>
    if e.lapses then .next (s.mapCalendar fun c => { c with peers := c.peers.set index.val e.silence }) else .next s
  | none => .next s

/-- NOTICE_COUNTDOWN_EXPIRY (R30). -/
def execNoticeCountdownExpiry (s : State) : Host.Outcome State Fault Refusal :=
  if s.calendar.countdown = some 1 then .next (countdownBoundary s) else .next s

/-- CHARGE_TIMEOUT (R47, R55). -/
def execChargeTimeout (s : State) : Host.Outcome State Fault Refusal :=
  if s.laser.driver = .charging ∧ s.laser.timeout = 1 then .next (s.mapLaser Laser.boundary) else .next s

/-- DEADLINE_EXPIRY (R70). -/
def execDeadlineExpiry (s : State) : Host.Outcome State Fault Refusal :=
  match s.banks.accepting with
  | some i => if (s.banks.get i).deadline = 1 then .next (banksBoundary s) else .next s
  | none => .next s

/-- LISTEN_COUNTDOWN_EXPIRY (R166). -/
def execListenCountdownExpiry (s : State) : Host.Outcome State Fault Refusal :=
  if s.num.listen = some 1 then .next (choose s) else .next s

/-- HOLD_OFF_EXPIRY (R168). -/
def execHoldOffExpiry (s : State) : Host.Outcome State Fault Refusal :=
  if s.num.holdOff = some 1 then .next (holdOffEnds s) else .next s

/-- QUIET_END (R174). -/
def execQuietEnd (s : State) : Host.Outcome State Fault Refusal :=
  if s.req.quiet = 1 then .next (s.mapReq Request.boundary) else .next s

end Sys2Proof.Machine
end

