-- ==== Sys2Proof/Machine/Dispatch.lean ====
section
/-! DEFINITION. The dispatch of a command to its meaning: one arm per row of spec/opcode_table.json. -/

namespace Sys2Proof.Machine

def exec (i : Instr) (s : State) : Host.Outcome State Fault Refusal :=
  match i with
  | .powerOn band => Sys2Proof.Machine.execPowerOn band s
  | .pinReset band => Sys2Proof.Machine.execPinReset band s
  | .slotStart slot => Sys2Proof.Machine.execSlotStart slot s
  | .cycleBoundary => Sys2Proof.Machine.execCycleBoundary s
  | .heardEntryLapse station => Sys2Proof.Machine.execHeardEntryLapse station s
  | .suppressionEnd => Sys2Proof.Machine.execSuppressionEnd s
  | .crossingPeerLapse index => Sys2Proof.Machine.execCrossingPeerLapse index s
  | .noticeCountdownExpiry => Sys2Proof.Machine.execNoticeCountdownExpiry s
  | .chargeTimeout => Sys2Proof.Machine.execChargeTimeout s
  | .deadlineExpiry => Sys2Proof.Machine.execDeadlineExpiry s
  | .listenCountdownExpiry => Sys2Proof.Machine.execListenCountdownExpiry s
  | .holdOffExpiry => Sys2Proof.Machine.execHoldOffExpiry s
  | .quietEnd => Sys2Proof.Machine.execQuietEnd s
  | .chargeDone => Sys2Proof.Machine.execChargeDone s
  | .bandChange band => Sys2Proof.Machine.execBandChange band s
  | .energyReading code => Sys2Proof.Machine.execEnergyReading code s
  | .shotWindowEnd => Sys2Proof.Machine.execShotWindowEnd s
  | .rangeCaptureComplete samples => Sys2Proof.Machine.execRangeCaptureComplete samples s
  | .reductionComplete => Sys2Proof.Machine.execReductionComplete s
  | .loadComplete record => Sys2Proof.Machine.execLoadComplete record s
  | .lineIdle => Sys2Proof.Machine.execLineIdle s
  | .attemptStart => Sys2Proof.Machine.execAttemptStart s
  | .arbitrationLoss bit => Sys2Proof.Machine.execArbitrationLoss bit s
  | .collisionError bit => Sys2Proof.Machine.execCollisionError bit s
  | .frameTransmitted => Sys2Proof.Machine.execFrameTransmitted s
  | .frameDiscard bits delimiter => Sys2Proof.Machine.execFrameDiscard bits delimiter s
  | .notice sender serial body => Sys2Proof.Machine.execNotice sender serial body s
  | .claim sender serial => Sys2Proof.Machine.execClaim sender serial s
  | .report sender fields => Sys2Proof.Machine.execReport sender fields s
  | .status sender payload => Sys2Proof.Machine.execStatus sender payload s
  | .query sender target item => Sys2Proof.Machine.execQuery sender target item s
  | .quiet sender target seconds => Sys2Proof.Machine.execQuiet sender target seconds s
  | .restartTracking sender target => Sys2Proof.Machine.execRestartTracking sender target s
  | .restartFiring sender target => Sys2Proof.Machine.execRestartFiring sender target s
  | .restartStation sender target => Sys2Proof.Machine.execRestartStation sender target s
  | .startBit => Sys2Proof.Machine.execStartBit s

end Sys2Proof.Machine
end

