-- ==== Sys2Proof/Machine/Tick.lean ====
section
/-! DEFINITION. One microsecond of time, which passes when no command waits (log 2). -/

namespace Sys2Proof.Machine

/-- The conversions of one microsecond (R62). -/
def convertTick (s : State) : State :=
  convert (freeSamples s.front.conversions Config.conversionsPerMicrosecond) s

/-- One microsecond of an open shot window, which ends 100 microseconds after its trigger (R53, R64). -/
def windowTick (s : State) : State :=
  match s.front.shot with
  | none => s
  | some sh =>
    let aged := s.mapFront fun f => { f with shot := some { sh with age := sh.age + 1 } }
    if sh.age + 1 = Config.windowLength then windowEnd aged else aged

/-- One bit time of the line, in its state (R150): on a line that no party drives a recessive bit, after which a frame
that may be sent starts with the bit time that begins (R153); in SENDING and RECEIVING a bit of the frame on the line,
whose end comes as a command (log 22). -/
def bitTick (s : State) : State :=
  match s.line.state with
  | .waitIdle => startAttempt (s.mapLine Line.recessiveBit)
  | .idle => startAttempt (s.mapLine Line.recessiveBit)
  | .sending => s.mapLine Line.sentBit
  | .receiving => s.mapLine Line.heardBit

/-- One microsecond of the line, of which every fourth ends a bit time (R150). -/
def lineTick (s : State) : State :=
  if s.line.bitPhase = 3 then bitTick (s.mapLine fun l => { l with bitPhase := 0 })
  else s.mapLine fun l => { l with bitPhase := l.bitPhase + 1 }

/-- One microsecond: the digitizer's conversions, the shot window, the cycle timer, the line (R1, R62, R64, R150). -/
def tick (s : State) : State := lineTick (advance (windowTick (convertTick s)))

end Sys2Proof.Machine
end

