-- ==== Sys2Proof/Safety.lean ====
section
/-! DEFINITION. What the manual says every state of a station keeps: per block the bounds and the links between its
items, as statements stay about. A run is safe where every step of it keeps them. -/

namespace Sys2Proof.Machine

/-! ## Cycle timer -/

/-- The bounds of the timer record (01 section 1.1), the position inside the cycle in progress (R1), the reference as
the lowest of the own number and the heard numbers (R7), and no slew where it is the own number, or none at a unit that
holds none (R8). -/
structure Timer.Ok (own : Option StationNo) (t : Timer) : Prop where
  inside : t.elapsed < t.cycleLength
  holds : t.held = true → t.pos = ⟨31, 249⟩ ∧ t.curAdj = 1
  current : -1 ≤ t.curAdj ∧ t.curAdj ≤ 1
  previous : -1 ≤ t.prevAdj ∧ t.prevAdj ≤ 1
  following : -1 ≤ t.nextAdj ∧ t.nextAdj ≤ 1
  slew : -20 ≤ t.slew ∧ t.slew ≤ 20
  stations : t.heard.length = 16
  ages : ∀ k, some k ∈ t.heard → k < 200
  suppress : t.suppress ≤ 2
  reference : t.ref = referenceOf own t.heard
  alone : t.ref = own → t.slew = 0

/-! ## Firing calendar -/

/-- An entry of the own claim list keeps R23: TENTATIVE with a notice count of 0 or 1, or SETTLED with 2. -/
def Claim.Ok (c : Claim) : Prop :=
  (c.state = .tentative ∧ c.count ≤ 1) ∨ (c.state = .settled ∧ c.count = 2)

/-- An entry of the crossing peer table keeps R18: its bins, its age, its settled set within its claimed set, and
nothing known of a peer not heard. -/
def PeerEntry.Ok (e : PeerEntry) : Prop :=
  e.lo ≤ e.hi ∧ e.hi ≤ 799 ∧ (∀ k, e.age = some k → k < 200) ∧ e.settled &&& ~~~e.claimed = 0 ∧
    (e.age = none → e.claimed = 0 ∧ e.settled = 0 ∧ e.serial = none)

/-- The own claim list keeps R23 and R24: no two positions hold the same slot, every entry keeps its counts, and
outside ACTIVE every position is empty. -/
structure Calendar.Ok (c : Calendar) : Prop where
  distinct : (c.claims.filterMap id).Pairwise (fun x y => x.slot ≠ y.slot)
  entries : ∀ x, some x ∈ c.claims → x.Ok
  inactive : c.state ≠ .active → ∀ x, some x ∉ c.claims

/-- The crossing peer table keeps R18: at most 8 entries, of distinct peers, and an inactive one knows nothing. -/
structure PeersOk (own : Option StationNo) (peers : List PeerEntry) : Prop where
  few : peers.length ≤ 8
  distinct : peers.Pairwise (fun x y => x.peer ≠ y.peer)
  entries : ∀ e ∈ peers, e.Ok
  silent : ∀ e ∈ peers, own = some e.peer → e.age = none

/-- No own slot lies in the claimed set of a heard crossing peer with a lower number (R34). -/
def State.Apart (s : State) : Prop :=
  ∀ n, s.num.own = some n → ∀ x, some x ∈ s.calendar.claims → ∀ e ∈ s.calendar.peers,
    e.peer < n → e.age ≠ none → e.claimed.getLsbD x.slot.val = false

/-! ## Laser control unit and exposure monitor -/

/-- The driver record keeps 03 section 3.1: a charge level exactly while CHARGING or CHARGED, a timeout count exactly
while CHARGING, a cause exactly in FAULT, and no charge in INHIBIT (R42, R45, R47, R55). -/
structure Laser.Ok (l : Laser) : Prop where
  level : l.level.isSome = true ↔ l.driver = .charging ∨ l.driver = .charged
  timeout : 0 < l.timeout ↔ l.driver = .charging
  timeoutBound : l.timeout ≤ 2
  cause : l.cause ≠ .none ↔ l.driver = .fault
  duds : l.dudRun ≤ 3
  target : l.lt ≤ 15
  levelBound : ∀ k, l.level = some k → k ≤ 15
  inhibit : l.band = .inhibit → l.driver ≠ .charging ∧ l.driver ≠ .charged

/-- The exposure monitor keeps 03 section 3.8: 125 entries, each at most 65,535, the window total their sum, and the
current-cycle sum at most 65,535. -/
structure Exposure.Ok (e : Exposure) : Prop where
  entries : e.ring.length = 125
  bounded : ∀ x ∈ e.ring, x ≤ 65535
  window : e.total = e.ring.sum
  current : e.current ≤ 65535

/-- While a shot is in flight the greatest reading it can return keeps the exposure total within the limit (R59). -/
def State.Headroom (s : State) : Prop :=
  s.laser.driver = .fired → s.expo.total + s.expo.current + 255 ≤ s.expo.limit

/-- A test of the shot decision fails (the table of R48). -/
def State.TestFails (s : State) : Reason → Prop
  | .fault => s.laser.driver = .fault
  | .quiet => s.req.quiet > 0
  | .suppressed => s.timer.suppress > 0
  | .noBank =>
    (s.banks.a.state ≠ .accepting ∧ s.banks.b.state ≠ .accepting) ∨
      (s.banks.a.state = .accepting ∧ s.banks.a.m + s.banks.a.inFlight = s.profileShots) ∨
      (s.banks.a.state ≠ .accepting ∧ s.banks.b.state = .accepting ∧
        s.banks.b.m + s.banks.b.inFlight = s.profileShots)
  | .supplyInhibit => s.laser.band = .inhibit
  | .notCharged => s.laser.driver = .idle ∨ s.laser.driver = .charging ∨ s.laser.driver = .fired
  | .budget => s.expo.total + s.expo.current + 255 > s.expo.limit

/-- The order of the tests (R48). -/
def Reason.order : Reason → Nat
  | .fault => 1
  | .quiet => 2
  | .suppressed => 3
  | .noBank => 4
  | .supplyInhibit => 5
  | .notCharged => 6
  | .budget => 7

/-! ## Accumulation banks and reduction unit -/

/-- A bank record keeps R67 and R71: one shot in flight at most, and only while ACCEPTING; a close pending only with a
shot in flight. -/
def Bank.Ok (b : Bank) : Prop :=
  b.inFlight ≤ 1 ∧ (b.state ≠ .accepting → b.inFlight = 0) ∧
    (b.closePending = true → b.state = .accepting ∧ b.inFlight = 1)

/-- The banks keep R73 and R79: at most one is ACCEPTING, one is CLOSED only while the other is REDUCING, and the
reduction unit holds exactly the bank that is REDUCING. -/
structure BanksOk (bs : Banks) (red : Option Reduction) : Prop where
  accepting : ¬(bs.a.state = .accepting ∧ bs.b.state = .accepting)
  closedA : bs.a.state = .closed → bs.b.state = .reducing
  closedB : bs.b.state = .closed → bs.a.state = .reducing
  reducingA : bs.a.state = .reducing ↔ red.map Reduction.bank = some .a
  reducingB : bs.b.state = .reducing ↔ red.map Reduction.bank = some .b
  recordA : bs.a.Ok
  recordB : bs.b.Ok

/-- The shot counts of the banks keep R67 and R78: m is at most N, and below N in a bank that accepts; an EMPTY bank
holds no shots; and a station that is LOADING or UNCONFIGURED, where N has no value, has both banks EMPTY, while every
other station holds a configuration (R72, R77, R163). -/
structure State.CountsOk (s : State) : Prop where
  full : ∀ i, (s.banks.get i).m ≤ s.profileShots
  room : ∀ i, (s.banks.get i).state = .accepting → (s.banks.get i).m < s.profileShots
  blank : ∀ i, (s.banks.get i).state = .empty → (s.banks.get i).m = 0
  idle : s.loader.station = .loading ∨ s.loader.station = .unconfigured → ∀ i, (s.banks.get i).state = .empty
  configured : s.loader.station ≠ .loading → s.loader.station ≠ .unconfigured → s.loader.cfg ≠ none

/-- What a slip makes of the banks beside a crossing peer table of `count` entries (R13): the ACCEPTING one takes the slip
mark and every index of the table; the other stays, and both do where none accepts. -/
def Banks.SlipMarked (count : Nat) (before after : Banks) : Prop :=
  (before.a.state ≠ .accepting → before.b.state ≠ .accepting → after = before) ∧
  ∀ i, (before.get i).state = .accepting → (before.get i.other).state ≠ .accepting →
    ∃ marks, after = before.put i { before.get i with slip := true, suspects := marks } ∧
      ∀ j : Nat, j < 8 → marks.getLsbD j = ((before.get i).suspects.getLsbD j || decide (j < count))

/-- What an entry into a live station state makes of the banks, under a profile period (R66, R75): with none ACCEPTING an
EMPTY bank opens under the next sequence number with the deadline of the period, bank A of two, beside an EMPTY or
REDUCING one; beside a CLOSED bank, and with one ACCEPTING, none opens. -/
def Banks.EnteredLive (period : Nat) (before after : Banks) : Prop :=
  (∀ opened : Bank,
    opened =
      { state := .accepting, seq := before.seq, sums := List.replicate 800 0, bg := 0, esum := 0, m := 0, inFlight := 0,
        deadline := period * 125, closePending := false, lowSat := none, slip := false, suspects := 0 } →
    (before.a.state = .empty → before.b.state = .empty →
      after = { before with a := opened, seq := before.seq + 1 }) ∧
    ∀ i : BankId, (before.get i).state = .empty → (before.get i.other).state = .reducing →
      after = { before.put i opened with seq := before.seq + 1 }) ∧
  ∀ i : BankId, (before.get i).state = .accepting ∨
      ((before.get i).state = .closed ∧ (before.get i.other).state = .reducing) →
    after = before

/-! ## Layer extraction -/

/-- Three strong bins stand together from bin `b` up (R98). -/
def StartsAt (classes : List BinClass) (b : Nat) : Prop := ∀ j : Nat, j < 3 → classes[b + j]? = some .strong

/-- Three weak bins stand together from bin `e` up (R100). -/
def EndsAt (classes : List BinClass) (e : Nat) : Prop := ∀ j : Nat, j < 3 → classes[e + j]? = some .weak

/-- The peak of a run whose last bin is `last`: the lowest of its bins of greatest normalized intensity (R101). -/
def Run.PeakUpTo (intensity : List Int) (last : Nat) (r : Run) : Prop :=
  r.base ≤ r.peakBin ∧ r.peakBin ≤ last ∧ intensity[r.peakBin]? = some r.peakI ∧
    ∀ (n : Nat) (i : Int), r.base ≤ n → n ≤ last → intensity[n]? = some i →
      i ≤ r.peakI ∧ (n < r.peakBin → i < r.peakI)

/-- The runs that a search from bin `lo` up finds, in order: each begins at the first start not below the search, ends
before the first end above its base or has no top and is the last, and the search goes on three bins above its end
(R98, R100, R101, R102, R104). -/
def RunsFrom (classes : List BinClass) (intensity : List Int) : Nat → List Run → Prop
  | _, [] => True
  | lo, r :: rest =>
    lo ≤ r.base ∧ StartsAt classes r.base ∧ (∀ b : Nat, lo ≤ b → b < r.base → ¬StartsAt classes b) ∧
      match r.top with
      | some top =>
        r.base ≤ top ∧ EndsAt classes (top + 1) ∧ (∀ e : Nat, r.base < e → e ≤ top → ¬EndsAt classes e) ∧
          r.PeakUpTo intensity top ∧ RunsFrom classes intensity (top + 4) rest
      | none => (∀ e : Nat, r.base < e → ¬EndsAt classes e) ∧ r.PeakUpTo intensity 799 ∧ rest = []

/-- The runs a scan recorded, in order: the obscuring run and the candidates (R102). -/
def Scan.runs (k : Scan) : List Run := k.obscuring.toList ++ k.candidates

/-- The bin from which the search goes on above runs found from n0 up: n0 itself, or three bins above the end of the
last run (R97, R100). -/
def searchOn (n0 : Nat) (runs : List Run) : Nat :=
  match runs.getLast? with
  | some r => r.top.getD 796 + 4
  | none => n0

/-- How a scan ended, with its reach bin (R99, R103, R104, R106): in a run without a top, whose base is the reach; at a
seventh candidate; or with no further start. -/
def Scan.EndOk (classes : List BinClass) (n0 : Nat) (k : Scan) : Prop :=
  match k.cause with
  | some .openRun => ∃ r, k.runs.getLast? = some r ∧ r.top = none ∧ k.reachBin = r.base
  | some .limit =>
    k.candidates.length = 6 ∧ (∀ r ∈ k.runs, r.top ≠ none) ∧ k.reachBin = 799 ∧
      ∃ b, searchOn n0 k.runs ≤ b ∧ StartsAt classes b
  | some .exhausted =>
    (∀ r ∈ k.runs, r.top ≠ none) ∧ k.reachBin = 799 ∧ ∀ b : Nat, searchOn n0 k.runs ≤ b → ¬StartsAt classes b
  | none => False

/-! ## Layer tracker -/

/-- `v` is chosen as the victim before `u` (the order of R128). -/
def Track.VictimOver (v u : Track) : Prop :=
  (v.origin = .peerOnly ∧ u.origin = .own) ∨
    (v.origin = u.origin ∧ (v.hits < u.hits ∨ (v.hits = u.hits ∧
      (u.base < v.base ∨ (u.base = v.base ∧ v.id.toNat < u.id.toNat)))))

/-- `t` survives a merge with `u` (R130). -/
def Track.SurvivesOver (t u : Track) : Prop :=
  u.hits < t.hits ∨ (u.hits = t.hits ∧ (t.base < u.base ∨ (t.base = u.base ∧ t.id.toNat ≤ u.id.toNat)))

/-- `m` is the survivor `t` of a merge that removed `u`: it keeps its own identity and sighting and takes history, peer
set, counts and lapse from both (R130). -/
structure Track.Merged (t u m : Track) : Prop where
  kept : m.id = t.id ∧ m.origin = t.origin ∧ m.base = t.base ∧ m.top = t.top ∧ m.peak = t.peak
  length : m.history.length = max t.history.length u.history.length
  hit : ∀ i : Nat, m.history[i]? = some .hit ↔ t.history[i]? = some .hit ∨ u.history[i]? = some .hit
  peers : m.peers = t.peers ||| u.peers
  own : t.origin = .own → u.origin = .own → m.age = min t.age u.age ∧ m.unseen = min t.unseen u.unseen
  ownOnly : t.origin = .own → u.origin = .peerOnly → m.age = t.age ∧ m.unseen = t.unseen
  neither : t.origin = .peerOnly → u.origin = .peerOnly → m.age = 0 ∧ m.unseen = 0
  lapse : (t.origin = .own → m.lapse = none) ∧
    ∀ x y, t.origin = .peerOnly → t.lapse = some x → u.lapse = some y → m.lapse = some (max x y)

/-- `id` is the id the next track takes: the first from the counter's value on that no track holds (R116). -/
def NextFreeId (tracks : List Track) (counter id : Byte) : Prop :=
  (∀ t ∈ tracks, t.id ≠ id) ∧
    ∃ d : Nat, d ≤ tracks.length ∧ id = counter + BitVec.ofNat 8 d ∧
      ∀ e : Nat, e < d → ∃ t ∈ tracks, t.id = counter + BitVec.ofNat 8 e

/-- `t` is the track nearest to a peer layer's base among those whose tolerance holds it, and the lower one of two at the
same distance (R140). -/
def Track.NearestOf (mMin base : Nat) (t : Track) (others : List Track) : Prop :=
  t.within mMin base = true ∧
    ∀ u ∈ others, u.within mMin base = true →
      distance base t.base < distance base u.base ∨ (distance base t.base = distance base u.base ∧ t.base < u.base)

/-- The order of the table before merging (R129): ascending base, lower id first. -/
def Track.Under (t u : Track) : Prop := t.base < u.base ∨ (t.base = u.base ∧ t.id.toNat < u.id.toNat)

/-- A track keeps the table of 07 section 7.2 (R114, R115, R125, R126): an own-origin track has a hit as old as its age,
an age of 0..7, an unseen count of 0..15 and no lapse; a peer-only track has no history and a lapse of 1..3. -/
def Track.Ok (t : Track) : Prop :=
  t.history.length ≤ 16 ∧
    match t.origin with
    | .own => t.history[t.age]? = some .hit ∧ t.age ≤ 7 ∧ t.unseen ≤ 15 ∧ t.lapse = none
    | .peerOnly => t.history = [] ∧ t.age = 0 ∧ t.unseen = 0 ∧ t.peak = none ∧ ∃ k, t.lapse = some k ∧ 1 ≤ k ∧ k ≤ 3

/-- The layer table keeps R113: at most 5 tracks, in strictly ascending order of base height, no two of one id. -/
structure Tracker.Ok (k : Tracker) : Prop where
  few : k.tracks.length ≤ 5
  ascending : k.tracks.Pairwise (fun t u => t.base < u.base)
  ids : k.tracks.Pairwise (fun t u => t.id ≠ u.id)
  records : ∀ t ∈ k.tracks, t.Ok

/-! ## Line interface -/

/-- A frame of the transmit set has met fewer than 8 collision errors (R155). -/
def queuedOk {α : Type} (q : Option (Queued α)) : Prop := ∀ x, q = some x → x.collisions < 8

/-- The line record keeps 09 section 9.1 (R32, R150, R153, R155): an attempt exactly while SENDING, a run of 0..11 that
is 11 in IDLE and below 11 in WAIT-IDLE, recalled slots only beside a NOTICE on the line, and fewer than 8 collision
errors at every frame. -/
structure Line.Ok (l : Line) : Prop where
  attempt : l.attempt.isSome = true ↔ l.state = .sending
  run : l.run ≤ 11
  idle : l.state = .idle → l.run = 11
  waiting : l.state = .waitIdle → l.run < 11
  recalled : l.attempt.any Attempt.isNotice = false → l.recalled = 0
  trying : ∀ a, l.attempt = some a → a.collisions < 8
  claim : queuedOk l.set.claim
  notice : queuedOk l.set.notice
  report : queuedOk l.set.report
  status : queuedOk l.set.status

/-- The set holds the frame of an attempt with this collision count (R156). -/
def Sending.HeldIn (f : Sending) (collisions : Nat) (set : TransmitSet) : Prop :=
  match f with
  | .claim n _ => set.claim = some ⟨n, collisions⟩
  | .notice _ _ => set.notice = some ⟨(), collisions⟩
  | .report _ r => set.report = some ⟨r, collisions⟩
  | .status _ r => set.status = some ⟨r, collisions⟩

/-- The set holds a frame of the attempt's kind (R156). -/
def Sending.Awaited (f : Sending) (set : TransmitSet) : Prop :=
  match f with
  | .claim _ _ => set.claim ≠ none
  | .notice _ _ => set.notice ≠ none
  | .report _ _ => set.report ≠ none
  | .status _ _ => set.status ≠ none

/-- What becomes of the frame of an attempt that ended without transmission (R156): it returns to the set with its
collision count, or is superseded by a frame of its kind queued meanwhile, or is discarded if its kind was withdrawn. -/
def Attempt.Returned (a : Attempt) (collisions : Nat) (before after : Line) : Prop :=
  (a.withdrawn = false → ¬a.frame.Awaited before.set →
    a.frame.HeldIn collisions after.set ∧ after.counters.superseded = before.counters.superseded) ∧
  (a.withdrawn = false → a.frame.Awaited before.set →
    after.set = before.set ∧ after.counters.superseded = bump before.counters.superseded) ∧
  (a.withdrawn = true →
    after.set = before.set ∧ after.counters.superseded = before.counters.superseded)

/-- A frame keeps the rules of its kind (R158, R159): the sender the kind allows, and the length. -/
def Frame.Legal : Frame → Prop
  | .claim n _ => isStation n = true
  | .notice n _ => isStation n = true
  | .report n f => isStation n = true ∧ f.layers.length ≤ 5
  | .query n _ _ => isRecorder n = true
  | .status n payload => isStation n = true ∧ statusLengthAgrees payload = true
  | .quiet n _ _ => isRecorder n = true
  | .restart n _ _ => isRecorder n = true

/-! ## Station state and numbering -/

/-- The station state, the numbering unit, the calendar and the driver agree (R24, R42, R163..R171): a number is held
exactly while NUMBERED; a fixed unit is NUMBERED; a RUNNING or HALTED-DUPLICATE station is NUMBERED and a NUMBERING one
is not; the calendar is INACTIVE exactly outside RUNNING; the own claim list has S positions, and none before S has a value
(R23, R34; log 35); the driver charges only in RUNNING; the countdowns run only where R166..R170 start them. -/
structure State.StationOk (s : State) : Prop where
  number : s.num.own.isSome = true ↔ s.num.state = .numbered
  fixed : s.num.mode = .fixed → s.num.state = .numbered
  live : s.loader.station = .running ∨ s.loader.station = .haltedDuplicate → s.num.state = .numbered
  rolling : s.loader.station = .numbering → s.num.state ≠ .numbered ∧ s.num.mode = .auto
  unconfigured : s.loader.station = .unconfigured → s.num.mode = .auto
  halted : s.loader.station = .haltedDuplicate → s.num.mode = .fixed
  calendar : s.calendar.state = .inactive ↔ s.loader.station ≠ .running
  positions : s.calendar.claims.length = s.cfgNat StationConfig.shots
  driver : s.loader.station ≠ .running → s.laser.driver ≠ .charging ∧ s.laser.driver ≠ .charged
  holdOff : s.num.holdOff ≠ none → s.num.state = .claiming ∧ s.num.wanted ≠ none
  listen : s.num.listen ≠ none → s.num.state ≠ .numbered ∧ s.num.wanted = none

/-! ## Runs -/

/-- Every step of a run from `s` that fires no stop keeps a property. -/
def Keeps (P : State → Prop) : Prop := ∀ s t, P s → step s = .next t → P t

end Sys2Proof.Machine
end

