-- ==== Sys2Proof/Certificates/Slice0/Obligations.lean ====
section
/-! DEFINITION. The statements for the provers. -/

open Sys2Proof Sys2Proof.Machine

/-! ## The queue and the step -/

/-- A command at the front of the queue is run with the queue's rest. On an empty queue one microsecond passes: the
digitizer converts, an open shot window ages (R62, R64), and the timer advances. Inside a slot the phase advances by one
(R1), and the calendar, the exposure monitor, the tracker, the loader, the numbering unit and the request handler stay
as they are. After phase 249 of slots 0..30 the next slot's start is raised, as SLOT_START raises it (R2). Slot 31 ends
after 249, 250 or 251 microseconds by the current adjustment, phase 249 being held for two of 251, and raises the cycle
boundary and then the slot start of slot 0 (R1, R3). The line takes its microsecond last and changes nothing but its own
record. The microsecond on the empty queue is the model's choice (log 2). -/
def Obligations.StepRunsTheFrontCommandOrOneMicrosecond : Prop :=
  (∀ (c : Instr) (rest : List Instr) (s : State),
     step { s with pending := c :: rest } = exec c { s with pending := rest }) ∧
  (∀ s : State, s.pending = [] → s.timer.held = false → -1 ≤ s.timer.curAdj →
     s.timer.pos.phase.val < 248 ∨
       (s.timer.pos.phase.val = 248 ∧ (s.timer.pos.slot.val < 31 ∨ 0 ≤ s.timer.curAdj)) →
     ∃ t, step s = .next t ∧
       t.timer = { s.timer with pos := ⟨s.timer.pos.slot, s.timer.pos.phase + 1⟩ } ∧
       t.calendar = s.calendar ∧ t.expo = s.expo ∧ t.tracker = s.tracker ∧ t.loader = s.loader ∧ t.num = s.num ∧
       t.req = s.req ∧ t.pending = []) ∧
  (∀ s m raised : State, s.pending = [] → m = windowTick (convertTick s) →
     raised = { m with timer := { m.timer with stepped := false } } →
     m.timer = s.timer ∧ m.calendar = s.calendar ∧ m.expo = s.expo ∧ m.tracker = s.tracker ∧ m.line = s.line ∧
     m.loader = s.loader ∧ m.num = s.num ∧ m.req = s.req ∧ m.pending = [] ∧
     (s.front.shot = none → { m with front := s.front } = s) ∧
     (∀ slot : Slot, s.timer.held = false → -1 ≤ s.timer.curAdj → s.timer.pos.phase.val = 249 →
       slot.val = s.timer.pos.slot.val + 1 →
       ∃ u t, exec (.slotStart slot) raised = .next u ∧ step s = .next t ∧ { t with line := u.line } = u) ∧
     (s.timer.pos.slot = 31 →
       (s.timer.pos.phase = 248 ∧ s.timer.curAdj = -1 ∧ s.timer.held = false) ∨
         (s.timer.pos.phase = 249 ∧ s.timer.curAdj = 0 ∧ s.timer.held = false) ∨
         (s.timer.pos.phase = 249 ∧ s.timer.curAdj = 1 ∧ s.timer.held = true) →
       ∃ b u t, exec .cycleBoundary raised = .next b ∧ exec (.slotStart 0) b = .next u ∧ step s = .next t ∧
         { t with line := u.line } = u) ∧
     (s.timer.pos.slot = 31 → s.timer.pos.phase = 249 → s.timer.curAdj = 1 → s.timer.held = false →
       ∃ t, step s = .next t ∧ t.timer = { s.timer with held := true } ∧
         { t with timer := m.timer, line := m.line } = m))

/-- Every command answers a next state, and none touches the queue. This is the model's choice: a command whose event
cannot arise in the state at hand changes nothing (log 1), and one whose operands are ill formed is discarded or read as
far as it goes (log 23). -/
def Obligations.EveryCommandCompletesAndKeepsTheQueue : Prop :=
  ∀ (c : Instr) (s : State), ∃ t, exec c s = .next t ∧ t.pending = s.pending

/-! ## Reset -/

/-- Power-on and pin reset have the same effect, and give every block its reset values: the cycle timer (R16), the
calendar (R40), the laser control unit with the band the comparator reports (R43, R60), the exposure monitor (R61), the
front end and banks (R78), the reduction unit (R96), the tracker (R136), the line interface (R162), the loader and the
numbering unit with its fixed serial (R171), the request handler (R176). That the own claim list, which R40 gives empty
positions, has no position at all is the model's choice (log 35). -/
def Obligations.ResetGivesEveryBlockItsValues : Prop :=
  ∀ (band : Band) (s : State), ∃ t, exec (.powerOn band) s = .next t ∧ exec (.pinReset band) s = .next t ∧
    t.timer.pos.slot = 0 ∧ t.timer.pos.phase = 0 ∧ t.timer.curAdj = 0 ∧ t.timer.nextAdj = 0 ∧ t.timer.slew = 0 ∧
    t.timer.heard = List.replicate 16 none ∧ t.timer.ref = none ∧ t.timer.suppress = 0 ∧ t.timer.cycles = 0 ∧
    t.timer.slips = 0 ∧ t.num.own = none ∧
    t.calendar = ⟨.inactive, [], [], none, 0⟩ ∧
    t.laser = ⟨.idle, none, band, 0, 0, 0, .none, 0, ⟨0, 0, 0, 0, 0, 0, 0⟩⟩ ∧
    t.expo = ⟨List.replicate 125 0, 0, 0, 0⟩ ∧
    t.front.pre = List.replicate 32 0 ∧ t.front.window = .idle ∧ t.front.shot = none ∧
    t.banks.a.state = .empty ∧ t.banks.b.state = .empty ∧ t.banks.seq = 0 ∧ t.red = none ∧
    t.tracker = ⟨[], none, 0, false, none⟩ ∧
    t.line.state = .waitIdle ∧ t.line.run = 0 ∧ t.line.set = ⟨none, none, none, none⟩ ∧ t.line.attempt = none ∧
    t.line.rx = [] ∧ t.line.counters = ⟨0, 0, 0, 0, 0, 0, 0, 0, 0, 0, 0⟩ ∧
    t.loader = ⟨.loading, none, false, false⟩ ∧
    t.num = ⟨.listen, none, 0, none, none, none, false, .auto, s.num.serial⟩ ∧
    t.req = ⟨0, none⟩

/-- The quiet countdown and the pending reply after every reset and every scope of RESTART (R176). -/
def Obligations.ResetAndRestartOfTheRequestHandler : Prop :=
  ∀ s : State,
    (∀ band, ∃ t, exec (.powerOn band) s = .next t ∧ exec (.pinReset band) s = .next t ∧
      t.req.quiet = 0 ∧ t.req.reply = none) ∧
    ∀ (sender : Sender) (target : Byte), isRecorder sender = true → s.isOwnTarget target = true →
      (∃ t, exec (.restartTracking sender target) s = .next t ∧ t.req = s.req) ∧
      (∃ t, exec (.restartFiring sender target) s = .next t ∧ t.req = s.req) ∧
      (∃ t, exec (.restartStation sender target) s = .next t ∧ t.req.quiet = 0 ∧ t.req.reply = none)

/-! ## Slot starts and the shot decision -/

/-- The timer at the start of a slot: phase 0 of it, and at slot 31 the next adjustment fixed from the slew remaining,
of which 1 towards 0 is handed over (R2, R4). At a slot that is not own-settled nothing else happens. After a step the
next slot start is that of the slot after the one stepped into, and one that was due before the step is not raised: it
changes nothing (R12, R15). That the time the command stands for is the timer's alone, and that with no step before
every slot is taken, the next one or not, with nothing raised for what it passes over, is the model's choice (log 5). -/
def Obligations.SlotStartFixesTheNextAdjustment : Prop :=
  (∀ (slot : Slot) (s : State), (s.timer.stepped = true → slot.val = s.timer.pos.slot.val + 1) →
     (∀ c, some c ∈ s.calendar.claims → c.slot = slot → c.state ≠ .settled) →
     exec (.slotStart slot) s = .next
       { s with
         timer :=
           { s.timer with
             pos := ⟨slot, 0⟩
             held := false
             stepped := false
             nextAdj := if slot = 31 then -s.timer.slew.sign else s.timer.nextAdj
             slew := if slot = 31 then s.timer.slew - s.timer.slew.sign else s.timer.slew } }) ∧
  (∀ (slot : Slot) (s : State), s.timer.stepped = true → slot.val ≠ s.timer.pos.slot.val + 1 →
     exec (.slotStart slot) s = .next s)

/-- At the start of an own-settled slot at which no test of R48 fails the shot is triggered: the driver is FIRED with no
charge level, the ACCEPTING bank has it in flight, the shot window opens on that bank with a copy of the pre-trigger
record, and the shots-fired counter counts it (R48, R49, R63). Nothing else changes but the timer (R2, R4). After a step
the slot is the one after the slot stepped into (R15). That no conversion is made in the time the command stands for,
and that the slot need not be the next one where no step came before (log 5), and that a shot record still open is
replaced (log 31), is the model's choice. -/
def Obligations.ShotIsTriggeredWhenNoTestFails : Prop :=
  ∀ (slot : Slot) (s : State) (c : Claim), some c ∈ s.calendar.claims → c.slot = slot → c.state = .settled →
    (s.timer.stepped = true → slot.val = s.timer.pos.slot.val + 1) →
    (∀ r, ¬s.TestFails r) →
    ∃ i, (s.banks.get i).state = .accepting ∧
      exec (.slotStart slot) s = .next
        { s with
          timer :=
            { s.timer with
              pos := ⟨slot, 0⟩
              held := false
              stepped := false
              nextAdj := if slot = 31 then -s.timer.slew.sign else s.timer.nextAdj
              slew := if slot = 31 then s.timer.slew - s.timer.slew.sign else s.timer.slew }
          laser := { s.laser with driver := .fired, level := none, shotsFired := bump s.laser.shotsFired }
          banks := s.banks.put i { s.banks.get i with inFlight := 1 }
          front :=
            { s.front with
              window := .capturing
              shot := some ⟨i, s.front.pre, [], none, .accumulate, 0⟩ } }

/-- At the start of an own-settled slot the first test that fails withholds the shot and counts its reason (R48); the
timer takes the slot start, and nothing else changes. After a step the slot is the one after the slot stepped into
(R15). That nothing else changes in the time the command stands for, and that the slot need not be the next one where no
step came before, is the model's choice (log 5). -/
def Obligations.FirstFailingTestWithholdsTheShot : Prop :=
  ∀ (slot : Slot) (s : State) (c : Claim) (r : Reason),
    some c ∈ s.calendar.claims → c.slot = slot → c.state = .settled →
    (s.timer.stepped = true → slot.val = s.timer.pos.slot.val + 1) →
    s.TestFails r → (∀ q, q.order < r.order → ¬s.TestFails q) →
    exec (.slotStart slot) s = .next
      { s with
        timer :=
          { s.timer with
            pos := ⟨slot, 0⟩
            held := false
            stepped := false
            nextAdj := if slot = 31 then -s.timer.slew.sign else s.timer.nextAdj
            slew := if slot = 31 then s.timer.slew - s.timer.slew.sign else s.timer.slew }
        laser := { s.laser with withheld := s.laser.withheld.count r } }

/-! ## The cycle boundary and the expiries of the cycle-counted countdowns -/

/-- The cycle boundary at the timer: the count, the adjustments, the suppression and the heard ages, of which one that
would reach 200 becomes absent (R3, R6). The front end and the queue are not reached. After a step into another slot
than 31 the boundary that was due is not raised: it changes nothing (R12, R15). That the time the command stands for
does not reach the front end, and that with no step before a boundary is taken in every slot, is the model's choice (log
5). -/
def Obligations.CycleBoundaryAtTheTimer : Prop :=
  (∀ s : State, (s.timer.stepped = true → s.timer.pos.slot = 31) → ∃ t, exec .cycleBoundary s = .next t ∧
    t.timer.pos = ⟨0, 0⟩ ∧ t.timer.stepped = false ∧ t.timer.cycles = bump s.timer.cycles ∧
    t.timer.prevAdj = s.timer.curAdj ∧
    t.timer.curAdj = s.timer.nextAdj ∧ t.timer.nextAdj = 0 ∧ t.timer.suppress = s.timer.suppress - 1 ∧
    t.timer.slips = s.timer.slips ∧
    (∀ n k : Nat, s.timer.heard[n]? = some (some k) → k < 199 → t.timer.heard[n]? = some (some (k + 1))) ∧
    (∀ n k : Nat, s.timer.heard[n]? = some (some k) → 199 ≤ k → t.timer.heard[n]? = some none) ∧
    (∀ n : Nat, s.timer.heard[n]? = some none → t.timer.heard[n]? = some none) ∧
    t.front = s.front ∧ t.pending = s.pending) ∧
  (∀ s : State, s.timer.stepped = true → s.timer.pos.slot ≠ 31 → exec .cycleBoundary s = .next s)

/-- The cycle boundary at the exposure monitor: the oldest entry leaves ring and total, the current-cycle sum enters as
the newest and is added to the total, and the next sum begins at 0, so that the exposure total does not rise (R58). A
boundary that was due before a step into another slot is not raised (R15). That with no step before it is taken in every
slot is the model's choice (log 5). -/
def Obligations.CycleBoundaryRotatesTheExposureRing : Prop :=
  ∀ (s : State) (oldest : Nat) (rest : List Nat), (s.timer.stepped = true → s.timer.pos.slot = 31) → s.expo.Ok →
    s.expo.ring = oldest :: rest →
    ∃ t, exec .cycleBoundary s = .next t ∧
      t.expo.ring = rest ++ [s.expo.current] ∧ t.expo.total + oldest = s.expo.total + s.expo.current ∧
      t.expo.current = 0 ∧ t.expo.limit = s.expo.limit ∧
      t.expo.total + t.expo.current ≤ s.expo.total + s.expo.current

/-- The cycle boundary at the other blocks. In every station state a quiet countdown above 0 loses one (R174). A charge
in progress loses one of its timeout count, and at the last one the driver is bled and goes to FAULT with cause "charge"
(R47, R55). An ACCEPTING bank's deadline countdown loses one, and at the last one the bank closes or its close is
pending (R70, R73). Outside INACTIVE the notice countdown loses one, and at the last one a NOTICE is queued, an ACTIVE
calendar claiming first (R30). The listen countdown loses one, and at the last one the unit chooses (R166, R167). The
hold-off loses one, and at the last one the unit is NUMBERED and a NUMBERING station enters RUNNING (R165, R168). A
heard crossing peer entry ages by one, and one that would reach 200 becomes not heard, with empty sets and no serial;
that of a number the unit takes at this boundary aside (R18, R21). A bank that closes is reduced as it closed (R80). The
order of the blocks at a boundary is the model's reading, and that with no step before it is taken in every slot is its
choice (log 5). -/
def Obligations.CycleBoundaryCountsAtTheOtherBlocks : Prop :=
  ∀ s : State, (s.timer.stepped = true → s.timer.pos.slot = 31) →
    (∃ t, exec .cycleBoundary s = .next t ∧ t.req.quiet = s.req.quiet - 1 ∧ t.req.reply = s.req.reply) ∧
    (s.laser.driver = .charging →
      (2 ≤ s.laser.timeout →
        ∃ t, exec .cycleBoundary s = .next t ∧ t.laser = { s.laser with timeout := s.laser.timeout - 1 }) ∧
      (s.laser.timeout = 1 →
        ∃ t, exec .cycleBoundary s = .next t ∧
          t.laser = { s.laser with driver := .fault, level := none, timeout := 0, cause := .charge })) ∧
    (∀ i : BankId, (s.banks.get i).state = .accepting → (s.banks.get i.other).state ≠ .accepting →
      (2 ≤ (s.banks.get i).deadline →
        ∃ t, exec .cycleBoundary s = .next t ∧ t.req.quiet = s.req.quiet - 1 ∧ t.req.reply = s.req.reply ∧
          t.banks = s.banks.put i { s.banks.get i with deadline := (s.banks.get i).deadline - 1 } ∧ t.red = s.red) ∧
      ((s.banks.get i).deadline = 1 → (s.banks.get i).inFlight = 1 →
        ∃ t, exec .cycleBoundary s = .next t ∧ t.red = s.red ∧
          t.banks = s.banks.put i { s.banks.get i with deadline := 0, closePending := true }) ∧
      ((s.banks.get i).deadline = 1 → (s.banks.get i).inFlight = 0 → (s.banks.get i.other).state = .reducing →
        ∃ t, exec .cycleBoundary s = .next t ∧ t.red = s.red ∧
          t.banks = s.banks.put i { s.banks.get i with state := .closed, deadline := 0, closePending := false }) ∧
      ((s.banks.get i).deadline = 1 → (s.banks.get i).inFlight = 0 → (s.banks.get i.other).state = .empty →
        s.live = true →
        ∃ t r, exec .cycleBoundary s = .next t ∧ t.red = some r ∧ r.bank = i ∧
          r = reduce s.loader.cfg (s.calendar.peers.map PeerEntry.boundary) i (s.banks.get i) ∧
          t.banks.get i = { s.banks.get i with state := .reducing, deadline := 0, closePending := false } ∧
          (t.banks.get i.other).state = .accepting ∧ (t.banks.get i.other).seq = s.banks.seq ∧
          (t.banks.get i.other).deadline = s.cfgNat StationConfig.period * 125)) ∧
    (∀ k : Nat, s.calendar.state ≠ .inactive → s.calendar.countdown = some k → s.loader.station ≠ .numbering →
      (2 ≤ k → ∃ t, exec .cycleBoundary s = .next t ∧ t.calendar.countdown = some (k - 1) ∧
        t.calendar.claims = s.calendar.claims) ∧
      (k = 1 → ∃ t, exec .cycleBoundary s = .next t ∧ t.calendar.countdown = some 64 ∧
        t.line.set.notice = some ⟨(), 0⟩ ∧
        t.calendar.claims =
          if s.calendar.state = .active ∧ none ∈ s.calendar.claims then
            claimedList
              { s with calendar := { s.calendar with peers := s.calendar.peers.map PeerEntry.boundary } }
          else s.calendar.claims)) ∧
    (∀ (j : Nat) (e : PeerEntry), s.calendar.peers[j]? = some e → s.num.wanted ≠ some e.peer →
      ∃ t, exec .cycleBoundary s = .next t ∧
        (e.age = none → t.calendar.peers[j]? = some e) ∧
        (∀ k, e.age = some k → k < 199 → t.calendar.peers[j]? = some { e with age := some (k + 1) }) ∧
        (∀ k, e.age = some k → 199 ≤ k →
          t.calendar.peers[j]? = some { e with age := none, claimed := 0, settled := 0, serial := none })) ∧
    (∀ k : Nat, s.num.listen = some k →
      (2 ≤ k → ∃ t, exec .cycleBoundary s = .next t ∧ t.num = { s.num with listen := some (k - 1) }) ∧
      (∀ w : StationNo, k = 1 → s.num.taken.getLsbD w.val = false →
        (∀ n : StationNo, n < w → s.num.taken.getLsbD n.val = true) →
        ∃ t, exec .cycleBoundary s = .next t ∧ t.line.set.claim = some ⟨w, 0⟩ ∧
          t.num = { s.num with state := .claiming, wanted := some w, listen := none, holdOff := none })) ∧
    (∀ k : Nat, s.num.listen = none → s.num.holdOff = some k →
      (2 ≤ k → ∃ t, exec .cycleBoundary s = .next t ∧ t.num = { s.num with holdOff := some (k - 1) }) ∧
      (∀ w : StationNo, k = 1 → s.num.wanted = some w →
        ∃ t, exec .cycleBoundary s = .next t ∧
          t.num = { s.num with state := .numbered, own := some w, holdOff := none } ∧
          t.loader.station = (if s.loader.station = .numbering then .running else s.loader.station)))

/-- The lapses: a heard entry that would reach the age of 200 becomes absent and the reference is recomputed, a
different one, none and the own number clearing the slew (R6, R7, R8; log 34); a crossing entry that would reach 200
becomes not heard, with empty sets and no serial, and neither claims nor queues anything (R21). The last counts of the
suppression (R14), of a charge (R47, R55) and of quiet (R174), taken as commands of their own: each changes its own item
and nothing else. That each is taken as a command of its own, beside the boundary that also takes it, is the model's
choice (log 6). -/
def Obligations.LastCountsTakenAsCommands : Prop :=
  (∀ (n : StationNo) (s : State), s.timer.heard[n.val]? = some (some 199) →
    ∃ ref, ref = referenceOf s.num.own (s.timer.heard.set n.val none) ∧
      exec (.heardEntryLapse n) s = .next
        { s with
          timer :=
            { s.timer with
              heard := s.timer.heard.set n.val none
              ref := ref
              slew := if ref = s.timer.ref ∧ ref ≠ s.num.own then s.timer.slew else 0 } }) ∧
  (∀ (j : Fin 8) (e : PeerEntry) (s : State), s.calendar.peers[j.val]? = some e → e.age = some 199 →
    exec (.crossingPeerLapse j) s = .next
      { s with
        calendar :=
          { s.calendar with
            peers := s.calendar.peers.set j.val
              { e with age := none, claimed := 0, settled := 0, serial := none } } }) ∧
  (∀ s : State,
     (s.timer.suppress = 1 →
       exec .suppressionEnd s = .next { s with timer := { s.timer with suppress := 0 } }) ∧
     (s.laser.driver = .charging → s.laser.timeout = 1 →
       exec .chargeTimeout s = .next
         { s with laser := { s.laser with driver := .fault, level := none, timeout := 0, cause := .charge } }) ∧
     (s.req.quiet = 1 → exec .quietEnd s = .next { s with req := { s.req with quiet := 0 } }))

/-- The expiry of the notice countdown: an ACTIVE calendar with an empty position runs the claiming procedure, and a
NOTICE is queued, superseding one already there, which sets the countdown to 64 again (R30, R156). The expiry as a
command of its own is the model's choice (log 6). -/
def Obligations.NoticeCountdownExpiryQueuesANotice : Prop :=
  ∀ s : State, s.calendar.state ≠ .inactive → s.calendar.countdown = some 1 →
    exec .noticeCountdownExpiry s = .next
      { s with
        calendar :=
          { s.calendar with
            claims :=
              if s.calendar.state = .active ∧ none ∈ s.calendar.claims then claimedList s else s.calendar.claims
            countdown := some 64 }
        line :=
          { s.line with
            set := { s.line.set with notice := some ⟨(), 0⟩ }
            counters :=
              { s.line.counters with
                superseded :=
                  if s.line.set.notice = none then s.line.counters.superseded
                  else bump s.line.counters.superseded } } }

/-- The expiry of the deadline (R70, R71): with a shot in flight the close is pending; without one the bank closes, and
waits CLOSED behind a REDUCING bank, or begins REDUCING before an EMPTY one, which opens in a live station under the
next sequence number with the configured deadline (R66, R73). The reduction is that of the record as it closed, under
the configuration and the crossing bins (R80). The expiry as a command of its own is the model's choice (log 6). -/
def Obligations.DeadlineExpiryClosesTheBank : Prop :=
  ∀ (s : State) (i : BankId), (s.banks.get i).state = .accepting → (s.banks.get i.other).state ≠ .accepting →
    (s.banks.get i).deadline = 1 →
    ((s.banks.get i).inFlight = 1 →
      exec .deadlineExpiry s = .next
        { s with banks := s.banks.put i { s.banks.get i with deadline := 0, closePending := true } }) ∧
    ((s.banks.get i).inFlight = 0 → (s.banks.get i.other).state = .reducing →
      exec .deadlineExpiry s = .next
        { s with banks := s.banks.put i { s.banks.get i with state := .closed, deadline := 0, closePending := false } }) ∧
    ((s.banks.get i).inFlight = 0 → (s.banks.get i.other).state = .empty →
      ∃ t r, exec .deadlineExpiry s = .next t ∧ t.red = some r ∧ r.bank = i ∧ r.result.seq = (s.banks.get i).seq ∧
        r = reduce s.loader.cfg s.calendar.peers i (s.banks.get i) ∧
        t.banks.get i = { s.banks.get i with state := .reducing, deadline := 0, closePending := false } ∧
        (s.live = false → t.banks.get i.other = s.banks.get i.other ∧ t.banks.seq = s.banks.seq) ∧
        (s.live = true →
          t.banks.get i.other =
            { state := .accepting, seq := s.banks.seq, sums := List.replicate 800 0, bg := 0, esum := 0, m := 0,
              inFlight := 0, deadline := s.cfgNat StationConfig.period * 125, closePending := false, lowSat := none,
              slip := false, suspects := 0 } ∧
          t.banks.seq = s.banks.seq + 1) ∧
        { t with banks := s.banks, red := s.red } = s)

/-- The expiry of the listen countdown (R166, R167): the unit enters CLAIMING, wants the lowest number that is not in
the taken set, and queues a CLAIM for it; with every number taken it returns to LISTEN. The expiry as a command of its
own is the model's choice (log 6). -/
def Obligations.ListenExpiryChoosesTheLowestFreeNumber : Prop :=
  ∀ s : State, s.num.listen = some 1 →
    (∀ w : StationNo, s.num.taken.getLsbD w.val = false → (∀ n : StationNo, n < w → s.num.taken.getLsbD n.val = true) →
      exec .listenCountdownExpiry s = .next
        { s with
          num := { s.num with state := .claiming, wanted := some w, listen := none, holdOff := none }
          line := Line.queueClaim w s.line }) ∧
    ((∀ n : StationNo, s.num.taken.getLsbD n.val = true) →
      exec .listenCountdownExpiry s = .next
        { s with
          num := { s.num with state := .listen, taken := 0, wanted := none, listen := some 250, holdOff := none } })

/-- The expiry of the hold-off (R165, R168): the unit is NUMBERED with the wanted number, the reference is recomputed
(R7), and a NUMBERING station enters RUNNING, where the calendar is ACTIVE, has claimed under the new number (R26), with
a NOTICE queued (R24), an IDLE driver charges to Lt unless the band is INHIBIT (R42, R45), and with no bank ACCEPTING an
EMPTY bank opens, bank A of two, and none beside a CLOSED one (R75). The crossing peer entry of the number is inactive
from now on (R18), and the number leaves the peer set of every track (R146). A station that becomes its own reference
has no slew (R8), also where its number was the reference before as another's; that the slew goes at once is the model's
reading (log 34). The expiry as a command of its own is the model's choice (log 6). -/
def Obligations.HoldOffExpiryNumbersTheStation : Prop :=
  ∀ (s : State) (w : StationNo), s.num.holdOff = some 1 → s.num.wanted = some w →
    ∃ t, exec .holdOffExpiry s = .next t ∧
      t.num = { s.num with state := .numbered, own := some w, holdOff := none } ∧
      (∃ ref, ref = referenceOf (some w) s.timer.heard ∧
        t.timer = { s.timer with ref := ref, slew := if ref = s.timer.ref ∧ ref ≠ some w then s.timer.slew else 0 }) ∧
      t.expo = s.expo ∧ t.front = s.front ∧ t.red = s.red ∧ t.req = s.req ∧
      t.calendar.peers = s.calendar.peers.map (fun e =>
        if e.peer = w then { e with age := none, claimed := 0, settled := 0, serial := none } else e) ∧
      (∃ tracks, t.tracker = { s.tracker with tracks := tracks } ∧ tracks.length = s.tracker.tracks.length ∧
        ∀ (j : Nat) (x : Track), s.tracker.tracks[j]? = some x →
          ∃ peers, tracks[j]? = some { x with peers := peers } ∧
            ∀ k : Nat, k < 16 → peers.getLsbD k = (x.peers.getLsbD k && decide (k ≠ w.val))) ∧
      (s.loader.station ≠ .numbering →
        t.loader = s.loader ∧ t.laser = s.laser ∧ t.banks = s.banks ∧ t.line = s.line ∧
          t.calendar.state = s.calendar.state ∧ t.calendar.claims = s.calendar.claims) ∧
      (s.loader.station = .numbering →
        t.loader = { s.loader with station := .running } ∧ t.calendar.state = .active ∧
          t.calendar.countdown = some 64 ∧ t.line.set.notice = some ⟨(), 0⟩ ∧
          (s.laser.driver = .idle → s.laser.band ≠ .inhibit →
            t.laser = { s.laser with driver := .charging, level := some s.laser.lt, timeout := 2 }) ∧
          (s.laser.driver ≠ .idle ∨ s.laser.band = .inhibit → t.laser = s.laser) ∧
          s.banks.EnteredLive (s.cfgNat StationConfig.period) t.banks ∧
          t.calendar.claims = claimedList
            { s with num := { s.num with own := some w }, calendar := { s.calendar with peers := t.calendar.peers } } ∧
          t.calendar.releases = s.calendar.releases)

/-! ## The instrument: charge, supply, energy, window -/

/-- A charge done (R46): at a CHARGING driver the timeout count becomes 0, and the driver is CHARGED at its level if the
cap of the band allows it, or is bled and charges again to Lt with a timeout count of 2 if the level is above it; in
every other state it is ignored. The hypotheses on a CHARGING driver are those of R45: RUNNING, a charge level, and a
band other than INHIBIT. -/
def Obligations.ChargeDoneInEveryDriverState : Prop :=
  ∀ s : State,
    (∀ k, s.laser.driver = .charging → s.laser.level = some k → k ≤ bandCap s.laser.band →
      exec .chargeDone s = .next { s with laser := { s.laser with driver := .charged, timeout := 0 } }) ∧
    (∀ k, s.laser.driver = .charging → s.laser.level = some k → bandCap s.laser.band < k →
      s.loader.station = .running → s.laser.band ≠ .inhibit →
      exec .chargeDone s = .next
        { s with laser := { s.laser with driver := .charging, level := some s.laser.lt, timeout := 2 } }) ∧
    (s.laser.driver ≠ .charging → exec .chargeDone s = .next s)

/-- A band change (R43, R44): Lt is recomputed, and the driver acts by its state and the new band; a report of the band
already held does nothing. `lt` is min(L, cap), 0 in INHIBIT, with L 0 where no configuration is held. -/
def Obligations.BandChangeByDriverState : Prop :=
  ∀ (s : State) (band : Band) (lt : Nat),
    lt = min (s.cfgNat StationConfig.level) (match band with
      | .full => 15
      | .reduced => 12
      | .low => 8
      | .inhibit => 0) →
    (band = s.laser.band → exec (.bandChange band) s = .next s) ∧
    (band ≠ s.laser.band → s.laser.driver = .idle → s.loader.station = .running → band ≠ .inhibit →
      exec (.bandChange band) s = .next
        { s with laser :=
          { s.laser with band := band, lt := lt, driver := .charging, level := some lt, timeout := 2 } }) ∧
    (band ≠ s.laser.band → s.laser.driver = .idle → s.loader.station ≠ .running ∨ band = .inhibit →
      exec (.bandChange band) s = .next { s with laser := { s.laser with band := band, lt := lt } }) ∧
    (band ≠ s.laser.band → s.laser.driver = .charging → band ≠ .inhibit →
      exec (.bandChange band) s = .next { s with laser := { s.laser with band := band, lt := lt } }) ∧
    (band ≠ s.laser.band → s.laser.driver = .charging ∨ s.laser.driver = .charged → band = .inhibit →
      exec (.bandChange band) s = .next
        { s with laser :=
          { s.laser with band := band, lt := lt, driver := .idle, level := none, timeout := 0 } }) ∧
    (∀ k, band ≠ s.laser.band → s.laser.driver = .charged → s.laser.level = some k → band ≠ .inhibit →
      (k ≤ bandCap band →
        exec (.bandChange band) s = .next { s with laser := { s.laser with band := band, lt := lt } }) ∧
      (bandCap band < k → s.loader.station = .running →
        exec (.bandChange band) s = .next
          { s with laser :=
            { s.laser with band := band, lt := lt, driver := .charging, level := some lt, timeout := 2 } })) ∧
    (band ≠ s.laser.band → s.laser.driver = .fired ∨ s.laser.driver = .fault →
      exec (.bandChange band) s = .next { s with laser := { s.laser with band := band, lt := lt } })

/-- Every energy reading adds its code to the current-cycle sum, which stops at 65,535, whatever the driver, the station
or the kind of reading; ring, total and limit stay (R57). -/
def Obligations.EveryReadingIsCounted : Prop :=
  ∀ (code : Byte) (s : State), ∃ t, exec (.energyReading code) s = .next t ∧
    t.expo = { s.expo with current := min (s.expo.current + code.toNat) 65535 }

/-- A reading of 1..255 for the shot in flight while its range samples are still being taken (R51, R64): the dud run is
0, the front end holds the code, and the driver charges again to Lt in a RUNNING station outside INHIBIT, or becomes
IDLE. Banks, reduction and the rest stay. Taken while the window is HOLDING, the reading completes the shot: the shot
record is removed, and a shot to be accumulated is added to its ACCEPTING bank, which goes on short of N shots and with
no close pending; the N-th shot, and one that a pending close waited for, closes its bank, which waits CLOSED behind a
REDUCING one or begins REDUCING before an EMPTY one (R69, R71, R73); another shot delivers nothing (R65, R67, R77). A
dud (R52, R55) clears the in-flight count of the shot's bank, makes the disposition DUD and raises the dud run, and at 3
the driver goes to FAULT with cause "dud". A close that was pending is taken at the dud: the bank waits CLOSED behind a
REDUCING one, or begins REDUCING before an EMPTY one, which opens in a live station, and is reduced as it closed (R71,
R73, R80). -/
def Obligations.ReadingsOfTheShotInFlight : Prop :=
  (∀ (code : Byte) (s : State) (sh : Shot), code ≠ 0 → s.laser.driver = .fired →
     s.front.shot = some sh → s.front.window = .capturing →
     exec (.energyReading code) s = .next
       { s with
         expo := { s.expo with current := min (s.expo.current + code.toNat) 65535 }
         front := { s.front with shot := some { sh with code := some code.toNat } }
         laser :=
           if s.loader.station = .running ∧ s.laser.band ≠ .inhibit then
             { s.laser with dudRun := 0, driver := .charging, level := some s.laser.lt, timeout := 2 }
           else { s.laser with dudRun := 0, driver := .idle, level := none, timeout := 0 } }) ∧
  (∀ (s : State) (sh : Shot), s.laser.driver = .fired → s.front.shot = some sh → s.front.window = .capturing →
     (s.banks.get sh.bank).state = .accepting → (s.banks.get sh.bank).closePending = false →
     s.expo.current ≤ 65535 →
     exec (.energyReading 0) s = .next
       { s with
         front := { s.front with shot := some { sh with disposition := .dud } }
         banks := s.banks.put sh.bank { s.banks.get sh.bank with inFlight := 0 }
         laser :=
           if 2 ≤ s.laser.dudRun then
             { s.laser with dudRun := 3, driver := .fault, level := none, timeout := 0, cause := .dud }
           else if s.loader.station = .running ∧ s.laser.band ≠ .inhibit then
             { s.laser with
               dudRun := s.laser.dudRun + 1, driver := .charging, level := some s.laser.lt, timeout := 2 }
           else { s.laser with dudRun := s.laser.dudRun + 1, driver := .idle, level := none, timeout := 0 } }) ∧
  (∀ (code : Byte) (s : State) (sh : Shot) (b : Bank), code ≠ 0 → s.laser.driver = .fired →
     s.front.shot = some sh → s.front.window = .holding → b = s.banks.get sh.bank →
     (sh.disposition = .accumulate → b.state = .accepting → b.m + 1 ≠ s.profileShots → b.closePending = false →
       exec (.energyReading code) s = .next
         { s with
           expo := { s.expo with current := min (s.expo.current + code.toNat) 65535 }
           front := { s.front with window := .idle, shot := none }
           banks := s.banks.put sh.bank (b.addShot { sh with code := some code.toNat })
           laser :=
             if s.loader.station = .running ∧ s.laser.band ≠ .inhibit then
               { s.laser with dudRun := 0, driver := .charging, level := some s.laser.lt, timeout := 2 }
             else { s.laser with dudRun := 0, driver := .idle, level := none, timeout := 0 } }) ∧
     (sh.disposition = .accumulate → b.state = .accepting → b.m + 1 = s.profileShots ∨ b.closePending = true →
       (s.banks.get sh.bank.other).state = .reducing →
       ∃ t, exec (.energyReading code) s = .next t ∧ t.red = s.red ∧
         t.front = { s.front with window := .idle, shot := none } ∧
         t.expo = { s.expo with current := min (s.expo.current + code.toNat) 65535 } ∧
         t.laser =
           (if s.loader.station = .running ∧ s.laser.band ≠ .inhibit then
             { s.laser with dudRun := 0, driver := .charging, level := some s.laser.lt, timeout := 2 }
           else { s.laser with dudRun := 0, driver := .idle, level := none, timeout := 0 }) ∧
         t.banks = s.banks.put sh.bank
           { b.addShot { sh with code := some code.toNat } with state := .closed, closePending := false }) ∧
     (sh.disposition = .accumulate → b.state = .accepting → b.m + 1 = s.profileShots ∨ b.closePending = true →
       (s.banks.get sh.bank.other).state = .empty →
       ∃ t, exec (.energyReading code) s = .next t ∧
         t.red = some (reduce s.loader.cfg s.calendar.peers sh.bank (b.addShot { sh with code := some code.toNat })) ∧
         t.front = { s.front with window := .idle, shot := none } ∧
         t.expo = { s.expo with current := min (s.expo.current + code.toNat) 65535 } ∧
         t.laser =
           (if s.loader.station = .running ∧ s.laser.band ≠ .inhibit then
             { s.laser with dudRun := 0, driver := .charging, level := some s.laser.lt, timeout := 2 }
           else { s.laser with dudRun := 0, driver := .idle, level := none, timeout := 0 }) ∧
         t.banks.get sh.bank =
           { b.addShot { sh with code := some code.toNat } with state := .reducing, closePending := false } ∧
         (s.live = true →
           (t.banks.get sh.bank.other).state = .accepting ∧ (t.banks.get sh.bank.other).seq = s.banks.seq ∧
           (t.banks.get sh.bank.other).m = 0) ∧
         (s.live = false → t.banks.get sh.bank.other = s.banks.get sh.bank.other)) ∧
     (sh.disposition ≠ .accumulate →
       exec (.energyReading code) s = .next
         { s with
           expo := { s.expo with current := min (s.expo.current + code.toNat) 65535 }
           front := { s.front with window := .idle, shot := none }
           laser :=
             if s.loader.station = .running ∧ s.laser.band ≠ .inhibit then
               { s.laser with dudRun := 0, driver := .charging, level := some s.laser.lt, timeout := 2 }
             else { s.laser with dudRun := 0, driver := .idle, level := none, timeout := 0 } })) ∧
  (∀ (s : State) (sh : Shot) (b : Bank), s.laser.driver = .fired → s.front.shot = some sh →
     b = s.banks.get sh.bank → b.state = .accepting → b.closePending = true →
     ((s.banks.get sh.bank.other).state = .reducing →
       ∃ t, exec (.energyReading 0) s = .next t ∧ t.red = s.red ∧
         t.banks = s.banks.put sh.bank { b with state := .closed, inFlight := 0, closePending := false }) ∧
     ((s.banks.get sh.bank.other).state = .empty →
       ∃ t r, exec (.energyReading 0) s = .next t ∧ t.red = some r ∧ r.bank = sh.bank ∧
         r = reduce s.loader.cfg s.calendar.peers sh.bank b ∧
         t.banks.get sh.bank = { b with state := .reducing, inFlight := 0, closePending := false } ∧
         (s.live = true →
           (t.banks.get sh.bank.other).state = .accepting ∧ (t.banks.get sh.bank.other).seq = s.banks.seq) ∧
         (s.live = false → t.banks.get sh.bank.other = s.banks.get sh.bank.other)))

/-- A reading while the driver is not FIRED is a stray emission (R54, R55): it is counted, and the driver is bled and
goes to FAULT with cause "stray", or keeps the cause it has in FAULT. No bank, no shot and no dud run is touched. -/
def Obligations.StrayEmissionLatchesTheFault : Prop :=
  ∀ (code : Byte) (s : State), s.laser.driver ≠ .fired →
    exec (.energyReading code) s = .next
      { s with
        expo := { s.expo with current := min (s.expo.current + code.toNat) 65535 }
        laser :=
          if s.laser.driver = .fault then s.laser
          else { s.laser with driver := .fault, level := none, timeout := 0, cause := .stray } }

/-- The end of the shot window with the driver still FIRED is an energy reading of 0 (R53): the in-flight count of the
shot's bank is cleared, nothing is accumulated, and without a pending close the banks and the reduction stay otherwise
as they are; with its samples complete the shot is then removed (R65). With the driver no longer FIRED it does nothing.
That the command is taken so at a window still CAPTURING, which goes on capturing, is the model's choice (log 37). -/
def Obligations.WindowEndIsAReadingOfZero : Prop :=
  ∀ (s : State) (sh : Shot), s.front.shot = some sh → s.expo.current ≤ 65535 →
    (s.laser.driver = .fired →
      ∃ t, exec .shotWindowEnd s = .next t ∧ exec (.energyReading 0) s = .next t ∧
        (s.front.window = .holding → t.front = { s.front with window := .idle, shot := none }) ∧
        t.expo = s.expo ∧
        (t.banks.get sh.bank).sums = (s.banks.get sh.bank).sums ∧
        (t.banks.get sh.bank).bg = (s.banks.get sh.bank).bg ∧
        (t.banks.get sh.bank).esum = (s.banks.get sh.bank).esum ∧
        (t.banks.get sh.bank).m = (s.banks.get sh.bank).m ∧
        (t.banks.get sh.bank).lowSat = (s.banks.get sh.bank).lowSat ∧
        ((s.banks.get sh.bank).state = .accepting → (t.banks.get sh.bank).inFlight = 0) ∧
        ((s.banks.get sh.bank).state = .accepting → (s.banks.get sh.bank).closePending = false →
          t.banks = s.banks.put sh.bank { s.banks.get sh.bank with inFlight := 0 } ∧ t.red = s.red) ∧
        ((s.banks.get sh.bank).state ≠ .accepting → t.banks = s.banks ∧ t.red = s.red)) ∧
    (s.laser.driver ≠ .fired → exec .shotWindowEnd s = .next s)

/-- The capture is complete before the reading has come (R62, R63, R64): the window is HOLDING, the shot record holds
the sample of every bin, and the pre-trigger record the latest 32 samples. That the bins up to 799 are those the command
carries, and that the age of the window stays as it was, is the model's choice (log 4), and so is its count of the
conversions made (log 3). -/
def Obligations.CaptureCompleteHoldsTheShot : Prop :=
  ∀ (samples : List Sample) (s : State) (sh : Shot), s.front.shot = some sh → s.front.window = .capturing →
    sh.code = none → sh.disposition ≠ .dud → (sh.disposition = .discard → s.laser.driver = .fired) →
    sh.range.length + samples.length = 800 →
    exec (.rangeCaptureComplete samples) s = .next
      { s with
        front :=
          { s.front with
            pre := (s.front.pre ++ samples).drop ((s.front.pre ++ samples).length - 32)
            window := .holding
            shot := some { sh with range := sh.range ++ samples }
            conversions := s.front.conversions + samples.length } }

/-- The capture is complete after the reading (R65, R67): the shot is delivered to its ACCEPTING bank, which adds its
samples, its background and its code, counts it, clears its in-flight count and, short of its N shots and with no close
pending, goes on accepting; the shot record is removed. The N-th shot, and a shot that a pending close waited for,
closes its bank (R69, R71, R73): with the other bank REDUCING it waits CLOSED; with the other one EMPTY it begins
REDUCING, to be reduced as it closed (R80), and the other opens in a live station. A shot found a dud or discarded
completes with nothing delivered (R65, R77). The lowest saturated bin is the lowest in which a range sample of an
accumulated shot equalled 4,095 (R67). That the bins up to 799 are those the command carries is the model's choice (log
4), and so is its count of the conversions made (log 3). -/
def Obligations.CaptureCompleteAccumulatesTheShot : Prop :=
  (∀ (samples : List Sample) (s : State) (sh : Shot) (b : Bank) (code : Nat), s.front.shot = some sh →
     s.front.window = .capturing → sh.code = some code → sh.disposition = .accumulate →
     sh.range.length + samples.length = 800 → b = s.banks.get sh.bank → b.state = .accepting → b.sums.length = 800 →
     b.m + 1 ≠ s.profileShots → b.closePending = false →
     ∃ t x, exec (.rangeCaptureComplete samples) s = .next t ∧ t.banks = s.banks.put sh.bank x ∧
       t.front.window = .idle ∧ t.front.shot = none ∧
       (∀ n : Nat, n < 800 → x.sums[n]? =
         some (b.sums.getD n 0 + ((sh.range ++ samples).getD n 0).toNat)) ∧
       x = b.addShot { sh with range := sh.range ++ samples } ∧ x.slip = b.slip ∧ x.suspects = b.suspects ∧
       x.sums.length = 800 ∧ x.bg = b.bg + (sh.pre.map BitVec.toNat).sum ∧ x.esum = b.esum + code ∧ x.m = b.m + 1 ∧
       x.inFlight = 0 ∧ x.state = .accepting ∧ x.deadline = b.deadline ∧ x.seq = b.seq ∧
       { t with front := s.front, banks := s.banks } = s) ∧
  (∀ (samples : List Sample) (s : State) (sh : Shot) (b : Bank) (code : Nat), s.front.shot = some sh →
     s.front.window = .capturing → sh.code = some code → sh.disposition = .accumulate →
     sh.range.length + samples.length = 800 → b = s.banks.get sh.bank → b.state = .accepting →
     b.m + 1 = s.profileShots ∨ b.closePending = true →
     ((s.banks.get sh.bank.other).state = .reducing →
       ∃ t, exec (.rangeCaptureComplete samples) s = .next t ∧ (t.banks.get sh.bank).state = .closed ∧
         (t.banks.get sh.bank).m = b.m + 1 ∧ (t.banks.get sh.bank).inFlight = 0 ∧
         (t.banks.get sh.bank).closePending = false ∧
         t.banks.get sh.bank.other = s.banks.get sh.bank.other ∧ t.red = s.red) ∧
     ((s.banks.get sh.bank.other).state = .empty →
       ∃ t r, exec (.rangeCaptureComplete samples) s = .next t ∧ t.red = some r ∧ r.bank = sh.bank ∧
         r = reduce s.loader.cfg s.calendar.peers sh.bank (b.addShot { sh with range := sh.range ++ samples }) ∧
         (t.banks.get sh.bank).state = .reducing ∧ (t.banks.get sh.bank).m = b.m + 1 ∧
         (t.banks.get sh.bank).inFlight = 0 ∧ (t.banks.get sh.bank).closePending = false ∧
         (s.live = true →
           (t.banks.get sh.bank.other).state = .accepting ∧ (t.banks.get sh.bank.other).seq = s.banks.seq ∧
           (t.banks.get sh.bank.other).m = 0) ∧
         (s.live = false → t.banks.get sh.bank.other = s.banks.get sh.bank.other))) ∧
  (∀ (samples : List Sample) (s : State) (sh : Shot), s.front.shot = some sh → s.front.window = .capturing →
     sh.range.length + samples.length = 800 →
     sh.disposition = .dud ∨ (sh.disposition = .discard ∧ (sh.code ≠ none ∨ s.laser.driver ≠ .fired)) →
     exec (.rangeCaptureComplete samples) s = .next
       { s with
         front :=
           { s.front with
             pre := (s.front.pre ++ samples).drop ((s.front.pre ++ samples).length - 32)
             window := .idle
             shot := none
             conversions := s.front.conversions + samples.length } }) ∧
  (∀ (b : Bank) (sh : Shot),
     (b.sums.length = 800 → sh.range.length = 800 →
       (b.addShot sh).sums.length = 800 ∧
         ∀ n : Nat, n < 800 → (b.addShot sh).sums[n]? = some (b.sums.getD n 0 + (sh.range.getD n 0).toNat)) ∧
     (b.addShot sh).bg = b.bg + (sh.pre.map BitVec.toNat).sum ∧
     (∀ code, sh.code = some code → (b.addShot sh).esum = b.esum + code) ∧
     (b.addShot sh).m = b.m + 1 ∧ (b.addShot sh).inFlight = 0 ∧ (b.addShot sh).state = b.state ∧
     (b.addShot sh).seq = b.seq ∧ (b.addShot sh).deadline = b.deadline ∧
     (b.addShot sh).closePending = b.closePending ∧
     (∀ n, (b.addShot sh).lowSat = some n →
       (b.lowSat = some n ∨ sh.range[n]? = some 4095) ∧ (∀ k, b.lowSat = some k → n ≤ k) ∧
         (∀ k : Nat, sh.range[k]? = some 4095 → n ≤ k)) ∧
     ((b.addShot sh).lowSat = none ↔ b.lowSat = none ∧ ∀ k : Nat, sh.range[k]? ≠ some 4095))

/-! ## Reduction and layer extraction -/

/-- The quotient of R89 is rounded to the nearest integer, with halves away from zero, and clamped (R90, R91): with
numerator Net × (n+1)² × 49 and divisor q = esum × 16, twice the distance of the rounded value from the quotient is at
most q, an exact half goes to the greater magnitude, a net signal and its negation give opposite values, and the
intensity is the rounded value clamped to −4,194,304..4,194,303. -/
def Obligations.NormalizedIntensityIsRoundedAndClamped : Prop :=
  ∀ (esum n : Nat) (net numerator : Int), 0 < esum → numerator = net * (((n + 1) ^ 2 * 49 : Nat) : Int) →
    ∃ i : Int,
      2 * |i * (esum * 16) - numerator| ≤ esum * 16 ∧
      (2 * |i * (esum * 16) - numerator| = esum * 16 → |numerator| < |i| * (esum * 16)) ∧
      roundAway numerator (esum * 16) = i ∧ roundAway (-numerator) (esum * 16) = -i ∧
      intensityOf esum n net = max (-4194304) (min 4194303 i)

/-- The background is bg / 32 to nearest, halves up (R87), the noise floor is the mean magnitude of the net signal of
bins 736..799, halves up and at least 1 (R92), and the classes are those of R93 and R94. -/
def Obligations.BackgroundFloorAndClasses : Prop :=
  (∀ bg : Nat, 32 * background bg ≤ bg + 16 ∧ bg + 16 < 32 * background bg + 32) ∧
  (∀ net : List Int, net.length = 800 →
    noiseFloor net =
      max 1 (((((List.range 64).map (fun j => (net.getD (736 + j) 0).natAbs)).sum) + 32) / 64)) ∧
  (∀ (tMin fraw : Nat) (net i : Int), 1 ≤ fraw → 1 ≤ tMin →
    (classOf tMin fraw net i = .strong ↔ 4 * (fraw : Int) ≤ net ∧ (tMin : Int) ≤ i) ∧
    (classOf tMin fraw net i = .weak ↔ net < 2 * (fraw : Int) ∨ i < (((tMin + 1) / 2 : Nat) : Int)))

/-- The datum height of R107: the formula, its range over bins 0..799, and its strict rise from bin to bin by at least 5
m and at most 10 m. -/
def Obligations.DatumHeightRisesStrictly : Prop :=
  ∀ (elevation c n : Nat), elevation ≤ 4000 → 512 ≤ c → c ≤ 1024 → n ≤ 799 →
    datumHeight elevation c n = elevation + ((10 * n + 5) * c + 512) / 1024 ∧
    3 ≤ datumHeight elevation c n ∧ datumHeight elevation c n ≤ 11995 ∧
    datumHeight elevation c n + 5 ≤ datumHeight elevation c (n + 1) ∧
    datumHeight elevation c (n + 1) ≤ datumHeight elevation c n + 10

/-- The scan of a classed profile (R97..R104, R106), for every profile of 800 bins. It ends, and the runs it recorded
are those of the profile from n0 up, in order: each begins at the first three strong bins not below the search, ends
before the first three weak bins above its base, which give its top, or has no top and is the last, and its peak is its
lowest bin of greatest intensity; the search goes on above the three weak bins. The run with base n0 is the obscuring
run, the others are the candidates, at most six, ascending without overlap. The scan ends in a run without a top, whose
base is the reach bin, at a start found beside six candidates, or with no further start; in both latter cases the reach
bin is 799. -/
def Obligations.ScanFindsAscendingRuns : Prop :=
  ∀ (n0 : Nat) (classes : List BinClass) (intensity : List Int), n0 ≤ 40 → classes.length = 800 →
    intensity.length = 800 →
    ∃ k, k = scanProfile n0 classes intensity ∧ k.mode = .ended ∧ k.candidates.length ≤ 6 ∧
      RunsFrom classes intensity n0 k.runs ∧ k.EndOk classes n0 ∧
      (∀ r, k.obscuring = some r → r.base = n0) ∧ (∀ r ∈ k.candidates, n0 < r.base) ∧
      (∀ r, k.obscuring = some r ∨ r ∈ k.candidates →
        n0 ≤ r.base ∧ (∀ j : Nat, j < 3 → classes[r.base + j]? = some .strong) ∧
        (∀ top, r.top = some top → r.base + 2 ≤ top ∧ (∀ j : Nat, 1 ≤ j → j ≤ 3 → classes[top + j]? = some .weak)) ∧
        (r.base ≤ r.peakBin ∧ r.peakBin ≤ r.top.getD 799 ∧ intensity[r.peakBin]? = some r.peakI)) ∧
      k.candidates.Pairwise (fun x y => ∃ top, x.top = some top ∧ top + 3 < y.base) ∧
      (∀ r, k.obscuring = some r → r.top = none → k.candidates = []) ∧
      (∀ r x, k.obscuring = some r → x ∈ k.candidates → ∃ top, r.top = some top ∧ top + 3 < x.base)

/-- The reduction of a closed bank (R80, R82, R86): a profile of fewer than N/4 shots is thin, has no reach, no
visibility, no floor and no candidates, and keeps the slip mark and the saturation of its bank. Another has the
background, the net signals, the intensities, the floor and the classes of its bins (R87, R88, R89, R92, R93, R94) and
the scan of them from the overlap bin up (R97). Its reach height is that of the reach bin (R106); obscured, fully
obscured and the visibility follow the obscuring run (R105), the "more" flag the end of the scan by the limit (R103);
and each of at most six candidates has the heights of its run's base and top, its peak, and the suspect mark where its
span meets the crossing bins of an entry whose index is in the suspect peer set (R102, R107, R108, R109). The crossing
bins are all the reduction takes from the crossing peer table (R82). -/
def Obligations.ReductionOfAClosedBank : Prop :=
  ∀ (c : StationConfig) (peers : List PeerEntry) (i : BankId) (b : Bank) (r : Reduction),
    r = reduce (some c) peers i b →
    r.bank = i ∧ r.result.seq = b.seq ∧ r.result.m = b.m ∧ r.result.slip = b.slip ∧
    r.result.saturated = b.lowSat.isSome ∧ (r.result.thin = true ↔ b.m < 2 ^ c.exponent / 4) ∧
    (∀ others : List PeerEntry,
      others.map (fun e => (e.lo, e.hi)) = peers.map (fun e => (e.lo, e.hi)) → reduce (some c) others i b = r) ∧
    (b.m < 2 ^ c.exponent / 4 →
      r.work = none ∧ r.result.fraw = none ∧ r.result.reach = none ∧ r.result.visibility = none ∧
      r.result.candidates = [] ∧ r.result.obscured = false ∧ r.result.fullyObscured = false ∧
      r.result.more = false) ∧
    (2 ^ c.exponent / 4 ≤ b.m →
      r.result.candidates.length ≤ 6 ∧
      (r.result.fullyObscured = true → r.result.obscured = true ∧ r.result.visibility = none) ∧
      ∃ w, r.work = some w ∧ w.background = background b.bg ∧ w.net.length = b.sums.length ∧
        w.intensity.length = b.sums.length ∧ w.classes.length = b.sums.length ∧
        (∀ (n x : Nat), b.sums[n]? = some x →
          ∃ net level : Int, w.net[n]? = some net ∧ net = x - w.background ∧ w.intensity[n]? = some level ∧
            level = intensityOf b.esum n net ∧ w.classes[n]? = some (classOf c.tMin w.fraw net level)) ∧
        w.fraw = noiseFloor w.net ∧ 1 ≤ w.fraw ∧ r.result.fraw = some w.fraw ∧
        w.scan = scanProfile c.overlap w.classes w.intensity ∧
        r.result.reach = some (datumHeight c.elevation c.tilt w.scan.reachBin) ∧
        (r.result.more = true ↔ w.scan.cause = some .limit) ∧
        (w.scan.obscuring = none →
          r.result.obscured = false ∧ r.result.fullyObscured = false ∧ r.result.visibility = none) ∧
        (∀ x, w.scan.obscuring = some x →
          r.result.obscured = true ∧ r.result.fullyObscured = x.top.isNone ∧
          r.result.visibility = x.top.map (datumHeight c.elevation c.tilt)) ∧
        r.result.candidates.length = w.scan.candidates.length ∧
        (∀ (j : Nat) (x : Run), w.scan.candidates[j]? = some x →
          ∃ y, r.result.candidates[j]? = some y ∧ y.base = datumHeight c.elevation c.tilt x.base ∧
            y.top = x.top.map (datumHeight c.elevation c.tilt) ∧ y.peakBin = x.peakBin ∧ y.peakI = x.peakI ∧
            (y.suspect = true ↔
              ∃ (k : Nat) (e : PeerEntry), b.suspects.getLsbD k = true ∧ peers[k]? = some e ∧ x.base ≤ e.hi ∧
                e.lo ≤ x.top.getD 799)))

/-- Reduction complete (R74, R81, R118, R134): the tracker takes the result first, and in a live station queues the
REPORT and then empties the peer sets and clears the overflow flag; the reduced bank becomes EMPTY and the unit IDLE; a
CLOSED other bank begins REDUCING, to be reduced as it closed (R80), and, in a live station, the emptied bank opens. The
REPORT carries the sequence, flags, visibility and reach of the result, the overflow flag, the ceiling and one layer for
each track of the updated table in its order, with cover, origin and the number of its peers (R133). -/
def Obligations.ReductionCompleteUpdatesAndHandsOff : Prop :=
  ∀ (s : State) (r : Reduction), s.red = some r →
    ∃ t k, exec .reductionComplete s = .next t ∧ k = s.tracker.ownUpdate (s.cfgNat StationConfig.mMin) r.result ∧
      (s.live = true →
        t.tracker = { k with tracks := k.tracks.map (fun x => { x with peers := 0 }), overflow := false } ∧
        t.line.set.report =
          some ⟨composeReport r.result k (s.loader.station == .haltedDuplicate), 0⟩ ∧
        ∃ f, t.line.set.report = some ⟨f, 0⟩ ∧ f.seq = r.result.seq ∧
          f.flags =
            { thin := r.result.thin, obscured := r.result.obscured, fullyObscured := r.result.fullyObscured,
              slip := r.result.slip, more := r.result.more, saturated := r.result.saturated, overflow := k.overflow,
              halted := decide (s.loader.station = .haltedDuplicate) } ∧
          f.visibility = (r.result.visibility.map (BitVec.ofNat 16)).getD 0xFFFF ∧
          f.ceiling = (k.ceiling.map (BitVec.ofNat 16)).getD 0xFFFF ∧
          f.reach = (r.result.reach.map (BitVec.ofNat 16)).getD 0xFFFF ∧
          f.layers.length = k.tracks.length ∧
          ∀ (j : Nat) (x : Track), k.tracks[j]? = some x →
            f.layers[j]? = some
              { id := x.id, base := BitVec.ofNat 16 x.base, top := (x.top.map (BitVec.ofNat 16)).getD 0xFFFF,
                cover := BitVec.ofNat 4 x.cover, peerOnly := decide (x.origin = .peerOnly), spare := 0,
                peers := BitVec.ofNat 8 ((List.range 16).countP (fun n => x.peers.getLsbD n)) }) ∧
      (s.live = false → t.tracker = k ∧ t.line = s.line) ∧
      ((s.banks.get r.bank.other).state = .accepting →
        t.banks.get r.bank.other = s.banks.get r.bank.other ∧ (t.banks.get r.bank).state = .empty ∧ t.red = none) ∧
      ((s.banks.get r.bank.other).state = .closed →
        t.red = some (reduce s.loader.cfg s.calendar.peers r.bank.other (s.banks.get r.bank.other))) ∧
      ((s.banks.get r.bank.other).state = .closed → s.live = true →
        (t.banks.get r.bank.other).state = .reducing ∧ (t.banks.get r.bank).state = .accepting ∧
        (t.banks.get r.bank).seq = s.banks.seq ∧ t.red.map Reduction.bank = some r.bank.other) ∧
      ((s.banks.get r.bank.other).state = .closed → s.live = false →
        (t.banks.get r.bank.other).state = .reducing ∧ (t.banks.get r.bank).state = .empty) ∧
      ((s.banks.get r.bank.other).state = .empty → s.live = true →
        t.banks.a.state = .accepting ∧ t.banks.b.state = .empty ∧ t.red = none) ∧
      ((s.banks.get r.bank.other).state = .empty → s.live = false →
        t.banks.a.state = .empty ∧ t.banks.b.state = .empty ∧ t.red = none) ∧
      { t with tracker := s.tracker, line := s.line, banks := s.banks, red := s.red } = s

/-! ## The layer tracker -/

/-- The cover of R131: 8h/Len to nearest with halves up, 0 for an empty history, within 0..8, 0 exactly without a hit, 8
when every outcome is a hit; a history holds at most 16 outcomes. The ceiling of R132 after an own update: the base of
the lowest own-origin track with a cover of 5 oktas or more, or absent. -/
def Obligations.CoverAndCeiling : Prop :=
  (∀ t : Track,
     (t.history = [] → t.cover = 0) ∧
     (t.history ≠ [] → t.cover = (t.hits * 16 + t.history.length) / (2 * t.history.length)) ∧
     t.cover ≤ 8 ∧ (t.history.length ≤ 16 → (t.cover = 0 ↔ t.hits = 0)) ∧
     (t.history ≠ [] → t.hits = t.history.length → t.cover = 8)) ∧
  (∀ (mMin : Nat) (r : ResultRecord) (k u : Tracker), u = k.ownUpdate mMin r → k.Ok →
     (∀ h, u.ceiling = some h →
       (∃ t ∈ u.tracks, t.base = h ∧ t.origin = .own ∧ 5 ≤ t.cover) ∧
       ∀ t ∈ u.tracks, t.origin = .own → 5 ≤ t.cover → h ≤ t.base) ∧
     (u.ceiling = none → ∀ t ∈ u.tracks, t.origin = .own → t.cover < 5))

/-- The matching of R121: every match pairs a candidate with a track within whose tolerance it lies, no candidate and no
track is used twice, and every pair within tolerance is matched, or one of its members is used by a match that comes
before it: at a lesser distance or, at the same, with the lower track base or, at the same, with the lower candidate
base. -/
def Obligations.MatchingUsesEachMemberOnce : Prop :=
  ∀ (mMin : Nat) (candidates : List Candidate) (tracks : List Track),
    (∀ p ∈ matchesOf mMin candidates tracks, ∃ c t, candidates[p.candidate]? = some c ∧ tracks[p.track]? = some t ∧
      t.within mMin c.base = true) ∧
    (matchesOf mMin candidates tracks).Pairwise (fun p q => p.candidate ≠ q.candidate ∧ p.track ≠ q.track) ∧
    (∀ (i j : Nat) (c : Candidate) (t : Track), candidates[i]? = some c → tracks[j]? = some t →
      t.within mMin c.base = true →
      ∃ p ∈ matchesOf mMin candidates tracks, (p.candidate = i ∨ p.track = j) ∧
        ∀ (x : Candidate) (y : Track), candidates[p.candidate]? = some x → tracks[p.track]? = some y →
          distance x.base y.base < distance c.base t.base ∨
            (distance x.base y.base = distance c.base t.base ∧
              (y.base < t.base ∨ (y.base = t.base ∧ x.base ≤ c.base))))

/-- The outcomes of a matched or judged track (R122..R126): a hit or a promotion smooths the base a quarter of the way,
takes top and peak and resets the counts; a suspect match changes nothing; a track above the reach is unseen, one at or
below it is missed; a peer lapse of 1 or less removes the track. Each track is judged with the candidate that the
matching gives it, or with none (R121). The candidates that no track matched and that are not suspect are then taken in
order (R127): with room in the table each becomes a new own-origin track under the next free id (R116); in a full table
it displaces the victim, peer-only first, then of fewest hits, highest base, lower id, if that one is peer-only or has
fewer than 2 hits, and is otherwise dropped with the overflow flag set (R128). A thin result leaves own-origin tracks
and the reach as they are and lets peer-only tracks lapse (R119); another sets the last reach height (R120) and ends
with the ordering pass (R129). -/
def Obligations.OutcomesOfATrack : Prop :=
  (∀ (reach : Nat) (c : Candidate) (t : Track),
    (c.suspect = true → t.judge reach (some c) = some t) ∧
    (c.suspect = false → t.origin = .own →
      t.judge reach (some c) = some
        { t with
          history := (.hit :: t.history).take 16, base := (3 * t.base + c.base + 2) / 4, top := c.top,
          peak := some c.peakI, age := 0, unseen := 0 }) ∧
    (c.suspect = false → t.origin = .peerOnly →
      t.judge reach (some c) = some
        { t with
          origin := .own, history := [.hit], base := (3 * t.base + c.base + 2) / 4, top := c.top,
          peak := some c.peakI, age := 0, unseen := 0, lapse := none }) ∧
    (t.origin = .own → reach < t.base → t.age < 8 →
      t.judge reach none = if 15 ≤ t.unseen then none else some { t with unseen := t.unseen + 1 }) ∧
    (t.origin = .own → t.base ≤ reach → t.unseen < 16 → t.age ≤ 7 →
      t.judge reach none =
        if t.age = 7 then none else some { t with history := (.miss :: t.history).take 16, age := t.age + 1 }) ∧
    (∀ k, t.origin = .peerOnly → t.lapse = some k →
      t.judge reach none = if k ≤ 1 then none else some { t with lapse := some (k - 1) })) ∧
  (∀ (mMin : Nat) (candidates : List Candidate) (tracks : List Track),
    (freshCandidates mMin candidates tracks).Sublist candidates ∧
    ∀ (i : Nat) (c : Candidate), candidates[i]? = some c →
      (c.suspect = false → (∀ p ∈ matchesOf mMin candidates tracks, p.candidate ≠ i) →
        c ∈ freshCandidates mMin candidates tracks) ∧
      (c.suspect = true → c ∉ freshCandidates mMin candidates tracks) ∧
      (candidates.Pairwise (fun x y => x.base ≠ y.base) →
        (∃ p ∈ matchesOf mMin candidates tracks, p.candidate = i) →
        c ∉ freshCandidates mMin candidates tracks)) ∧
  (∀ (mMin reach : Nat) (candidates : List Candidate) (tracks : List Track) (given : List (Option Candidate)),
    given.length = tracks.length →
    (∀ p ∈ matchesOf mMin candidates tracks, given[p.track]? = some candidates[p.candidate]?) →
    (∀ j : Nat, j < tracks.length → (∀ p ∈ matchesOf mMin candidates tracks, p.track ≠ j) → given[j]? = some none) →
    judgeTracks mMin reach candidates tracks = (tracks.zip given).filterMap (fun x => x.1.judge reach x.2)) ∧
  (∀ (k : Tracker) (c : Candidate), k.tracks.length < 5 →
    ∃ id, NextFreeId k.tracks k.nextId id ∧
      k.takeFresh c =
        { k with
          nextId := id + 1
          tracks := k.tracks ++
            [{ id := id, origin := .own, base := c.base, top := c.top, peak := some c.peakI, history := [.hit],
               age := 0, unseen := 0, peers := 0, lapse := none }] }) ∧
  (∀ (k : Tracker) (c : Candidate) (v : Track), k.tracks.length = 5 → v ∈ k.tracks →
    (∀ u ∈ k.tracks, u ≠ v → v.VictimOver u) →
    (v.origin = .peerOnly ∨ v.hits < 2 →
      ∃ id, NextFreeId (k.tracks.erase v) k.nextId id ∧
        k.takeFresh c =
          { k with
            nextId := id + 1
            tracks := k.tracks.erase v ++
              [{ id := id, origin := .own, base := c.base, top := c.top, peak := some c.peakI, history := [.hit],
                 age := 0, unseen := 0, peers := 0, lapse := none }] }) ∧
    (v.origin = .own → 2 ≤ v.hits → k.takeFresh c = { k with overflow := true })) ∧
  (∀ (mMin reach : Nat) (r : ResultRecord) (k u : Tracker), u = k.ownUpdate mMin r →
    (r.thin = true →
      u.reach = k.reach ∧ u.nextId = k.nextId ∧ u.overflow = k.overflow ∧
      u.tracks = k.tracks.filterMap (fun t => match t.origin with
        | .own => some t
        | .peerOnly => t.lapsed)) ∧
    (r.thin = false → r.reach = some reach →
      u.reach = some reach ∧
      ∃ f, f = (freshCandidates mMin r.candidates k.tracks).foldl Tracker.takeFresh
          { k with reach := some reach, tracks := judgeTracks mMin reach r.candidates k.tracks } ∧
        u.tracks = orderingPass mMin f.tracks ∧ u.nextId = f.nextId ∧ u.overflow = f.overflow))

/-- The ordering pass (R129, R130). It ends with every adjacent pair further apart than the lower track's tolerance, in
strictly ascending order of base height, with no more tracks than before, each by id, base and origin one of those
before. A table whose tracks are so far apart already is only sorted. The order in which the tracks stand does not
matter where their ids differ. In a sorted table the first pair within the lower track's tolerance is merged, and the
pass goes on with the survivor in its place: the track with more hits, then the lower base, then the lower id survives,
and takes history, peer set, counts and lapse from both. -/
def Obligations.OrderingPassSeparatesTracks : Prop :=
  (∀ (mMin : Nat) (tracks : List Track),
    (orderingPass mMin tracks).Pairwise (fun t u => t.base + t.tol mMin < u.base) ∧
    (orderingPass mMin tracks).length ≤ tracks.length ∧
    (∀ t ∈ orderingPass mMin tracks, ∃ u ∈ tracks, u.id = t.id ∧ u.base = t.base ∧ u.origin = t.origin)) ∧
  (∀ (mMin : Nat) (tracks sorted : List Track), sorted.Perm tracks →
    sorted.Pairwise (fun t u => t.base + t.tol mMin < u.base) → orderingPass mMin tracks = sorted) ∧
  (∀ (mMin : Nat) (tracks other : List Track), other.Perm tracks → tracks.Pairwise (fun t u => t.id ≠ u.id) →
    orderingPass mMin other = orderingPass mMin tracks) ∧
  (∀ (mMin : Nat) (below above : List Track) (t u : Track),
    (below ++ t :: u :: above).Pairwise Track.Under →
    (below ++ [t]).Pairwise (fun x y => x.base + x.tol mMin < y.base) → u.base ≤ t.base + t.tol mMin →
    ∃ m, orderingPass mMin (below ++ t :: u :: above) = orderingPass mMin (below ++ m :: above) ∧
      (t.SurvivesOver u → t.Merged u m) ∧ (¬t.SurvivesOver u → u.Merged t m))

/-- A REPORT of another station (R138..R145, R160): it is counted as dispatched, and one that is not to be taken changes
no track. A taken one's usable layers are taken in order, each against the table as the layers before it left it. A
layer acts on the nearest track within whose tolerance it lies: the sender joins the peer set of an own-origin track,
and of a peer-only one whose base is smoothed and whose lapse is 3 again; a track matched already by this report leaves
the layer ignored. A layer that matches no track is adopted as a peer-only track with a lapse of 3, the sender its only
peer, above the last reach height, with a cover of 3 oktas or more and room in the table, and is ignored otherwise. A
base changed or a track adopted brings one ordering pass. At a unit that is NUMBERED a REPORT acts on nothing else
(R170). -/
def Obligations.ReportConfirmsOrAdoptsALayer : Prop :=
  (∀ (n : StationNo) (f : ReportFields) (s : State), f.layers.length ≤ 5 →
     ∃ t, exec (.report (senderOf n) f) s = .next t ∧
       t.line.counters.dispatched = bump s.line.counters.dispatched ∧
       (s.num.own = some n ∨ f.flags.halted = true ∨ s.loader.station = .loading ∨ s.loader.station = .unconfigured →
         t.tracker = s.tracker) ∧
       (s.num.own ≠ some n → f.flags.halted = false → s.loader.station ≠ .loading → s.loader.station ≠ .unconfigured →
         t.tracker = s.tracker.peerReport (s.cfgNat StationConfig.mMin) n f.layers) ∧
       (s.num.state = .numbered → { t with tracker := s.tracker } = { s with line := s.lineAfterFrame }) ∧
       t.timer = s.timer ∧ t.calendar = s.calendar ∧ t.laser = s.laser ∧ t.expo = s.expo ∧ t.front = s.front ∧
       t.banks = s.banks ∧ t.red = s.red ∧ t.loader = s.loader ∧ t.req = s.req) ∧
  (∀ (n : StationNo) (f : ReportFields) (l : LayerFields) (t : Track) (s : State),
     s.num.state = .numbered → f.layers = [l] →
     (s.num.own = some n ∨ f.flags.halted = true ∨ s.loader.station = .loading ∨ s.loader.station = .unconfigured →
       exec (.report (senderOf n) f) s = .next { s with line := s.lineAfterFrame }) ∧
     (s.num.own ≠ some n → f.flags.halted = false → s.loader.station = .running →
       l.peerOnly = false → 3 ≤ l.base.toNat → l.base.toNat ≤ 11995 → l.top = 0xFFFF → l.cover.toNat ≤ 8 →
       s.tracker.tracks = [t] → t.origin = .own → t.within (s.cfgNat StationConfig.mMin) l.base.toNat = true →
       exec (.report (senderOf n) f) s = .next
         { s with
           line := s.lineAfterFrame
           tracker := { s.tracker with tracks := [{ t with peers := setInsert n.val t.peers }] } })) ∧
  (∀ (mMin : Nat) (n : StationNo) (l : LayerFields) (k : Tracker), k.tracks = [] →
     l.peerOnly = false → 3 ≤ l.base.toNat → l.base.toNat ≤ 11995 → l.cover.toNat ≤ 8 →
     (l.top ≠ 0xFFFF → l.base.toNat ≤ l.top.toNat ∧ l.top.toNat ≤ 11995) →
     ((∀ h, k.reach = some h → h < l.base.toNat) → 3 ≤ l.cover.toNat →
       k.peerReport mMin n [l] =
         { k with
           nextId := k.nextId + 1
           tracks :=
             [{ id := k.nextId, origin := .peerOnly, base := l.base.toNat,
                top := if l.top = 0xFFFF then none else some l.top.toNat, peak := none, history := [], age := 0,
                unseen := 0, peers := setInsert n.val 0, lapse := some 3 }] }) ∧
     ((∃ h, k.reach = some h ∧ l.base.toNat ≤ h) ∨ l.cover.toNat < 3 → k.peerReport mMin n [l] = k)) ∧
  (∀ (mMin : Nat) (n : StationNo) (layers : List LayerFields) (k : Tracker),
     ∃ p, p = (layers.filter Machine.LayerFields.usable).foldl (PeerPass.take mMin k.reach n)
         ⟨k.tracks.map (fun t => (t, false)), k.nextId, false⟩ ∧
       k.peerReport mMin n layers =
         { k with
           nextId := p.nextId
           tracks :=
             if p.changed = true then orderingPass mMin (p.tracks.map Prod.fst) else p.tracks.map Prod.fst }) ∧
  (∀ l : LayerFields, Machine.LayerFields.usable l = true ↔
     l.peerOnly = false ∧ 3 ≤ l.base.toNat ∧ l.base.toNat ≤ 11995 ∧ l.cover.toNat ≤ 8 ∧
       (l.top = 0xFFFF ∨ (l.base.toNat ≤ l.top.toNat ∧ l.top.toNat ≤ 11995))) ∧
  (∀ (mMin : Nat) (reach : Option Nat) (n : StationNo) (l : LayerFields) (p : PeerPass)
     (before after : List (Track × Bool)) (t : Track) (seen : Bool), p.tracks = before ++ (t, seen) :: after →
     t.NearestOf mMin l.base.toNat ((before ++ after).map Prod.fst) →
     (seen = true → p.take mMin reach n l = p) ∧
     (seen = false → t.origin = .own →
       p.take mMin reach n l =
         { p with tracks := before ++ ({ t with peers := setInsert n.val t.peers }, true) :: after }) ∧
     (seen = false → t.origin = .peerOnly →
       p.take mMin reach n l =
         { p with
           changed := true
           tracks := before ++
             ({ t with
                peers := setInsert n.val t.peers, base := (3 * t.base + l.base.toNat + 2) / 4, lapse := some 3 },
              true) :: after })) ∧
  (∀ (mMin : Nat) (reach : Option Nat) (n : StationNo) (l : LayerFields) (p : PeerPass),
     (∀ t ∈ p.tracks, t.1.within mMin l.base.toNat = false) →
     ((∀ h, reach = some h → h < l.base.toNat) → 3 ≤ l.cover.toNat → p.tracks.length < 5 →
       ∃ id, NextFreeId (p.tracks.map Prod.fst) p.nextId id ∧
         p.take mMin reach n l =
           { tracks := p.tracks ++
               [({ id := id, origin := .peerOnly, base := l.base.toNat,
                   top := if l.top = 0xFFFF then none else some l.top.toNat, peak := none, history := [], age := 0,
                   unseen := 0, peers := setInsert n.val 0, lapse := some 3 }, true)]
             nextId := id + 1
             changed := true }) ∧
     ((∃ h, reach = some h ∧ l.base.toNat ≤ h) ∨ l.cover.toNat < 3 ∨ 5 ≤ p.tracks.length →
       p.take mMin reach n l = p))

/-! ## The firing calendar -/

/-- The ideal slots of R25: ((n mod (32/S)) + i × 32/S) mod 32, distinct over the S positions. -/
def Obligations.IdealSlotsAreDistinct : Prop :=
  ∀ n S : Nat, S = 1 ∨ S = 2 ∨ S = 4 ∨ S = 8 →
    (∀ i, i < S → idealSlot n S i = (n % (32 / S) + i * (32 / S)) % 32) ∧
    (∀ i j, i < S → j < S → i ≠ j → idealSlot n S i ≠ idealSlot n S j)

/-- The claiming procedure (R26): occupied positions are not touched; a position filled takes a TENTATIVE entry of count
0 at the first slot from its ideal slot upward that is neither held, nor on the list before, nor taken by an earlier
position; and an empty position left means that no slot is free. -/
def Obligations.ClaimingTakesTheFirstFreeSlots : Prop :=
  ∀ (s : State) (n : StationNo), s.num.own = some n →
    (claimedList s).length = s.calendar.claims.length ∧
    (∀ (i : Nat) (c : Claim), s.calendar.claims[i]? = some (some c) → (claimedList s)[i]? = some (some c)) ∧
    (∀ (i : Nat) (c : Claim), s.calendar.claims[i]? = some none → (claimedList s)[i]? = some (some c) →
      c.state = .tentative ∧ c.count = 0 ∧
      (heldSet s.num.own s.calendar.peers).getLsbD c.slot.val = false ∧
      (claimedSet s.calendar.claims).getLsbD c.slot.val = false ∧
      (claimedSet ((claimedList s).take i)).getLsbD c.slot.val = false ∧
      ∃ d : Nat, d < 32 ∧ c.slot.val = (idealSlot n.val (s.cfgNat StationConfig.shots) i + d) % 32 ∧
        ∀ e : Nat, e < d →
          (heldSet s.num.own s.calendar.peers).getLsbD
              ((idealSlot n.val (s.cfgNat StationConfig.shots) i + e) % 32) = true ∨
            (claimedSet ((claimedList s).take i ++ s.calendar.claims)).getLsbD
              ((idealSlot n.val (s.cfgNat StationConfig.shots) i + e) % 32) = true) ∧
    (∀ i : Nat, (claimedList s)[i]? = some none →
      ∀ k : Nat, k < 32 →
        (heldSet s.num.own s.calendar.peers).getLsbD k = true ∨ (claimedSet (claimedList s)).getLsbD k = true)

/-! ## NOTICE frames of other stations -/

/-- A NOTICE of a station that is no crossing peer and not the own number, at a NUMBERED unit (R6, R7, R9, R10, R160):
the frame is counted and the own position of 32 microseconds ago, at the start of its end delimiter, is latched (the
interval is log 8), and the line is WAIT-IDLE with a run of 0 (R150), in every line state but SENDING, where the frame
on the line is the station's own (log 14); the sender is heard with age 0, the reference is recomputed, a different one
and the own number clearing the slew (R7, R8; log 34), and a NOTICE of the reference with an offset of at most 20 sets
the slew remaining to it. Nothing else changes. -/
def Obligations.NoticeIsHeardAndSlews : Prop :=
  ∀ (n : StationNo) (f : NoticeFields) (p : Position) (s : State) (ref : Option StationNo) (d : Int),
    p = s.timer.behind 32 → s.lineAfterFrame = { s.line.countDispatched with latched := p } ∧
    (s.line.state ≠ .sending →
      s.lineAfterFrame =
        { s.line with
          state := .waitIdle, run := 0, bitPhase := 0, rx := [], latched := p
          counters := { s.line.counters with dispatched := bump s.line.counters.dispatched } }) ∧
    (s.line.state = .sending →
      s.lineAfterFrame =
        { s.line with
          latched := p
          counters := { s.line.counters with dispatched := bump s.line.counters.dispatched } }) ∧
    (s.num.state = .numbered → s.num.own ≠ some n → (∀ e ∈ s.calendar.peers, e.peer ≠ n) →
    ref = referenceOf s.num.own (s.timer.heard.set n.val (some 0)) →
    -4000 ≤ d → d < 4000 →
    (∃ q : Int, (250 * f.slot.toNat + f.phase.toNat : Int) - (250 * p.slot.val + p.phase.val) = d + 8000 * q) →
    (ref ≠ some n ∨ 31 < f.slot.toNat ∨ 249 < f.phase.toNat →
      exec (.notice (senderOf n) f.serial f.toNoticeBody) s = .next
        { s with
          line := s.lineAfterFrame
          timer :=
            { s.timer with
              heard := s.timer.heard.set n.val (some 0)
              ref := ref
              slew := if ref = s.timer.ref ∧ ref ≠ s.num.own then s.timer.slew else 0 } }) ∧
    (ref = some n → f.slot.toNat ≤ 31 → f.phase.toNat ≤ 249 → -20 ≤ d → d ≤ 20 →
      exec (.notice (senderOf n) f.serial f.toNoticeBody) s = .next
        { s with
          line := s.lineAfterFrame
          timer := { s.timer with heard := s.timer.heard.set n.val (some 0), ref := ref, slew := d } }))

/-- A NOTICE of the reference with an offset above 20 steps the timer (R12, R13, R14): the position is the one read from
the NOTICE, advanced by the 32 microseconds of the end delimiter (log 8), slew and adjustments are 0, the suppression
count is 2, the slip is counted, and an ACCEPTING bank takes the slip mark and every index of the crossing peer table.
The own position the offset is measured from is that of 32 microseconds ago. The step comes after all that the NOTICE
does elsewhere, as one with a slot index out of range does it, which is not measured (R9): hearing, and for a crossing
peer the entry's update, its releases with their marks, and the claiming (R19, R33, R35; log 7). A step that does not
cross the end of slot 31 forward changes nothing else; one that does raises the cycle boundary, after the calendar took
the frame and before the slip (R3, R13, R35). Slot starts and boundaries due before the step are no longer raised (R15).
The countdowns none at a NUMBERED unit are those of EveryStepKeepsTheCalendarAndTheStation. -/
def Obligations.NoticeStepsTheTimer : Prop :=
  ∀ (n : StationNo) (f : NoticeFields) (p : Position) (s : State) (d : Int), p = s.timer.behind 32 →
    s.num.own ≠ some n → referenceOf s.num.own (s.timer.heard.set n.val (some 0)) = some n →
    f.slot.toNat ≤ 31 → f.phase.toNat ≤ 249 → -4000 ≤ d → d < 4000 → d < -20 ∨ 20 < d →
    (∃ q : Int, (250 * f.slot.toNat + f.phase.toNat : Int) - (250 * p.slot.val + p.phase.val) = d + 8000 * q) →
    ((250 * s.timer.pos.slot.val + s.timer.pos.phase.val : Int) + d < 8000 → s.num.state = .numbered →
      (∀ e ∈ s.calendar.peers, e.peer ≠ n) →
      ∃ bs, exec (.notice (senderOf n) f.serial f.toNoticeBody) s = .next
          { s with
            line := s.lineAfterFrame
            banks := bs
            timer :=
              { s.timer with
                heard := s.timer.heard.set n.val (some 0)
                ref := some n
                pos := positionOf ((250 * f.slot.toNat + f.phase.toNat + 32) % 8000)
                held := false
                stepped := true
                slew := 0
                curAdj := 0
                nextAdj := 0
                suppress := 2
                slips := bump s.timer.slips } } ∧
        s.banks.SlipMarked s.calendar.peers.length bs) ∧
    (0 < d → 8000 ≤ (250 * s.timer.pos.slot.val + s.timer.pos.phase.val : Int) + d → s.num.state = .numbered →
      (∀ e ∈ s.calendar.peers, e.peer ≠ n) →
      ∃ t, exec (.notice (senderOf n) f.serial f.toNoticeBody) s = .next t ∧
        t.timer.pos = positionOf ((250 * f.slot.toNat + f.phase.toNat + 32) % 8000) ∧ t.timer.stepped = true ∧
        t.timer.suppress = 2 ∧ t.timer.slips = bump s.timer.slips ∧ t.timer.cycles = bump s.timer.cycles ∧
        t.timer.slew = 0 ∧ t.timer.curAdj = 0 ∧ t.timer.nextAdj = 0 ∧ t.expo = s.expo.rotate ∧ t.front = s.front) ∧
    (d < 0 ∨ (250 * s.timer.pos.slot.val + s.timer.pos.phase.val : Int) + d < 8000 →
      ∃ u bs, exec (.notice (senderOf n) f.serial { f.toNoticeBody with slot := 32 }) s = .next u ∧
        exec (.notice (senderOf n) f.serial f.toNoticeBody) s = .next
          { u with
            banks := bs
            timer :=
              { u.timer with
                pos := positionOf ((250 * f.slot.toNat + f.phase.toNat + 32) % 8000)
                held := false
                stepped := true
                slew := 0
                curAdj := 0
                nextAdj := 0
                suppress := 2
                slips := bump u.timer.slips } } ∧
        u.banks.SlipMarked u.calendar.peers.length bs) ∧
    (0 < d → 8000 ≤ (250 * s.timer.pos.slot.val + s.timer.pos.phase.val : Int) + d → s.num.state = .numbered →
      s.num.listen = none → s.num.holdOff = none →
      ∃ u v bs, exec (.notice (senderOf n) f.serial { f.toNoticeBody with slot := 32 }) s = .next u ∧
        exec .cycleBoundary
          { u with timer := { u.timer with stepped := false, slew := 0, curAdj := 0, nextAdj := 0 } } = .next v ∧
        exec (.notice (senderOf n) f.serial f.toNoticeBody) s = .next
          { v with
            banks := bs
            timer :=
              { v.timer with
                pos := positionOf ((250 * f.slot.toNat + f.phase.toNat + 32) % 8000)
                held := false
                stepped := true
                suppress := 2
                slips := bump v.timer.slips } } ∧
        v.banks.SlipMarked v.calendar.peers.length bs)

/-- A NOTICE of a crossing peer that does not step the timer (R19, R29, R33, R34, R35, R41), or, by NoticeStepsTheTimer,
one that does, before its step: the entry takes the frame's sets and serial in every state of the calendar, and an
INACTIVE calendar does nothing else. At an ACTIVE one, if the peer is lower-numbered, every own slot in the claimed set
is gone from the list and counted as a release, an ACCEPTING bank takes the entry's index, and the claiming procedure
runs; where no own slot is in the set, no release is counted, and the banks stay. If the peer is higher-numbered, own
slots are kept in their states, nothing is released, and the banks stay. Where nothing is released, the claiming
procedure runs exactly if the frame freed a held slot and the list has an empty position (R27, R37). A NOTICE is queued
exactly if the peer was not heard, its serial has changed or the list has changed (R20, R29); at a RELEASING calendar,
whose list stays, for the first two alone. That the timer takes the frame before the calendar is the model's reading
(log 7). -/
def Obligations.NoticeReleasesConflictingSlots : Prop :=
  ∀ (n : StationNo) (f : NoticeFields) (p : Position) (s : State) (j : Nat) (e : PeerEntry) (peers : List PeerEntry),
    p = s.timer.behind 32 → s.num.own ≠ some n →
    s.calendar.peers[j]? = some e → e.peer = n → (∀ k x, k < j → s.calendar.peers[k]? = some x → x.peer ≠ n) →
    referenceOf s.num.own (s.timer.heard.set n.val (some 0)) ≠ some n ∨ 31 < f.slot.toNat ∨ 249 < f.phase.toNat ∨
      (offset (250 * f.slot.toNat + f.phase.toNat) (250 * p.slot.val + p.phase.val)).natAbs ≤ 20 →
    peers = s.calendar.peers.set j
      { e with age := some 0, claimed := f.claimed ||| f.settled, settled := f.settled, serial := some f.serial } →
    ∃ t, exec (.notice (senderOf n) f.serial f.toNoticeBody) s = .next t ∧ t.calendar.peers = peers ∧
      t.calendar.state = s.calendar.state ∧
      t.laser = s.laser ∧ t.expo = s.expo ∧ t.front = s.front ∧ t.red = s.red ∧ t.tracker = s.tracker ∧
      t.loader = s.loader ∧ t.req = s.req ∧ (s.num.state = .numbered → t.num = s.num) ∧
      (s.calendar.state = .inactive →
        t.calendar = { s.calendar with peers := peers } ∧ t.banks = s.banks ∧
        (s.num.state = .numbered → t.line = s.lineAfterFrame)) ∧
      (s.calendar.state = .releasing →
        t.calendar.claims = s.calendar.claims ∧ t.calendar.releases = s.calendar.releases ∧ t.banks = s.banks ∧
        (e.age = none ∨ e.serial ≠ some f.serial →
          t.line.set.notice = some ⟨(), 0⟩ ∧ t.calendar.countdown = some 64) ∧
        (e.age ≠ none → e.serial = some f.serial →
          t.line.set.notice = s.line.set.notice ∧ t.calendar.countdown = s.calendar.countdown)) ∧
      (∀ own, s.num.own = some own → s.calendar.state = .active →
        (e.age = none ∨ e.serial ≠ some f.serial ∨ t.calendar.claims ≠ s.calendar.claims →
          t.line.set.notice = some ⟨(), 0⟩ ∧ t.calendar.countdown = some 64) ∧
        (e.age ≠ none → e.serial = some f.serial → t.calendar.claims = s.calendar.claims →
          t.line.set.notice = s.line.set.notice ∧ t.calendar.countdown = s.calendar.countdown) ∧
        (own < n ∨ conflicts (f.claimed ||| f.settled) s.calendar.claims = 0 →
          ((∃ k : Nat, (heldSet s.num.own s.calendar.peers).getLsbD k = true ∧
              (heldSet s.num.own peers).getLsbD k = false) → none ∈ s.calendar.claims →
            t.calendar.claims = claimedList { s with calendar := { s.calendar with peers := peers } }) ∧
          ((∀ k : Nat, (heldSet s.num.own s.calendar.peers).getLsbD k = true →
              (heldSet s.num.own peers).getLsbD k = true) ∨ none ∉ s.calendar.claims →
            t.calendar.claims = s.calendar.claims)) ∧
        (n < own →
          t.calendar.releases = bumpBy (conflicts (f.claimed ||| f.settled) s.calendar.claims) s.calendar.releases ∧
          (∀ x, some x ∈ t.calendar.claims → (f.claimed ||| f.settled).getLsbD x.slot.val = false) ∧
          (conflicts (f.claimed ||| f.settled) s.calendar.claims = 0 → t.banks = s.banks) ∧
          (conflicts (f.claimed ||| f.settled) s.calendar.claims ≠ 0 →
            t.line.set.notice = some ⟨(), 0⟩ ∧ t.calendar.countdown = some 64 ∧
            t.calendar.claims = claimedList
              { s with
                calendar :=
                  { s.calendar with
                    peers := peers
                    claims := s.calendar.claims.map
                      (Option.filter (fun x => !(f.claimed ||| f.settled).getLsbD x.slot.val)) } } ∧
            ∀ i, (s.banks.get i).state = .accepting → (s.banks.get i.other).state ≠ .accepting →
              t.banks = s.banks.put i { s.banks.get i with suspects := setInsert j (s.banks.get i).suspects })) ∧
        (own < n →
          t.calendar.releases = s.calendar.releases ∧ t.calendar.claims.length = s.calendar.claims.length ∧
          (∀ (i : Nat) (x : Claim), s.calendar.claims[i]? = some (some x) → t.calendar.claims[i]? = some (some x)) ∧
          t.banks = s.banks))

/-! ## The numbering unit -/

/-- A CLAIM at a unit that holds no number (R166, R167, R168): the number joins the taken set; a claimant that hears its
wanted number claimed chooses again, unless its own CLAIM has been transmitted and its serial is the lower one, in which
case it keeps the number and queues its CLAIM again. With every number taken it returns to LISTEN (R167). A NOTICE acts
on the unit, and on its CLAIM, as a CLAIM of its serial does, where it does not step the timer, which may raise a
boundary. A REPORT for the wanted number always makes the unit choose again. -/
def Obligations.ClaimAtAUnitWithoutANumber : Prop :=
  ∀ (n : StationNo) (serial : Serial) (s : State),
    (s.num.state = .listen ∨ (s.num.state = .claiming ∧ s.num.wanted ≠ some n) →
      exec (.claim (senderOf n) serial) s = .next
        { s with
          line := s.lineAfterFrame
          num := { s.num with taken := setInsert n.val s.num.taken } }) ∧
    (s.num.state = .claiming → s.num.wanted = some n → s.num.holdOff ≠ none → s.num.serial < serial →
      exec (.claim (senderOf n) serial) s = .next { s with line := s.lineAfterFrame.queueClaim n }) ∧
    (s.num.state = .claiming → s.num.wanted = some n → s.num.holdOff = none ∨ serial < s.num.serial →
      ∀ w : StationNo, (setInsert n.val s.num.taken).getLsbD w.val = false →
        (∀ m : StationNo, m < w → (setInsert n.val s.num.taken).getLsbD m.val = true) →
        exec (.claim (senderOf n) serial) s = .next
          { s with
            line := s.lineAfterFrame.queueClaim w
            num :=
              { s.num with
                taken := setInsert n.val s.num.taken, wanted := some w, listen := none, holdOff := none } }) ∧
    (s.num.state = .claiming → s.num.wanted = some n → s.num.holdOff = none ∨ serial < s.num.serial →
      (∀ m : StationNo, (setInsert n.val s.num.taken).getLsbD m.val = true) →
      exec (.claim (senderOf n) serial) s = .next
        { s with
          line := s.lineAfterFrame
          num := { s.num with state := .listen, taken := 0, wanted := none, listen := some 250, holdOff := none } }) ∧
    (∀ (body : NoticeBody) (p : Position), s.num.state ≠ .numbered → p = s.timer.behind 32 →
      referenceOf s.num.own (s.timer.heard.set n.val (some 0)) ≠ some n ∨ 31 < body.slot.toNat ∨
        249 < body.phase.toNat ∨
        (offset (250 * body.slot.toNat + body.phase.toNat) (250 * p.slot.val + p.phase.val)).natAbs ≤ 20 →
      ∃ t u, exec (.notice (senderOf n) serial body) s = .next t ∧ exec (.claim (senderOf n) serial) s = .next u ∧
        t.num = u.num ∧ t.line.set.claim = u.line.set.claim) ∧
    (∀ f : ReportFields, f.layers.length ≤ 5 → s.num.state ≠ .numbered →
      ∃ t, exec (.report (senderOf n) f) s = .next t ∧
        (s.num.state = .listen ∨ s.num.wanted ≠ some n →
          t.num = { s.num with taken := setInsert n.val s.num.taken } ∧ t.line = s.lineAfterFrame) ∧
        (s.num.state = .claiming → s.num.wanted = some n →
          ∀ w : StationNo, (setInsert n.val s.num.taken).getLsbD w.val = false →
            (∀ m : StationNo, m < w → (setInsert n.val s.num.taken).getLsbD m.val = true) →
            t.line = s.lineAfterFrame.queueClaim w ∧
            t.num =
              { s.num with
                taken := setInsert n.val s.num.taken, wanted := some w, listen := none, holdOff := none }))

/-- A CLAIM for the own number at a NUMBERED unit (R24, R42, R72, R170): a higher serial brings a defence CLAIM; in a
RUNNING station a lower one makes an auto unit give up its number and listen again, the station NUMBERING, the list
emptied, the NOTICE withdrawn and the driver bled, while the ACCEPTING bank closes without another opening, or its close
is pending behind the shot in flight (R72, R73), and makes a fixed unit keep its number, the station HALTED-DUPLICATE,
with its banks and its tracker as they were. An UNCONFIGURED station yields in either mode, a fixed one that is LOADING
sets the yield mark, and a HALTED-DUPLICATE one takes the frame without further change. A CLAIM for another number does
nothing. A NOTICE from the own number does at every block what the CLAIM of its serial does, but for the cycle timer,
which hears it (R6, R170). -/
def Obligations.DuplicateNumberIsSettledBySerial : Prop :=
  ∀ (n : StationNo) (serial : Serial) (s : State), s.num.state = .numbered →
    (s.num.own ≠ some n → exec (.claim (senderOf n) serial) s = .next { s with line := s.lineAfterFrame }) ∧
    (s.num.own = some n → s.num.serial < serial →
      exec (.claim (senderOf n) serial) s = .next { s with line := s.lineAfterFrame.queueClaim n }) ∧
    (s.num.own = some n → serial < s.num.serial → s.loader.station = .running → s.num.mode = .auto →
      ∃ t, exec (.claim (senderOf n) serial) s = .next t ∧
        t.num =
          { s.num with
            state := .claiming, own := none, taken := setInsert n.val 0, wanted := none, listen := some 250,
            holdOff := none } ∧
        t.loader = { s.loader with station := .numbering } ∧ t.calendar.state = .inactive ∧
        (∀ c, some c ∉ t.calendar.claims) ∧ t.calendar.countdown = none ∧
        t.calendar.releases = s.calendar.releases ∧ t.line.set.notice = none ∧ t.line.set.claim = none ∧
        (s.laser.driver = .charging ∨ s.laser.driver = .charged → t.laser.driver = .idle ∧ t.laser.level = none) ∧
        (s.laser.driver = .fired → t.laser = s.laser) ∧
        t.timer.ref = referenceOf none s.timer.heard ∧ t.banks.seq = s.banks.seq ∧
        (s.banks.a.state ≠ .accepting → s.banks.b.state ≠ .accepting → t.banks = s.banks ∧ t.red = s.red) ∧
        (∀ i, (s.banks.get i).state = .accepting → (s.banks.get i.other).state ≠ .accepting →
          ((s.banks.get i).inFlight ≠ 0 →
            t.banks = s.banks.put i { s.banks.get i with closePending := true } ∧ t.red = s.red) ∧
          ((s.banks.get i).inFlight = 0 → (s.banks.get i.other).state = .reducing →
            t.banks = s.banks.put i { s.banks.get i with state := .closed, closePending := false } ∧
            t.red = s.red) ∧
          ((s.banks.get i).inFlight = 0 → (s.banks.get i.other).state = .empty →
            t.banks = s.banks.put i { s.banks.get i with state := .reducing, closePending := false } ∧
            t.red = some (reduce s.loader.cfg s.calendar.peers i (s.banks.get i)))) ∧
        t.tracker = s.tracker ∧ t.expo = s.expo ∧ t.front = s.front ∧ t.req = s.req) ∧
    (s.num.own = some n → serial < s.num.serial → s.loader.station = .running → s.num.mode = .fixed →
      ∃ t, exec (.claim (senderOf n) serial) s = .next t ∧
        t.num = s.num ∧ t.loader = { s.loader with station := .haltedDuplicate } ∧ t.calendar.state = .inactive ∧
        (∀ c, some c ∉ t.calendar.claims) ∧ t.line.set.notice = none ∧ t.banks = s.banks ∧ t.red = s.red ∧
        t.tracker = s.tracker ∧ t.timer = s.timer ∧ t.expo = s.expo ∧ t.front = s.front ∧ t.req = s.req) ∧
    (s.num.own = some n → serial < s.num.serial → s.loader.station = .unconfigured →
      ∃ t, exec (.claim (senderOf n) serial) s = .next t ∧
        t.num =
          { s.num with
            state := .claiming, own := none, taken := setInsert n.val 0, wanted := none, listen := some 250,
            holdOff := none } ∧
        t.loader = s.loader ∧ t.line.set.claim = none ∧ t.line.set.notice = s.line.set.notice ∧
        t.timer.ref = referenceOf none s.timer.heard ∧ t.banks = s.banks ∧ t.red = s.red ∧ t.laser = s.laser ∧
        t.tracker = s.tracker ∧ t.expo = s.expo ∧ t.front = s.front ∧ t.req = s.req) ∧
    (s.num.own = some n → serial < s.num.serial → s.loader.station = .loading → s.num.mode = .fixed →
      exec (.claim (senderOf n) serial) s = .next
        { s with line := s.lineAfterFrame, num := { s.num with yieldMark := true } }) ∧
    (s.num.own = some n → serial < s.num.serial → s.loader.station = .haltedDuplicate → s.num.mode = .fixed →
      exec (.claim (senderOf n) serial) s = .next { s with line := s.lineAfterFrame }) ∧
    (∀ body : NoticeBody, s.num.own = some n →
      ∃ t u, exec (.notice (senderOf n) serial body) s = .next t ∧ exec (.claim (senderOf n) serial) s = .next u ∧
        { t with timer := u.timer } = u ∧ t.timer.heard = s.timer.heard.set n.val (some 0))

/-! ## The configuration record -/

/-- Every value the loader takes from a record lies in its accepted range, is the record's own where that lies in the
range, and the nearer end of the range where it does not; S is lowered to an allowed value; a fixed number of 16..127 is
15 (R164). The crossing entries are at most 8, of distinct peers, with bins in order, and each is built not heard (R18).
The clamped flag is clear exactly where no field was changed and no crossing entry changed or ignored; each crossing
entry then stands as the record has it. -/
def Obligations.LoadedRecordIsInRange : Prop :=
  ∀ (r : List Byte) (c : StationConfig), c = (loadRecord r).cfg →
    c.elevation = min 4000 (field r 3 2) ∧ c.tilt = max 512 (min 1024 (field r 5 2)) ∧
    c.exponent = max 6 (min 12 (field r 8 1)) ∧ c.period = max 2 (min 60 (field r 9 1)) ∧
    c.level = max 8 (min 15 (field r 10 1)) ∧ c.limit = max 1 (min 1000000 (field r 11 4)) ∧
    c.overlap = max 5 (min 40 (field r 15 1)) ∧ c.tMin = max 1 (min 4194303 (field r 16 4)) ∧
    c.mMin = max 30 (min 200 (field r 20 1)) ∧
    (c.shots = 1 ∨ c.shots = 2 ∨ c.shots = 4 ∨ c.shots = 8) ∧ (field r 7 1 ≤ 8 → 1 ≤ field r 7 1 → c.shots ≤ field r 7 1) ∧
    (field r 7 1 = 0 → c.shots = 1) ∧ (8 < field r 7 1 → c.shots = 8) ∧
    (∀ k, k = 1 ∨ k = 2 ∨ k = 4 ∨ k = 8 → k ≤ field r 7 1 → k ≤ c.shots) ∧
    (c.mode = .auto ↔ 128 ≤ field r 2 1) ∧ (field r 2 1 < 128 → c.fixedNo.val = min 15 (field r 2 1)) ∧
    (loadRecord r).peers.length ≤ min 8 (field r 21 1) ∧
    (loadRecord r).peers.Pairwise (fun x y => x.peer ≠ y.peer) ∧
    (∀ e ∈ (loadRecord r).peers, e.lo ≤ e.hi ∧ e.hi ≤ 799 ∧ e.age = none ∧ e.claimed = 0 ∧ e.settled = 0 ∧
      e.serial = none) ∧
    ((loadRecord r).clamped = false ↔
      c.elevation = field r 3 2 ∧ c.tilt = field r 5 2 ∧ c.shots = field r 7 1 ∧ c.exponent = field r 8 1 ∧
      c.period = field r 9 1 ∧ c.level = field r 10 1 ∧ c.limit = field r 11 4 ∧ c.overlap = field r 15 1 ∧
      c.tMin = field r 16 4 ∧ c.mMin = field r 20 1 ∧ (128 ≤ field r 2 1 ∨ field r 2 1 < 16) ∧ field r 21 1 ≤ 8 ∧
      (∀ j : Nat, j < field r 21 1 → field r (22 + 5 * j) 1 < 16 ∧
        field r (23 + 5 * j) 2 ≤ field r (25 + 5 * j) 2 ∧ field r (25 + 5 * j) 2 ≤ 799) ∧
      (∀ i j : Nat, i < j → j < field r 21 1 → field r (22 + 5 * i) 1 ≠ field r (22 + 5 * j) 1)) ∧
    ((loadRecord r).clamped = false →
      (loadRecord r).peers.length = field r 21 1 ∧
      ∀ j : Nat, j < field r 21 1 → ∃ e, (loadRecord r).peers[j]? = some e ∧ e.peer.val = field r (22 + 5 * j) 1 ∧
        e.lo = field r (23 + 5 * j) 2 ∧ e.hi = field r (25 + 5 * j) 2)

/-- Load complete in a LOADING station (R163, R165, R166, R169, R170). A record with a wrong magic or CRC leaves the
station UNCONFIGURED in LISTEN, with both flags clear, no configuration, no crossing peer and an exposure limit of 0. A
valid one gives its values to the blocks, and the own claim list S empty positions (R23): in auto mode the station is
NUMBERING in LISTEN; in fixed mode, with no yield mark for that number, it is RUNNING under it: the calendar is ACTIVE
and has claimed, with a NOTICE queued (R24, R26), an IDLE driver charges to Lt unless the band is INHIBIT (R42, R45),
and there is no slew where the number is the reference (R8); with a yield mark for that number it is HALTED-DUPLICATE.
In both a bank opens (R75). -/
def Obligations.LoadCompleteJudgesTheRecord : Prop :=
  ∀ (r : List Byte) (s : State), r.length = 64 → s.loader.station = .loading →
    (recordValid r = false →
      ∃ t, exec (.loadComplete r) s = .next t ∧ t.loader = ⟨.unconfigured, none, false, false⟩ ∧
        t.num.state = .listen ∧ t.num.own = none ∧ t.num.taken = 0 ∧ t.num.wanted = none ∧
        t.num.listen = some 250 ∧ t.num.mode = .auto ∧ t.num.yieldMark = false ∧ t.num.serial = s.num.serial ∧
        t.calendar.peers = [] ∧ (∀ c, some c ∉ t.calendar.claims) ∧ t.expo = { s.expo with limit := 0 } ∧
        t.laser = { s.laser with lt := 0 }) ∧
    (recordValid r = true → (loadRecord r).cfg.mode = .auto →
      ∃ t, exec (.loadComplete r) s = .next t ∧
        t.loader = ⟨.numbering, some (loadRecord r).cfg, true, (loadRecord r).clamped⟩ ∧
        t.num.state = .listen ∧ t.num.own = none ∧ t.num.listen = some 250 ∧ t.num.mode = .auto ∧
        t.calendar.peers = (loadRecord r).peers ∧
        t.calendar.claims = List.replicate (loadRecord r).cfg.shots none ∧
        t.expo = { s.expo with limit := (loadRecord r).cfg.limit } ∧
        t.laser = { s.laser with lt := min (loadRecord r).cfg.level (bandCap s.laser.band) }) ∧
    (recordValid r = true → (loadRecord r).cfg.mode = .fixed →
      s.num.yieldMark = false ∨ s.num.own ≠ some (loadRecord r).cfg.fixedNo →
      ∃ t, exec (.loadComplete r) s = .next t ∧
        t.loader = ⟨.running, some (loadRecord r).cfg, true, (loadRecord r).clamped⟩ ∧
        t.num.state = .numbered ∧ t.num.own = some (loadRecord r).cfg.fixedNo ∧ t.num.mode = .fixed ∧
        t.calendar.state = .active ∧ t.calendar.claims.length = (loadRecord r).cfg.shots ∧
        t.calendar.peers = (loadRecord r).peers ∧
        t.calendar.claims = claimedList
          { s with
            num := { s.num with own := some (loadRecord r).cfg.fixedNo }
            loader := { s.loader with cfg := some (loadRecord r).cfg }
            calendar :=
              { s.calendar with
                peers := (loadRecord r).peers, claims := List.replicate (loadRecord r).cfg.shots none } } ∧
        t.calendar.countdown = some 64 ∧
        s.banks.EnteredLive (loadRecord r).cfg.period t.banks ∧
        (∃ lt, lt = min (loadRecord r).cfg.level (bandCap s.laser.band) ∧
          (s.laser.driver = .idle → s.laser.band ≠ .inhibit →
            t.laser = { s.laser with lt := lt, driver := .charging, level := some lt, timeout := 2 }) ∧
          (s.laser.driver ≠ .idle ∨ s.laser.band = .inhibit → t.laser = { s.laser with lt := lt })) ∧
        t.line.set.notice = some ⟨(), 0⟩ ∧ t.expo = { s.expo with limit := (loadRecord r).cfg.limit } ∧
        (t.timer.ref = t.num.own → t.timer.slew = 0)) ∧
    (recordValid r = true → (loadRecord r).cfg.mode = .fixed → s.num.yieldMark = true →
      s.num.own = some (loadRecord r).cfg.fixedNo →
      ∃ t, exec (.loadComplete r) s = .next t ∧ t.loader.station = .haltedDuplicate ∧ t.num.state = .numbered ∧
        t.num.own = s.num.own ∧ t.num.yieldMark = false ∧ t.calendar.state = s.calendar.state ∧
        t.calendar.claims = List.replicate (loadRecord r).cfg.shots none ∧
        t.calendar.peers = (loadRecord r).peers ∧ s.banks.EnteredLive (loadRecord r).cfg.period t.banks)

/-! ## The station line -/

/-- The idle gap and start bits (R150): in WAIT-IDLE the run of 11 makes the line IDLE, and a dominant bit sets the run
to 0 and is no start bit; in IDLE, with no frame that may be sent, the first dominant bit of another party is a start
bit, with which the bit times begin anew. In other line states neither changes anything, but for a start bit that a
waiting frame joins (R153). That the dominant bit of WAIT-IDLE comes as START_BIT, that START_BIT does nothing in
SENDING and RECEIVING, whose bits belong to the frame on the line, and that LINE_IDLE does nothing outside WAIT-IDLE, is
the model's choice (log 25). -/
def Obligations.IdleGapAndStartBit : Prop :=
  ∀ s : State,
    (s.line.state = .waitIdle →
      exec .lineIdle s = .next { s with line := { s.line with state := .idle, run := 11 } } ∧
      ∃ l, exec .startBit s = .next { s with line := l } ∧ l.state = .waitIdle ∧ l.run = 0 ∧ l.set = s.line.set ∧
        l.attempt = s.line.attempt ∧ l.rx = s.line.rx ∧ l.counters = s.line.counters) ∧
    (s.line.state ≠ .waitIdle → exec .lineIdle s = .next s) ∧
    (s.line.state = .idle → s.line.attempt = none →
      (s.line.set.claim = none →
        s.num.own = none ∨ (s.line.set.notice = none ∧ s.line.set.report = none ∧ s.line.set.status = none) →
        ∃ l, exec .startBit s = .next { s with line := l } ∧ l.state = .receiving ∧ l.run = 0 ∧ l.bitPhase = 0 ∧ l.rx = [] ∧
          l.set = s.line.set ∧ l.attempt = none ∧ l.counters = s.line.counters) ∧
      (s.line.set.claim ≠ none ∨
          (s.num.own ≠ none ∧ (s.line.set.notice ≠ none ∨ s.line.set.report ≠ none ∨ s.line.set.status ≠ none)) →
        exec .startBit s = exec .attemptStart s)) ∧
    (s.line.state = .sending ∨ s.line.state = .receiving → exec .startBit s = .next s)

/-- The start of an attempt (R31, R153): from IDLE, the frame of the lowest kind that may be sent leaves the set and is
the attempt, the line is SENDING; a CLAIM needs no number, the other kinds do; a NOTICE is composed now from the list,
Lt and S, with the position 676 microseconds ahead (R11). The start bit aligns the bit times (R150). With no frame that
may be sent nothing changes. -/
def Obligations.AttemptTakesTheLowestKind : Prop :=
  ∀ s : State, s.line.state = .idle → s.line.attempt = none →
    (∀ w k, s.line.set.claim = some ⟨w, k⟩ →
      exec .attemptStart s = .next
        { s with line :=
          { s.line with
            state := .sending, run := 0, bitPhase := 0, rx := [], set := { s.line.set with claim := none }
            attempt := some ⟨.claim w s.num.serial, k, false⟩ } }) ∧
    (∀ n k, s.line.set.claim = none → s.num.own = some n → s.line.set.notice = some ⟨(), k⟩ →
      exec .attemptStart s = .next
        { s with line :=
          { s.line with
            state := .sending, run := 0, bitPhase := 0, rx := [], set := { s.line.set with notice := none }
            attempt := some
              ⟨.notice n
                { serial := s.num.serial, slot := BitVec.ofNat 8 (s.timer.ahead 676).slot.val,
                  phase := BitVec.ofNat 16 (s.timer.ahead 676).phase.val, claimed := claimedSet s.calendar.claims,
                  settled := settledSet s.calendar.claims, level := BitVec.ofNat 8 s.laser.lt,
                  shots := BitVec.ofNat 8 (s.cfgNat StationConfig.shots) }, k, false⟩ } }) ∧
    (∀ n r k, s.line.set.claim = none → s.num.own = some n → s.line.set.notice = none →
      s.line.set.report = some ⟨r, k⟩ →
      exec .attemptStart s = .next
        { s with line :=
          { s.line with
            state := .sending, run := 0, bitPhase := 0, rx := [], set := { s.line.set with report := none }
            attempt := some ⟨.report n r, k, false⟩ } }) ∧
    (∀ n r k, s.line.set.claim = none → s.num.own = some n → s.line.set.notice = none → s.line.set.report = none →
      s.line.set.status = some ⟨r, k⟩ →
      exec .attemptStart s = .next
        { s with line :=
          { s.line with
            state := .sending, run := 0, bitPhase := 0, rx := [], set := { s.line.set with status := none }
            attempt := some ⟨.status n r, k, false⟩ } }) ∧
    (s.line.set.claim = none → s.num.own = none → exec .attemptStart s = .next s) ∧
    (s.line.set = ⟨none, none, none, none⟩ → exec .attemptStart s = .next s)

/-- The position an own NOTICE carries (R11): 676 microseconds on from the position of its start bit, counting the
length of the cycle in progress if its end falls within that span. -/
def Obligations.NoticeCarriesThePositionAhead : Prop :=
  ∀ (own : Option StationNo) (t : Timer), t.Ok own → t.held = false →
    ((250 * t.pos.slot.val + t.pos.phase.val + 676 : Int) < 8000 + t.curAdj →
      250 * t.pos.slot.val + t.pos.phase.val + 676 < 8000 →
      250 * (t.ahead 676).slot.val + (t.ahead 676).phase.val = 250 * t.pos.slot.val + t.pos.phase.val + 676) ∧
    (8000 + t.curAdj ≤ (250 * t.pos.slot.val + t.pos.phase.val + 676 : Int) →
      (250 * (t.ahead 676).slot.val + (t.ahead 676).phase.val : Int) =
        250 * t.pos.slot.val + t.pos.phase.val + 676 - (8000 + t.curAdj))

/-- The ends of an attempt without transmission. A lost arbitration (R154, R156): a bit of the arbitration field sent
recessive is read dominant; the station stops sending and receives, the loss is counted, and the frame returns with its
collision count unchanged. A collision error (R155, R156, R157): the start bit, a dominant bit of the arbitration field
or any later bit is read back wrong; the error is counted, and below 8 the frame returns with one more at its count; at
8 it is dropped and the drop counted, which ends the pending reply of a STATUS (R173), queues the CLAIM of a CLAIMING
unit again (R167, R168), and that of a NUMBERED unit while it holds the CLAIM's number (R170; one left over from the
hold-off: log 36); a NOTICE with empty sets makes a RELEASING calendar ACTIVE, which claims and queues a NOTICE (R39).
That a pending reply stays while a newer STATUS is queued is the model's reading (log 18). The buffer's bits and a frame
withdrawn meanwhile follow log 16 and log 17. -/
def Obligations.LostAndBrokenAttempts : Prop :=
  (∀ (bit : Nat) (s : State) (a : Attempt), s.line.attempt = some a →
     a.frame.frame.arbitrationBits[bit]? = some true →
     ∃ t, exec (.arbitrationLoss bit) s = .next t ∧ t.line.state = .receiving ∧ t.line.attempt = none ∧
       t.line.rx = a.frame.frame.bits.take bit ++ [false] ∧
       t.line.counters.arbitrationLosses = bump s.line.counters.arbitrationLosses ∧
       t.line.counters.collisionErrors = s.line.counters.collisionErrors ∧
       t.line.counters.dropped = s.line.counters.dropped ∧ a.Returned a.collisions s.line t.line ∧
       { t with line := s.line } = s) ∧
  (∀ (bit : Nat) (s : State) (a : Attempt), s.line.attempt = some a →
     bit = 0 ∨ a.frame.frame.arbitrationBits[bit - 1]? = some false ∨
       (a.frame.frame.arbitrationBits.length < bit ∧ bit ≤ a.frame.frame.bits.length) →
     (a.collisions + 1 < 8 →
       ∃ t, exec (.collisionError bit) s = .next t ∧ t.line.state = .receiving ∧ t.line.attempt = none ∧
         t.line.counters.collisionErrors = bump s.line.counters.collisionErrors ∧
         t.line.counters.dropped = s.line.counters.dropped ∧ a.Returned (a.collisions + 1) s.line t.line ∧
         { t with line := s.line } = s) ∧
     (a.collisions + 1 = 8 → a.withdrawn = false →
       ∃ t, exec (.collisionError bit) s = .next t ∧ t.line.state = .receiving ∧ t.line.attempt = none ∧
         t.line.counters.collisionErrors = bump s.line.counters.collisionErrors ∧
         t.line.counters.dropped = bump s.line.counters.dropped ∧
         (∀ n r, a.frame = .report n r → t.line.set = s.line.set ∧ { t with line := s.line } = s) ∧
         (∀ n r, a.frame = .status n r →
           t.line.set = s.line.set ∧ (s.line.set.status = none → t.req.reply = none) ∧
           (s.line.set.status ≠ none → t.req = s.req)) ∧
         (∀ n x, a.frame = .claim n x → s.num.state = .numbered → s.num.own = some n →
           t.line.set.claim = some ⟨n, 0⟩) ∧
         (∀ n x, a.frame = .claim n x → s.num.state = .numbered → s.num.own ≠ some n → t.line.set = s.line.set) ∧
         (∀ n x w, a.frame = .claim n x → s.num.state = .claiming → s.num.wanted = some w →
           t.line.set.claim = some ⟨w, 0⟩) ∧
         (∀ n f, a.frame = .notice n f → s.calendar.state = .active →
           t.line.set = s.line.set ∧ t.calendar = s.calendar) ∧
         (∀ n f, a.frame = .notice n f → s.calendar.state = .releasing → f.claimed = 0 → f.settled = 0 →
           t.calendar =
             { s.calendar with state := .active, claims := claimedList s, countdown := some 64 } ∧
           t.line.set = { s.line.set with notice := some ⟨(), 0⟩ }) ∧
         (∀ n f, a.frame = .notice n f → s.calendar.state = .releasing → f.claimed ≠ 0 ∨ f.settled ≠ 0 →
           t.line.set = s.line.set ∧ t.calendar = s.calendar)))

/-- A transmission (R157, R158): the attempt ends, the line is WAIT-IDLE with a run of 0, the frame is counted as sent
and its readback as discarded under "own". A CLAIM for the wanted number starts the hold-off (R167), and another one, as
that of a NUMBERED unit, changes nothing at the unit (R170); a NOTICE raises the counts of the TENTATIVE slots it
carried, SETTLED at 2, and a list so changed queues a NOTICE (R32); a slot that left the list while the frame was on the
line, and came back to it, was not carried (R32; log 26); in RELEASING a NOTICE with empty sets makes the calendar
ACTIVE, which claims and queues a NOTICE (R39), and one with a set not empty changes nothing there; a STATUS ends the
pending reply (R173). That the readback is counted at the same event is the model's reading (log 15). -/
def Obligations.TransmissionTellsTheQueuingBlock : Prop :=
  ∀ (s : State) (a : Attempt), s.line.attempt = some a →
    ∃ t, exec .frameTransmitted s = .next t ∧ t.line.state = .waitIdle ∧ t.line.run = 0 ∧ t.line.attempt = none ∧
      t.line.counters.sent = bump s.line.counters.sent ∧
      t.line.counters.discardOwn = bump s.line.counters.discardOwn ∧
      t.laser = s.laser ∧ t.expo = s.expo ∧ t.banks = s.banks ∧ t.tracker = s.tracker ∧ t.loader = s.loader ∧
      t.timer = s.timer ∧
      (∀ n r, a.frame = .report n r →
        t.calendar = s.calendar ∧ t.num = s.num ∧ t.req = s.req ∧ t.line.set = s.line.set) ∧
      (∀ n x, a.frame = .claim n x → s.num.state = .claiming → s.num.wanted = some n → s.num.holdOff = none →
        t.num = { s.num with holdOff := some 64 }) ∧
      (∀ n x, a.frame = .claim n x →
        s.num.state ≠ .claiming ∨ s.num.wanted ≠ some n ∨ s.num.holdOff ≠ none → t.num = s.num) ∧
      (∀ n x, a.frame = .claim n x → t.calendar = s.calendar ∧ t.req = s.req ∧ t.line.set = s.line.set) ∧
      (∀ n r, a.frame = .status n r → s.line.set.status = none → t.req = { s.req with reply := none }) ∧
      (∀ n r, a.frame = .status n r → t.calendar = s.calendar ∧ t.num = s.num ∧ t.line.set = s.line.set ∧
        (s.line.set.status ≠ none → t.req = s.req)) ∧
      (∀ n f, a.frame = .notice n f → t.num = s.num ∧ t.req = s.req ∧ t.calendar.peers = s.calendar.peers ∧
        (s.calendar.state = .inactive → t.calendar = s.calendar) ∧
        (s.calendar.state = .releasing → f.claimed ≠ 0 ∨ f.settled ≠ 0 →
          t.calendar = s.calendar ∧ t.line.set = s.line.set)) ∧
      (∀ n f, a.frame = .notice n f → s.calendar.state = .active →
        t.calendar.claims.length = s.calendar.claims.length ∧
        (∀ (i : Nat) (c : Claim), s.calendar.claims[i]? = some (some c) → c.Ok →
          t.calendar.claims[i]? = some (some
            (if c.state = .tentative ∧ f.claimed.getLsbD c.slot.val = true ∧
                s.line.recalled.getLsbD c.slot.val = false then
              { c with count := c.count + 1, state := if c.count = 0 then .tentative else .settled }
            else c))) ∧
        ((∃ c, some c ∈ s.calendar.claims ∧ c.state = .tentative ∧ c.count = 1 ∧
            f.claimed.getLsbD c.slot.val = true ∧ s.line.recalled.getLsbD c.slot.val = false) →
          t.line.set.notice = some ⟨(), 0⟩ ∧ t.calendar.countdown = some 64)) ∧
      (∀ n f, a.frame = .notice n f → s.calendar.state = .releasing → f.claimed = 0 → f.settled = 0 →
        t.calendar = { s.calendar with state := .active, claims := claimedList s, countdown := some 64 } ∧
        t.line.set.notice = some ⟨(), 0⟩)

/-- Decoding what was sent (R151, R152, R158, R159): a frame of every kind, with every operand at every value its layout
admits, passes the receive checks and reads back as itself. -/
def Obligations.EveryLegalFrameReadsBack : Prop :=
  ∀ f : Frame, f.Legal → checkFrame f.bits = .ok f

/-- The receive checks in their order (R158, R159), for the bits of any header, serial, length and payload: a wrong CRC
word or an end delimiter with a dominant bit fails "CRC"; then a length that does not agree with the kind fails
"length"; then kind 7 fails "kind"; then a sender the kind does not allow fails "sender". A frame that fails one is
discarded under that reason alone, with the own position latched at the start of its end delimiter, 4 microseconds back
for each of its bits heard (R9, R152), and the line is WAIT-IDLE. A length byte above 48 fails "length" at once,
whatever follows it, and no position is latched (R152). A frame that passes every check is dispatched, as the command of
its kind does it (R160), and a RESTART with a scope above 2 is counted and ignored (R172; log 27). The frame comes with
the command as bits (log 28); in SENDING they are the own frame's end, and in WAIT-IDLE and IDLE nothing is heard (log
14, log 15). -/
def Obligations.ReceiveChecksDiscardInOrder : Prop :=
  (∀ (kind : Nat) (sender : Sender) (serial : Serial) (payload : List Byte) (crc : BitVec 16)
    (tail covered bits : List Bool) (s : State),
    kind < 8 → payload.length ≤ 48 → tail.length = 8 → s.line.state = .receiving →
    covered = bytesBits ((if kind = 0 then headerByte 0 sender :: word32 serial else [headerByte kind sender]) ++
      BitVec.ofNat 8 payload.length :: payload) →
    bits = covered ++ bytesBits (word16 crc) →
    (crc ≠ crc16 covered ∨ tail ≠ List.replicate 8 true →
      exec (.frameDiscard bits tail) s =
        .next (discarded .crc (latchAt (4 * min 8 ((tail.takeWhile id).length + 1)) s))) ∧
    (crc = crc16 covered → tail = List.replicate 8 true →
      (lengthAgrees kind payload = false → exec (.frameDiscard bits tail) s = .next (discarded .length (latchAt 32 s))) ∧
      (lengthAgrees kind payload = true → kind = 7 →
        exec (.frameDiscard bits tail) s = .next (discarded .kind (latchAt 32 s))) ∧
      (lengthAgrees kind payload = true → kind ≠ 7 → senderAgrees kind sender = false →
        exec (.frameDiscard bits tail) s = .next (discarded .sender (latchAt 32 s)))) ∧
    (∀ (size : Byte) (more : List Bool), 48 < size.toNat →
      exec (.frameDiscard
        (bytesBits ((if kind = 0 then headerByte 0 sender :: word32 serial else [headerByte kind sender]) ++ [size]) ++
          more) tail) s = .next (discarded .length s)) ∧
    (∀ n r, ∃ l, discarded r (latchAt n s) = { s with line := l } ∧ l.state = .waitIdle ∧ l.run = 0 ∧
      l.set = s.line.set ∧ l.attempt = s.line.attempt ∧ l.latched = s.timer.behind n ∧
      l.counters = (match r with
        | .crc => { s.line.counters with discardCrc := bump s.line.counters.discardCrc }
        | .length => { s.line.counters with discardLength := bump s.line.counters.discardLength }
        | .kind => { s.line.counters with discardKind := bump s.line.counters.discardKind }
        | .sender => { s.line.counters with discardSender := bump s.line.counters.discardSender }
        | .own => { s.line.counters with discardOwn := bump s.line.counters.discardOwn }))) ∧
  (∀ (f : Frame) (bits tail : List Bool) (s : State), s.line.state = .receiving → f.Legal → bits ++ tail = f.bits →
    (∀ n x, f = .claim n x → exec (.frameDiscard bits tail) s = exec (.claim n x) s) ∧
    (∀ n x, f = .notice n x → exec (.frameDiscard bits tail) s = exec (.notice n x.serial x.toNoticeBody) s) ∧
    (∀ n x, f = .report n x → exec (.frameDiscard bits tail) s = exec (.report n x) s) ∧
    (∀ n x y, f = .query n x y → exec (.frameDiscard bits tail) s = exec (.query n x y) s) ∧
    (∀ n x, f = .status n x → exec (.frameDiscard bits tail) s = exec (.status n x) s) ∧
    (∀ n x y, f = .quiet n x y → exec (.frameDiscard bits tail) s = exec (.quiet n x y) s) ∧
    (∀ n x, f = .restart n x 0 → exec (.frameDiscard bits tail) s = exec (.restartTracking n x) s) ∧
    (∀ n x, f = .restart n x 1 → exec (.frameDiscard bits tail) s = exec (.restartFiring n x) s) ∧
    (∀ n x, f = .restart n x 2 → exec (.frameDiscard bits tail) s = exec (.restartStation n x) s) ∧
    (∀ n x scope, f = .restart n x scope → 2 < scope.toNat →
      exec (.frameDiscard bits tail) s = .next { s with line := s.lineAfterFrame })) ∧
  (∀ (bits tail : List Bool) (s : State),
    (s.line.state = .waitIdle ∨ s.line.state = .idle → exec (.frameDiscard bits tail) s = .next s) ∧
    (s.line.state = .sending → exec (.frameDiscard bits tail) s = exec .frameTransmitted s))

/-! ## Recorder requests -/

/-- QUERY, QUIET and the STATUS of another station (R160, R172, R173, R174): each is counted as dispatched. A QUERY for
this station's number or 31 with an item of 0..3 queues a STATUS for the asker, superseding one already there, and is
the pending reply. Its content is asker and item and, for the items 0, 2 and 3, station state, number mode and numbering
state, driver state and fault cause, the valid and clamped flags and the counters of the group, and for item 1 the layer
table. A QUIET so addressed sets the countdown to seconds × 125; others are ignored. That the frame is counted before
the reply is composed is the model's reading (log 32). -/
def Obligations.QueryQuietAndStatusFrames : Prop :=
  ∀ (sender : Sender) (target x : Byte) (s : State), isRecorder sender = true →
    ((s.isOwnTarget target = true ∨ target = 31) → x.toNat ≤ 3 →
      ∃ payload head, exec (.query sender target x) s = .next
          { s with
            line := s.lineAfterFrame.queueStatus ⟨sender, x, payload⟩
            req := { s.req with reply := some (sender, x) } } ∧
        payload = statusPayload sender x { s with line := s.lineAfterFrame } ∧
        head = [BitVec.ofNat 8 sender.toNat, x, stationCode s.loader.station, numberingByte s.num, driverByte s.laser,
          validityByte s.loader] ∧
        (x = 0 → payload = head ++ [s.laser.shotsFired, s.laser.withheld.fault, s.laser.withheld.quiet,
          s.laser.withheld.suppressed, s.laser.withheld.noBank, s.laser.withheld.supplyInhibit,
          s.laser.withheld.notCharged, s.laser.withheld.budget].flatMap word32) ∧
        (x = 1 → payload = [BitVec.ofNat 8 sender.toNat, 1, BitVec.ofNat 8 s.tracker.tracks.length] ++
          s.tracker.tracks.flatMap (fun t => [t.id] ++ word16 (BitVec.ofNat 16 t.base) ++ word16 (heightWord t.top) ++
            [BitVec.ofNat 8 t.hits, BitVec.ofNat 8 t.history.length, trackStateByte t])) ∧
        (x = 2 → payload = head ++ [s.timer.cycles, s.timer.slips, s.calendar.releases, s.line.counters.sent,
          s.line.counters.arbitrationLosses, s.line.counters.collisionErrors, s.line.counters.dropped,
          s.line.counters.superseded].flatMap word32) ∧
        (x = 3 → payload = head ++ [bump s.line.counters.dispatched, s.line.counters.discardCrc,
          s.line.counters.discardLength, s.line.counters.discardKind, s.line.counters.discardSender,
          s.line.counters.discardOwn].flatMap word32) ∧
        payload[0]? = some (BitVec.ofNat 8 sender.toNat) ∧ payload[1]? = some x ∧
        (s.tracker.tracks.length ≤ 5 → statusLengthAgrees payload = true)) ∧
    ((s.isOwnTarget target = true ∨ target = 31) →
      exec (.quiet sender target x) s = .next
        { s with line := s.lineAfterFrame, req := { s.req with quiet := x.toNat * 125 } }) ∧
    (s.isOwnTarget target = false → target ≠ 31 →
      exec (.query sender target x) s = .next { s with line := s.lineAfterFrame } ∧
      exec (.quiet sender target x) s = .next { s with line := s.lineAfterFrame }) ∧
    (3 < x.toNat → exec (.query sender target x) s = .next { s with line := s.lineAfterFrame }) ∧
    (∀ (n : StationNo) (payload : List Byte), statusLengthAgrees payload = true →
      exec (.status (senderOf n) payload) s = .next { s with line := s.lineAfterFrame })

/-- RESTART by scope for this station's own number (R17, R38, R40, R60, R61, R77, R78, R84, R96, R136, R162, R163, R171,
R175, R176), and what each scope keeps: at station scope the line state, the run and the receive buffer stay as the
RESTART frame left them, an attempt in progress runs to its end and is discarded without report if it is not
transmitted, the number mode stays, and every countdown of the unit is stopped; a RESTART for another number, for 31, or
of firing scope outside RUNNING is ignored (R172). -/
def Obligations.RestartByScope : Prop :=
  ∀ (sender : Sender) (target : Byte) (s : State), isRecorder sender = true →
    (s.isOwnTarget target = true →
      (∃ t, exec (.restartTracking sender target) s = .next t ∧ t.red = none ∧
        t.tracker = { tracks := [], reach := none, nextId := s.tracker.nextId, overflow := false, ceiling := none } ∧
        t.front = { s.front with shot := s.front.shot.map (fun x => { x with disposition := .discard }) } ∧
        t.banks.b.state = .empty ∧
        (s.live = true → t.banks.a.state = .accepting ∧ t.banks.a.seq = s.banks.seq ∧ t.banks.a.m = 0 ∧
          t.banks.seq = s.banks.seq + 1) ∧
        (s.live = false → t.banks.a.state = .empty ∧ t.banks.seq = s.banks.seq) ∧
        t.line = s.lineAfterFrame ∧ t.timer = s.timer ∧ t.calendar = s.calendar ∧ t.laser = s.laser ∧
        t.expo = s.expo ∧ t.loader = s.loader ∧ t.num = s.num ∧ t.req = s.req) ∧
      (s.loader.station = .running →
        ∃ l, exec (.restartFiring sender target) s = .next
            { s with
              line := l
              calendar :=
                { s.calendar with
                  state := .releasing, claims := s.calendar.claims.map (fun _ => none), countdown := some 64 } } ∧
          l = s.lineAfterFrame.queueNotice) ∧
      (s.loader.station ≠ .running →
        exec (.restartFiring sender target) s = .next { s with line := s.lineAfterFrame }) ∧
      (∃ t, exec (.restartStation sender target) s = .next t ∧ t.loader = { s.loader with station := .loading } ∧
        t.timer.pos = s.timer.pos ∧ t.timer.curAdj = s.timer.curAdj ∧ t.timer.nextAdj = s.timer.nextAdj ∧
        t.timer.suppress = s.timer.suppress ∧ t.timer.slew = 0 ∧ t.timer.cycles = 0 ∧ t.timer.slips = 0 ∧
        t.timer.heard = List.replicate 16 none ∧ t.timer.ref = t.num.own ∧
        t.calendar.state = .inactive ∧ t.calendar.peers = [] ∧ t.calendar.releases = 0 ∧
        t.calendar.countdown = none ∧ (∀ c, some c ∉ t.calendar.claims) ∧
        t.laser.shotsFired = 0 ∧ t.laser.withheld = ⟨0, 0, 0, 0, 0, 0, 0⟩ ∧ t.laser.cause = s.laser.cause ∧
        t.laser.dudRun = s.laser.dudRun ∧ t.laser.band = s.laser.band ∧
        (s.laser.driver = .charging ∨ s.laser.driver = .charged → t.laser.driver = .idle ∧ t.laser.level = none) ∧
        (s.laser.driver = .fired ∨ s.laser.driver = .fault → t.laser.driver = s.laser.driver) ∧
        t.expo = s.expo ∧ t.front.pre = s.front.pre ∧
        t.front = { s.front with shot := s.front.shot.map (fun x => { x with disposition := .discard }) } ∧
        t.banks.a.state = .empty ∧ t.banks.b.state = .empty ∧
        t.banks.seq = 0 ∧ t.red = none ∧ t.tracker = ⟨[], none, 0, false, none⟩ ∧
        t.line.set = ⟨none, none, none, none⟩ ∧ t.line.counters = ⟨0, 0, 0, 0, 0, 0, 0, 0, 0, 0, 0⟩ ∧
        t.line.state = s.lineAfterFrame.state ∧ t.line.run = s.lineAfterFrame.run ∧ t.line.rx = s.lineAfterFrame.rx ∧
        t.line.attempt = s.line.attempt.map (fun a => { a with withdrawn := true }) ∧
        (s.num.mode = .fixed → t.num.own = s.num.own ∧ t.num.state = .numbered) ∧
        (s.num.mode = .auto → t.num.own = none ∧ t.num.state = .listen ∧ t.num.listen = none) ∧
        t.num.mode = s.num.mode ∧ t.num.listen = none ∧ t.num.holdOff = none ∧ t.num.taken = 0 ∧
        t.num.wanted = none ∧ t.num.yieldMark = false ∧ t.num.serial = s.num.serial ∧
        t.req = ⟨0, none⟩)) ∧
    (s.isOwnTarget target = false →
      exec (.restartTracking sender target) s = .next { s with line := s.lineAfterFrame } ∧
      exec (.restartFiring sender target) s = .next { s with line := s.lineAfterFrame } ∧
      exec (.restartStation sender target) s = .next { s with line := s.lineAfterFrame })

/-! ## What every step keeps -/

/-- Every step keeps the bounds and links of the cycle timer and its reference (R1, R3..R7, R9, R14), and no slew where
the reference is none or the own number (R8), with the numbering unit's links they rest on. -/
def Obligations.EveryStepKeepsTheTimer : Prop :=
  Keeps (fun s => s.timer.Ok s.num.own)

/-- Every step keeps the driver record and the exposure monitor within their rules (R42, R45, R47, R52, R55, R57, R58).
-/
def Obligations.EveryStepKeepsDriverAndExposure : Prop :=
  Keeps (fun s => s.laser.Ok ∧ s.expo.Ok)

/-- No triggered shot can bring the exposure total over the limit (R59): while a shot is in flight the greatest reading
still fits, at every step that loads no new limit, and its reading then leaves the total within the limit. -/
def Obligations.NoShotExceedsTheExposureLimit : Prop :=
  (∀ s t, s.expo.Ok → s.Headroom → (∀ r rest, s.pending ≠ .loadComplete r :: rest) → step s = .next t → t.Headroom) ∧
  (∀ (code : Byte) (s : State), s.Headroom → s.laser.driver = .fired →
    ∃ t, exec (.energyReading code) s = .next t ∧ t.expo.total + t.expo.current ≤ t.expo.limit)

/-- Every step keeps the banks and the reduction unit within their rules (R67, R71, R73, R79), and the shot counts of
the banks: at most N, below N in a bank that accepts (R67, R69). -/
def Obligations.EveryStepKeepsTheBanks : Prop :=
  Keeps (fun s => BanksOk s.banks s.red ∧ s.CountsOk)

/-- Every step keeps the layer table (R113, R114, R115, R116, R125, R126): at most 5 tracks, strictly ascending, no two
of one id, every track within the bounds of its origin. -/
def Obligations.EveryStepKeepsTheLayerTable : Prop :=
  Keeps (fun s => s.tracker.Ok)

/-- Every step keeps the line interface within its rules (R32, R150, R153, R155). -/
def Obligations.EveryStepKeepsTheLine : Prop :=
  Keeps (fun s => s.line.Ok)

/-- Every step keeps the calendar, the station state and the numbering unit within their rules (R18, R23, R24, R34, R42,
R163..R171): among them, the own claim list has S positions, and none before S has a value (log 35), and never holds
more than S slots, and never a slot claimed by an unlapsed crossing peer with a lower number. -/
def Obligations.EveryStepKeepsTheCalendarAndTheStation : Prop :=
  Keeps (fun s => s.StationOk ∧ s.calendar.Ok ∧ PeersOk s.num.own s.calendar.peers ∧ s.Apart)

/-- The state after reset keeps all of it. The band, the serial and the latched position of State.reset are the model's
choices (log 9, log 10, log 11), and so is its empty own claim list (log 35); nothing here rests on them. -/
def Obligations.ResetKeepsEverything : Prop :=
  State.reset.timer.Ok State.reset.num.own ∧ State.reset.laser.Ok ∧ State.reset.expo.Ok ∧ State.reset.Headroom ∧
    BanksOk State.reset.banks State.reset.red ∧ State.reset.CountsOk ∧ State.reset.tracker.Ok ∧ State.reset.line.Ok ∧
    State.reset.StationOk ∧ State.reset.calendar.Ok ∧ PeersOk State.reset.num.own State.reset.calendar.peers ∧
    State.reset.Apart
end

