-- ==== Sys2Proof/Laws/State.lean ====
section
/-! SUPPORT. What each block update leaves in each field of the state: one lemma per field per update, true by rfl, so
that no later proof unfolds a record update. -/

namespace Sys2Proof.Machine

variable (s : State)

@[simp] theorem State.timer_mapTimer (f : Timer → Timer) : (s.mapTimer f).timer = f s.timer := rfl
@[simp] theorem State.calendar_mapTimer (f : Timer → Timer) : (s.mapTimer f).calendar = s.calendar := rfl
@[simp] theorem State.laser_mapTimer (f : Timer → Timer) : (s.mapTimer f).laser = s.laser := rfl
@[simp] theorem State.expo_mapTimer (f : Timer → Timer) : (s.mapTimer f).expo = s.expo := rfl
@[simp] theorem State.front_mapTimer (f : Timer → Timer) : (s.mapTimer f).front = s.front := rfl
@[simp] theorem State.banks_mapTimer (f : Timer → Timer) : (s.mapTimer f).banks = s.banks := rfl
@[simp] theorem State.red_mapTimer (f : Timer → Timer) : (s.mapTimer f).red = s.red := rfl
@[simp] theorem State.tracker_mapTimer (f : Timer → Timer) : (s.mapTimer f).tracker = s.tracker := rfl
@[simp] theorem State.line_mapTimer (f : Timer → Timer) : (s.mapTimer f).line = s.line := rfl
@[simp] theorem State.loader_mapTimer (f : Timer → Timer) : (s.mapTimer f).loader = s.loader := rfl
@[simp] theorem State.num_mapTimer (f : Timer → Timer) : (s.mapTimer f).num = s.num := rfl
@[simp] theorem State.req_mapTimer (f : Timer → Timer) : (s.mapTimer f).req = s.req := rfl
@[simp] theorem State.pending_mapTimer (f : Timer → Timer) : (s.mapTimer f).pending = s.pending := rfl

@[simp] theorem State.timer_mapCalendar (f : Calendar → Calendar) : (s.mapCalendar f).timer = s.timer := rfl
@[simp] theorem State.calendar_mapCalendar (f : Calendar → Calendar) : (s.mapCalendar f).calendar = f s.calendar := rfl
@[simp] theorem State.laser_mapCalendar (f : Calendar → Calendar) : (s.mapCalendar f).laser = s.laser := rfl
@[simp] theorem State.expo_mapCalendar (f : Calendar → Calendar) : (s.mapCalendar f).expo = s.expo := rfl
@[simp] theorem State.front_mapCalendar (f : Calendar → Calendar) : (s.mapCalendar f).front = s.front := rfl
@[simp] theorem State.banks_mapCalendar (f : Calendar → Calendar) : (s.mapCalendar f).banks = s.banks := rfl
@[simp] theorem State.red_mapCalendar (f : Calendar → Calendar) : (s.mapCalendar f).red = s.red := rfl
@[simp] theorem State.tracker_mapCalendar (f : Calendar → Calendar) : (s.mapCalendar f).tracker = s.tracker := rfl
@[simp] theorem State.line_mapCalendar (f : Calendar → Calendar) : (s.mapCalendar f).line = s.line := rfl
@[simp] theorem State.loader_mapCalendar (f : Calendar → Calendar) : (s.mapCalendar f).loader = s.loader := rfl
@[simp] theorem State.num_mapCalendar (f : Calendar → Calendar) : (s.mapCalendar f).num = s.num := rfl
@[simp] theorem State.req_mapCalendar (f : Calendar → Calendar) : (s.mapCalendar f).req = s.req := rfl
@[simp] theorem State.pending_mapCalendar (f : Calendar → Calendar) : (s.mapCalendar f).pending = s.pending := rfl

@[simp] theorem State.timer_mapLaser (f : Laser → Laser) : (s.mapLaser f).timer = s.timer := rfl
@[simp] theorem State.calendar_mapLaser (f : Laser → Laser) : (s.mapLaser f).calendar = s.calendar := rfl
@[simp] theorem State.laser_mapLaser (f : Laser → Laser) : (s.mapLaser f).laser = f s.laser := rfl
@[simp] theorem State.expo_mapLaser (f : Laser → Laser) : (s.mapLaser f).expo = s.expo := rfl
@[simp] theorem State.front_mapLaser (f : Laser → Laser) : (s.mapLaser f).front = s.front := rfl
@[simp] theorem State.banks_mapLaser (f : Laser → Laser) : (s.mapLaser f).banks = s.banks := rfl
@[simp] theorem State.red_mapLaser (f : Laser → Laser) : (s.mapLaser f).red = s.red := rfl
@[simp] theorem State.tracker_mapLaser (f : Laser → Laser) : (s.mapLaser f).tracker = s.tracker := rfl
@[simp] theorem State.line_mapLaser (f : Laser → Laser) : (s.mapLaser f).line = s.line := rfl
@[simp] theorem State.loader_mapLaser (f : Laser → Laser) : (s.mapLaser f).loader = s.loader := rfl
@[simp] theorem State.num_mapLaser (f : Laser → Laser) : (s.mapLaser f).num = s.num := rfl
@[simp] theorem State.req_mapLaser (f : Laser → Laser) : (s.mapLaser f).req = s.req := rfl
@[simp] theorem State.pending_mapLaser (f : Laser → Laser) : (s.mapLaser f).pending = s.pending := rfl

@[simp] theorem State.timer_mapExpo (f : Exposure → Exposure) : (s.mapExpo f).timer = s.timer := rfl
@[simp] theorem State.calendar_mapExpo (f : Exposure → Exposure) : (s.mapExpo f).calendar = s.calendar := rfl
@[simp] theorem State.laser_mapExpo (f : Exposure → Exposure) : (s.mapExpo f).laser = s.laser := rfl
@[simp] theorem State.expo_mapExpo (f : Exposure → Exposure) : (s.mapExpo f).expo = f s.expo := rfl
@[simp] theorem State.front_mapExpo (f : Exposure → Exposure) : (s.mapExpo f).front = s.front := rfl
@[simp] theorem State.banks_mapExpo (f : Exposure → Exposure) : (s.mapExpo f).banks = s.banks := rfl
@[simp] theorem State.red_mapExpo (f : Exposure → Exposure) : (s.mapExpo f).red = s.red := rfl
@[simp] theorem State.tracker_mapExpo (f : Exposure → Exposure) : (s.mapExpo f).tracker = s.tracker := rfl
@[simp] theorem State.line_mapExpo (f : Exposure → Exposure) : (s.mapExpo f).line = s.line := rfl
@[simp] theorem State.loader_mapExpo (f : Exposure → Exposure) : (s.mapExpo f).loader = s.loader := rfl
@[simp] theorem State.num_mapExpo (f : Exposure → Exposure) : (s.mapExpo f).num = s.num := rfl
@[simp] theorem State.req_mapExpo (f : Exposure → Exposure) : (s.mapExpo f).req = s.req := rfl
@[simp] theorem State.pending_mapExpo (f : Exposure → Exposure) : (s.mapExpo f).pending = s.pending := rfl

@[simp] theorem State.timer_mapFront (f : FrontEnd → FrontEnd) : (s.mapFront f).timer = s.timer := rfl
@[simp] theorem State.calendar_mapFront (f : FrontEnd → FrontEnd) : (s.mapFront f).calendar = s.calendar := rfl
@[simp] theorem State.laser_mapFront (f : FrontEnd → FrontEnd) : (s.mapFront f).laser = s.laser := rfl
@[simp] theorem State.expo_mapFront (f : FrontEnd → FrontEnd) : (s.mapFront f).expo = s.expo := rfl
@[simp] theorem State.front_mapFront (f : FrontEnd → FrontEnd) : (s.mapFront f).front = f s.front := rfl
@[simp] theorem State.banks_mapFront (f : FrontEnd → FrontEnd) : (s.mapFront f).banks = s.banks := rfl
@[simp] theorem State.red_mapFront (f : FrontEnd → FrontEnd) : (s.mapFront f).red = s.red := rfl
@[simp] theorem State.tracker_mapFront (f : FrontEnd → FrontEnd) : (s.mapFront f).tracker = s.tracker := rfl
@[simp] theorem State.line_mapFront (f : FrontEnd → FrontEnd) : (s.mapFront f).line = s.line := rfl
@[simp] theorem State.loader_mapFront (f : FrontEnd → FrontEnd) : (s.mapFront f).loader = s.loader := rfl
@[simp] theorem State.num_mapFront (f : FrontEnd → FrontEnd) : (s.mapFront f).num = s.num := rfl
@[simp] theorem State.req_mapFront (f : FrontEnd → FrontEnd) : (s.mapFront f).req = s.req := rfl
@[simp] theorem State.pending_mapFront (f : FrontEnd → FrontEnd) : (s.mapFront f).pending = s.pending := rfl

@[simp] theorem State.timer_mapBanks (f : Banks → Banks) : (s.mapBanks f).timer = s.timer := rfl
@[simp] theorem State.calendar_mapBanks (f : Banks → Banks) : (s.mapBanks f).calendar = s.calendar := rfl
@[simp] theorem State.laser_mapBanks (f : Banks → Banks) : (s.mapBanks f).laser = s.laser := rfl
@[simp] theorem State.expo_mapBanks (f : Banks → Banks) : (s.mapBanks f).expo = s.expo := rfl
@[simp] theorem State.front_mapBanks (f : Banks → Banks) : (s.mapBanks f).front = s.front := rfl
@[simp] theorem State.banks_mapBanks (f : Banks → Banks) : (s.mapBanks f).banks = f s.banks := rfl
@[simp] theorem State.red_mapBanks (f : Banks → Banks) : (s.mapBanks f).red = s.red := rfl
@[simp] theorem State.tracker_mapBanks (f : Banks → Banks) : (s.mapBanks f).tracker = s.tracker := rfl
@[simp] theorem State.line_mapBanks (f : Banks → Banks) : (s.mapBanks f).line = s.line := rfl
@[simp] theorem State.loader_mapBanks (f : Banks → Banks) : (s.mapBanks f).loader = s.loader := rfl
@[simp] theorem State.num_mapBanks (f : Banks → Banks) : (s.mapBanks f).num = s.num := rfl
@[simp] theorem State.req_mapBanks (f : Banks → Banks) : (s.mapBanks f).req = s.req := rfl
@[simp] theorem State.pending_mapBanks (f : Banks → Banks) : (s.mapBanks f).pending = s.pending := rfl

@[simp] theorem State.timer_mapTracker (f : Tracker → Tracker) : (s.mapTracker f).timer = s.timer := rfl
@[simp] theorem State.calendar_mapTracker (f : Tracker → Tracker) : (s.mapTracker f).calendar = s.calendar := rfl
@[simp] theorem State.laser_mapTracker (f : Tracker → Tracker) : (s.mapTracker f).laser = s.laser := rfl
@[simp] theorem State.expo_mapTracker (f : Tracker → Tracker) : (s.mapTracker f).expo = s.expo := rfl
@[simp] theorem State.front_mapTracker (f : Tracker → Tracker) : (s.mapTracker f).front = s.front := rfl
@[simp] theorem State.banks_mapTracker (f : Tracker → Tracker) : (s.mapTracker f).banks = s.banks := rfl
@[simp] theorem State.red_mapTracker (f : Tracker → Tracker) : (s.mapTracker f).red = s.red := rfl
@[simp] theorem State.tracker_mapTracker (f : Tracker → Tracker) : (s.mapTracker f).tracker = f s.tracker := rfl
@[simp] theorem State.line_mapTracker (f : Tracker → Tracker) : (s.mapTracker f).line = s.line := rfl
@[simp] theorem State.loader_mapTracker (f : Tracker → Tracker) : (s.mapTracker f).loader = s.loader := rfl
@[simp] theorem State.num_mapTracker (f : Tracker → Tracker) : (s.mapTracker f).num = s.num := rfl
@[simp] theorem State.req_mapTracker (f : Tracker → Tracker) : (s.mapTracker f).req = s.req := rfl
@[simp] theorem State.pending_mapTracker (f : Tracker → Tracker) : (s.mapTracker f).pending = s.pending := rfl

@[simp] theorem State.timer_mapLine (f : Line → Line) : (s.mapLine f).timer = s.timer := rfl
@[simp] theorem State.calendar_mapLine (f : Line → Line) : (s.mapLine f).calendar = s.calendar := rfl
@[simp] theorem State.laser_mapLine (f : Line → Line) : (s.mapLine f).laser = s.laser := rfl
@[simp] theorem State.expo_mapLine (f : Line → Line) : (s.mapLine f).expo = s.expo := rfl
@[simp] theorem State.front_mapLine (f : Line → Line) : (s.mapLine f).front = s.front := rfl
@[simp] theorem State.banks_mapLine (f : Line → Line) : (s.mapLine f).banks = s.banks := rfl
@[simp] theorem State.red_mapLine (f : Line → Line) : (s.mapLine f).red = s.red := rfl
@[simp] theorem State.tracker_mapLine (f : Line → Line) : (s.mapLine f).tracker = s.tracker := rfl
@[simp] theorem State.line_mapLine (f : Line → Line) : (s.mapLine f).line = f s.line := rfl
@[simp] theorem State.loader_mapLine (f : Line → Line) : (s.mapLine f).loader = s.loader := rfl
@[simp] theorem State.num_mapLine (f : Line → Line) : (s.mapLine f).num = s.num := rfl
@[simp] theorem State.req_mapLine (f : Line → Line) : (s.mapLine f).req = s.req := rfl
@[simp] theorem State.pending_mapLine (f : Line → Line) : (s.mapLine f).pending = s.pending := rfl

@[simp] theorem State.timer_mapLoader (f : Loader → Loader) : (s.mapLoader f).timer = s.timer := rfl
@[simp] theorem State.calendar_mapLoader (f : Loader → Loader) : (s.mapLoader f).calendar = s.calendar := rfl
@[simp] theorem State.laser_mapLoader (f : Loader → Loader) : (s.mapLoader f).laser = s.laser := rfl
@[simp] theorem State.expo_mapLoader (f : Loader → Loader) : (s.mapLoader f).expo = s.expo := rfl
@[simp] theorem State.front_mapLoader (f : Loader → Loader) : (s.mapLoader f).front = s.front := rfl
@[simp] theorem State.banks_mapLoader (f : Loader → Loader) : (s.mapLoader f).banks = s.banks := rfl
@[simp] theorem State.red_mapLoader (f : Loader → Loader) : (s.mapLoader f).red = s.red := rfl
@[simp] theorem State.tracker_mapLoader (f : Loader → Loader) : (s.mapLoader f).tracker = s.tracker := rfl
@[simp] theorem State.line_mapLoader (f : Loader → Loader) : (s.mapLoader f).line = s.line := rfl
@[simp] theorem State.loader_mapLoader (f : Loader → Loader) : (s.mapLoader f).loader = f s.loader := rfl
@[simp] theorem State.num_mapLoader (f : Loader → Loader) : (s.mapLoader f).num = s.num := rfl
@[simp] theorem State.req_mapLoader (f : Loader → Loader) : (s.mapLoader f).req = s.req := rfl
@[simp] theorem State.pending_mapLoader (f : Loader → Loader) : (s.mapLoader f).pending = s.pending := rfl

@[simp] theorem State.timer_mapNum (f : Numbering → Numbering) : (s.mapNum f).timer = s.timer := rfl
@[simp] theorem State.calendar_mapNum (f : Numbering → Numbering) : (s.mapNum f).calendar = s.calendar := rfl
@[simp] theorem State.laser_mapNum (f : Numbering → Numbering) : (s.mapNum f).laser = s.laser := rfl
@[simp] theorem State.expo_mapNum (f : Numbering → Numbering) : (s.mapNum f).expo = s.expo := rfl
@[simp] theorem State.front_mapNum (f : Numbering → Numbering) : (s.mapNum f).front = s.front := rfl
@[simp] theorem State.banks_mapNum (f : Numbering → Numbering) : (s.mapNum f).banks = s.banks := rfl
@[simp] theorem State.red_mapNum (f : Numbering → Numbering) : (s.mapNum f).red = s.red := rfl
@[simp] theorem State.tracker_mapNum (f : Numbering → Numbering) : (s.mapNum f).tracker = s.tracker := rfl
@[simp] theorem State.line_mapNum (f : Numbering → Numbering) : (s.mapNum f).line = s.line := rfl
@[simp] theorem State.loader_mapNum (f : Numbering → Numbering) : (s.mapNum f).loader = s.loader := rfl
@[simp] theorem State.num_mapNum (f : Numbering → Numbering) : (s.mapNum f).num = f s.num := rfl
@[simp] theorem State.req_mapNum (f : Numbering → Numbering) : (s.mapNum f).req = s.req := rfl
@[simp] theorem State.pending_mapNum (f : Numbering → Numbering) : (s.mapNum f).pending = s.pending := rfl

@[simp] theorem State.timer_mapReq (f : Request → Request) : (s.mapReq f).timer = s.timer := rfl
@[simp] theorem State.calendar_mapReq (f : Request → Request) : (s.mapReq f).calendar = s.calendar := rfl
@[simp] theorem State.laser_mapReq (f : Request → Request) : (s.mapReq f).laser = s.laser := rfl
@[simp] theorem State.expo_mapReq (f : Request → Request) : (s.mapReq f).expo = s.expo := rfl
@[simp] theorem State.front_mapReq (f : Request → Request) : (s.mapReq f).front = s.front := rfl
@[simp] theorem State.banks_mapReq (f : Request → Request) : (s.mapReq f).banks = s.banks := rfl
@[simp] theorem State.red_mapReq (f : Request → Request) : (s.mapReq f).red = s.red := rfl
@[simp] theorem State.tracker_mapReq (f : Request → Request) : (s.mapReq f).tracker = s.tracker := rfl
@[simp] theorem State.line_mapReq (f : Request → Request) : (s.mapReq f).line = s.line := rfl
@[simp] theorem State.loader_mapReq (f : Request → Request) : (s.mapReq f).loader = s.loader := rfl
@[simp] theorem State.num_mapReq (f : Request → Request) : (s.mapReq f).num = s.num := rfl
@[simp] theorem State.req_mapReq (f : Request → Request) : (s.mapReq f).req = f s.req := rfl
@[simp] theorem State.pending_mapReq (f : Request → Request) : (s.mapReq f).pending = s.pending := rfl

@[simp] theorem State.timer_setRed (r : Option Reduction) : (s.setRed r).timer = s.timer := rfl
@[simp] theorem State.calendar_setRed (r : Option Reduction) : (s.setRed r).calendar = s.calendar := rfl
@[simp] theorem State.laser_setRed (r : Option Reduction) : (s.setRed r).laser = s.laser := rfl
@[simp] theorem State.expo_setRed (r : Option Reduction) : (s.setRed r).expo = s.expo := rfl
@[simp] theorem State.front_setRed (r : Option Reduction) : (s.setRed r).front = s.front := rfl
@[simp] theorem State.banks_setRed (r : Option Reduction) : (s.setRed r).banks = s.banks := rfl
@[simp] theorem State.red_setRed (r : Option Reduction) : (s.setRed r).red = r := rfl
@[simp] theorem State.tracker_setRed (r : Option Reduction) : (s.setRed r).tracker = s.tracker := rfl
@[simp] theorem State.line_setRed (r : Option Reduction) : (s.setRed r).line = s.line := rfl
@[simp] theorem State.loader_setRed (r : Option Reduction) : (s.setRed r).loader = s.loader := rfl
@[simp] theorem State.num_setRed (r : Option Reduction) : (s.setRed r).num = s.num := rfl
@[simp] theorem State.req_setRed (r : Option Reduction) : (s.setRed r).req = s.req := rfl
@[simp] theorem State.pending_setRed (r : Option Reduction) : (s.setRed r).pending = s.pending := rfl

end Sys2Proof.Machine
end

