-- ==== Sys2Proof/Laws/Frames.lean ====
section
/-! SUPPORT. The frame of every shared operation: the fields of the state it leaves as they were, one lemma per
operation, so that a later proof cites the lemma instead of unfolding the operation. -/

namespace Sys2Proof.Machine

variable (s : State)

/-! ## Machine/Ops.lean -/

@[simp] theorem recomputeReference_frame :
    (recomputeReference s).calendar = s.calendar ∧ (recomputeReference s).laser = s.laser ∧
    (recomputeReference s).expo = s.expo ∧ (recomputeReference s).front = s.front ∧
    (recomputeReference s).banks = s.banks ∧ (recomputeReference s).red = s.red ∧
    (recomputeReference s).tracker = s.tracker ∧ (recomputeReference s).line = s.line ∧
    (recomputeReference s).loader = s.loader ∧ (recomputeReference s).num = s.num ∧
    (recomputeReference s).req = s.req ∧ (recomputeReference s).pending = s.pending := by
  simp [recomputeReference]

/-! ## Machine/Laser.lean -/

@[simp] theorem recomputeTarget_frame :
    (recomputeTarget s).timer = s.timer ∧ (recomputeTarget s).calendar = s.calendar ∧
    (recomputeTarget s).expo = s.expo ∧ (recomputeTarget s).front = s.front ∧ (recomputeTarget s).banks = s.banks ∧
    (recomputeTarget s).red = s.red ∧ (recomputeTarget s).tracker = s.tracker ∧ (recomputeTarget s).line = s.line ∧
    (recomputeTarget s).loader = s.loader ∧ (recomputeTarget s).num = s.num ∧ (recomputeTarget s).req = s.req ∧
    (recomputeTarget s).pending = s.pending := by
  simp [recomputeTarget]

@[simp] theorem chargeOrIdle_frame :
    (chargeOrIdle s).timer = s.timer ∧ (chargeOrIdle s).calendar = s.calendar ∧ (chargeOrIdle s).expo = s.expo ∧
    (chargeOrIdle s).front = s.front ∧ (chargeOrIdle s).banks = s.banks ∧ (chargeOrIdle s).red = s.red ∧
    (chargeOrIdle s).tracker = s.tracker ∧ (chargeOrIdle s).line = s.line ∧ (chargeOrIdle s).loader = s.loader ∧
    (chargeOrIdle s).num = s.num ∧ (chargeOrIdle s).req = s.req ∧ (chargeOrIdle s).pending = s.pending := by
  dsimp only [chargeOrIdle]; (repeat' split) <;> simp

@[simp] theorem driverEntersRunning_frame :
    (driverEntersRunning s).timer = s.timer ∧ (driverEntersRunning s).calendar = s.calendar ∧
    (driverEntersRunning s).expo = s.expo ∧ (driverEntersRunning s).front = s.front ∧
    (driverEntersRunning s).banks = s.banks ∧ (driverEntersRunning s).red = s.red ∧
    (driverEntersRunning s).tracker = s.tracker ∧ (driverEntersRunning s).line = s.line ∧
    (driverEntersRunning s).loader = s.loader ∧ (driverEntersRunning s).num = s.num ∧
    (driverEntersRunning s).req = s.req ∧ (driverEntersRunning s).pending = s.pending := by
  dsimp only [driverEntersRunning]; (repeat' split) <;> simp

@[simp] theorem driverAtBandChange_frame :
    (driverAtBandChange s).timer = s.timer ∧ (driverAtBandChange s).calendar = s.calendar ∧
    (driverAtBandChange s).expo = s.expo ∧ (driverAtBandChange s).front = s.front ∧
    (driverAtBandChange s).banks = s.banks ∧ (driverAtBandChange s).red = s.red ∧
    (driverAtBandChange s).tracker = s.tracker ∧ (driverAtBandChange s).line = s.line ∧
    (driverAtBandChange s).loader = s.loader ∧ (driverAtBandChange s).num = s.num ∧
    (driverAtBandChange s).req = s.req ∧ (driverAtBandChange s).pending = s.pending := by
  dsimp only [driverAtBandChange]; (repeat' split) <;> simp

@[simp] theorem chargeReport_frame :
    (chargeReport s).timer = s.timer ∧ (chargeReport s).calendar = s.calendar ∧ (chargeReport s).expo = s.expo ∧
    (chargeReport s).front = s.front ∧ (chargeReport s).banks = s.banks ∧ (chargeReport s).red = s.red ∧
    (chargeReport s).tracker = s.tracker ∧ (chargeReport s).line = s.line ∧ (chargeReport s).loader = s.loader ∧
    (chargeReport s).num = s.num ∧ (chargeReport s).req = s.req ∧ (chargeReport s).pending = s.pending := by
  dsimp only [chargeReport]; (repeat' split) <;> simp

@[simp] theorem bandReport_frame (band : Band) :
    (bandReport band s).timer = s.timer ∧ (bandReport band s).calendar = s.calendar ∧
    (bandReport band s).expo = s.expo ∧ (bandReport band s).front = s.front ∧ (bandReport band s).banks = s.banks ∧
    (bandReport band s).red = s.red ∧ (bandReport band s).tracker = s.tracker ∧ (bandReport band s).line = s.line ∧
    (bandReport band s).loader = s.loader ∧ (bandReport band s).num = s.num ∧ (bandReport band s).req = s.req ∧
    (bandReport band s).pending = s.pending := by
  dsimp only [bandReport]; (repeat' split) <;> simp

/-! ## Machine/Line.lean -/

@[simp] theorem startAttempt_frame :
    (startAttempt s).timer = s.timer ∧ (startAttempt s).calendar = s.calendar ∧ (startAttempt s).laser = s.laser ∧
    (startAttempt s).expo = s.expo ∧ (startAttempt s).front = s.front ∧ (startAttempt s).banks = s.banks ∧
    (startAttempt s).red = s.red ∧ (startAttempt s).tracker = s.tracker ∧ (startAttempt s).loader = s.loader ∧
    (startAttempt s).num = s.num ∧ (startAttempt s).req = s.req ∧ (startAttempt s).pending = s.pending := by
  dsimp only [startAttempt]; (repeat' split) <;> simp

@[simp] theorem latchAt_frame (n : Nat) :
    (latchAt n s).timer = s.timer ∧ (latchAt n s).calendar = s.calendar ∧ (latchAt n s).laser = s.laser ∧
    (latchAt n s).expo = s.expo ∧ (latchAt n s).front = s.front ∧ (latchAt n s).banks = s.banks ∧
    (latchAt n s).red = s.red ∧ (latchAt n s).tracker = s.tracker ∧ (latchAt n s).loader = s.loader ∧
    (latchAt n s).num = s.num ∧ (latchAt n s).req = s.req ∧ (latchAt n s).pending = s.pending := by
  simp [latchAt]

@[simp] theorem latch_frame :
    (latch s).timer = s.timer ∧ (latch s).calendar = s.calendar ∧ (latch s).laser = s.laser ∧
    (latch s).expo = s.expo ∧ (latch s).front = s.front ∧ (latch s).banks = s.banks ∧
    (latch s).red = s.red ∧ (latch s).tracker = s.tracker ∧ (latch s).loader = s.loader ∧
    (latch s).num = s.num ∧ (latch s).req = s.req ∧ (latch s).pending = s.pending := by
  simp [latch]

@[simp] theorem dispatched_frame :
    (dispatched s).timer = s.timer ∧ (dispatched s).calendar = s.calendar ∧ (dispatched s).laser = s.laser ∧
    (dispatched s).expo = s.expo ∧ (dispatched s).front = s.front ∧ (dispatched s).banks = s.banks ∧
    (dispatched s).red = s.red ∧ (dispatched s).tracker = s.tracker ∧ (dispatched s).loader = s.loader ∧
    (dispatched s).num = s.num ∧ (dispatched s).req = s.req ∧ (dispatched s).pending = s.pending := by
  simp [dispatched]

@[simp] theorem discarded_frame (r : Discard) :
    (discarded r s).timer = s.timer ∧ (discarded r s).calendar = s.calendar ∧ (discarded r s).laser = s.laser ∧
    (discarded r s).expo = s.expo ∧ (discarded r s).front = s.front ∧ (discarded r s).banks = s.banks ∧
    (discarded r s).red = s.red ∧ (discarded r s).tracker = s.tracker ∧ (discarded r s).loader = s.loader ∧
    (discarded r s).num = s.num ∧ (discarded r s).req = s.req ∧ (discarded r s).pending = s.pending := by
  simp [discarded]

/-! ## Machine/Banks.lean -/

@[simp] theorem openBank_frame (i : BankId) :
    (openBank i s).timer = s.timer ∧ (openBank i s).calendar = s.calendar ∧ (openBank i s).laser = s.laser ∧
    (openBank i s).expo = s.expo ∧ (openBank i s).front = s.front ∧ (openBank i s).red = s.red ∧
    (openBank i s).tracker = s.tracker ∧ (openBank i s).line = s.line ∧ (openBank i s).loader = s.loader ∧
    (openBank i s).num = s.num ∧ (openBank i s).req = s.req ∧ (openBank i s).pending = s.pending := by
  simp [openBank]

@[simp] theorem startReduction_frame (i : BankId) :
    (startReduction i s).timer = s.timer ∧ (startReduction i s).calendar = s.calendar ∧
    (startReduction i s).laser = s.laser ∧ (startReduction i s).expo = s.expo ∧
    (startReduction i s).front = s.front ∧ (startReduction i s).tracker = s.tracker ∧
    (startReduction i s).line = s.line ∧ (startReduction i s).loader = s.loader ∧
    (startReduction i s).num = s.num ∧ (startReduction i s).req = s.req ∧ (startReduction i s).pending = s.pending := by
  simp [startReduction]

@[simp] theorem closeBank_frame (i : BankId) :
    (closeBank i s).timer = s.timer ∧ (closeBank i s).calendar = s.calendar ∧ (closeBank i s).laser = s.laser ∧
    (closeBank i s).expo = s.expo ∧ (closeBank i s).front = s.front ∧ (closeBank i s).tracker = s.tracker ∧
    (closeBank i s).line = s.line ∧ (closeBank i s).loader = s.loader ∧ (closeBank i s).num = s.num ∧
    (closeBank i s).req = s.req ∧ (closeBank i s).pending = s.pending := by
  dsimp only [closeBank]; (repeat' split) <;> simp

@[simp] theorem banksBoundary_frame :
    (banksBoundary s).timer = s.timer ∧ (banksBoundary s).calendar = s.calendar ∧
    (banksBoundary s).laser = s.laser ∧ (banksBoundary s).expo = s.expo ∧ (banksBoundary s).front = s.front ∧
    (banksBoundary s).tracker = s.tracker ∧ (banksBoundary s).line = s.line ∧ (banksBoundary s).loader = s.loader ∧
    (banksBoundary s).num = s.num ∧ (banksBoundary s).req = s.req ∧ (banksBoundary s).pending = s.pending := by
  dsimp only [banksBoundary]; (repeat' split) <;> simp

@[simp] theorem banksLeaveLive_frame :
    (banksLeaveLive s).timer = s.timer ∧ (banksLeaveLive s).calendar = s.calendar ∧
    (banksLeaveLive s).laser = s.laser ∧ (banksLeaveLive s).expo = s.expo ∧ (banksLeaveLive s).front = s.front ∧
    (banksLeaveLive s).tracker = s.tracker ∧ (banksLeaveLive s).line = s.line ∧
    (banksLeaveLive s).loader = s.loader ∧ (banksLeaveLive s).num = s.num ∧ (banksLeaveLive s).req = s.req ∧
    (banksLeaveLive s).pending = s.pending := by
  dsimp only [banksLeaveLive]; (repeat' split) <;> simp

@[simp] theorem banksEnterLive_frame :
    (banksEnterLive s).timer = s.timer ∧ (banksEnterLive s).calendar = s.calendar ∧
    (banksEnterLive s).laser = s.laser ∧ (banksEnterLive s).expo = s.expo ∧ (banksEnterLive s).front = s.front ∧
    (banksEnterLive s).red = s.red ∧ (banksEnterLive s).tracker = s.tracker ∧ (banksEnterLive s).line = s.line ∧
    (banksEnterLive s).loader = s.loader ∧ (banksEnterLive s).num = s.num ∧ (banksEnterLive s).req = s.req ∧
    (banksEnterLive s).pending = s.pending := by
  dsimp only [banksEnterLive]; (repeat' split) <;> simp

@[simp] theorem endReduction_frame (i : BankId) :
    (endReduction i s).timer = s.timer ∧ (endReduction i s).calendar = s.calendar ∧
    (endReduction i s).laser = s.laser ∧ (endReduction i s).expo = s.expo ∧ (endReduction i s).front = s.front ∧
    (endReduction i s).tracker = s.tracker ∧ (endReduction i s).line = s.line ∧
    (endReduction i s).loader = s.loader ∧ (endReduction i s).num = s.num ∧ (endReduction i s).req = s.req ∧
    (endReduction i s).pending = s.pending := by
  dsimp only [endReduction]; (repeat' split) <;> simp

@[simp] theorem emptyBanks_frame :
    (emptyBanks s).timer = s.timer ∧ (emptyBanks s).calendar = s.calendar ∧ (emptyBanks s).laser = s.laser ∧
    (emptyBanks s).expo = s.expo ∧ (emptyBanks s).tracker = s.tracker ∧ (emptyBanks s).line = s.line ∧
    (emptyBanks s).loader = s.loader ∧ (emptyBanks s).num = s.num ∧ (emptyBanks s).req = s.req ∧
    (emptyBanks s).pending = s.pending := by
  simp [emptyBanks]

@[simp] theorem reopenBanks_frame :
    (reopenBanks s).timer = s.timer ∧ (reopenBanks s).calendar = s.calendar ∧ (reopenBanks s).laser = s.laser ∧
    (reopenBanks s).expo = s.expo ∧ (reopenBanks s).front = s.front ∧ (reopenBanks s).red = s.red ∧
    (reopenBanks s).tracker = s.tracker ∧ (reopenBanks s).line = s.line ∧ (reopenBanks s).loader = s.loader ∧
    (reopenBanks s).num = s.num ∧ (reopenBanks s).req = s.req ∧ (reopenBanks s).pending = s.pending := by
  dsimp only [reopenBanks]; (repeat' split) <;> simp

@[simp] theorem markSuspect_frame (j : Nat) :
    (markSuspect j s).timer = s.timer ∧ (markSuspect j s).calendar = s.calendar ∧
    (markSuspect j s).laser = s.laser ∧ (markSuspect j s).expo = s.expo ∧ (markSuspect j s).front = s.front ∧
    (markSuspect j s).red = s.red ∧ (markSuspect j s).tracker = s.tracker ∧ (markSuspect j s).line = s.line ∧
    (markSuspect j s).loader = s.loader ∧ (markSuspect j s).num = s.num ∧ (markSuspect j s).req = s.req ∧
    (markSuspect j s).pending = s.pending := by
  dsimp only [markSuspect]; (repeat' split) <;> simp

@[simp] theorem markSlip_frame :
    (markSlip s).timer = s.timer ∧ (markSlip s).calendar = s.calendar ∧ (markSlip s).laser = s.laser ∧
    (markSlip s).expo = s.expo ∧ (markSlip s).front = s.front ∧ (markSlip s).red = s.red ∧
    (markSlip s).tracker = s.tracker ∧ (markSlip s).line = s.line ∧ (markSlip s).loader = s.loader ∧
    (markSlip s).num = s.num ∧ (markSlip s).req = s.req ∧ (markSlip s).pending = s.pending := by
  dsimp only [markSlip]; (repeat' split) <;> simp

@[simp] theorem openWindow_frame (i : BankId) :
    (openWindow i s).timer = s.timer ∧ (openWindow i s).calendar = s.calendar ∧ (openWindow i s).laser = s.laser ∧
    (openWindow i s).expo = s.expo ∧ (openWindow i s).red = s.red ∧ (openWindow i s).tracker = s.tracker ∧
    (openWindow i s).line = s.line ∧ (openWindow i s).loader = s.loader ∧ (openWindow i s).num = s.num ∧
    (openWindow i s).req = s.req ∧ (openWindow i s).pending = s.pending := by
  simp [openWindow]

@[simp] theorem accumulateShot_frame (sh : Shot) :
    (accumulateShot sh s).timer = s.timer ∧ (accumulateShot sh s).calendar = s.calendar ∧
    (accumulateShot sh s).laser = s.laser ∧ (accumulateShot sh s).expo = s.expo ∧
    (accumulateShot sh s).front = s.front ∧ (accumulateShot sh s).tracker = s.tracker ∧
    (accumulateShot sh s).line = s.line ∧ (accumulateShot sh s).loader = s.loader ∧
    (accumulateShot sh s).num = s.num ∧ (accumulateShot sh s).req = s.req ∧
    (accumulateShot sh s).pending = s.pending := by
  dsimp only [accumulateShot]; (repeat' split) <;> simp

@[simp] theorem completeShot_frame :
    (completeShot s).timer = s.timer ∧ (completeShot s).calendar = s.calendar ∧ (completeShot s).laser = s.laser ∧
    (completeShot s).expo = s.expo ∧ (completeShot s).tracker = s.tracker ∧ (completeShot s).line = s.line ∧
    (completeShot s).loader = s.loader ∧ (completeShot s).num = s.num ∧ (completeShot s).req = s.req ∧
    (completeShot s).pending = s.pending := by
  dsimp only [completeShot]; (repeat' split) <;> simp

@[simp] theorem clearInFlight_frame (i : BankId) :
    (clearInFlight i s).timer = s.timer ∧ (clearInFlight i s).calendar = s.calendar ∧
    (clearInFlight i s).laser = s.laser ∧ (clearInFlight i s).expo = s.expo ∧ (clearInFlight i s).front = s.front ∧
    (clearInFlight i s).tracker = s.tracker ∧ (clearInFlight i s).line = s.line ∧
    (clearInFlight i s).loader = s.loader ∧ (clearInFlight i s).num = s.num ∧ (clearInFlight i s).req = s.req ∧
    (clearInFlight i s).pending = s.pending := by
  dsimp only [clearInFlight]; (repeat' split) <;> simp

@[simp] theorem convert_frame (samples : List Sample) :
    (convert samples s).timer = s.timer ∧ (convert samples s).calendar = s.calendar ∧
    (convert samples s).laser = s.laser ∧ (convert samples s).expo = s.expo ∧
    (convert samples s).tracker = s.tracker ∧ (convert samples s).line = s.line ∧
    (convert samples s).loader = s.loader ∧ (convert samples s).num = s.num ∧ (convert samples s).req = s.req ∧
    (convert samples s).pending = s.pending := by
  dsimp only [convert]; (repeat' split) <;> simp

@[simp] theorem captureRest_frame (samples : List Sample) :
    (captureRest samples s).timer = s.timer ∧ (captureRest samples s).calendar = s.calendar ∧
    (captureRest samples s).laser = s.laser ∧ (captureRest samples s).expo = s.expo ∧
    (captureRest samples s).tracker = s.tracker ∧ (captureRest samples s).line = s.line ∧
    (captureRest samples s).loader = s.loader ∧ (captureRest samples s).num = s.num ∧
    (captureRest samples s).req = s.req ∧ (captureRest samples s).pending = s.pending := by
  dsimp only [captureRest]; (repeat' split) <;> simp

@[simp] theorem shotReading_frame (code : Nat) :
    (shotReading code s).timer = s.timer ∧ (shotReading code s).calendar = s.calendar ∧
    (shotReading code s).expo = s.expo ∧ (shotReading code s).tracker = s.tracker ∧
    (shotReading code s).line = s.line ∧ (shotReading code s).loader = s.loader ∧
    (shotReading code s).num = s.num ∧ (shotReading code s).req = s.req ∧ (shotReading code s).pending = s.pending := by
  simp [shotReading]

@[simp] theorem driverAfterDud_frame :
    (driverAfterDud s).timer = s.timer ∧ (driverAfterDud s).calendar = s.calendar ∧
    (driverAfterDud s).expo = s.expo ∧ (driverAfterDud s).front = s.front ∧ (driverAfterDud s).banks = s.banks ∧
    (driverAfterDud s).red = s.red ∧ (driverAfterDud s).tracker = s.tracker ∧ (driverAfterDud s).line = s.line ∧
    (driverAfterDud s).loader = s.loader ∧ (driverAfterDud s).num = s.num ∧ (driverAfterDud s).req = s.req ∧
    (driverAfterDud s).pending = s.pending := by
  dsimp only [driverAfterDud]; (repeat' split) <;> simp

@[simp] theorem dudReading_frame :
    (dudReading s).timer = s.timer ∧ (dudReading s).calendar = s.calendar ∧ (dudReading s).expo = s.expo ∧
    (dudReading s).tracker = s.tracker ∧ (dudReading s).line = s.line ∧ (dudReading s).loader = s.loader ∧
    (dudReading s).num = s.num ∧ (dudReading s).req = s.req ∧ (dudReading s).pending = s.pending := by
  dsimp only [dudReading]; (repeat' split) <;> simp

@[simp] theorem strayReading_frame :
    (strayReading s).timer = s.timer ∧ (strayReading s).calendar = s.calendar ∧ (strayReading s).expo = s.expo ∧
    (strayReading s).front = s.front ∧ (strayReading s).banks = s.banks ∧ (strayReading s).red = s.red ∧
    (strayReading s).tracker = s.tracker ∧ (strayReading s).line = s.line ∧ (strayReading s).loader = s.loader ∧
    (strayReading s).num = s.num ∧ (strayReading s).req = s.req ∧ (strayReading s).pending = s.pending := by
  dsimp only [strayReading]; (repeat' split) <;> simp

@[simp] theorem takeReading_frame (code : Nat) :
    (takeReading code s).timer = s.timer ∧ (takeReading code s).calendar = s.calendar ∧
    (takeReading code s).tracker = s.tracker ∧ (takeReading code s).line = s.line ∧
    (takeReading code s).loader = s.loader ∧ (takeReading code s).num = s.num ∧ (takeReading code s).req = s.req ∧
    (takeReading code s).pending = s.pending := by
  dsimp only [takeReading]; (repeat' split) <;> simp

@[simp] theorem windowEnd_frame :
    (windowEnd s).timer = s.timer ∧ (windowEnd s).calendar = s.calendar ∧ (windowEnd s).expo = s.expo ∧
    (windowEnd s).tracker = s.tracker ∧ (windowEnd s).line = s.line ∧ (windowEnd s).loader = s.loader ∧
    (windowEnd s).num = s.num ∧ (windowEnd s).req = s.req ∧ (windowEnd s).pending = s.pending := by
  dsimp only [windowEnd]; (repeat' split) <;> simp

/-! ## Machine/Calendar.lean -/

@[simp] theorem runClaiming_frame :
    (runClaiming s).timer = s.timer ∧ (runClaiming s).laser = s.laser ∧ (runClaiming s).expo = s.expo ∧
    (runClaiming s).front = s.front ∧ (runClaiming s).banks = s.banks ∧ (runClaiming s).red = s.red ∧
    (runClaiming s).tracker = s.tracker ∧ (runClaiming s).line = s.line ∧ (runClaiming s).loader = s.loader ∧
    (runClaiming s).num = s.num ∧ (runClaiming s).req = s.req ∧ (runClaiming s).pending = s.pending := by
  simp [runClaiming]

@[simp] theorem queueNotice_frame :
    (queueNotice s).timer = s.timer ∧ (queueNotice s).laser = s.laser ∧ (queueNotice s).expo = s.expo ∧
    (queueNotice s).front = s.front ∧ (queueNotice s).banks = s.banks ∧ (queueNotice s).red = s.red ∧
    (queueNotice s).tracker = s.tracker ∧ (queueNotice s).loader = s.loader ∧ (queueNotice s).num = s.num ∧
    (queueNotice s).req = s.req ∧ (queueNotice s).pending = s.pending := by
  simp [queueNotice]

@[simp] theorem Calendar.configure_frame (shots : Nat) (peers : List PeerEntry) (c : Calendar) :
    (c.configure shots peers).state = c.state ∧ (c.configure shots peers).claims = List.replicate shots none ∧
    (c.configure shots peers).peers = peers ∧ (c.configure shots peers).countdown = c.countdown ∧
    (c.configure shots peers).releases = c.releases := ⟨rfl, rfl, rfl, rfl, rfl⟩

@[simp] theorem calendarEntersRunning_frame :
    (calendarEntersRunning s).timer = s.timer ∧ (calendarEntersRunning s).laser = s.laser ∧
    (calendarEntersRunning s).expo = s.expo ∧ (calendarEntersRunning s).front = s.front ∧
    (calendarEntersRunning s).banks = s.banks ∧ (calendarEntersRunning s).red = s.red ∧
    (calendarEntersRunning s).tracker = s.tracker ∧ (calendarEntersRunning s).loader = s.loader ∧
    (calendarEntersRunning s).num = s.num ∧ (calendarEntersRunning s).req = s.req ∧
    (calendarEntersRunning s).pending = s.pending := by
  simp [calendarEntersRunning]

@[simp] theorem calendarLeavesRunning_frame :
    (calendarLeavesRunning s).timer = s.timer ∧ (calendarLeavesRunning s).laser = s.laser ∧
    (calendarLeavesRunning s).expo = s.expo ∧ (calendarLeavesRunning s).front = s.front ∧
    (calendarLeavesRunning s).banks = s.banks ∧ (calendarLeavesRunning s).red = s.red ∧
    (calendarLeavesRunning s).tracker = s.tracker ∧ (calendarLeavesRunning s).loader = s.loader ∧
    (calendarLeavesRunning s).num = s.num ∧ (calendarLeavesRunning s).req = s.req ∧
    (calendarLeavesRunning s).pending = s.pending := by
  simp [calendarLeavesRunning]

@[simp] theorem calendarRestartFiring_frame :
    (calendarRestartFiring s).timer = s.timer ∧ (calendarRestartFiring s).laser = s.laser ∧
    (calendarRestartFiring s).expo = s.expo ∧ (calendarRestartFiring s).front = s.front ∧
    (calendarRestartFiring s).banks = s.banks ∧ (calendarRestartFiring s).red = s.red ∧
    (calendarRestartFiring s).tracker = s.tracker ∧ (calendarRestartFiring s).loader = s.loader ∧
    (calendarRestartFiring s).num = s.num ∧ (calendarRestartFiring s).req = s.req ∧
    (calendarRestartFiring s).pending = s.pending := by
  simp [calendarRestartFiring]

@[simp] theorem releasingEnds_frame :
    (releasingEnds s).timer = s.timer ∧ (releasingEnds s).laser = s.laser ∧ (releasingEnds s).expo = s.expo ∧
    (releasingEnds s).front = s.front ∧ (releasingEnds s).banks = s.banks ∧ (releasingEnds s).red = s.red ∧
    (releasingEnds s).tracker = s.tracker ∧ (releasingEnds s).loader = s.loader ∧ (releasingEnds s).num = s.num ∧
    (releasingEnds s).req = s.req ∧ (releasingEnds s).pending = s.pending := by
  simp [releasingEnds]

@[simp] theorem countdownExpires_frame :
    (countdownExpires s).timer = s.timer ∧ (countdownExpires s).laser = s.laser ∧
    (countdownExpires s).expo = s.expo ∧ (countdownExpires s).front = s.front ∧
    (countdownExpires s).banks = s.banks ∧ (countdownExpires s).red = s.red ∧
    (countdownExpires s).tracker = s.tracker ∧ (countdownExpires s).loader = s.loader ∧
    (countdownExpires s).num = s.num ∧ (countdownExpires s).req = s.req ∧ (countdownExpires s).pending = s.pending := by
  dsimp only [countdownExpires]; (repeat' split) <;> simp

@[simp] theorem countdownBoundary_frame :
    (countdownBoundary s).timer = s.timer ∧ (countdownBoundary s).laser = s.laser ∧
    (countdownBoundary s).expo = s.expo ∧ (countdownBoundary s).front = s.front ∧
    (countdownBoundary s).banks = s.banks ∧ (countdownBoundary s).red = s.red ∧
    (countdownBoundary s).tracker = s.tracker ∧ (countdownBoundary s).loader = s.loader ∧
    (countdownBoundary s).num = s.num ∧ (countdownBoundary s).req = s.req ∧
    (countdownBoundary s).pending = s.pending := by
  dsimp only [countdownBoundary]; (repeat' split) <;> simp

@[simp] theorem calendarBoundary_frame :
    (calendarBoundary s).timer = s.timer ∧ (calendarBoundary s).laser = s.laser ∧
    (calendarBoundary s).expo = s.expo ∧ (calendarBoundary s).front = s.front ∧
    (calendarBoundary s).banks = s.banks ∧ (calendarBoundary s).red = s.red ∧
    (calendarBoundary s).tracker = s.tracker ∧ (calendarBoundary s).loader = s.loader ∧
    (calendarBoundary s).num = s.num ∧ (calendarBoundary s).req = s.req ∧ (calendarBoundary s).pending = s.pending := by
  simp [calendarBoundary]

@[simp] theorem noticeTransmitted_frame (f : NoticeFields) (r : SlotSet) :
    (noticeTransmitted f r s).timer = s.timer ∧ (noticeTransmitted f r s).laser = s.laser ∧
    (noticeTransmitted f r s).expo = s.expo ∧ (noticeTransmitted f r s).front = s.front ∧
    (noticeTransmitted f r s).banks = s.banks ∧ (noticeTransmitted f r s).red = s.red ∧
    (noticeTransmitted f r s).tracker = s.tracker ∧ (noticeTransmitted f r s).loader = s.loader ∧
    (noticeTransmitted f r s).num = s.num ∧ (noticeTransmitted f r s).req = s.req ∧
    (noticeTransmitted f r s).pending = s.pending := by
  dsimp only [noticeTransmitted]; (repeat' split) <;> simp

@[simp] theorem noticeDropped_frame (f : NoticeFields) :
    (noticeDropped f s).timer = s.timer ∧ (noticeDropped f s).laser = s.laser ∧ (noticeDropped f s).expo = s.expo ∧
    (noticeDropped f s).front = s.front ∧ (noticeDropped f s).banks = s.banks ∧ (noticeDropped f s).red = s.red ∧
    (noticeDropped f s).tracker = s.tracker ∧ (noticeDropped f s).loader = s.loader ∧
    (noticeDropped f s).num = s.num ∧ (noticeDropped f s).req = s.req ∧ (noticeDropped f s).pending = s.pending := by
  dsimp only [noticeDropped]; (repeat' split) <;> simp

@[simp] theorem releaseConflicts_frame (j : Nat) (n : StationNo) (set : SlotSet) :
    (releaseConflicts j n set s).timer = s.timer ∧ (releaseConflicts j n set s).laser = s.laser ∧
    (releaseConflicts j n set s).expo = s.expo ∧ (releaseConflicts j n set s).front = s.front ∧
    (releaseConflicts j n set s).red = s.red ∧ (releaseConflicts j n set s).tracker = s.tracker ∧
    (releaseConflicts j n set s).loader = s.loader ∧ (releaseConflicts j n set s).num = s.num ∧
    (releaseConflicts j n set s).req = s.req ∧ (releaseConflicts j n set s).pending = s.pending := by
  dsimp only [releaseConflicts]; (repeat' split) <;> simp

@[simp] theorem activeAfterNotice_frame (j : Nat) (n : StationNo) (set before : SlotSet) (new : Bool) :
    (activeAfterNotice j n set before new s).timer = s.timer ∧
    (activeAfterNotice j n set before new s).laser = s.laser ∧
    (activeAfterNotice j n set before new s).expo = s.expo ∧
    (activeAfterNotice j n set before new s).front = s.front ∧
    (activeAfterNotice j n set before new s).red = s.red ∧
    (activeAfterNotice j n set before new s).tracker = s.tracker ∧
    (activeAfterNotice j n set before new s).loader = s.loader ∧
    (activeAfterNotice j n set before new s).num = s.num ∧ (activeAfterNotice j n set before new s).req = s.req ∧
    (activeAfterNotice j n set before new s).pending = s.pending := by
  dsimp only [activeAfterNotice]; (repeat' split) <;> simp

@[simp] theorem calendarTakesNotice_frame (n : StationNo) (f : NoticeFields) :
    (calendarTakesNotice n f s).timer = s.timer ∧ (calendarTakesNotice n f s).laser = s.laser ∧
    (calendarTakesNotice n f s).expo = s.expo ∧ (calendarTakesNotice n f s).front = s.front ∧
    (calendarTakesNotice n f s).red = s.red ∧ (calendarTakesNotice n f s).tracker = s.tracker ∧
    (calendarTakesNotice n f s).loader = s.loader ∧ (calendarTakesNotice n f s).num = s.num ∧
    (calendarTakesNotice n f s).req = s.req ∧ (calendarTakesNotice n f s).pending = s.pending := by
  dsimp only [calendarTakesNotice]; (repeat' split) <;> simp

/-! ## Machine/Tracker.lean -/

@[simp] theorem ownUpdate_frame (r : ResultRecord) :
    (ownUpdate r s).timer = s.timer ∧ (ownUpdate r s).calendar = s.calendar ∧ (ownUpdate r s).laser = s.laser ∧
    (ownUpdate r s).expo = s.expo ∧ (ownUpdate r s).front = s.front ∧ (ownUpdate r s).banks = s.banks ∧
    (ownUpdate r s).red = s.red ∧ (ownUpdate r s).loader = s.loader ∧ (ownUpdate r s).num = s.num ∧
    (ownUpdate r s).req = s.req ∧ (ownUpdate r s).pending = s.pending := by
  dsimp only [ownUpdate]; (repeat' split) <;> simp

@[simp] theorem trackerTakesReport_frame (n : StationNo) (f : ReportFields) :
    (trackerTakesReport n f s).timer = s.timer ∧ (trackerTakesReport n f s).calendar = s.calendar ∧
    (trackerTakesReport n f s).laser = s.laser ∧ (trackerTakesReport n f s).expo = s.expo ∧
    (trackerTakesReport n f s).front = s.front ∧ (trackerTakesReport n f s).banks = s.banks ∧
    (trackerTakesReport n f s).red = s.red ∧ (trackerTakesReport n f s).line = s.line ∧
    (trackerTakesReport n f s).loader = s.loader ∧ (trackerTakesReport n f s).num = s.num ∧
    (trackerTakesReport n f s).req = s.req ∧ (trackerTakesReport n f s).pending = s.pending := by
  dsimp only [trackerTakesReport]; (repeat' split) <;> simp

/-! ## Machine/Numbering.lean -/

@[simp] theorem setStation_frame (st : StationState) :
    (setStation st s).timer = s.timer ∧ (setStation st s).calendar = s.calendar ∧
    (setStation st s).laser = s.laser ∧ (setStation st s).expo = s.expo ∧ (setStation st s).front = s.front ∧
    (setStation st s).banks = s.banks ∧ (setStation st s).red = s.red ∧ (setStation st s).tracker = s.tracker ∧
    (setStation st s).line = s.line ∧ (setStation st s).num = s.num ∧ (setStation st s).req = s.req ∧
    (setStation st s).pending = s.pending := by
  simp [setStation]

@[simp] theorem enterRunning_frame :
    (enterRunning s).timer = s.timer ∧ (enterRunning s).expo = s.expo ∧ (enterRunning s).front = s.front ∧
    (enterRunning s).red = s.red ∧ (enterRunning s).tracker = s.tracker ∧ (enterRunning s).num = s.num ∧
    (enterRunning s).req = s.req ∧ (enterRunning s).pending = s.pending := by
  simp [enterRunning]

@[simp] theorem leaveRunning_frame :
    (leaveRunning s).timer = s.timer ∧ (leaveRunning s).expo = s.expo ∧ (leaveRunning s).front = s.front ∧
    (leaveRunning s).banks = s.banks ∧ (leaveRunning s).red = s.red ∧ (leaveRunning s).tracker = s.tracker ∧
    (leaveRunning s).loader = s.loader ∧ (leaveRunning s).num = s.num ∧ (leaveRunning s).req = s.req ∧
    (leaveRunning s).pending = s.pending := by
  dsimp only [leaveRunning]; (repeat' split) <;> simp

@[simp] theorem leaveForNumbering_frame :
    (leaveForNumbering s).timer = s.timer ∧ (leaveForNumbering s).expo = s.expo ∧
    (leaveForNumbering s).front = s.front ∧ (leaveForNumbering s).tracker = s.tracker ∧
    (leaveForNumbering s).num = s.num ∧ (leaveForNumbering s).req = s.req ∧
    (leaveForNumbering s).pending = s.pending := by
  dsimp only [leaveForNumbering]; (repeat' split) <;> simp

@[simp] theorem enterHalted_frame :
    (enterHalted s).timer = s.timer ∧ (enterHalted s).expo = s.expo ∧ (enterHalted s).front = s.front ∧
    (enterHalted s).red = s.red ∧ (enterHalted s).tracker = s.tracker ∧ (enterHalted s).num = s.num ∧
    (enterHalted s).req = s.req ∧ (enterHalted s).pending = s.pending := by
  dsimp only [enterHalted]; (repeat' split) <;> simp

@[simp] theorem setOwnNumber_frame (own : Option StationNo) :
    (setOwnNumber own s).laser = s.laser ∧ (setOwnNumber own s).expo = s.expo ∧
    (setOwnNumber own s).front = s.front ∧ (setOwnNumber own s).banks = s.banks ∧
    (setOwnNumber own s).red = s.red ∧ (setOwnNumber own s).line = s.line ∧
    (setOwnNumber own s).loader = s.loader ∧ (setOwnNumber own s).req = s.req ∧
    (setOwnNumber own s).pending = s.pending := by
  dsimp only [setOwnNumber]; (repeat' split) <;> simp

@[simp] theorem choose_frame :
    (choose s).timer = s.timer ∧ (choose s).calendar = s.calendar ∧ (choose s).laser = s.laser ∧
    (choose s).expo = s.expo ∧ (choose s).front = s.front ∧ (choose s).banks = s.banks ∧ (choose s).red = s.red ∧
    (choose s).tracker = s.tracker ∧ (choose s).loader = s.loader ∧ (choose s).req = s.req ∧
    (choose s).pending = s.pending := by
  dsimp only [choose]; (repeat' split) <;> simp

@[simp] theorem joinTaken_frame (n : StationNo) :
    (joinTaken n s).timer = s.timer ∧ (joinTaken n s).calendar = s.calendar ∧ (joinTaken n s).laser = s.laser ∧
    (joinTaken n s).expo = s.expo ∧ (joinTaken n s).front = s.front ∧ (joinTaken n s).banks = s.banks ∧
    (joinTaken n s).red = s.red ∧ (joinTaken n s).tracker = s.tracker ∧ (joinTaken n s).line = s.line ∧
    (joinTaken n s).loader = s.loader ∧ (joinTaken n s).req = s.req ∧ (joinTaken n s).pending = s.pending := by
  simp [joinTaken]

@[simp] theorem holdOffEnds_frame :
    (holdOffEnds s).expo = s.expo ∧ (holdOffEnds s).front = s.front ∧ (holdOffEnds s).red = s.red ∧
    (holdOffEnds s).req = s.req ∧ (holdOffEnds s).pending = s.pending := by
  dsimp only [holdOffEnds]; (repeat' split) <;> simp

@[simp] theorem numberingBoundary_frame :
    (numberingBoundary s).expo = s.expo ∧ (numberingBoundary s).front = s.front ∧
    (numberingBoundary s).red = s.red ∧ (numberingBoundary s).req = s.req ∧
    (numberingBoundary s).pending = s.pending := by
  dsimp only [numberingBoundary]; (repeat' split) <;> simp

@[simp] theorem sendClaim_frame (n : StationNo) :
    (sendClaim n s).timer = s.timer ∧ (sendClaim n s).calendar = s.calendar ∧ (sendClaim n s).laser = s.laser ∧
    (sendClaim n s).expo = s.expo ∧ (sendClaim n s).front = s.front ∧ (sendClaim n s).banks = s.banks ∧
    (sendClaim n s).red = s.red ∧ (sendClaim n s).tracker = s.tracker ∧ (sendClaim n s).loader = s.loader ∧
    (sendClaim n s).num = s.num ∧ (sendClaim n s).req = s.req ∧ (sendClaim n s).pending = s.pending := by
  simp [sendClaim]

@[simp] theorem yieldNumber_frame (n : StationNo) :
    (yieldNumber n s).expo = s.expo ∧ (yieldNumber n s).front = s.front ∧ (yieldNumber n s).req = s.req ∧
    (yieldNumber n s).pending = s.pending := by
  dsimp only [yieldNumber]; (repeat' split) <;> simp

@[simp] theorem numberingTakes_frame (n : StationNo) (serial : Option Serial) :
    (numberingTakes n serial s).expo = s.expo ∧ (numberingTakes n serial s).front = s.front ∧
    (numberingTakes n serial s).req = s.req ∧ (numberingTakes n serial s).pending = s.pending := by
  dsimp only [numberingTakes]; (repeat' split) <;> simp

@[simp] theorem claimTransmitted_frame (n : StationNo) :
    (claimTransmitted n s).timer = s.timer ∧ (claimTransmitted n s).calendar = s.calendar ∧
    (claimTransmitted n s).laser = s.laser ∧ (claimTransmitted n s).expo = s.expo ∧
    (claimTransmitted n s).front = s.front ∧ (claimTransmitted n s).banks = s.banks ∧
    (claimTransmitted n s).red = s.red ∧ (claimTransmitted n s).tracker = s.tracker ∧
    (claimTransmitted n s).line = s.line ∧ (claimTransmitted n s).loader = s.loader ∧
    (claimTransmitted n s).req = s.req ∧ (claimTransmitted n s).pending = s.pending := by
  dsimp only [claimTransmitted]; (repeat' split) <;> simp

@[simp] theorem claimDropped_frame (n : StationNo) :
    (claimDropped n s).timer = s.timer ∧ (claimDropped n s).calendar = s.calendar ∧ (claimDropped n s).laser = s.laser ∧
    (claimDropped n s).expo = s.expo ∧ (claimDropped n s).front = s.front ∧ (claimDropped n s).banks = s.banks ∧
    (claimDropped n s).red = s.red ∧ (claimDropped n s).tracker = s.tracker ∧ (claimDropped n s).loader = s.loader ∧
    (claimDropped n s).num = s.num ∧ (claimDropped n s).req = s.req ∧ (claimDropped n s).pending = s.pending := by
  dsimp only [claimDropped]; (repeat' split) <;> simp

/-! ## Machine/Loader.lean -/

@[simp] theorem loadInvalid_frame :
    (loadInvalid s).front = s.front ∧ (loadInvalid s).banks = s.banks ∧ (loadInvalid s).red = s.red ∧
    (loadInvalid s).line = s.line ∧ (loadInvalid s).req = s.req ∧ (loadInvalid s).pending = s.pending := by
  simp [loadInvalid]

@[simp] theorem takeRecord_frame (r : Loaded) :
    (takeRecord r s).timer = s.timer ∧ (takeRecord r s).front = s.front ∧ (takeRecord r s).banks = s.banks ∧
    (takeRecord r s).red = s.red ∧ (takeRecord r s).tracker = s.tracker ∧ (takeRecord r s).line = s.line ∧
    (takeRecord r s).num = s.num ∧ (takeRecord r s).req = s.req ∧ (takeRecord r s).pending = s.pending := by
  simp [takeRecord]

@[simp] theorem loadAuto_frame :
    (loadAuto s).laser = s.laser ∧ (loadAuto s).expo = s.expo ∧ (loadAuto s).front = s.front ∧
    (loadAuto s).banks = s.banks ∧ (loadAuto s).red = s.red ∧ (loadAuto s).line = s.line ∧
    (loadAuto s).req = s.req ∧ (loadAuto s).pending = s.pending := by
  simp [loadAuto]

@[simp] theorem loadFixed_frame (n : StationNo) :
    (loadFixed n s).expo = s.expo ∧ (loadFixed n s).front = s.front ∧ (loadFixed n s).red = s.red ∧
    (loadFixed n s).req = s.req ∧ (loadFixed n s).pending = s.pending := by
  dsimp only [loadFixed]; (repeat' split) <;> simp

@[simp] theorem loadDone_frame (record : List Byte) :
    (loadDone record s).front = s.front ∧ (loadDone record s).red = s.red ∧ (loadDone record s).req = s.req ∧
    (loadDone record s).pending = s.pending := by
  dsimp only [loadDone]; (repeat' split) <;> simp

/-! ## Machine/Timer.lean -/

@[simp] theorem trigger_frame :
    (trigger s).timer = s.timer ∧ (trigger s).calendar = s.calendar ∧ (trigger s).expo = s.expo ∧
    (trigger s).red = s.red ∧ (trigger s).tracker = s.tracker ∧ (trigger s).line = s.line ∧
    (trigger s).loader = s.loader ∧ (trigger s).num = s.num ∧ (trigger s).req = s.req ∧
    (trigger s).pending = s.pending := by
  dsimp only [trigger]; (repeat' split) <;> simp

@[simp] theorem shotDecision_frame :
    (shotDecision s).timer = s.timer ∧ (shotDecision s).calendar = s.calendar ∧ (shotDecision s).expo = s.expo ∧
    (shotDecision s).red = s.red ∧ (shotDecision s).tracker = s.tracker ∧ (shotDecision s).line = s.line ∧
    (shotDecision s).loader = s.loader ∧ (shotDecision s).num = s.num ∧ (shotDecision s).req = s.req ∧
    (shotDecision s).pending = s.pending := by
  dsimp only [shotDecision]; (repeat' split) <;> simp

@[simp] theorem raiseSlotStart_frame (slot : Slot) :
    (raiseSlotStart slot s).calendar = s.calendar ∧ (raiseSlotStart slot s).expo = s.expo ∧
    (raiseSlotStart slot s).red = s.red ∧ (raiseSlotStart slot s).tracker = s.tracker ∧
    (raiseSlotStart slot s).line = s.line ∧ (raiseSlotStart slot s).loader = s.loader ∧
    (raiseSlotStart slot s).num = s.num ∧ (raiseSlotStart slot s).req = s.req ∧
    (raiseSlotStart slot s).pending = s.pending := by
  dsimp only [raiseSlotStart]; (repeat' split) <;> simp

@[simp] theorem timerBoundary_frame :
    (timerBoundary s).calendar = s.calendar ∧ (timerBoundary s).laser = s.laser ∧ (timerBoundary s).expo = s.expo ∧
    (timerBoundary s).front = s.front ∧ (timerBoundary s).banks = s.banks ∧ (timerBoundary s).red = s.red ∧
    (timerBoundary s).tracker = s.tracker ∧ (timerBoundary s).line = s.line ∧ (timerBoundary s).loader = s.loader ∧
    (timerBoundary s).num = s.num ∧ (timerBoundary s).req = s.req ∧ (timerBoundary s).pending = s.pending := by
  dsimp only [timerBoundary]; (repeat' split) <;> simp

@[simp] theorem cycleBoundary_frame :
    (cycleBoundary s).front = s.front ∧ (cycleBoundary s).pending = s.pending := by
  simp [cycleBoundary]

@[simp] theorem hearNotice_frame (n : StationNo) :
    (hearNotice n s).calendar = s.calendar ∧ (hearNotice n s).laser = s.laser ∧ (hearNotice n s).expo = s.expo ∧
    (hearNotice n s).front = s.front ∧ (hearNotice n s).banks = s.banks ∧ (hearNotice n s).red = s.red ∧
    (hearNotice n s).tracker = s.tracker ∧ (hearNotice n s).line = s.line ∧ (hearNotice n s).loader = s.loader ∧
    (hearNotice n s).num = s.num ∧ (hearNotice n s).req = s.req ∧ (hearNotice n s).pending = s.pending := by
  simp [hearNotice]

@[simp] theorem slip_frame :
    (slip s).calendar = s.calendar ∧ (slip s).laser = s.laser ∧ (slip s).expo = s.expo ∧ (slip s).front = s.front ∧
    (slip s).red = s.red ∧ (slip s).tracker = s.tracker ∧ (slip s).line = s.line ∧ (slip s).loader = s.loader ∧
    (slip s).num = s.num ∧ (slip s).req = s.req ∧ (slip s).pending = s.pending := by
  simp [slip]

@[simp] theorem stepTimer_frame (x : Nat) (d : Int) :
    (stepTimer x d s).front = s.front ∧ (stepTimer x d s).pending = s.pending := by
  dsimp only [stepTimer]; (repeat' split) <;> simp

@[simp] theorem measure_frame (n : StationNo) (f : NoticeFields) :
    (measure n f s).front = s.front ∧ (measure n f s).pending = s.pending := by
  dsimp only [measure]; (repeat' split) <;> simp

@[simp] theorem takeNotice_frame (n : StationNo) (f : NoticeFields) :
    (takeNotice n f s).front = s.front ∧ (takeNotice n f s).pending = s.pending := by
  simp [takeNotice]

@[simp] theorem advance_frame :
    (advance s).pending = s.pending := by
  dsimp only [advance]; (repeat' split) <;> simp

/-! ## Machine/Requests.lean -/

@[simp] theorem acceptQuery_frame (asker : Sender) (item : Byte) :
    (acceptQuery asker item s).timer = s.timer ∧ (acceptQuery asker item s).calendar = s.calendar ∧
    (acceptQuery asker item s).laser = s.laser ∧ (acceptQuery asker item s).expo = s.expo ∧
    (acceptQuery asker item s).front = s.front ∧ (acceptQuery asker item s).banks = s.banks ∧
    (acceptQuery asker item s).red = s.red ∧ (acceptQuery asker item s).tracker = s.tracker ∧
    (acceptQuery asker item s).loader = s.loader ∧ (acceptQuery asker item s).num = s.num ∧
    (acceptQuery asker item s).pending = s.pending := by
  simp [acceptQuery]

@[simp] theorem replyEnded_frame :
    (replyEnded s).timer = s.timer ∧ (replyEnded s).calendar = s.calendar ∧ (replyEnded s).laser = s.laser ∧
    (replyEnded s).expo = s.expo ∧ (replyEnded s).front = s.front ∧ (replyEnded s).banks = s.banks ∧
    (replyEnded s).red = s.red ∧ (replyEnded s).tracker = s.tracker ∧ (replyEnded s).line = s.line ∧
    (replyEnded s).loader = s.loader ∧ (replyEnded s).num = s.num ∧ (replyEnded s).pending = s.pending := by
  dsimp only [replyEnded]; (repeat' split) <;> simp

@[simp] theorem acceptQuiet_frame (seconds : Byte) :
    (acceptQuiet seconds s).timer = s.timer ∧ (acceptQuiet seconds s).calendar = s.calendar ∧
    (acceptQuiet seconds s).laser = s.laser ∧ (acceptQuiet seconds s).expo = s.expo ∧
    (acceptQuiet seconds s).front = s.front ∧ (acceptQuiet seconds s).banks = s.banks ∧
    (acceptQuiet seconds s).red = s.red ∧ (acceptQuiet seconds s).tracker = s.tracker ∧
    (acceptQuiet seconds s).line = s.line ∧ (acceptQuiet seconds s).loader = s.loader ∧
    (acceptQuiet seconds s).num = s.num ∧ (acceptQuiet seconds s).pending = s.pending := by
  simp [acceptQuiet]

@[simp] theorem takeQuery_frame (asker : Sender) (target item : Byte) :
    (takeQuery asker target item s).timer = s.timer ∧ (takeQuery asker target item s).calendar = s.calendar ∧
    (takeQuery asker target item s).laser = s.laser ∧ (takeQuery asker target item s).expo = s.expo ∧
    (takeQuery asker target item s).front = s.front ∧ (takeQuery asker target item s).banks = s.banks ∧
    (takeQuery asker target item s).red = s.red ∧ (takeQuery asker target item s).tracker = s.tracker ∧
    (takeQuery asker target item s).loader = s.loader ∧ (takeQuery asker target item s).num = s.num ∧
    (takeQuery asker target item s).pending = s.pending := by
  dsimp only [takeQuery]; (repeat' split) <;> simp

@[simp] theorem takeQuiet_frame (target seconds : Byte) :
    (takeQuiet target seconds s).timer = s.timer ∧ (takeQuiet target seconds s).calendar = s.calendar ∧
    (takeQuiet target seconds s).laser = s.laser ∧ (takeQuiet target seconds s).expo = s.expo ∧
    (takeQuiet target seconds s).front = s.front ∧ (takeQuiet target seconds s).banks = s.banks ∧
    (takeQuiet target seconds s).red = s.red ∧ (takeQuiet target seconds s).tracker = s.tracker ∧
    (takeQuiet target seconds s).line = s.line ∧ (takeQuiet target seconds s).loader = s.loader ∧
    (takeQuiet target seconds s).num = s.num ∧ (takeQuiet target seconds s).pending = s.pending := by
  dsimp only [takeQuiet]; (repeat' split) <;> simp

@[simp] theorem restartTracking_frame :
    (restartTracking s).timer = s.timer ∧ (restartTracking s).calendar = s.calendar ∧
    (restartTracking s).laser = s.laser ∧ (restartTracking s).expo = s.expo ∧ (restartTracking s).line = s.line ∧
    (restartTracking s).loader = s.loader ∧ (restartTracking s).num = s.num ∧ (restartTracking s).req = s.req ∧
    (restartTracking s).pending = s.pending := by
  simp [restartTracking]

@[simp] theorem restartFiring_frame :
    (restartFiring s).timer = s.timer ∧ (restartFiring s).laser = s.laser ∧ (restartFiring s).expo = s.expo ∧
    (restartFiring s).front = s.front ∧ (restartFiring s).banks = s.banks ∧ (restartFiring s).red = s.red ∧
    (restartFiring s).tracker = s.tracker ∧ (restartFiring s).loader = s.loader ∧ (restartFiring s).num = s.num ∧
    (restartFiring s).req = s.req ∧ (restartFiring s).pending = s.pending := by
  simp [restartFiring]

@[simp] theorem restartStation_frame :
    (restartStation s).expo = s.expo ∧ (restartStation s).pending = s.pending := by
  simp [restartStation]

@[simp] theorem takeRestart_frame (target scope : Byte) :
    (takeRestart target scope s).expo = s.expo ∧ (takeRestart target scope s).pending = s.pending := by
  dsimp only [takeRestart]; (repeat' split) <;> simp

/-! ## Machine/FrameEvents.lean -/

@[simp] theorem takeReport_frame (n : StationNo) (f : ReportFields) :
    (takeReport n f s).expo = s.expo ∧ (takeReport n f s).front = s.front ∧ (takeReport n f s).req = s.req ∧
    (takeReport n f s).pending = s.pending := by
  simp [takeReport]

@[simp] theorem takeFrame_frame (f : Frame) :
    (takeFrame f s).pending = s.pending := by
  dsimp only [takeFrame]; (repeat' split) <;> simp

/-! ## Machine/LineEvents.lean -/

@[simp] theorem tellTransmitted_frame (f : Sending) (r : SlotSet) :
    (tellTransmitted f r s).timer = s.timer ∧ (tellTransmitted f r s).laser = s.laser ∧
    (tellTransmitted f r s).expo = s.expo ∧ (tellTransmitted f r s).front = s.front ∧
    (tellTransmitted f r s).banks = s.banks ∧ (tellTransmitted f r s).red = s.red ∧
    (tellTransmitted f r s).tracker = s.tracker ∧ (tellTransmitted f r s).loader = s.loader ∧
    (tellTransmitted f r s).pending = s.pending := by
  dsimp only [tellTransmitted]; (repeat' split) <;> simp

@[simp] theorem tellDropped_frame (f : Sending) :
    (tellDropped f s).timer = s.timer ∧ (tellDropped f s).laser = s.laser ∧ (tellDropped f s).expo = s.expo ∧
    (tellDropped f s).front = s.front ∧ (tellDropped f s).banks = s.banks ∧ (tellDropped f s).red = s.red ∧
    (tellDropped f s).tracker = s.tracker ∧ (tellDropped f s).loader = s.loader ∧ (tellDropped f s).num = s.num ∧
    (tellDropped f s).pending = s.pending := by
  dsimp only [tellDropped]; (repeat' split) <;> simp

@[simp] theorem ownFrameEnds_frame :
    (ownFrameEnds s).timer = s.timer ∧ (ownFrameEnds s).laser = s.laser ∧ (ownFrameEnds s).expo = s.expo ∧
    (ownFrameEnds s).front = s.front ∧ (ownFrameEnds s).banks = s.banks ∧ (ownFrameEnds s).red = s.red ∧
    (ownFrameEnds s).tracker = s.tracker ∧ (ownFrameEnds s).loader = s.loader ∧ (ownFrameEnds s).pending = s.pending := by
  dsimp only [ownFrameEnds]; (repeat' split) <;> simp

@[simp] theorem collide_frame (bit : Nat) :
    (collide bit s).timer = s.timer ∧ (collide bit s).laser = s.laser ∧ (collide bit s).expo = s.expo ∧
    (collide bit s).front = s.front ∧ (collide bit s).banks = s.banks ∧ (collide bit s).red = s.red ∧
    (collide bit s).tracker = s.tracker ∧ (collide bit s).loader = s.loader ∧ (collide bit s).num = s.num ∧
    (collide bit s).pending = s.pending := by
  dsimp only [collide]; (repeat' split) <;> simp

@[simp] theorem loseArbitration_frame (bit : Nat) :
    (loseArbitration bit s).timer = s.timer ∧ (loseArbitration bit s).calendar = s.calendar ∧
    (loseArbitration bit s).laser = s.laser ∧ (loseArbitration bit s).expo = s.expo ∧
    (loseArbitration bit s).front = s.front ∧ (loseArbitration bit s).banks = s.banks ∧
    (loseArbitration bit s).red = s.red ∧ (loseArbitration bit s).tracker = s.tracker ∧
    (loseArbitration bit s).loader = s.loader ∧ (loseArbitration bit s).num = s.num ∧
    (loseArbitration bit s).req = s.req ∧ (loseArbitration bit s).pending = s.pending := by
  dsimp only [loseArbitration]; (repeat' split) <;> simp

@[simp] theorem hearFrame_frame (bits : List Bool) :
    (hearFrame bits s).pending = s.pending := by
  dsimp only [hearFrame]; (repeat' split) <;> simp

@[simp] theorem otherStartBit_frame :
    (otherStartBit s).timer = s.timer ∧ (otherStartBit s).calendar = s.calendar ∧
    (otherStartBit s).laser = s.laser ∧ (otherStartBit s).expo = s.expo ∧ (otherStartBit s).front = s.front ∧
    (otherStartBit s).banks = s.banks ∧ (otherStartBit s).red = s.red ∧ (otherStartBit s).tracker = s.tracker ∧
    (otherStartBit s).loader = s.loader ∧ (otherStartBit s).num = s.num ∧ (otherStartBit s).req = s.req ∧
    (otherStartBit s).pending = s.pending := by
  dsimp only [otherStartBit]; (repeat' split) <;> simp

/-! ## Machine/Tick.lean -/

@[simp] theorem convertTick_frame :
    (convertTick s).timer = s.timer ∧ (convertTick s).calendar = s.calendar ∧ (convertTick s).laser = s.laser ∧
    (convertTick s).expo = s.expo ∧ (convertTick s).tracker = s.tracker ∧ (convertTick s).line = s.line ∧
    (convertTick s).loader = s.loader ∧ (convertTick s).num = s.num ∧ (convertTick s).req = s.req ∧
    (convertTick s).pending = s.pending := by
  simp [convertTick]

@[simp] theorem windowTick_frame :
    (windowTick s).timer = s.timer ∧ (windowTick s).calendar = s.calendar ∧ (windowTick s).expo = s.expo ∧
    (windowTick s).tracker = s.tracker ∧ (windowTick s).line = s.line ∧ (windowTick s).loader = s.loader ∧
    (windowTick s).num = s.num ∧ (windowTick s).req = s.req ∧ (windowTick s).pending = s.pending := by
  dsimp only [windowTick]; (repeat' split) <;> simp

@[simp] theorem bitTick_frame :
    (bitTick s).timer = s.timer ∧ (bitTick s).calendar = s.calendar ∧ (bitTick s).laser = s.laser ∧
    (bitTick s).expo = s.expo ∧ (bitTick s).front = s.front ∧ (bitTick s).banks = s.banks ∧
    (bitTick s).red = s.red ∧ (bitTick s).tracker = s.tracker ∧ (bitTick s).loader = s.loader ∧
    (bitTick s).num = s.num ∧ (bitTick s).req = s.req ∧ (bitTick s).pending = s.pending := by
  dsimp only [bitTick]; (repeat' split) <;> simp

@[simp] theorem lineTick_frame :
    (lineTick s).timer = s.timer ∧ (lineTick s).calendar = s.calendar ∧ (lineTick s).laser = s.laser ∧
    (lineTick s).expo = s.expo ∧ (lineTick s).front = s.front ∧ (lineTick s).banks = s.banks ∧
    (lineTick s).red = s.red ∧ (lineTick s).tracker = s.tracker ∧ (lineTick s).loader = s.loader ∧
    (lineTick s).num = s.num ∧ (lineTick s).req = s.req ∧ (lineTick s).pending = s.pending := by
  dsimp only [lineTick]; (repeat' split) <;> simp

@[simp] theorem tick_frame :
    (tick s).pending = s.pending := by
  simp [tick]

end Sys2Proof.Machine
end

