-- ==== Sys2Proof/Laws/Sets.lean ====
section
/-! SUPPORT. Sets of slots and stations, the claimed and held sets, and what the claiming procedure keeps (R22, R23, R26). -/

namespace Sys2Proof.Machine

theorem getLsbD_setInsert {w : Nat} (k j : Nat) (s : BitVec w) (hj : j < w) :
    (setInsert k s).getLsbD j = (s.getLsbD j || decide (j = k)) := by
  unfold setInsert
  rw [BitVec.getLsbD_or]
  congr 1
  rw [BitVec.getLsbD_shiftLeft, BitVec.getLsbD_one]
  by_cases h : j = k
  · subst h; simp [hj]; omega
  · simp [h, hj]; omega

theorem getLsbD_setErase {w : Nat} (k j : Nat) (s : BitVec w) (hj : j < w) :
    (setErase k s).getLsbD j = (s.getLsbD j && !decide (j = k)) := by
  unfold setErase
  rw [BitVec.getLsbD_and, BitVec.getLsbD_not]
  rw [BitVec.getLsbD_shiftLeft, BitVec.getLsbD_one]
  by_cases h : j = k
  · subst h; simp [hj]; intro; omega
  · simp [h, hj]; omega

/-- The first free slot is free, and the slots passed over on the way to it are not. -/
theorem firstFree_spec (occ : SlotSet) (start k : Nat) (h : firstFree occ start = some k) :
    k < 32 ∧ occ.getLsbD k = false ∧
      ∃ d : Nat, d < 32 ∧ k = (start + d) % 32 ∧ ∀ e : Nat, e < d → occ.getLsbD ((start + e) % 32) = true := by
  unfold firstFree at h
  rw [List.find?_map, Option.map_eq_some_iff] at h
  obtain ⟨d, hd, hk⟩ := h
  rw [List.find?_eq_some_iff_getElem] at hd
  obtain ⟨h1, i, hi, he, hlt⟩ := hd
  simp at hi he hlt h1
  subst he hk
  refine ⟨Nat.mod_lt _ (by decide), h1, i, hi, rfl, ?_⟩
  intro e he
  simpa using hlt e he

theorem firstFree_none (occ : SlotSet) (start : Nat) (h : firstFree occ start = none) (k : Nat) (hk : k < 32) :
    occ.getLsbD k = true := by
  unfold firstFree at h
  rw [List.find?_eq_none] at h
  have := h ((start + ((k + 32) - start % 32) % 32) % 32) (by
    rw [List.mem_map]
    exact ⟨((k + 32) - start % 32) % 32, by simp; omega, rfl⟩)
  have e : (start + ((k + 32) - start % 32) % 32) % 32 = k := by omega
  rw [e] at this
  simpa using this

theorem newClaim_slot (k : Nat) (h : k < 32) : (newClaim k).slot.val = k := Nat.mod_eq_of_lt h

/-- The claiming procedure keeps the entries it finds, and each entry it adds is TENTATIVE with count 0 on a slot that
was not occupied; no two positions hold one slot. -/
theorem fillClaims_keeps (number shots : Nat) (cs : List (Option Claim)) : ∀ (i : Nat) (occ : SlotSet),
    (cs.filterMap id).Pairwise (fun x y => x.slot ≠ y.slot) →
    (∀ c, some c ∈ cs → occ.getLsbD c.slot.val = true) →
    ((fillClaims number shots i occ cs).filterMap id).Pairwise (fun x y => x.slot ≠ y.slot) ∧
    (∀ c, some c ∈ fillClaims number shots i occ cs → some c ∈ cs ∨
      (occ.getLsbD c.slot.val = false ∧ c.state = .tentative ∧ c.count = 0)) := by
  induction cs with
  | nil => intro i occ _ _; simp [fillClaims]
  | cons x rest ih =>
    intro i occ hd ho
    cases x with
    | some c =>
      have hd' := hd
      simp at hd
      have := ih (i + 1) occ hd.2 (fun c hc => ho c (List.mem_cons_of_mem _ hc))
      refine ⟨?_, ?_⟩
      · simp only [fillClaims, List.filterMap_cons, id, List.pairwise_cons]
        refine ⟨?_, this.1⟩
        intro y hy
        have hy' : some y ∈ fillClaims number shots (i + 1) occ rest := by simpa using hy
        rcases this.2 y hy' with h | h
        · exact hd.1 y (by simpa using h)
        · intro heq
          have h1 := ho c (by simp)
          rw [heq, h.1] at h1; simp at h1
      · intro y hy
        simp only [fillClaims, List.mem_cons] at hy
        rcases hy with hy | hy
        · left; simp [hy]
        · rcases this.2 y hy with h | h
          · left; exact List.mem_cons_of_mem _ h
          · right; exact h
    | none =>
      simp at hd
      simp only [fillClaims]
      split
      · rename_i k hk
        obtain ⟨hk1, hk2, _⟩ := firstFree_spec _ _ _ hk
        have := ih (i + 1) (setInsert k occ) hd (fun c hc => by
          rw [getLsbD_setInsert _ _ _ c.slot.isLt, ho c (List.mem_cons_of_mem _ hc)]; rfl)
        refine ⟨?_, ?_⟩
        · simp only [List.filterMap_cons, id, List.pairwise_cons]
          refine ⟨?_, this.1⟩
          intro y hy heq
          have hy' : some y ∈ fillClaims number shots (i + 1) (setInsert k occ) rest := by simpa using hy
          have hyk : y.slot.val = k := by rw [← heq]; exact newClaim_slot k hk1
          rcases this.2 y hy' with h | h
          · have := ho y (List.mem_cons_of_mem _ h)
            rw [hyk, hk2] at this; simp at this
          · have := h.1
            rw [getLsbD_setInsert _ _ _ y.slot.isLt, hyk] at this
            simp at this
        · intro y hy
          simp only [List.mem_cons, Option.some.injEq] at hy
          rcases hy with hy | hy
          · right; subst hy
            exact ⟨by rw [newClaim_slot k hk1]; exact hk2, rfl, rfl⟩
          · rcases this.2 y hy with h | h
            · left; exact List.mem_cons_of_mem _ h
            · right
              have := h.1
              rw [getLsbD_setInsert _ _ _ y.slot.isLt] at this
              simp at this
              exact ⟨this.1, h.2⟩
      · refine ⟨by simpa using hd, fun c hc => .inl hc⟩

theorem claimedSet_mem (claims : List (Option Claim)) (j : Nat) (hj : j < 32) :
    (claimedSet claims).getLsbD j = true ↔ ∃ c, some c ∈ claims ∧ c.slot.val = j := by
  have gen : ∀ (acc : SlotSet), (claims.foldl (fun acc c => match c with
      | some e => setInsert e.slot.val acc
      | none => acc) acc).getLsbD j = true ↔ acc.getLsbD j = true ∨ ∃ c, some c ∈ claims ∧ c.slot.val = j := by
    induction claims with
    | nil => intro acc; simp
    | cons x rest ih =>
      intro acc
      rw [List.foldl_cons, ih]
      cases x with
      | none => simp
      | some e =>
        simp only [getLsbD_setInsert _ _ _ hj]
        simp
        rw [or_assoc]
        refine or_congr Iff.rfl ?_
        constructor
        · rintro (h | h)
          · exact .inl h.symm
          · exact .inr h
        · rintro (h | h)
          · exact .inl h.symm
          · exact .inr h
  exact (gen 0).trans (by simp)

theorem heldSet_mem (own : Option StationNo) (peers : List PeerEntry) (j : Nat) :
    (heldSet own peers).getLsbD j = true ↔
      ∃ e ∈ peers, e.active own = true ∧ e.heard = true ∧ e.claimed.getLsbD j = true := by
  have gen : ∀ (acc : SlotSet), (peers.foldl
      (fun acc e => if e.active own && e.heard then acc ||| e.claimed else acc) acc).getLsbD j = true ↔
      acc.getLsbD j = true ∨ ∃ e ∈ peers, e.active own = true ∧ e.heard = true ∧ e.claimed.getLsbD j = true := by
    induction peers with
    | nil => intro acc; simp
    | cons x rest ih =>
      intro acc
      rw [List.foldl_cons, ih]
      by_cases h : (x.active own && x.heard) = true
      · simp only [h, if_true, BitVec.getLsbD_or]
        simp at h
        simp [h.1, h.2, or_assoc]
      · simp only [h]
        simp at h
        simp
        constructor
        · rintro (h1 | h1)
          · exact .inl h1
          · exact .inr (.inr h1)
        · rintro (h1 | h1 | h1)
          · exact .inl h1
          · rw [h h1.1] at h1; simp at h1
          · exact .inr h1
  simpa [heldSet] using gen 0

/-- The claiming procedure keeps every entry, and every entry it adds stands on a slot no crossing peer holds. -/
theorem claimedList_keeps (s : State)
    (hd : (s.calendar.claims.filterMap id).Pairwise (fun x y => x.slot ≠ y.slot)) :
    ((claimedList s).filterMap id).Pairwise (fun x y => x.slot ≠ y.slot) ∧
    (∀ c, some c ∈ claimedList s → some c ∈ s.calendar.claims ∨
      ((heldSet s.num.own s.calendar.peers).getLsbD c.slot.val = false ∧ c.state = .tentative ∧ c.count = 0)) := by
  unfold claimedList
  split
  · rename_i n hn
    have := fillClaims_keeps n.val (s.cfgNat StationConfig.shots) s.calendar.claims 0
      (heldSet s.num.own s.calendar.peers ||| claimedSet s.calendar.claims) hd (fun c hc => by
        rw [BitVec.getLsbD_or, (claimedSet_mem s.calendar.claims c.slot.val c.slot.isLt).2 ⟨c, hc, rfl⟩]; simp)
    rw [hn] at this ⊢
    refine ⟨this.1, fun c hc => ?_⟩
    rcases this.2 c hc with h | h
    · exact .inl h
    · rw [BitVec.getLsbD_or] at h
      simp at h
      exact .inr ⟨h.1.1, h.2⟩
  · exact ⟨hd, fun c hc => .inl hc⟩

end Sys2Proof.Machine
end

