-- ==== Sys2Proof/Laws/Banks.lean ====
section
/-! SUPPORT. Every operation keeps the states of the two banks and of the reduction unit together (Safety: BanksOk;
R66..R84); what a slip and an entry into a live state make of the banks (R13, R75). -/

namespace Sys2Proof.Machine

def BanksSafe (s : State) : Prop := BanksOk s.banks s.red

/-- The banks keep their rules, written for the bank `i` and the other one. -/
theorem banksOk_iff (i : BankId) (bs : Banks) (red : Option Reduction) : BanksOk bs red ↔
    ¬((bs.get i).state = .accepting ∧ (bs.get i.other).state = .accepting) ∧
    ((bs.get i).state = .closed → (bs.get i.other).state = .reducing) ∧
    ((bs.get i.other).state = .closed → (bs.get i).state = .reducing) ∧
    ((bs.get i).state = .reducing ↔ red.map Reduction.bank = some i) ∧
    ((bs.get i.other).state = .reducing ↔ red.map Reduction.bank = some i.other) ∧
    (bs.get i).Ok ∧ (bs.get i.other).Ok := by
  cases i
  · exact ⟨fun ⟨a, b, c, d, e, f, g⟩ => ⟨a, b, c, d, e, f, g⟩, fun ⟨a, b, c, d, e, f, g⟩ => ⟨a, b, c, d, e, f, g⟩⟩
  · exact ⟨fun ⟨a, b, c, d, e, f, g⟩ => ⟨fun h => a ⟨h.2, h.1⟩, c, b, e, d, g, f⟩,
      fun ⟨a, b, c, d, e, f, g⟩ => ⟨fun h => a ⟨h.2, h.1⟩, c, b, e, d, g, f⟩⟩

@[simp] theorem Banks.get_put (bs : Banks) (i : BankId) (b : Bank) : (bs.put i b).get i = b := by cases i <;> rfl
@[simp] theorem Banks.get_put_other (bs : Banks) (i : BankId) (b : Bank) :
    (bs.put i b).get i.other = bs.get i.other := by cases i <;> rfl
@[simp] theorem Banks.get_put_other' (bs : Banks) (i : BankId) (b : Bank) :
    (bs.put i.other b).get i = bs.get i := by cases i <;> rfl
@[simp] theorem BankId.other_other (i : BankId) : i.other.other = i := by cases i <;> rfl
theorem BankId.other_ne (i : BankId) : i ≠ i.other := by cases i <;> simp [BankId.other]

/-- A change of a bank's record that keeps its state. -/
theorem BanksSafe.put (s : State) (i : BankId) (b : Bank) (h : BanksSafe s) (hs : b.state = (s.banks.get i).state) (hb : b.Ok) :
    BanksOk (s.banks.put i b) s.red := by
  have h := (banksOk_iff i _ _).1 h
  rw [banksOk_iff i]
  simp only [Banks.get_put, Banks.get_put_other, hs]
  exact ⟨h.1, h.2.1, h.2.2.1, h.2.2.2.1, h.2.2.2.2.1, hb, h.2.2.2.2.2.2⟩

theorem blank_ok : Bank.blank.Ok := by simp [Bank.Ok, Bank.blank]

@[simp] theorem reduce_bank (c : Option StationConfig) (p : List PeerEntry) (i : BankId) (b : Bank) :
    (reduce c p i b).bank = i := by
  simp only [reduce]; (repeat' split) <;> rfl

theorem accepting_spec (bs : Banks) (i : BankId) (h : bs.accepting = some i) : (bs.get i).state = .accepting := by
  simp only [Banks.accepting] at h
  repeat' split at h
  all_goals (cases h; try assumption)

theorem accepting_none (bs : Banks) (h : bs.accepting = none) (i : BankId) : (bs.get i).state ≠ .accepting := by
  simp only [Banks.accepting] at h
  repeat' split at h
  all_goals cases i <;> simp_all [Banks.get]

theorem get_seq (bs : Banks) (q : BitVec 16) (i : BankId) : ({ bs with seq := q } : Banks).get i = bs.get i := by
  cases i <;> rfl

/-- A bank opens where the other one is not ACCEPTING and not CLOSED, and this one not under reduction. -/
theorem openBank_banksSafe (i : BankId) (s : State) (h1 : (s.banks.get i.other).state ≠ .accepting)
    (h2 : (s.banks.get i.other).state ≠ .closed) (h3 : s.red.map Reduction.bank ≠ some i)
    (h4 : (s.banks.get i.other).state = .reducing ↔ s.red.map Reduction.bank = some i.other)
    (h5 : (s.banks.get i.other).Ok) : BanksSafe (openBank i s) := by
  unfold BanksSafe
  rw [banksOk_iff i]
  simp only [openBank, State.banks_mapBanks, State.red_mapBanks, get_seq, Banks.get_put, Banks.get_put_other]
  refine ⟨by simp [h1], by simp, fun h => absurd h h2, by simpa using h3, h4, by simp [Bank.Ok, Bank.blank], h5⟩

/-- A bank with no shot in flight closes. -/
theorem closeBank_banksSafe (i : BankId) (s : State) (h : BanksSafe s) (ha : (s.banks.get i).state = .accepting)
    (hf : (s.banks.get i).inFlight = 0) : BanksSafe (closeBank i s) := by
  have hh := (banksOk_iff i _ _).1 h
  obtain ⟨a, b, c, d, e, f, g⟩ := hh
  simp only [closeBank]
  split
  · rename_i he
    have hr : BanksSafe (startReduction i (s.mapBanks fun bs => bs.put i { bs.get i with state := .closed, closePending := false })) := by
      unfold BanksSafe
      rw [banksOk_iff i]
      simp [startReduction, he, BankId.other_ne, Bank.Ok, hf]
      simpa [Bank.Ok, he] using g
    split
    · apply openBank_banksSafe
      · simp [startReduction, ]
      · simp [startReduction]
      · simp [startReduction, BankId.other_ne]
      · simp [startReduction]
      · simp [startReduction, Bank.Ok, hf]
    · exact hr
  · rename_i he
    have ho : (s.banks.get i.other).state = .reducing := by
      cases ho : (s.banks.get i.other).state
      · exact absurd ho he
      · exact absurd ⟨ha, ho⟩ a
      · have := c ho; rw [ha] at this; simp at this
      · rfl
    unfold BanksSafe
    rw [banksOk_iff i]
    simp only [State.banks_mapBanks, State.red_mapBanks, Banks.get_put, Banks.get_put_other, ho]
    refine ⟨by simp, by simp, by simp, ?_, by simpa [ho] using e, by simp [Bank.Ok, hf], g⟩
    rw [ha] at d; simpa using d

theorem banksBoundary_banksSafe (s : State) (h : BanksSafe s) : BanksSafe (banksBoundary s) := by
  simp only [banksBoundary]
  split
  · exact h
  · rename_i i hi
    have ha := accepting_spec _ _ hi
    have hok : (s.banks.get i).Ok := ((banksOk_iff i _ _).1 h).2.2.2.2.2.1
    have hd : ∀ d, ({ s.banks.get i with deadline := d } : Bank).Ok := fun d => hok
    repeat' split
    · exact h
    · rename_i hf
      apply closeBank_banksSafe
      · exact BanksSafe.put s i _ h rfl (hd _)
      · simpa using ha
      · simpa using hf
    · rename_i hf
      refine BanksSafe.put s i _ h rfl ?_
      have := hok.1
      exact ⟨hok.1, hok.2.1, fun _ => ⟨ha, by show (s.banks.get i).inFlight = 1; omega⟩⟩
    · exact BanksSafe.put s i _ h rfl (hd _)

theorem banksLeaveLive_banksSafe (s : State) (h : BanksSafe s) : BanksSafe (banksLeaveLive s) := by
  simp only [banksLeaveLive]
  split
  · exact h
  · rename_i i hi
    have ha := accepting_spec _ _ hi
    have hok : (s.banks.get i).Ok := ((banksOk_iff i _ _).1 h).2.2.2.2.2.1
    split
    · rename_i hf; exact closeBank_banksSafe i s h ha hf
    · refine BanksSafe.put s i _ h rfl ?_
      have := hok.1
      exact ⟨hok.1, hok.2.1, fun _ => ⟨ha, by show (s.banks.get i).inFlight = 1; omega⟩⟩

theorem banksEnterLive_banksSafe (s : State) (h : BanksSafe s) : BanksSafe (banksEnterLive s) := by
  simp only [banksEnterLive]
  split
  · exact h
  · have hk := h
    obtain ⟨a, b, c, d, e, f, g⟩ := h
    split
    · rename_i ha hb
      apply openBank_banksSafe .a
      · simp [BankId.other, Banks.get, hb]
      · simp [BankId.other, Banks.get, hb]
      · intro hc; rw [← d] at hc; simp [ha] at hc
      · exact e
      · exact g
    · rename_i ha hb
      apply openBank_banksSafe .a
      · simp [BankId.other, Banks.get, hb]
      · simp [BankId.other, Banks.get, hb]
      · intro hc; rw [← d] at hc; simp [ha] at hc
      · exact e
      · exact g
    · rename_i ha hb
      apply openBank_banksSafe .b
      · simp [BankId.other, Banks.get, ha]
      · simp [BankId.other, Banks.get, ha]
      · intro hc; rw [← e] at hc; simp [hb] at hc
      · exact d
      · exact f
    · exact hk

theorem endReduction_banksSafe (r : Reduction) (s : State) (h : BanksSafe s) (hr : s.red = some r) : BanksSafe (endReduction r.bank s) := by
  have hh := (banksOk_iff r.bank _ _).1 h
  obtain ⟨a, b, c, d, e, f, g⟩ := hh
  have hne := BankId.other_ne r.bank
  have hst : (s.banks.get r.bank).state = .reducing := by rw [d, hr]; rfl
  have ho : (s.banks.get r.bank.other).state ≠ .reducing := by
    rw [Ne, e, hr]; simpa using hne
  generalize r.bank = i at *
  simp only [endReduction]
  split
  · rename_i hc
    have hk : BanksSafe (startReduction i.other ((s.mapBanks fun bs => bs.put i Bank.blank).setRed none)) := by
      unfold BanksSafe
      rw [banksOk_iff i]
      simp [startReduction, Bank.blank, hne, Ne.symm hne, Bank.Ok]
      have := g; rw [Bank.Ok, hc] at this; simpa using this
    split
    · apply openBank_banksSafe
      · simp [startReduction]
      · simp [startReduction]
      · simp [startReduction, Ne.symm hne]
      · simp [startReduction]
      · simp [startReduction, Bank.Ok]; have := g; rw [Bank.Ok, hc] at this; simpa using this
    · exact hk
  · rename_i hc
    have hb : BanksSafe ((s.mapBanks fun bs => bs.put i Bank.blank).setRed none) := by
      unfold BanksSafe
      rw [banksOk_iff i]
      simp [hc, Bank.blank, Bank.Ok]
      have := g; rw [Bank.Ok, hc] at this; simpa using this
    split
    · have hk := (banksOk_iff .a _ _).1 hb
      have he : ∀ j, (((s.mapBanks fun bs => bs.put i Bank.blank).setRed none).banks.get j).state = .empty := by
        intro j
        by_cases hj : j = i
        · subst hj; simp [Bank.blank]
        · have : j = i.other := by revert hj; cases j <;> cases i <;> simp [BankId.other]
          subst this; simpa using hc
      apply openBank_banksSafe
      · rw [he]; simp
      · rw [he]; simp
      · simp
      · rw [he]; simp
      · exact hk.2.2.2.2.2.2
    · exact hb
  · rename_i hc
    unfold BanksSafe
    rw [banksOk_iff i]
    simp [hc, Bank.blank, Bank.Ok]
    have := g; rw [Bank.Ok, hc] at this; simpa using this
  · rename_i hc; exact absurd hc ho

theorem emptyBanks_banksSafe (s : State) : BanksSafe (emptyBanks s) := by
  constructor <;> simp [emptyBanks, Bank.blank, Bank.Ok]

theorem reopen_banksSafe (s : State) : BanksSafe (reopenBanks (emptyBanks s)) := by
  simp only [reopenBanks]
  split
  · have := emptyBanks_banksSafe s
    apply openBank_banksSafe
    · simp [emptyBanks, BankId.other, Banks.get, Bank.blank]
    · simp [emptyBanks, BankId.other, Banks.get, Bank.blank]
    · simp [emptyBanks]
    · simp [emptyBanks, BankId.other, Banks.get, Bank.blank]
    · exact this.recordB
  · exact emptyBanks_banksSafe s

theorem markSuspect_banksSafe (j : Nat) (s : State) (h : BanksSafe s) : BanksSafe (markSuspect j s) := by
  simp only [markSuspect]; split
  · exact h
  · rename_i i _
    exact BanksSafe.put s i _ h rfl (((banksOk_iff i _ _).1 h).2.2.2.2.2.1)

theorem markSlip_banksSafe (s : State) (h : BanksSafe s) : BanksSafe (markSlip s) := by
  simp only [markSlip]; split
  · exact h
  · rename_i i _
    exact BanksSafe.put s i _ h rfl (((banksOk_iff i _ _).1 h).2.2.2.2.2.1)

theorem accumulate_banksSafe (sh : Shot) (s : State) (h : BanksSafe s) : BanksSafe (accumulateShot sh s) := by
  simp only [accumulateShot]
  split
  · rename_i ha
    have hok : (s.banks.get sh.bank).Ok := ((banksOk_iff sh.bank _ _).1 h).2.2.2.2.2.1
    split
    · rename_i hc
      -- the record with a pending close is not Ok itself; close clears it
      have h1 : BanksSafe (s.mapBanks fun bs => bs.put sh.bank { (s.banks.get sh.bank).addShot sh with closePending := false }) := by
        refine BanksSafe.put s _ _ h rfl ?_
        simp [Bank.Ok, Bank.addShot]
      have h2 := closeBank_banksSafe sh.bank _ h1 (by simpa [Bank.addShot] using ha) (by simp [Bank.addShot])
      have e : closeBank sh.bank (s.mapBanks fun bs => bs.put sh.bank ((s.banks.get sh.bank).addShot sh)) =
          closeBank sh.bank (s.mapBanks fun bs => bs.put sh.bank
            { (s.banks.get sh.bank).addShot sh with closePending := false }) := by
        cases hb : sh.bank <;> simp [closeBank, startReduction, State.mapBanks, Banks.put, Banks.get, State.setRed, BankId.other] <;> rfl
      rw [e]; exact h2
    · rename_i hc
      rw [not_or] at hc
      refine BanksSafe.put s _ _ h rfl ?_
      simp only [Bool.not_eq_true] at hc
      simp [Bank.Ok, Bank.addShot, hc.2]
  · exact h

theorem complete_banksSafe (s : State) (h : BanksSafe s) : BanksSafe (completeShot s) := by
  simp only [completeShot]
  (repeat' split) <;> first
    | exact h
    | exact accumulate_banksSafe _ _ h

theorem clear_banksSafe (i : BankId) (s : State) (h : BanksSafe s) : BanksSafe (clearInFlight i s) := by
  simp only [clearInFlight]
  split
  · rename_i ha
    split
    · have h1 : BanksSafe (s.mapBanks fun bs => bs.put i { s.banks.get i with inFlight := 0, closePending := false }) := by
        refine BanksSafe.put s _ _ h rfl ?_
        simp [Bank.Ok]
      have h2 := closeBank_banksSafe i _ h1 (by simpa using ha) (by simp)
      have e : closeBank i (s.mapBanks fun bs => bs.put i { s.banks.get i with inFlight := 0 }) =
          closeBank i (s.mapBanks fun bs => bs.put i { s.banks.get i with inFlight := 0, closePending := false }) := by
        cases i <;> simp [closeBank, startReduction, State.mapBanks, Banks.put, Banks.get, State.setRed, BankId.other] <;> rfl
      rw [e]; exact h2
    · rename_i hc
      refine BanksSafe.put s _ _ h rfl ?_
      simp at hc
      simp [Bank.Ok, hc]
  · exact h

theorem openWindow_banksSafe (i : BankId) (s : State) (h : BanksSafe s) (ha : (s.banks.get i).state = .accepting) :
    BanksSafe (openWindow i s) := by
  have hok : (s.banks.get i).Ok := ((banksOk_iff i _ _).1 h).2.2.2.2.2.1
  exact BanksSafe.put s i _ h rfl ⟨by simp, fun hn => absurd ha hn, fun hc => ⟨ha, rfl⟩⟩

theorem BanksSafe.of (s t : State) (h : BanksSafe s) (h1 : t.banks = s.banks) (h2 : t.red = s.red) : BanksSafe t := by
  unfold BanksSafe; rw [h1, h2]; exact h

theorem convert_banksSafe (x : List Sample) (s : State) (h : BanksSafe s) : BanksSafe (convert x s) := by
  simp only [convert]
  (repeat' split) <;> first
    | exact h
    | exact complete_banksSafe _ h

theorem dud_banksSafe (s : State) (h : BanksSafe s) : BanksSafe (dudReading s) := by
  simp only [dudReading]
  apply complete_banksSafe
  refine BanksSafe.of _ _ ?_ (driverAfterDud_frame _).2.2.2.2.1 (by simp)
  split
  · exact clear_banksSafe _ _ h
  · exact h

theorem taking_banksSafe (c : Nat) (s : State) (h : BanksSafe s) : BanksSafe (takeReading c s) := by
  simp only [takeReading]
  repeat' split
  · exact dud_banksSafe _ h
  · simp only [shotReading]
    apply complete_banksSafe
    exact BanksSafe.of s _ h (by simp) (by simp)
  · exact BanksSafe.of s _ h (by simp) (by simp)

theorem window_banksSafe (s : State) (h : BanksSafe s) : BanksSafe (windowEnd s) := by
  simp only [windowEnd]; split
  · exact dud_banksSafe s h
  · exact h

theorem raise_banksSafe (slot : Slot) (s : State) (h : BanksSafe s) : BanksSafe (raiseSlotStart slot s) := by
  have : BanksSafe (if ownSettled slot s.calendar.claims then shotDecision s else s) := by
    split
    · simp only [shotDecision]
      split
      · exact h
      · simp only [trigger]
        split
        · exact h
        · rename_i i hi
          exact openWindow_banksSafe i _ h (accepting_spec _ _ hi)
    · exact h
  simp only [raiseSlotStart]
  split
  · exact this
  · exact this

theorem enterRunning_banksSafe (s : State) (h : BanksSafe s) : BanksSafe (enterRunning s) := by
  apply banksEnterLive_banksSafe
  exact BanksSafe.of s _ h (by simp) (by simp)

theorem hold_banksSafe (s : State) (h : BanksSafe s) : BanksSafe (holdOffEnds s) := by
  simp only [holdOffEnds]
  (repeat' split) <;> first
    | exact h
    | (apply enterRunning_banksSafe; exact BanksSafe.of s _ h (by simp) (by simp))
    | exact BanksSafe.of s _ h (by simp) (by simp)

theorem nb_banksSafe (s : State) (h : BanksSafe s) : BanksSafe (numberingBoundary s) := by
  simp only [numberingBoundary]
  (repeat' split) <;> first
    | exact h
    | exact hold_banksSafe s h
    | exact BanksSafe.of s _ h (by simp) (by simp)

theorem cb_banksSafe (s : State) (h : BanksSafe s) : BanksSafe (cycleBoundary s) := by
  have : BanksSafe (numberingBoundary (banksBoundary (calendarBoundary
    (((timerBoundary s).mapLaser Laser.boundary).mapExpo Exposure.rotate)))) := by
    apply nb_banksSafe; apply banksBoundary_banksSafe
    exact BanksSafe.of s _ h (by simp) (by simp)
  exact this

theorem enterHalted_banksSafe (s : State) (h : BanksSafe s) : BanksSafe (enterHalted s) := by
  simp only [enterHalted]
  split
  · exact BanksSafe.of s _ h (by simp) (by simp)
  · exact banksEnterLive_banksSafe _ h

theorem takes_banksSafe (n : StationNo) (x : Option Serial) (s : State) (h : BanksSafe s) : BanksSafe (numberingTakes n x s) := by
  have hy : BanksSafe (yieldNumber n s) := by
    simp only [yieldNumber]
    repeat' split
    · simp only [leaveForNumbering]
      split
      · apply banksLeaveLive_banksSafe; exact BanksSafe.of s _ h (by simp) (by simp)
      · exact BanksSafe.of s _ h (by simp) (by simp)
    · exact h
    · exact h
    · exact enterHalted_banksSafe s h
  simp only [numberingTakes]
  (repeat' split) <;> first
    | exact h
    | exact hy
    | exact BanksSafe.of s _ h (by simp) (by simp)

theorem release_banksSafe (j : Nat) (n : StationNo) (x : SlotSet) (s : State) (h : BanksSafe s) : BanksSafe (releaseConflicts j n x s) := by
  simp only [releaseConflicts]
  (repeat' split) <;> first
    | exact h
    | exact markSuspect_banksSafe _ _ h

theorem calNotice_banksSafe (n : StationNo) (f : NoticeFields) (s : State) (h : BanksSafe s) : BanksSafe (calendarTakesNotice n f s) := by
  simp only [calendarTakesNotice]
  repeat' split
  · exact h
  · exact h
  · exact h
  · simp only [activeAfterNotice]
    have := release_banksSafe ‹_› n (PeerEntry.take f ‹_›).claimed (s.mapCalendar fun c => { c with peers := c.peers.set ‹_› (PeerEntry.take f ‹_›) }) h
    (repeat' split) <;> first
      | exact this
      | exact BanksSafe.of _ _ this (by simp) (by simp)
  · exact h
  · exact h

theorem notice_banksSafe (n : StationNo) (f : NoticeFields) (s : State) (h : BanksSafe s) :
    BanksSafe (takeNotice n f s) := by
  apply takes_banksSafe
  have h2 := calNotice_banksSafe n f _ (BanksSafe.of s (hearNotice n s) h (by simp) (by simp))
  generalize calendarTakesNotice n f (hearNotice n s) = a at *
  simp only [Machine.measure, stepTimer, slip]
  (repeat' split) <;> first
    | exact h2
    | (apply markSlip_banksSafe; exact cb_banksSafe _ h2)
    | (apply markSlip_banksSafe; exact h2)

theorem restart_banksSafe (x y : Byte) (s : State) (h : BanksSafe s) : BanksSafe (takeRestart x y s) := by
  simp only [takeRestart]
  (repeat' split) <;> first
    | exact h
    | exact reopen_banksSafe s
    | exact BanksSafe.of s _ h (by simp) (by simp)
    | (refine ⟨?_, ?_, ?_, ?_, ?_, ?_, ?_⟩ <;> simp [restartStation, Banks.reset, Bank.blank, Bank.Ok, emptyBanks])

theorem load_banksSafe (r : List Byte) (s : State) (h : BanksSafe s) : BanksSafe (loadDone r s) := by
  simp only [loadDone]
  (repeat' split)
  · exact BanksSafe.of s _ h (by simp) (by simp)
  · simp only [loadFixed]
    split
    · apply enterHalted_banksSafe; exact BanksSafe.of s _ h (by simp) (by simp)
    · apply enterRunning_banksSafe; exact BanksSafe.of s _ h (by simp) (by simp)
  · exact BanksSafe.of s _ h (by simp) (by simp)

theorem frame_banksSafe (f : Frame) (s : State) (h : BanksSafe s) : BanksSafe (takeFrame f s) := by
  simp only [takeFrame]
  (repeat' split) <;> first
    | exact h
    | exact takes_banksSafe _ _ _ h
    | exact notice_banksSafe _ _ _ h
    | exact restart_banksSafe _ _ _ h
    | (refine takes_banksSafe _ _ _ (BanksSafe.of s _ h (by simp) (by simp)); done)
    | exact BanksSafe.of s _ h (by simp) (by simp)

/-! ## What a slip and an entry into a live state make of the banks (R13, R75) -/

theorem indicesBelow_getLsbD (n j : Nat) (h : j < 8) : (indicesBelow n).getLsbD j = decide (j < n) := by
  rw [indicesBelow, BitVec.getLsbD_ofNat, Nat.testBit_two_pow_sub_one, decide_eq_true h, Bool.true_and]

/-- A slip changes the banks alone, by the marks of R13. -/
theorem markSlip_slipMarked (s : State) :
    ∃ bs, markSlip s = { s with banks := bs } ∧ s.banks.SlipMarked s.calendar.peers.length bs := by
  unfold markSlip
  cases h : s.banks.accepting with
  | none => exact ⟨s.banks, rfl, fun _ _ => rfl, fun i hi => absurd hi (accepting_none _ h i)⟩
  | some k =>
    refine ⟨_, rfl, fun ha hb => ?_, fun i hi ho => ?_⟩
    · simp [Banks.accepting, ha, hb] at h
    · obtain rfl : i = k := by cases i <;> cases k <;> simp_all [Banks.accepting, Banks.get, BankId.other]
      exact ⟨_, rfl, fun j hj => by simp [indicesBelow_getLsbD _ _ hj]⟩

/-- An entry into a live station state opens the bank of R75, and no other. -/
theorem banksEnterLive_enteredLive (s : State) :
    s.banks.EnteredLive (s.cfgNat StationConfig.period) (banksEnterLive s).banks := by
  refine ⟨?_, fun i h => ?_⟩
  · rintro o ho
    have opens : ∀ i : BankId, (openBank i s).banks = { s.banks.put i o with seq := s.banks.seq + 1 } := by
      intro i; rw [ho]; rfl
    refine ⟨fun ha hb => ?_, fun i hi hb => ?_⟩
    · have : s.banks.accepting.isSome = false := by simp only [Banks.accepting, ha, hb]; rfl
      simp only [banksEnterLive, this, ha, hb]
      exact opens .a
    · cases i <;> simp only [Banks.get, BankId.other] at hi hb
      all_goals
        have : s.banks.accepting.isSome = false := by simp only [Banks.accepting, hi, hb]; rfl
        simp only [banksEnterLive, this, hi, hb]
      · exact opens .a
      · exact opens .b
  · cases i <;> simp only [Banks.get, BankId.other] at h <;> rcases h with h | ⟨h, h2⟩
    · simp [banksEnterLive, Banks.accepting, h]
    · simp [banksEnterLive, Banks.accepting, h, h2]
    · by_cases ha : s.banks.a.state = .accepting <;> simp [banksEnterLive, Banks.accepting, h, ha]
    · simp [banksEnterLive, Banks.accepting, h, h2]

end Sys2Proof.Machine
end

