-- ==== Sys2Proof/Laws/Exposure.lean ====
section
/-! SUPPORT. What the operations do to the exposure monitor: a reading adds, a cycle boundary rotates (R57, R58). -/

namespace Sys2Proof.Machine

/-- The ring, the total and the bound see every change of the limit as nothing. -/
theorem Exposure.limit_ok (e : Exposure) (n : Nat) (h : e.Ok) : { e with limit := n }.Ok :=
  ⟨h.entries, h.bounded, h.window, h.current⟩

theorem Exposure.add_ok (code : Nat) (e : Exposure) (h : e.Ok) : (e.add code).Ok :=
  ⟨h.entries, h.bounded, h.window, by simp [Exposure.add]⟩

theorem Exposure.rotate_ok (e : Exposure) (h : e.Ok) : e.rotate.Ok := by
  have h1 := h.entries; have h2 := h.bounded; have h3 := h.window; have h4 := h.current
  rcases e with ⟨ring, total, current, limit⟩
  cases ring with
  | nil => simp at h1
  | cons x rest =>
    refine ⟨by simp [Exposure.rotate] at *; exact h1, ?_, ?_, by simp [Exposure.rotate]⟩
    · intro y hy
      simp [Exposure.rotate] at hy h2 h4
      rcases hy with hy | hy
      · exact h2.2 y hy
      · omega
    · simp [Exposure.rotate] at *; omega

/-- The window total and the sum in progress do not rise at a rotation. -/
theorem Exposure.rotate_total (e : Exposure) (h : e.Ok) :
    e.rotate.total + e.rotate.current ≤ e.total + e.current := by
  simp [Exposure.rotate]

theorem cycleBoundary_expo (s : State) : (cycleBoundary s).expo = s.expo.rotate := by
  simp [cycleBoundary]

theorem takeReading_expo (code : Nat) (s : State) : (takeReading code s).expo = s.expo.add code := by
  simp only [takeReading]; repeat' split
  all_goals simp

theorem stepTimer_expo (x : Nat) (d : Int) (s : State) :
    (stepTimer x d s).expo = s.expo ∨ (stepTimer x d s).expo = s.expo.rotate := by
  simp only [stepTimer]; split <;> simp [cycleBoundary_expo]

theorem takeNotice_expo (n : StationNo) (f : NoticeFields) (s : State) :
    (takeNotice n f s).expo = s.expo ∨ (takeNotice n f s).expo = s.expo.rotate := by
  simp only [takeNotice, numberingTakes_frame, measure]
  repeat' split
  · simp
  · have := stepTimer_expo
      (Config.slotLength * f.slot.toNat + f.phase.toNat)
      (offset (Config.slotLength * f.slot.toNat + f.phase.toNat) (positionNumber (calendarTakesNotice n f (hearNotice n s)).line.latched))
      (calendarTakesNotice n f (hearNotice n s))
    simpa using this
  · simp

theorem takeFrame_expo (f : Frame) (s : State) :
    (takeFrame f s).expo = s.expo ∨ (takeFrame f s).expo = s.expo.rotate := by
  simp only [takeFrame]
  repeat' split
  all_goals first
    | (left; simp; done)
    | (left; simp only [takeRestart]; repeat' split; all_goals simp [restartStation]; done)
    | exact takeNotice_expo _ _ _

theorem advance_expo (s : State) : (advance s).expo = s.expo ∨ (advance s).expo = s.expo.rotate := by
  simp only [advance]
  repeat' split
  all_goals simp [cycleBoundary_expo]

theorem tick_expo (s : State) : (tick s).expo = s.expo ∨ (tick s).expo = s.expo.rotate := by
  have := advance_expo (windowTick (convertTick s))
  simpa [tick] using this

end Sys2Proof.Machine
end

