-- ==== Sys2Proof/Laws/Boundary.lean ====
section
/-! SUPPORT. What a cycle boundary makes of the timer, the driver and the banks, the numbering unit's part apart (R3, R47, R70). -/

namespace Sys2Proof.Machine

/-- A recomputation changes the reference and the slew remaining of the timer, and nothing else of it. -/
theorem recomputeReference_timer (s : State) : ∃ r x, (recomputeReference s).timer = { s.timer with ref := r, slew := x } :=
  ⟨_, _, rfl⟩

theorem holdOffEnds_timer (s : State) : ∃ r x, (holdOffEnds s).timer = { s.timer with ref := r, slew := x } := by
  simp only [holdOffEnds]
  split
  · exact ⟨s.timer.ref, s.timer.slew, rfl⟩
  · rename_i w _
    have : ∃ r x, (setOwnNumber (some w) ((s.mapNum fun u => { u with holdOff := none }).mapNum fun u => { u with state := .numbered })).timer = { s.timer with ref := r, slew := x } := recomputeReference_timer _
    split
    · simpa using this
    · exact this

theorem numberingBoundary_timer (s : State) : ∃ r x, (numberingBoundary s).timer = { s.timer with ref := r, slew := x } := by
  simp only [numberingBoundary]
  (repeat' split) <;> first
    | exact holdOffEnds_timer s
    | exact ⟨s.timer.ref, s.timer.slew, by simp⟩

theorem cycleBoundary_timer (s : State) : ∃ r x, (cycleBoundary s).timer = { s.timer with
    ref := r, slew := x, cycles := bump s.timer.cycles, prevAdj := s.timer.curAdj, curAdj := s.timer.nextAdj, nextAdj := 0
    suppress := s.timer.suppress - 1, heard := s.timer.heard.map ageHeard } := by
  have h0 : ∃ r x, (timerBoundary s).timer = { s.timer with
    ref := r, slew := x, cycles := bump s.timer.cycles, prevAdj := s.timer.curAdj, curAdj := s.timer.nextAdj, nextAdj := 0
    suppress := s.timer.suppress - 1, heard := s.timer.heard.map ageHeard } := by
    simp only [timerBoundary]
    split
    · exact recomputeReference_timer _
    · exact ⟨s.timer.ref, s.timer.slew, rfl⟩
  obtain ⟨r, x, h0⟩ := h0
  obtain ⟨r', x', h1⟩ := numberingBoundary_timer (banksBoundary (calendarBoundary (((timerBoundary s).mapLaser Laser.boundary).mapExpo Exposure.rotate)))
  refine ⟨r', x', ?_⟩
  simp only [cycleBoundary, State.timer_mapReq, h1]
  simp [h0]

theorem numberingBoundary_laser (s : State) (h : s.laser.driver ≠ .idle) : (numberingBoundary s).laser = s.laser := by
  simp only [numberingBoundary, holdOffEnds]
  (repeat' split) <;> first
    | (simp; done)
    | (simp [enterRunning, driverEntersRunning, h])

theorem numberingBoundary_banks (s : State) (h : s.banks.accepting.isSome = true) : (numberingBoundary s).banks = s.banks := by
  simp only [numberingBoundary, holdOffEnds]
  (repeat' split) <;> first
    | (simp; done)
    | (simp [enterRunning, banksEnterLive, h])

theorem Banks.accepting_eq (bs : Banks) (i : BankId) (h : (bs.get i).state = .accepting) (h2 : (bs.get i.other).state ≠ .accepting) :
    bs.accepting = some i := by
  cases i <;> simp_all [Banks.accepting, Banks.get, BankId.other]

end Sys2Proof.Machine
end

