-- ==== Sys2Proof/Laws/Calendar.lean ====
section
/-! SUPPORT. Every operation on the firing calendar keeps its list, its peer table and the distance between them (R18..R39). -/

namespace Sys2Proof.Machine

/-- What the calendar keeps under an own number. -/
structure CalSafe (own : Option StationNo) (c : Calendar) : Prop where
  list : c.Ok
  peers : PeersOk own c.peers
  apart : ∀ n, own = some n → ∀ x, some x ∈ c.claims → ∀ e ∈ c.peers,
    e.peer < n → e.age ≠ none → e.claimed.getLsbD x.slot.val = false

theorem CalSafe.countdown {own : Option StationNo} {c : Calendar} (h : CalSafe own c) (k : Option Nat) :
    CalSafe own { c with countdown := k } :=
  ⟨⟨h.list.distinct, h.list.entries, h.list.inactive⟩, h.peers, h.apart⟩

theorem CalSafe.releases {own : Option StationNo} {c : Calendar} (h : CalSafe own c) (k : Counter) :
    CalSafe own { c with releases := k } :=
  ⟨⟨h.list.distinct, h.list.entries, h.list.inactive⟩, h.peers, h.apart⟩

/-- Emptied positions keep everything, in any state. -/
theorem CalSafe.emptied {own : Option StationNo} {c : Calendar} (h : PeersOk own c.peers) (st : CalendarState)
    (l : List (Option Claim)) (k : Option Nat) (hl : ∀ x, some x ∉ l) :
    CalSafe own { c with state := st, claims := l, countdown := k } := by
  refine ⟨⟨?_, ?_, ?_⟩, h, ?_⟩
  · have : l.filterMap id = [] := by
      rw [List.filterMap_eq_nil_iff]
      intro a ha
      cases a with
      | none => rfl
      | some x => exact absurd ha (hl x)
    show (l.filterMap id).Pairwise _
    rw [this]; exact List.Pairwise.nil
  · intro x hx; exact absurd hx (hl x)
  · intro _ x hx; exact absurd hx (hl x)
  · intro n _ x hx; exact absurd hx (hl x)

theorem not_mem_emptied (l : List (Option Claim)) (x : Claim) : some x ∉ Sys2Proof.Machine.emptied l := by
  simp [Sys2Proof.Machine.emptied]

theorem queueNotice_safe (s : State) (own : Option StationNo) (h : CalSafe own s.calendar) :
    CalSafe own (queueNotice s).calendar := h.countdown _

theorem newClaim_ok (x : Claim) (h : x.state = .tentative ∧ x.count = 0) : x.Ok := by
  left; simp [h]

theorem runClaiming_safe (s : State) (h : CalSafe s.num.own s.calendar) (ha : s.calendar.state = .active) :
    CalSafe s.num.own (runClaiming s).calendar := by
  obtain ⟨h1, h2⟩ := claimedList_keeps s h.list.distinct
  refine ⟨⟨h1, ?_, ?_⟩, h.peers, ?_⟩
  · intro x hx
    rcases h2 x hx with h3 | h3
    · exact h.list.entries x h3
    · exact newClaim_ok x h3.2
  · intro hn; exact absurd ha hn
  · intro n hn x hx e he hlt hag
    rcases h2 x hx with h3 | h3
    · exact h.apart n hn x h3 e he hlt hag
    · by_contra hc
      have : (heldSet s.num.own s.calendar.peers).getLsbD x.slot.val = true := by
        rw [heldSet_mem]
        refine ⟨e, he, ?_, ?_, by simpa using hc⟩
        · simp [PeerEntry.active, hn]; intro he'; subst he'; exact absurd hlt (by simp)
        · simpa [PeerEntry.heard, Option.isSome_iff_ne_none] using hag
      rw [h3.1] at this; simp at this

theorem releaseClaims_spec (set : SlotSet) (l : List (Option Claim)) (x : Claim) :
    some x ∈ releaseClaims set l ↔ some x ∈ l ∧ set.getLsbD x.slot.val = false := by
  unfold releaseClaims
  rw [List.mem_map]
  constructor
  · rintro ⟨a, ha, hx⟩
    cases a with
    | none => simp at hx
    | some e =>
      simp at hx
      obtain ⟨h1, h2⟩ := hx
      subst h2
      exact ⟨ha, by simpa using h1⟩
  · rintro ⟨h1, h2⟩
    exact ⟨some x, h1, by simp only [h2]; rfl⟩

theorem releaseClaims_distinct (set : SlotSet) (l : List (Option Claim))
    (h : (l.filterMap id).Pairwise (fun x y => x.slot ≠ y.slot)) :
    ((releaseClaims set l).filterMap id).Pairwise (fun x y => x.slot ≠ y.slot) := by
  induction l with
  | nil => simp [releaseClaims]
  | cons a rest ih =>
    cases a with
    | none => simpa [releaseClaims] using ih (by simpa using h)
    | some e =>
      simp at h
      have := ih h.2
      by_cases hb : set.getLsbD e.slot.val = true
      · simpa [releaseClaims, hb] using this
      · simp only [releaseClaims, List.map_cons, hb]
        simp only [releaseClaims] at this
        simp only [Bool.false_eq_true, if_false, List.filterMap_cons, id, List.pairwise_cons]
        refine ⟨?_, this⟩
        intro y hy
        have : some y ∈ releaseClaims set rest := by simpa [releaseClaims] using hy
        rw [releaseClaims_spec] at this
        exact h.1 y (by simpa using this.1)

theorem conflicts_zero (set : SlotSet) (l : List (Option Claim)) (h : conflicts set l = 0) (x : Claim)
    (hx : some x ∈ l) : set.getLsbD x.slot.val = false := by
  unfold conflicts at h
  rw [List.countP_eq_zero] at h
  simpa using h (some x) hx

/-- A frame's update of the peer entry `j`, with the conflicts released: the list is apart again. -/
theorem released_safe (j : Nat) (e : PeerEntry) (f : NoticeFields) (s : State)
    (h : CalSafe s.num.own s.calendar) (hj : s.calendar.peers[j]? = some e) (hact : e.active s.num.own = true)
    (ha : s.calendar.state = .active) :
    CalSafe s.num.own (releaseConflicts j e.peer (e.take f).claimed
      (s.mapCalendar fun c => { c with peers := c.peers.set j (e.take f) })).calendar := by
  have hp : PeersOk s.num.own (s.calendar.peers.set j (e.take f)) := by
    obtain ⟨hf, hd, he, hs⟩ := h.peers
    refine ⟨by simpa using hf, ?_, ?_, ?_⟩
    · rw [List.pairwise_iff_getElem] at hd ⊢
      intro a b ha hb hab
      have hm : ∀ (k : Nat) (hk : k < (s.calendar.peers.set j (e.take f)).length),
          (s.calendar.peers.set j (e.take f))[k].peer = (s.calendar.peers[k]'(by simpa using hk)).peer := by
        intro k hk
        rw [List.getElem_set]
        split
        · rename_i hkj; subst hkj
          rw [List.getElem?_eq_some_iff] at hj
          obtain ⟨_, hj⟩ := hj
          simp [hj, PeerEntry.take]
        · rfl
      rw [hm a ha, hm b hb]
      exact hd a b (by simpa using ha) (by simpa using hb) hab
    · intro x hx
      rcases List.mem_or_eq_of_mem_set hx with hx | hx
      · exact he x hx
      · subst hx
        have hm := he e (List.mem_of_getElem? hj)
        refine ⟨hm.1, hm.2.1, by simp [PeerEntry.take], ?_, by simp [PeerEntry.take]⟩
        simp only [PeerEntry.take]
        ext i hi
        simp only [BitVec.getLsbD_and, BitVec.getLsbD_not, BitVec.getLsbD_or, BitVec.getElem_and, BitVec.getElem_not,
          BitVec.getElem_or]
        cases f.settled[i] <;> simp
    · intro x hx
      rcases List.mem_or_eq_of_mem_set hx with hx | hx
      · exact hs x hx
      · subst hx
        intro ho
        simp [PeerEntry.active, PeerEntry.take] at hact ho
        exact absurd ho hact
  have hap : ∀ (l : List (Option Claim)), (∀ x, some x ∈ l → some x ∈ s.calendar.claims) →
      (∀ n, s.num.own = some n → e.peer < n → ∀ x, some x ∈ l → (e.take f).claimed.getLsbD x.slot.val = false) →
      ∀ n, s.num.own = some n → ∀ x, some x ∈ l → ∀ y ∈ s.calendar.peers.set j (e.take f),
        y.peer < n → y.age ≠ none → y.claimed.getLsbD x.slot.val = false := by
    intro l hl hc n hn x hx y hy hlt hag
    rcases List.mem_or_eq_of_mem_set hy with hy | hy
    · exact h.apart n hn x (hl x hx) y hy hlt hag
    · subst hy; exact hc n hn hlt x hx
  simp only [releaseConflicts]
  split
  · rename_i hn
    simp only [State.num_mapCalendar] at hn
    refine ⟨⟨h.list.distinct, h.list.entries, h.list.inactive⟩, hp, ?_⟩
    intro n hn'; rw [hn] at hn'; simp at hn'
  · rename_i n hn
    simp only [State.num_mapCalendar] at hn
    split
    · simp only [markSuspect_frame]
      refine ⟨⟨releaseClaims_distinct _ _ h.list.distinct, ?_, ?_⟩, hp, ?_⟩
      · intro x hx; exact h.list.entries x ((releaseClaims_spec _ _ _).1 hx).1
      · intro hna; exact absurd ha hna
      · exact hap _ (fun x hx => ((releaseClaims_spec _ _ _).1 hx).1)
          (fun _ _ _ x hx => ((releaseClaims_spec _ _ _).1 hx).2)
    · rename_i hc
      refine ⟨⟨h.list.distinct, h.list.entries, h.list.inactive⟩, hp, ?_⟩
      refine hap _ (fun x hx => hx) ?_
      intro m hm hlt x hx
      rw [hn] at hm; cases hm
      have : conflicts (e.take f).claimed s.calendar.claims = 0 := by
        by_contra h0; exact hc ⟨hlt, h0⟩
      exact conflicts_zero _ _ this x hx

theorem peers_set_safe (j : Nat) (e : PeerEntry) (f : NoticeFields) (s : State)
    (h : CalSafe s.num.own s.calendar) (hj : s.calendar.peers[j]? = some e) (hact : e.active s.num.own = true)
    (ha : s.calendar.state ≠ .active) :
    CalSafe s.num.own (s.mapCalendar fun c => { c with peers := c.peers.set j (e.take f) }).calendar := by
  let s' : State := { s with calendar := { s.calendar with state := .active } }
  have h' : CalSafe s'.num.own s'.calendar :=
    ⟨⟨h.list.distinct, h.list.entries, fun hn => absurd rfl hn⟩, h.peers, h.apart⟩
  have hr := released_safe j e f s' h' hj hact rfl
  have hno := h.list.inactive ha
  have hpp : (releaseConflicts j e.peer (e.take f).claimed
      (s'.mapCalendar fun c => { c with peers := c.peers.set j (e.take f) })).calendar.peers =
      s.calendar.peers.set j (e.take f) := by
    simp only [releaseConflicts]; (repeat' split) <;> simp [s']
  refine ⟨⟨h.list.distinct, h.list.entries, h.list.inactive⟩, ?_, ?_⟩
  · have := hr.peers; rw [hpp] at this; exact this
  · intro n _ x hx; exact absurd hx (hno x)

theorem releaseConflicts_state (j : Nat) (n : StationNo) (set : SlotSet) (s : State) :
    (releaseConflicts j n set s).calendar.state = s.calendar.state := by
  simp only [releaseConflicts]; (repeat' split) <;> simp

theorem entryOf_spec (own : Option StationNo) (n : StationNo) (peers : List PeerEntry) (j : Nat) (e : PeerEntry)
    (h : entryOf own n peers = some j) (he : peers[j]? = some e) : e.peer = n ∧ e.active own = true := by
  unfold entryOf at h
  rw [List.findIdx?_eq_some_iff_getElem] at h
  obtain ⟨hj, h1, _⟩ := h
  rw [List.getElem?_eq_some_iff] at he
  obtain ⟨_, he⟩ := he
  rw [he] at h1
  simpa using h1

theorem calendarTakesNotice_safe (n : StationNo) (f : NoticeFields) (s : State) (h : CalSafe s.num.own s.calendar) :
    CalSafe s.num.own (calendarTakesNotice n f s).calendar := by
  simp only [calendarTakesNotice]
  split
  · exact h
  · rename_i j hj
    split
    · exact h
    · rename_i e he
      obtain ⟨h1, h2⟩ := entryOf_spec _ _ _ _ _ hj he
      split
      · rename_i hst
        exact peers_set_safe j e f s h he h2 (by simp [hst])
      · rename_i hst
        have hr := released_safe j e f s h he h2 hst
        rw [h1] at hr
        simp only [activeAfterNotice]
        generalize hm : releaseConflicts j n (e.take f).claimed
          (s.mapCalendar fun c => { c with peers := c.peers.set j (e.take f) }) = m at *
        have hown : m.num.own = s.num.own := by subst hm; simp
        have hms : m.calendar.state = .active := by subst hm; rw [releaseConflicts_state]; exact hst
        have hc : ∀ b : Bool, CalSafe s.num.own (if b = true then runClaiming m else m).calendar := by
          intro b
          split
          · rw [← hown] at hr ⊢; exact runClaiming_safe m hr hms
          · exact hr
        have hr2 : CalSafe s.num.own (runClaiming m).calendar := hc true
        (repeat' split) <;> first
          | exact hr2
          | exact hr
          | exact queueNotice_safe _ _ hr2
          | exact queueNotice_safe _ _ hr
      · rename_i hst
        have := peers_set_safe j e f s h he h2 (by simp [hst])
        split
        · apply queueNotice_safe; exact this
        · exact this

theorem calendarTakesNotice_state (n : StationNo) (f : NoticeFields) (s : State) :
    (calendarTakesNotice n f s).calendar.state = s.calendar.state := by
  simp only [calendarTakesNotice, activeAfterNotice]
  repeat' split
  all_goals first
    | rfl
    | simp [queueNotice, runClaiming, releaseConflicts_state]

theorem PeerEntry.boundary_ok (e : PeerEntry) (h : e.Ok) : e.boundary.Ok := by
  simp only [PeerEntry.boundary]
  split
  · split
    · exact ⟨h.1, h.2.1, by simp [PeerEntry.silence], by simp [PeerEntry.silence], by simp [PeerEntry.silence]⟩
    · rename_i k hk hlt
      refine ⟨h.1, h.2.1, ?_, h.2.2.2.1, by simp⟩
      simp [Config.lapseAge] at hlt ⊢
      omega
  · exact h

theorem PeerEntry.silence_ok (e : PeerEntry) (h : e.Ok) : e.silence.Ok :=
  ⟨h.1, h.2.1, by simp [PeerEntry.silence], by simp [PeerEntry.silence], by simp [PeerEntry.silence]⟩

/-- A change of peer entries that only forgets. -/
theorem CalSafe.forget {own : Option StationNo} {c : Calendar} (h : CalSafe own c) (g : PeerEntry → PeerEntry)
    (h1 : ∀ e, (g e).peer = e.peer) (h2 : ∀ e, e.Ok → (g e).Ok) (h3 : ∀ e, e.age = none → (g e).age = none)
    (h4 : ∀ (e : PeerEntry) (k : Nat), (g e).claimed.getLsbD k = true → e.claimed.getLsbD k = true) :
    CalSafe own { c with peers := c.peers.map g } := by
  refine ⟨⟨h.list.distinct, h.list.entries, h.list.inactive⟩, ⟨?_, ?_, ?_, ?_⟩, ?_⟩
  · simpa using h.peers.few
  · rw [List.pairwise_map]; simpa [h1] using h.peers.distinct
  · intro e he
    rw [List.mem_map] at he; obtain ⟨a, ha, rfl⟩ := he
    exact h2 a (h.peers.entries a ha)
  · intro e he ho
    rw [List.mem_map] at he; obtain ⟨a, ha, rfl⟩ := he
    exact h3 a (h.peers.silent a ha (by rw [← h1]; exact ho))
  · intro n hn x hx e he hlt hag
    rw [List.mem_map] at he; obtain ⟨a, ha, rfl⟩ := he
    have := h.apart n hn x hx a ha (by rw [← h1]; exact hlt) (fun hc => hag (h3 a hc))
    by_contra hc
    simp at hc
    rw [h4 a _ hc] at this; simp at this

theorem countdownBoundary_safe (s : State) (h : CalSafe s.num.own s.calendar) :
    CalSafe s.num.own (countdownBoundary s).calendar := by
  simp only [countdownBoundary]
  repeat' split
  · exact h
  · exact h
  · simp only [countdownExpires]
    apply queueNotice_safe
    split
    · rename_i ha
      exact runClaiming_safe (s.mapCalendar fun c => { c with countdown := some 0 }) (h.countdown _) ha.1
    · exact h.countdown _
  · exact h.countdown _

theorem calendarBoundary_safe (s : State) (h : CalSafe s.num.own s.calendar) :
    CalSafe s.num.own (calendarBoundary s).calendar := by
  unfold calendarBoundary
  have := countdownBoundary_safe (s.mapCalendar fun c => { c with peers := c.peers.map PeerEntry.boundary })
  refine this (h.forget _ ?_ PeerEntry.boundary_ok ?_ ?_)
  · intro e; simp only [PeerEntry.boundary]; (repeat' split) <;> rfl
  · intro e he; simp [PeerEntry.boundary, he]
  · intro e k; simp only [PeerEntry.boundary]; repeat' split
    · simp [PeerEntry.silence]
    · exact id
    · exact id

theorem countdownBoundary_state (s : State) : (countdownBoundary s).calendar.state = s.calendar.state := by
  simp only [countdownBoundary, countdownExpires]; (repeat' split) <;> simp [queueNotice, runClaiming]

theorem calendarBoundary_state (s : State) : (calendarBoundary s).calendar.state = s.calendar.state := by
  simp [calendarBoundary, countdownBoundary_state]

theorem Claim.carried_ok (set : SlotSet) (c : Claim) (h : c.Ok) : (c.carried set).Ok ∧ (c.carried set).slot = c.slot := by
  simp only [Claim.carried]
  repeat' split
  · exact ⟨.inr ⟨rfl, rfl⟩, rfl⟩
  · rename_i h1 h2
    exact ⟨.inl ⟨h1.1, by simp; omega⟩, rfl⟩
  · exact ⟨h, rfl⟩

theorem releasingEnds_safe (s : State) (h : CalSafe s.num.own s.calendar) :
    CalSafe s.num.own (releasingEnds s).calendar := by
  unfold releasingEnds
  apply queueNotice_safe
  exact runClaiming_safe (s.mapCalendar fun c => { c with state := .active })
    ⟨⟨h.list.distinct, h.list.entries, fun hn => absurd rfl hn⟩, h.peers, h.apart⟩ rfl

theorem noticeTransmitted_safe (f : NoticeFields) (r : SlotSet) (s : State) (h : CalSafe s.num.own s.calendar) :
    CalSafe s.num.own (noticeTransmitted f r s).calendar := by
  simp only [noticeTransmitted]
  split
  · exact h
  · rename_i ha
    have hmem : ∀ x, some x ∈ s.calendar.claims.map (Option.map (Claim.carried (f.claimed &&& ~~~r))) →
        ∃ y, some y ∈ s.calendar.claims ∧ x = y.carried (f.claimed &&& ~~~r) := by
      intro x hx
      rw [List.mem_map] at hx
      obtain ⟨a, ha, hx⟩ := hx
      cases a with
      | none => simp at hx
      | some y => simp at hx; exact ⟨y, ha, hx.symm⟩
    have hc : CalSafe s.num.own { s.calendar with
        claims := s.calendar.claims.map (Option.map (Claim.carried (f.claimed &&& ~~~r))) } := by
      refine ⟨⟨?_, ?_, ?_⟩, h.peers, ?_⟩
      · have : (s.calendar.claims.map (Option.map (Claim.carried (f.claimed &&& ~~~r)))).filterMap id =
            (s.calendar.claims.filterMap id).map (Claim.carried (f.claimed &&& ~~~r)) := by
          rw [List.filterMap_map, List.map_filterMap]; rfl
        show (List.filterMap id _).Pairwise _
        rw [this, List.pairwise_map]
        refine List.Pairwise.imp_of_mem ?_ h.list.distinct
        intro a b ha hb hab
        rw [(a.carried_ok (f.claimed &&& ~~~r) (h.list.entries a (by simpa using ha))).2,
          (b.carried_ok (f.claimed &&& ~~~r) (h.list.entries b (by simpa using hb))).2]
        exact hab
      · intro x hx
        obtain ⟨y, hy, rfl⟩ := hmem x hx
        exact (y.carried_ok _ (h.list.entries y hy)).1
      · intro hn; exact absurd ha hn
      · intro n hn x hx e he hlt hag
        obtain ⟨y, hy, rfl⟩ := hmem x hx
        rw [(y.carried_ok _ (h.list.entries y hy)).2]
        exact h.apart n hn y hy e he hlt hag
    split
    · apply queueNotice_safe; exact hc
    · exact hc
  · split
    · exact releasingEnds_safe s h
    · exact h

theorem noticeDropped_safe (f : NoticeFields) (s : State) (h : CalSafe s.num.own s.calendar) :
    CalSafe s.num.own (noticeDropped f s).calendar := by
  simp only [noticeDropped]
  split
  · exact releasingEnds_safe s h
  · exact h

theorem noticeTransmitted_state (f : NoticeFields) (r : SlotSet) (s : State) :
    (noticeTransmitted f r s).calendar.state = .inactive ↔ s.calendar.state = .inactive := by
  simp only [noticeTransmitted, releasingEnds]; (repeat' split) <;> simp_all [queueNotice, runClaiming]

theorem noticeDropped_state (f : NoticeFields) (s : State) :
    (noticeDropped f s).calendar.state = .inactive ↔ s.calendar.state = .inactive := by
  simp only [noticeDropped, releasingEnds]; (repeat' split) <;> simp_all [queueNotice, runClaiming]

/-- The calendar as the own number changes, with an empty list. -/
theorem setOwnNumber_safe (own : Option StationNo) (s : State) (h : PeersOk s.num.own s.calendar.peers)
    (hl : ∀ x, some x ∉ s.calendar.claims) : CalSafe own (setOwnNumber own s).calendar := by
  have he : (setOwnNumber own s).calendar =
      { s.calendar with peers := s.calendar.peers.map (fun e => if e.active own then e else e.silence) } := by
    simp only [setOwnNumber]; cases own <;> simp
  rw [he]
  have hp : PeersOk own (s.calendar.peers.map (fun e => if e.active own then e else e.silence)) := by
    refine ⟨by simpa using h.few, ?_, ?_, ?_⟩
    · rw [List.pairwise_map]
      refine List.Pairwise.imp ?_ h.distinct
      intro a b hab
      have : ∀ e : PeerEntry, (if e.active own = true then e else e.silence).peer = e.peer := by
        intro e; split <;> rfl
      rw [this, this]; exact hab
    · intro e he
      rw [List.mem_map] at he; obtain ⟨a, ha, rfl⟩ := he
      split
      · exact h.entries a ha
      · exact a.silence_ok (h.entries a ha)
    · intro e he ho
      rw [List.mem_map] at he; obtain ⟨a, ha, rfl⟩ := he
      split
      · rename_i hac
        rw [if_pos hac] at ho
        simp [PeerEntry.active, ho] at hac
      · rfl
  have := CalSafe.emptied (c := { s.calendar with
    peers := s.calendar.peers.map (fun e => if e.active own then e else e.silence) })
    hp s.calendar.state s.calendar.claims s.calendar.countdown hl
  exact this

end Sys2Proof.Machine
end

