-- ==== Sys2Proof/Laws/Counts.lean ====
section
/-! SUPPORT. Every operation keeps the shot counts of the banks (Safety: State.CountsOk; R67, R69, R72, R75, R78). -/

namespace Sys2Proof.Machine

/-- A bank's count under N shots. -/
def BankCounts (n : Nat) (b : Bank) : Prop :=
  b.m ≤ n ∧ (b.state = .accepting → b.m < n) ∧ (b.state = .empty → b.m = 0)

/-- The station holds a configuration and has left LOADING and UNCONFIGURED. -/
def State.Set (s : State) : Prop :=
  s.loader.station ≠ .loading ∧ s.loader.station ≠ .unconfigured ∧ s.loader.cfg ≠ none

theorem profileShots_pos (s : State) (h : s.loader.cfg ≠ none) : 0 < s.profileShots := by
  simp only [State.profileShots, State.cfgNat]
  cases hc : s.loader.cfg with
  | none => exact absurd hc h
  | some c => simp

theorem State.CountsOk.bank {s : State} (h : s.CountsOk) (i : BankId) : BankCounts s.profileShots (s.banks.get i) :=
  ⟨h.full i, h.room i, h.blank i⟩

/-- The counts of a station that holds a configuration are those of its two banks. -/
theorem countsOk_of_banks (s : State) (i : BankId) (hs : s.Set) (h1 : BankCounts s.profileShots (s.banks.get i))
    (h2 : BankCounts s.profileShots (s.banks.get i.other)) : s.CountsOk := by
  have h : ∀ j, BankCounts s.profileShots (s.banks.get j) := by
    intro j; cases i <;> cases j <;> assumption
  exact ⟨fun j => (h j).1, fun j => (h j).2.1, fun j => (h j).2.2, fun hc => absurd hc (not_or.2 ⟨hs.1, hs.2.1⟩),
    fun _ _ => hs.2.2⟩

/-- A station with a bank that is not EMPTY holds a configuration (R72, R77). -/
theorem State.CountsOk.set {s : State} (h : s.CountsOk) (i : BankId) (hi : (s.banks.get i).state ≠ .empty) : s.Set := by
  have h1 : s.loader.station ≠ .loading := fun hc => hi (h.idle (.inl hc) i)
  have h2 : s.loader.station ≠ .unconfigured := fun hc => hi (h.idle (.inr hc) i)
  exact ⟨h1, h2, h.configured h1 h2⟩

theorem State.CountsOk.live {s : State} (h : s.CountsOk) (hl : s.live = true) : s.Set := by
  have h1 : s.loader.station ≠ .loading := by intro hc; simp [State.live, hc] at hl
  have h2 : s.loader.station ≠ .unconfigured := by intro hc; simp [State.live, hc] at hl
  exact ⟨h1, h2, h.configured h1 h2⟩

/-- An operation that changes neither a bank's state nor its count, nor station and configuration. -/
theorem State.CountsOk.of {s t : State} (h : s.CountsOk)
    (hb : ∀ i, (t.banks.get i).state = (s.banks.get i).state ∧ (t.banks.get i).m = (s.banks.get i).m)
    (hl : t.loader = s.loader) : t.CountsOk := by
  have hn : t.profileShots = s.profileShots := by simp only [State.profileShots, State.cfgNat, hl]
  constructor
  · intro i; rw [(hb i).2, hn]; exact h.full i
  · intro i; rw [(hb i).1, (hb i).2, hn]; exact h.room i
  · intro i; rw [(hb i).1, (hb i).2]; exact h.blank i
  · rw [hl]; intro hs i; rw [(hb i).1]; exact h.idle hs i
  · rw [hl]; exact h.configured

theorem State.CountsOk.same {s t : State} (h : s.CountsOk) (hb : t.banks = s.banks) (hl : t.loader = s.loader) : t.CountsOk :=
  h.of (fun i => by rw [hb]; exact ⟨rfl, rfl⟩) hl

theorem State.CountsOk.put {s : State} (h : s.CountsOk) (i : BankId) (b : Bank) (h1 : b.state = (s.banks.get i).state)
    (h2 : b.m = (s.banks.get i).m) : (s.mapBanks fun bs => bs.put i b).CountsOk := by
  refine h.of (fun j => ?_) rfl
  cases i <;> cases j <;> first
    | exact ⟨h1, h2⟩
    | exact ⟨rfl, rfl⟩

/-- The station moves between two states that hold a configuration. -/
theorem State.CountsOk.station {s t : State} (h : s.CountsOk) (hb : t.banks = s.banks) (hc : t.loader.cfg = s.loader.cfg)
    (hs : s.Set) (ht1 : t.loader.station ≠ .loading) (ht2 : t.loader.station ≠ .unconfigured) : t.CountsOk := by
  have hn : t.profileShots = s.profileShots := by simp only [State.profileShots, State.cfgNat, hc]
  refine countsOk_of_banks t .a ⟨ht1, ht2, by rw [hc]; exact hs.2.2⟩ ?_ ?_ <;> rw [hn, hb] <;> exact h.bank _

/-! ## The banks' operations -/

theorem openBank_counts (i : BankId) (s : State) (hs : s.Set)
    (ho : BankCounts s.profileShots (s.banks.get i.other)) : (openBank i s).CountsOk := by
  refine countsOk_of_banks _ i hs ?_ ?_
  · simp only [openBank, State.banks_mapBanks, get_seq, Banks.get_put]
    exact ⟨Nat.zero_le _, fun _ => profileShots_pos s hs.2.2, fun _ => rfl⟩
  · show BankCounts s.profileShots _
    simpa only [openBank, State.banks_mapBanks, get_seq, Banks.get_put_other] using ho

theorem startReduction_counts (i : BankId) (s : State) (hs : s.Set) (hm : (s.banks.get i).m ≤ s.profileShots)
    (ho : BankCounts s.profileShots (s.banks.get i.other)) : (startReduction i s).CountsOk := by
  refine countsOk_of_banks _ i hs ?_ ?_
  · simp only [startReduction, State.banks_setRed, State.banks_mapBanks, Banks.get_put]
    exact ⟨hm, by simp, by simp⟩
  · show BankCounts s.profileShots _
    simpa only [startReduction, State.banks_setRed, State.banks_mapBanks, Banks.get_put_other] using ho

theorem closeBank_counts (i : BankId) (s : State) (hs : s.Set) (hm : (s.banks.get i).m ≤ s.profileShots)
    (ho : BankCounts s.profileShots (s.banks.get i.other)) : (closeBank i s).CountsOk := by
  have hclosed : (s.mapBanks fun bs => bs.put i { bs.get i with state := .closed, closePending := false }).CountsOk := by
    refine countsOk_of_banks _ i hs ?_ ?_
    · simp only [State.banks_mapBanks, Banks.get_put]; exact ⟨hm, by simp, by simp⟩
    · show BankCounts s.profileShots _
      simpa only [State.banks_mapBanks, Banks.get_put_other] using ho
  have hred := startReduction_counts i (s.mapBanks fun bs => bs.put i
    { bs.get i with state := .closed, closePending := false }) hs (hclosed.full i) (hclosed.bank i.other)
  simp only [closeBank]
  repeat' split
  · refine openBank_counts i.other _ hs ?_
    rw [BankId.other_other]; exact hred.bank i
  · exact hred
  · exact hclosed

theorem banksBoundary_counts (s : State) (h : s.CountsOk) : (banksBoundary s).CountsOk := by
  simp only [banksBoundary]
  split
  · exact h
  · rename_i i hi
    have ha := accepting_spec _ _ hi
    have hs := h.set i (by rw [ha]; simp)
    repeat' split
    · exact h
    · have hp := h.put i { s.banks.get i with deadline := 0 } rfl rfl
      exact closeBank_counts i _ hs (hp.full i) (hp.bank _)
    · exact h.put i _ rfl rfl
    · exact h.put i _ rfl rfl

theorem banksLeaveLive_counts (s : State) (h : s.CountsOk) : (banksLeaveLive s).CountsOk := by
  simp only [banksLeaveLive]
  split
  · exact h
  · rename_i i hi
    have ha := accepting_spec _ _ hi
    split
    · exact closeBank_counts i s (h.set i (by rw [ha]; simp)) (h.full i) (h.bank _)
    · exact h.put i _ rfl rfl

theorem banksEnterLive_counts (s : State) (h : s.CountsOk) (hs : s.Set) : (banksEnterLive s).CountsOk := by
  simp only [banksEnterLive]
  repeat' split
  · exact h
  all_goals first
    | exact openBank_counts _ _ hs (h.bank _)
    | exact h

theorem endReduction_counts (i : BankId) (s : State) (h : s.CountsOk) (hi : (s.banks.get i).state ≠ .empty) :
    (endReduction i s).CountsOk := by
  have hs := h.set i hi
  have hb : BankCounts s.profileShots Bank.blank := ⟨Nat.zero_le _, by simp [Bank.blank], fun _ => rfl⟩
  have he : ((s.mapBanks fun bs => bs.put i Bank.blank).setRed none).CountsOk := by
    refine countsOk_of_banks _ i hs ?_ ?_
    · show BankCounts s.profileShots _
      simpa only [State.banks_setRed, State.banks_mapBanks, Banks.get_put] using hb
    · show BankCounts s.profileShots _
      simpa only [State.banks_setRed, State.banks_mapBanks, Banks.get_put_other] using h.bank i.other
  simp only [endReduction]
  split
  · have hn := startReduction_counts i.other ((s.mapBanks fun bs => bs.put i Bank.blank).setRed none) hs (he.full _) (by rw [BankId.other_other]; exact he.bank i)
    split
    · exact openBank_counts i _ hs (hn.bank _)
    · exact hn
  · split
    · exact openBank_counts .a _ hs (he.bank _)
    · exact he
  · exact he
  · exact he

theorem emptyBanks_counts (s : State) (h : s.CountsOk) : (emptyBanks s).CountsOk := by
  have hb : ∀ i, (emptyBanks s).banks.get i = Bank.blank := by intro i; cases i <;> rfl
  constructor
  · intro i; rw [hb]; exact Nat.zero_le _
  · intro i; rw [hb]; simp [Bank.blank]
  · intro i _; rw [hb]; rfl
  · intro _ i; rw [hb]; rfl
  · simpa using h.configured

theorem reopenBanks_counts (s : State) (h : s.CountsOk) : (reopenBanks s).CountsOk := by
  simp only [reopenBanks]
  split
  · rename_i hl; exact openBank_counts .a s (h.live hl) (h.bank _)
  · exact h

theorem markSuspect_counts (j : Nat) (s : State) (h : s.CountsOk) : (markSuspect j s).CountsOk := by
  simp only [markSuspect]; split
  · exact h
  · exact h.put _ _ rfl rfl

theorem markSlip_counts (s : State) (h : s.CountsOk) : (markSlip s).CountsOk := by
  simp only [markSlip]; split
  · exact h
  · exact h.put _ _ rfl rfl

theorem openWindow_counts (i : BankId) (s : State) (h : s.CountsOk) : (openWindow i s).CountsOk :=
  (h.put i { s.banks.get i with inFlight := 1 } rfl rfl).same rfl rfl

theorem accumulateShot_counts (sh : Shot) (s : State) (h : s.CountsOk) : (accumulateShot sh s).CountsOk := by
  simp only [accumulateShot]
  split
  · rename_i ha
    have hs := h.set sh.bank (by rw [ha]; simp)
    have hr := h.room sh.bank ha
    have hm : ((s.mapBanks fun bs => bs.put sh.bank ((s.banks.get sh.bank).addShot sh)).banks.get sh.bank).m =
        (s.banks.get sh.bank).m + 1 := by simp [Bank.addShot]
    have ho : BankCounts s.profileShots
        ((s.mapBanks fun bs => bs.put sh.bank ((s.banks.get sh.bank).addShot sh)).banks.get sh.bank.other) := by
      simpa only [State.banks_mapBanks, Banks.get_put_other] using h.bank _
    split
    · exact closeBank_counts _ _ hs (by rw [hm]; exact hr) ho
    · rename_i hc
      rw [not_or] at hc
      refine countsOk_of_banks _ sh.bank hs ⟨by rw [hm]; exact hr, fun _ => ?_, fun he => ?_⟩ ho
      · rw [hm]; exact lt_of_le_of_ne hr hc.1
      · simp [Bank.addShot, ha] at he
  · exact h

theorem completeShot_counts (s : State) (h : s.CountsOk) : (completeShot s).CountsOk := by
  simp only [completeShot]
  (repeat' split) <;> first
    | exact h
    | exact accumulateShot_counts _ _ (h.same rfl rfl)
    | exact h.same rfl rfl

theorem clearInFlight_counts (i : BankId) (s : State) (h : s.CountsOk) : (clearInFlight i s).CountsOk := by
  simp only [clearInFlight]
  split
  · rename_i ha
    have hp := h.put i { s.banks.get i with inFlight := 0 } rfl rfl
    split
    · exact closeBank_counts i _ (h.set i (by rw [ha]; simp)) (hp.full i) (hp.bank _)
    · exact hp
  · exact h

theorem convert_counts (x : List Sample) (s : State) (h : s.CountsOk) : (convert x s).CountsOk := by
  simp only [convert]
  (repeat' split) <;> first
    | exact completeShot_counts _ (h.same rfl rfl)
    | exact h.same rfl rfl

theorem captureRest_counts (x : List Sample) (s : State) (h : s.CountsOk) : (captureRest x s).CountsOk := by
  simp only [captureRest]; split
  · exact convert_counts _ s h
  · exact h

theorem dudReading_counts (s : State) (h : s.CountsOk) : (dudReading s).CountsOk := by
  simp only [dudReading]
  apply completeShot_counts
  refine State.CountsOk.same ?_ (driverAfterDud_frame _).2.2.2.2.1 (driverAfterDud_frame _).2.2.2.2.2.2.2.2.1
  split
  · exact clearInFlight_counts _ _ (h.same rfl rfl)
  · exact h.same rfl rfl

theorem takeReading_counts (c : Nat) (s : State) (h : s.CountsOk) : (takeReading c s).CountsOk := by
  simp only [takeReading]
  repeat' split
  · exact dudReading_counts _ (h.same rfl rfl)
  · exact completeShot_counts _ (h.same (by simp) (by simp))
  · exact h.same (by simp) (by simp)

theorem windowEnd_counts (s : State) (h : s.CountsOk) : (windowEnd s).CountsOk := by
  simp only [windowEnd]; split
  · exact dudReading_counts s h
  · exact h

theorem raiseSlotStart_counts (slot : Slot) (s : State) (h : s.CountsOk) : (raiseSlotStart slot s).CountsOk := by
  have : (if ownSettled slot s.calendar.claims then shotDecision s else s).CountsOk := by
    split
    · simp only [shotDecision]
      split
      · exact h.same rfl rfl
      · simp only [trigger]
        split
        · exact h
        · exact openWindow_counts _ _ (h.same rfl rfl)
    · exact h
  simp only [raiseSlotStart]
  split
  · exact this.same rfl rfl
  · exact this

/-! ## Station states -/

/-- The station moves to a live state: from one that holds a configuration, or from LOADING with the record just
taken, where both banks are EMPTY (R75, R165). -/
theorem enterLive_counts (s t : State) (h : ∀ i, BankCounts t.profileShots (t.banks.get i)) (hs : t.Set)
    (hb : s.banks = t.banks) (hl : s.loader = t.loader) : (banksEnterLive s).CountsOk := by
  have ht := countsOk_of_banks t .a hs (h .a) (h .b)
  exact banksEnterLive_counts _ (ht.same hb hl) ⟨by rw [hl]; exact hs.1, by rw [hl]; exact hs.2.1, by rw [hl]; exact hs.2.2⟩

theorem enterRunning_counts (s : State) (hc : s.loader.cfg ≠ none)
    (hb : ∀ i, BankCounts s.profileShots (s.banks.get i)) : (enterRunning s).CountsOk :=
  enterLive_counts _ (setStation .running s) hb ⟨by simp [setStation], by simp [setStation], hc⟩ (by simp) (by simp)

theorem enterHalted_counts (s : State) (hc : s.loader.cfg ≠ none)
    (hb : ∀ i, BankCounts s.profileShots (s.banks.get i)) : (enterHalted s).CountsOk := by
  have hs : (setStation .haltedDuplicate s).Set := ⟨by simp [setStation], by simp [setStation], hc⟩
  simp only [enterHalted]
  split
  · exact (countsOk_of_banks (setStation .haltedDuplicate s) .a hs (hb .a) (hb .b)).same (by simp) (by simp [setStation])
  · exact enterLive_counts _ (setStation .haltedDuplicate s) hb hs rfl rfl

theorem holdOffEnds_counts (s : State) (h : s.CountsOk) : (holdOffEnds s).CountsOk := by
  simp only [holdOffEnds]
  repeat' split
  · exact h.same rfl rfl
  · rename_i w _ hn
    have hl : s.loader.station = .numbering := by simpa using hn
    refine enterRunning_counts _ ?_ ?_
    · simpa using h.configured (by rw [hl]; simp) (by rw [hl]; simp)
    · intro i
      have hp : ∀ t : State, t.loader = s.loader → t.profileShots = s.profileShots := by
        intro t ht; simp only [State.profileShots, State.cfgNat, ht]
      rw [hp _ (by simp)]
      simpa using h.bank i
  · exact h.same (by simp) (by simp)

theorem numberingBoundary_counts (s : State) (h : s.CountsOk) : (numberingBoundary s).CountsOk := by
  simp only [numberingBoundary]
  (repeat' split) <;> first
    | exact holdOffEnds_counts s h
    | exact h.same (by simp) (by simp)

theorem cycleBoundary_counts (s : State) (h : s.CountsOk) : (cycleBoundary s).CountsOk := by
  have : (numberingBoundary (banksBoundary (calendarBoundary
      (((timerBoundary s).mapLaser Laser.boundary).mapExpo Exposure.rotate)))).CountsOk := by
    apply numberingBoundary_counts
    apply banksBoundary_counts
    exact h.same (by simp) (by simp)
  exact this.same rfl rfl

theorem yieldNumber_counts (n : StationNo) (s : State) (h : s.CountsOk) (hs : s.num.state = .numbered) :
    (yieldNumber n s).CountsOk := by
  simp only [yieldNumber]
  split
  · simp only [leaveForNumbering]
    split
    · rename_i hr
      have hr : s.loader.station = .running := by simpa [State.running] using hr
      apply banksLeaveLive_counts
      exact h.station (by simp) (by simp [setStation])
        ⟨by rw [hr]; simp, by rw [hr]; simp, h.configured (by rw [hr]; simp) (by rw [hr]; simp)⟩
        (by simp [setStation]) (by simp [setStation])
    · exact h.same (by simp) (by simp)
  · rename_i hu
    split
    · exact h.same rfl rfl
    · split
      · exact h
      · rename_i hl _
        have hc := h.configured hl (fun hc => hu (.inr hc))
        exact enterHalted_counts s hc h.bank

theorem numberingTakes_counts (n : StationNo) (x : Option Serial) (s : State) (h : s.CountsOk) :
    (numberingTakes n x s).CountsOk := by
  simp only [numberingTakes]
  (repeat' split) <;> first
    | exact yieldNumber_counts n s h (by assumption)
    | exact h.same (by simp) (by simp)

theorem releaseConflicts_counts (j : Nat) (n : StationNo) (set : SlotSet) (s : State) (h : s.CountsOk) :
    (releaseConflicts j n set s).CountsOk := by
  simp only [releaseConflicts]
  (repeat' split) <;> first
    | exact h
    | exact markSuspect_counts _ _ (h.same rfl rfl)

theorem calendarTakesNotice_counts (n : StationNo) (f : NoticeFields) (s : State) (h : s.CountsOk) :
    (calendarTakesNotice n f s).CountsOk := by
  simp only [calendarTakesNotice]
  repeat' split
  · exact h
  · exact h
  · exact h.same rfl rfl
  · rename_i j _ _ e _ _ _
    have hr := releaseConflicts_counts j n (e.take f).claimed
      (s.mapCalendar fun c => { c with peers := c.peers.set j (e.take f) }) (h.same rfl rfl)
    simp only [activeAfterNotice]
    (repeat' split) <;> first
      | exact hr
      | exact hr.same (by simp) (by simp)
  · exact h.same rfl rfl
  · exact h.same rfl rfl

theorem takeNotice_counts (n : StationNo) (f : NoticeFields) (s : State) (h : s.CountsOk) :
    (takeNotice n f s).CountsOk := by
  apply numberingTakes_counts
  have h2 := calendarTakesNotice_counts n f _ (h.same (t := hearNotice n s) (by simp) (by simp))
  generalize calendarTakesNotice n f (hearNotice n s) = a at *
  have hs : ∀ t : State, t.CountsOk → (slip t).CountsOk := fun t ht => markSlip_counts _ (ht.same rfl rfl)
  have hm : ∀ g, (a.mapTimer g).CountsOk := fun g => h2.same rfl rfl
  simp only [Machine.measure, stepTimer]
  (repeat' split) <;> first
    | exact h2
    | exact hm _
    | exact hs _ (hm _)
    | exact hs _ (cycleBoundary_counts _ (hm _))

theorem takeRestart_counts (x y : Byte) (s : State) (h : s.CountsOk) : (takeRestart x y s).CountsOk := by
  simp only [takeRestart]
  (repeat' split) <;> first
    | exact h
    | exact (reopenBanks_counts _ (emptyBanks_counts s h)).same rfl rfl
    | exact h.same (by simp) (by simp)
    | skip
  have hb : ∀ i, (restartStation s).banks.get i = Bank.blank := by intro i; cases i <;> rfl
  constructor
  · intro i; rw [hb]; exact Nat.zero_le _
  · intro i; rw [hb]; simp [Bank.blank]
  · intro i _; rw [hb]; rfl
  · intro _ i; rw [hb]; rfl
  · intro hc; exact absurd rfl hc

theorem takeFrame_counts (f : Frame) (s : State) (h : s.CountsOk) : (takeFrame f s).CountsOk := by
  simp only [takeFrame]
  (repeat' split) <;> first
    | exact h
    | exact numberingTakes_counts _ _ _ h
    | exact takeNotice_counts _ _ _ h
    | exact takeRestart_counts _ _ _ h
    | exact numberingTakes_counts _ _ _ (h.same (by simp) (by simp))
    | exact h.same (by simp) (by simp)

/-- Load complete: the banks of a LOADING station are EMPTY, so that no count rests on the configuration of before. -/
theorem loadDone_counts (r : List Byte) (s : State) (h : s.CountsOk) (hl : s.loader.station = .loading) :
    (loadDone r s).CountsOk := by
  have he := h.idle (.inl hl)
  have hb : ∀ n i, BankCounts n (s.banks.get i) := by
    intro n i
    have := h.blank i (he i)
    exact ⟨by omega, by rw [he i]; simp, fun _ => this⟩
  simp only [loadDone]
  repeat' split
  · refine countsOk_of_banks _ .a ⟨by simp [loadAuto, setStation], by simp [loadAuto, setStation], ?_⟩ ?_ ?_
    · simp [loadAuto, setStation, takeRecord]
    · simpa using hb _ .a
    · simpa [BankId.other] using hb _ .b
  · simp only [loadFixed]
    split
    · refine enterHalted_counts _ (by simp [takeRecord]) ?_
      intro i; simpa using hb _ i
    · refine enterRunning_counts _ (by simp [takeRecord]) ?_
      intro i; simpa using hb _ i
  · constructor
    · intro i; simpa using (hb _ i).1
    · intro i; simp [he i]
    · intro i; simpa using (hb 0 i).2.2
    · intro _ i; simpa using he i
    · intro _ hc; simp [loadInvalid] at hc

theorem tick_counts (s : State) (h : s.CountsOk) : (tick s).CountsOk := by
  have h1 : (windowTick (convertTick s)).CountsOk := by
    have h0 : (convertTick s).CountsOk := convert_counts _ s h
    simp only [windowTick]
    (repeat' split) <;> first
      | exact h0
      | exact windowEnd_counts _ (h0.same rfl rfl)
      | exact h0.same rfl rfl
  have h2 : (advance (windowTick (convertTick s))).CountsOk := by
    simp only [advance]
    (repeat' split) <;> first
      | exact h1.same rfl rfl
      | exact raiseSlotStart_counts _ _ (h1.same rfl rfl)
      | exact raiseSlotStart_counts _ _ (cycleBoundary_counts _ (h1.same rfl rfl))
  exact h2.same (by simp [tick]) (by simp [tick])

end Sys2Proof.Machine
end

