-- ==== Sys2Proof/Laws/Driver.lean ====
section
/-! SUPPORT. Every operation on the laser control unit keeps its record (Safety: Laser.Ok; R42..R56). -/

namespace Sys2Proof.Machine

theorem targetLevel_le (nominal : Nat) (band : Band) : targetLevel nominal band ≤ 15 := by
  cases band <;> simp [targetLevel, bandCap] <;> omega

theorem Laser.bleed_laserOk (l : Laser) (h : l.Ok) (hf : l.driver ≠ .fault) : l.bleed.Ok := by
  have := h.cause
  constructor <;> simp_all [Laser.bleed, h.duds, h.target]

theorem Laser.beginCharging_laserOk (l : Laser) (h : l.Ok) (hf : l.driver ≠ .fault) (hb : l.band ≠ .inhibit) :
    l.beginCharging.Ok := by
  have := h.cause
  constructor <;> simp_all [Laser.beginCharging, h.duds, h.target]

theorem Laser.enterFault_laserOk (l : Laser) (c : Cause) (hc : c ≠ .none) (h : l.Ok) : (l.enterFault c).Ok := by
  constructor <;> simp_all [Laser.enterFault, h.duds, h.target]

theorem Laser.boundary_laserOk (l : Laser) (h : l.Ok) : l.boundary.Ok := by
  dsimp only [Laser.boundary]
  split
  · split
    · exact l.enterFault_laserOk _ (by simp) h
    · rename_i hd ht
      refine ⟨h.level, ⟨fun _ => hd, fun _ => ?_⟩, ?_, h.cause, h.duds, h.target, h.levelBound, h.inhibit⟩
      · show 0 < l.timeout - 1; omega
      · have := h.timeoutBound; show l.timeout - 1 ≤ 2; omega
  · exact h

theorem Laser.leaveRunning_laserOk (l : Laser) (h : l.Ok) : l.leaveRunning.Ok := by
  dsimp only [Laser.leaveRunning]
  split
  · rename_i hd; exact l.bleed_laserOk h (by rcases hd with hd | hd <;> simp [hd])
  · exact h

theorem Laser.restart_laserOk (l : Laser) (h : l.Ok) : l.restart.Ok := by
  have := l.leaveRunning_laserOk h
  exact ⟨this.level, this.timeout, this.timeoutBound, this.cause, this.duds, this.target, this.levelBound, this.inhibit⟩

theorem recomputeTarget_laserOk (s : State) (h : s.laser.Ok) : (recomputeTarget s).laser.Ok :=
  ⟨h.level, h.timeout, h.timeoutBound, h.cause, h.duds, targetLevel_le _ _, h.levelBound, h.inhibit⟩

theorem chargeOrIdle_laserOk (s : State) (h : s.laser.Ok) (hf : s.laser.driver ≠ .fault) : (chargeOrIdle s).laser.Ok := by
  dsimp only [chargeOrIdle]
  split
  · rename_i hb; exact s.laser.beginCharging_laserOk h hf hb.2
  · exact s.laser.bleed_laserOk h hf

theorem driverEntersRunning_laserOk (s : State) (h : s.laser.Ok) : (driverEntersRunning s).laser.Ok := by
  dsimp only [driverEntersRunning]
  split
  · rename_i hb; exact s.laser.beginCharging_laserOk h (by simp [hb.1]) hb.2
  · exact h

/-- A band report keeps the driver record: the driver is not charged in INHIBIT when it returns. -/
theorem bandReport_laserOk (band : Band) (s : State) (h : s.laser.Ok) : (bandReport band s).laser.Ok := by
  dsimp only [bandReport]
  split
  · exact h
  · generalize hm : recomputeTarget (s.mapLaser fun l => { l with band := band }) = m
    have hl : m.laser = { s.laser with band := band, lt := targetLevel (s.cfgNat StationConfig.level) band } := by
      subst hm; rfl
    have hlt := targetLevel_le (s.cfgNat StationConfig.level) band
    have hi : band ≠ .inhibit ∨ (s.laser.driver ≠ .charging ∧ s.laser.driver ≠ .charged) → m.laser.Ok := by
      intro hb
      rw [hl]
      exact ⟨h.level, h.timeout, h.timeoutBound, h.cause, h.duds, hlt, h.levelBound, fun e => by
        rcases hb with hb | hb
        · exact absurd e hb
        · exact hb⟩
    have hble : m.laser.driver ≠ .fault → m.laser.bleed.Ok := by
      intro hf
      rw [hl] at hf ⊢
      have := h.cause
      exact ⟨by simp [Laser.bleed], by simp [Laser.bleed], by simp [Laser.bleed], by simp_all [Laser.bleed],
        h.duds, hlt, by simp [Laser.bleed], by simp [Laser.bleed]⟩
    have hd : m.laser.driver = s.laser.driver := by rw [hl]
    have hband : m.laser.band = band := by rw [hl]
    dsimp only [driverAtBandChange]
    split
    · rename_i hdr
      have hok := hi (.inr (by rw [← hd, hdr]; simp))
      split
      · rename_i hb; exact m.laser.beginCharging_laserOk hok (by simp [hdr]) hb.2
      · exact hok
    · rename_i hdr
      split
      · exact hble (by simp [hdr])
      · rename_i hb; exact hi (.inl (hband ▸ hb))
    · rename_i hdr
      split
      · exact hble (by simp [hdr])
      · rename_i hb
        have hok := hi (.inl (hband ▸ hb))
        split
        · exact chargeOrIdle_laserOk _ hok (by simp [hdr])
        · exact hok
    · rename_i hdr; exact hi (.inr (by rw [← hd, hdr]; simp))
    · rename_i hdr; exact hi (.inr (by rw [← hd, hdr]; simp))

theorem chargeReport_laserOk (s : State) (h : s.laser.Ok) : (chargeReport s).laser.Ok := by
  dsimp only [chargeReport]
  split
  · rename_i hd
    split
    · have h1 := h.level; have h2 := h.timeout; have h3 := h.timeoutBound; have h4 := h.cause
      constructor <;> simp_all [h.duds, h.target]
      · exact h.levelBound
      · intro hb; exact absurd hd (h.inhibit hb).1
    · exact chargeOrIdle_laserOk s h (by simp [hd])
  · exact h

theorem driverAfterDud_laserOk (s : State) (h : s.laser.Ok) (hf : s.laser.driver = .fired) :
    (driverAfterDud s).laser.Ok := by
  dsimp only [driverAfterDud]
  split
  · have := s.laser.enterFault_laserOk .dud (by simp) h
    exact ⟨this.level, this.timeout, this.timeoutBound, this.cause, by simp, this.target, this.levelBound, this.inhibit⟩
  · rename_i hd
    refine chargeOrIdle_laserOk _ ⟨h.level, h.timeout, h.timeoutBound, h.cause, ?_, h.target, h.levelBound, h.inhibit⟩
      (by simp [hf])
    show s.laser.dudRun + 1 ≤ 3
    omega

theorem dudReading_laserOk (s : State) (h : s.laser.Ok) (hf : s.laser.driver = .fired) : (dudReading s).laser.Ok := by
  dsimp only [dudReading]
  simp only [completeShot_frame]
  apply driverAfterDud_laserOk <;> split <;> simp [h, hf]

theorem shotReading_laserOk (code : Nat) (s : State) (h : s.laser.Ok) (hf : s.laser.driver = .fired) :
    (shotReading code s).laser.Ok := by
  dsimp only [shotReading]
  simp only [completeShot_frame]
  refine chargeOrIdle_laserOk _ ?_ (by simp [hf])
  exact ⟨h.level, h.timeout, h.timeoutBound, h.cause, by simp, h.target, h.levelBound, h.inhibit⟩

theorem takeReading_laserOk (code : Nat) (s : State) (h : s.laser.Ok) : (takeReading code s).laser.Ok := by
  dsimp only [takeReading]
  split
  · rename_i hf
    split
    · exact dudReading_laserOk _ h hf
    · exact shotReading_laserOk _ _ h hf
  · dsimp only [strayReading]
    split
    · exact h
    · exact Laser.enterFault_laserOk _ _ (by simp) h

theorem windowEnd_laserOk (s : State) (h : s.laser.Ok) : (windowEnd s).laser.Ok := by
  dsimp only [windowEnd]
  split
  · rename_i hf; exact dudReading_laserOk _ h hf.2
  · exact h

theorem withholdReason_charged (s : State) (h : withholdReason s = none) : s.laser.driver = .charged := by
  unfold withholdReason at h
  repeat' split at h
  all_goals simp_all

theorem withholdReason_budget (s : State) (h : withholdReason s = none) :
    s.expo.total + s.expo.current + 255 ≤ s.expo.limit := by
  unfold withholdReason at h
  repeat' split at h
  all_goals simp_all [Exposure.overBudget, Config.greatestCode]

theorem raiseSlotStart_laserOk (slot : Slot) (s : State) (h : s.laser.Ok) : (raiseSlotStart slot s).laser.Ok := by
  have : (if ownSettled slot s.calendar.claims then shotDecision s else s).laser.Ok := by
    split
    · dsimp only [shotDecision]
      split
      · exact ⟨h.level, h.timeout, h.timeoutBound, h.cause, h.duds, h.target, h.levelBound, h.inhibit⟩
      · rename_i hr
        have hc := withholdReason_charged s hr
        dsimp only [trigger]
        split
        · exact h
        · have h2 := h.timeout; have h4 := h.cause
          constructor <;> simp_all [h.duds, h.target]
    · exact h
  dsimp only [raiseSlotStart]
  split
  · simpa using this
  · exact this

theorem enterRunning_laserOk (s : State) (h : s.laser.Ok) : (enterRunning s).laser.Ok := by
  simp only [enterRunning, banksEnterLive_frame]
  exact driverEntersRunning_laserOk _ (by simpa using h)

theorem leaveRunning_laserOk (s : State) (h : s.laser.Ok) : (leaveRunning s).laser.Ok := by
  dsimp only [leaveRunning]
  split
  · simpa using Laser.leaveRunning_laserOk _ h
  · exact h

theorem enterHalted_laserOk (s : State) (h : s.laser.Ok) : (enterHalted s).laser.Ok := by
  dsimp only [enterHalted]
  split
  · simpa using leaveRunning_laserOk s h
  · simpa using h

theorem leaveForNumbering_laserOk (s : State) (h : s.laser.Ok) : (leaveForNumbering s).laser.Ok := by
  dsimp only [leaveForNumbering]
  split
  · simpa using leaveRunning_laserOk s h
  · exact h

theorem numberingTakes_laserOk (n : StationNo) (x : Option Serial) (s : State) (h : s.laser.Ok) :
    (numberingTakes n x s).laser.Ok := by
  dsimp only [numberingTakes]
  repeat' split
  all_goals try (simpa using h)
  dsimp only [yieldNumber]
  repeat' split
  · exact leaveForNumbering_laserOk _ (by simpa using h)
  · simpa using h
  · exact h
  · exact enterHalted_laserOk _ h

theorem numberingBoundary_laserOk (s : State) (h : s.laser.Ok) : (numberingBoundary s).laser.Ok := by
  dsimp only [numberingBoundary, holdOffEnds]
  repeat' split
  all_goals first
    | exact enterRunning_laserOk _ (by simpa using h)
    | simpa using h

theorem cycleBoundary_laserOk (s : State) (h : s.laser.Ok) : (cycleBoundary s).laser.Ok := by
  dsimp only [cycleBoundary]
  simp only [State.laser_mapReq]
  apply numberingBoundary_laserOk
  simpa using Laser.boundary_laserOk _ h

theorem takeNotice_laserOk (n : StationNo) (f : NoticeFields) (s : State) (h : s.laser.Ok) :
    (takeNotice n f s).laser.Ok := by
  apply numberingTakes_laserOk
  dsimp only [measure, stepTimer]
  repeat' split
  all_goals first
    | (simpa using h)
    | (simp only [slip_frame]; apply cycleBoundary_laserOk; simpa using h)

theorem takeFrame_laserOk (f : Frame) (s : State) (h : s.laser.Ok) : (takeFrame f s).laser.Ok := by
  dsimp only [takeFrame]
  split
  · split
    · exact numberingTakes_laserOk _ _ _ h
    · exact h
  · split
    · exact takeNotice_laserOk _ _ _ h
    · exact h
  · split
    · exact numberingTakes_laserOk _ _ _ (by simpa using h)
    · exact h
  · simpa using h
  · exact h
  · simpa using h
  · dsimp only [takeRestart]
    repeat' split
    all_goals first
      | (simpa using h)
      | exact Laser.restart_laserOk _ h

theorem takeRestart_laserOk (x y : Byte) (s : State) (h : s.laser.Ok) : (takeRestart x y s).laser.Ok := by
  dsimp only [takeRestart]
  repeat' split
  all_goals first
    | (simpa using h)
    | exact Laser.restart_laserOk _ h

theorem loadDone_laserOk (r : List Byte) (s : State) (h : s.laser.Ok) : (loadDone r s).laser.Ok := by
  dsimp only [loadDone]
  split
  · split
    · simpa [loadAuto, takeRecord] using recomputeTarget_laserOk _ (by simpa using h)
    · dsimp only [loadFixed]
      split
      · apply enterHalted_laserOk; simpa [takeRecord] using recomputeTarget_laserOk _ (by simpa using h)
      · apply enterRunning_laserOk; simpa [takeRecord] using recomputeTarget_laserOk _ (by simpa using h)
  · simpa [loadInvalid] using recomputeTarget_laserOk _ (by simpa using h)

theorem tick_laserOk (s : State) (h : s.laser.Ok) : (tick s).laser.Ok := by
  simp only [tick, lineTick_frame]
  have h1 : (windowTick (convertTick s)).laser.Ok := by
    simp only [windowTick]
    repeat' split
    · simpa using h
    · apply windowEnd_laserOk; simpa using h
    · simpa using h
  simp only [advance]
  repeat' split
  · apply raiseSlotStart_laserOk; apply cycleBoundary_laserOk; simpa using h1
  · apply raiseSlotStart_laserOk; simpa using h1
  · simpa using h1

end Sys2Proof.Machine
end

