-- ==== Sys2Proof/Laws/Headroom.lean ====
section
/-! SUPPORT. Only a trigger brings the driver to FIRED, and a trigger leaves room for the greatest reading (R48, R59). -/

namespace Sys2Proof.Machine

/-- Headroom of a driver record and an exposure monitor. -/
def HeadroomOf (l : Laser) (e : Exposure) : Prop := l.driver = .fired → e.total + e.current + 255 ≤ e.limit

theorem boundary_fired (l : Laser) (h : l.boundary.driver = .fired) : l.driver = .fired := by
  simp only [Laser.boundary] at h; repeat' split at h
  all_goals simp_all [Laser.enterFault]

theorem leave_fired (l : Laser) (h : l.leaveRunning.driver = .fired) : l.driver = .fired := by
  simp only [Laser.leaveRunning] at h; repeat' split at h
  all_goals simp_all [Laser.bleed]

theorem recomputeTarget_fired (s : State) : (recomputeTarget s).laser.driver = s.laser.driver := rfl

theorem chargeOrIdle_fired (s : State) : (chargeOrIdle s).laser.driver ≠ .fired := by
  simp only [chargeOrIdle]; split <;> simp [Laser.beginCharging, Laser.bleed]

theorem enters_fired (s : State) (h : (driverEntersRunning s).laser.driver = .fired) : s.laser.driver = .fired := by
  simp only [driverEntersRunning] at h; split at h
  · simp [Laser.beginCharging] at h
  · exact h

theorem band_fired (b : Band) (s : State) (h : (bandReport b s).laser.driver = .fired) : s.laser.driver = .fired := by
  simp only [bandReport, driverAtBandChange] at h
  repeat' split at h
  all_goals first
    | exact absurd h (chargeOrIdle_fired _)
    | simp_all [recomputeTarget_fired, Laser.beginCharging, Laser.bleed]

theorem charge_fired (s : State) (h : (chargeReport s).laser.driver = .fired) : s.laser.driver = .fired := by
  simp only [chargeReport] at h
  repeat' split at h
  all_goals first
    | exact absurd h (chargeOrIdle_fired _)
    | simp_all [Laser.beginCharging, Laser.bleed]

theorem dud_fired (s : State) : (dudReading s).laser.driver ≠ .fired := by
  simp only [dudReading, completeShot_frame, driverAfterDud]
  repeat' split
  all_goals first
    | exact chargeOrIdle_fired _
    | simp [Laser.enterFault]

theorem taking_fired (code : Nat) (s : State) : (takeReading code s).laser.driver ≠ .fired := by
  simp only [takeReading]
  repeat' split
  · exact dud_fired _
  · simp only [shotReading, completeShot_frame]; exact chargeOrIdle_fired _
  · simp only [strayReading]; split <;> simp_all [Laser.enterFault]

theorem window_fired (s : State) (h : (windowEnd s).laser.driver = .fired) : s.laser.driver = .fired := by
  simp only [windowEnd] at h
  split at h
  · exact absurd h (dud_fired _)
  · exact h

theorem enterRunning_fired (s : State) (h : (enterRunning s).laser.driver = .fired) : s.laser.driver = .fired := by
  simp only [enterRunning, banksEnterLive_frame] at h
  simpa using enters_fired _ h

theorem leaveRunning_fired (s : State) (h : (leaveRunning s).laser.driver = .fired) : s.laser.driver = .fired := by
  simp only [leaveRunning] at h; split at h
  · exact leave_fired _ (by simpa using h)
  · exact h

theorem enterHalted_fired (s : State) (h : (enterHalted s).laser.driver = .fired) : s.laser.driver = .fired := by
  simp only [enterHalted] at h; split at h
  · exact leaveRunning_fired s (by simpa using h)
  · simpa using h

theorem takes_fired (n : StationNo) (x : Option Serial) (s : State)
    (h : (numberingTakes n x s).laser.driver = .fired) : s.laser.driver = .fired := by
  simp only [numberingTakes] at h
  repeat' split at h
  all_goals try (simpa using h)
  simp only [yieldNumber] at h
  repeat' split at h
  · simp only [leaveForNumbering] at h
    split at h
    · simp only [banksLeaveLive_frame, setStation_frame] at h; simpa using leaveRunning_fired _ h
    · simpa using h
  · simpa using h
  · exact h
  · exact enterHalted_fired _ h

theorem numberingBoundary_fired (s : State) (h : (numberingBoundary s).laser.driver = .fired) :
    s.laser.driver = .fired := by
  simp only [numberingBoundary, holdOffEnds] at h
  repeat' split at h
  all_goals first
    | (simpa using h; done)
    | (simpa using enterRunning_fired _ h)

theorem cycleBoundary_fired (s : State) (h : (cycleBoundary s).laser.driver = .fired) :
    s.laser.driver = .fired := by
  simp only [cycleBoundary, State.laser_mapReq] at h
  have := numberingBoundary_fired _ h
  exact boundary_fired _ (by simpa using this)

theorem takeNotice_fired (n : StationNo) (f : NoticeFields) (s : State)
    (h : (takeNotice n f s).laser.driver = .fired) : s.laser.driver = .fired := by
  have := takes_fired _ _ _ h
  simp only [measure, stepTimer] at this
  repeat' split at this
  all_goals first
    | (simpa using this; done)
    | (simp only [slip_frame] at this; simpa using cycleBoundary_fired _ this)

theorem takeRestart_fired (x y : Byte) (s : State) (h : (takeRestart x y s).laser.driver = .fired) :
    s.laser.driver = .fired := by
  simp only [takeRestart] at h
  repeat' split at h
  all_goals first
    | (simpa using h; done)
    | exact leave_fired _ h

theorem takeFrame_fired (f : Frame) (s : State) (h : (takeFrame f s).laser.driver = .fired) :
    s.laser.driver = .fired := by
  simp only [takeFrame] at h
  repeat' split at h
  all_goals first
    | (simpa using h; done)
    | exact takes_fired _ _ _ h
    | exact takeNotice_fired _ _ _ h
    | exact takeRestart_fired _ _ _ h
    | (simpa using takes_fired _ _ _ h)

theorem raise_headroom (slot : Slot) (s : State) (h : HeadroomOf s.laser s.expo) :
    HeadroomOf (raiseSlotStart slot s).laser (raiseSlotStart slot s).expo := by
  have : HeadroomOf (if ownSettled slot s.calendar.claims then shotDecision s else s).laser s.expo := by
    split
    · simp only [shotDecision]
      split
      · simpa [HeadroomOf] using h
      · rename_i hr; intro _; exact withholdReason_budget s hr
    · exact h
  have he : (if ownSettled slot s.calendar.claims then shotDecision s else s).expo = s.expo := by split <;> simp
  simp only [raiseSlotStart]
  split
  · simp only [State.laser_mapTimer, State.expo_mapTimer, he]; exact this
  · rw [he]; exact this

theorem HeadroomOf.rotate (l : Laser) (e : Exposure) (h : HeadroomOf l e) (ho : e.Ok) : HeadroomOf l e.rotate := by
  intro hf
  have := e.rotate_total ho
  have := h hf
  have hl : e.rotate.limit = e.limit := rfl
  omega

theorem HeadroomOf.mono (l l' : Laser) (e : Exposure) (h : HeadroomOf l e) (hf : l'.driver = .fired → l.driver = .fired) : HeadroomOf l' e :=
  fun x => h (hf x)

theorem tick_headroom (s : State) (h : HeadroomOf s.laser s.expo) (ho : s.expo.Ok) : HeadroomOf (tick s).laser (tick s).expo := by
  simp only [tick, lineTick_frame]
  have h1 : HeadroomOf (windowTick (convertTick s)).laser s.expo := by
    simp only [windowTick]
    repeat' split
    · simpa using h
    · exact HeadroomOf.mono _ _ _ h (fun x => by simpa using window_fired _ x)
    · simpa using h
  simp only [advance]
  repeat' split
  · apply raise_headroom; rw [cycleBoundary_expo]; 
    simp only [State.expo_mapTimer, windowTick_frame, convertTick_frame]
    exact HeadroomOf.rotate _ _ (HeadroomOf.mono _ _ _ h1 (fun x => by simpa using cycleBoundary_fired _ x)) ho
  · apply raise_headroom; simpa using h1
  · simpa using h1

end Sys2Proof.Machine
end

