-- ==== Sys2Proof/Laws/Line.lean ====
section
/-! SUPPORT. Every operation keeps the line record (Safety: Line.Ok; R150..R157). -/

namespace Sys2Proof.Machine

theorem Line.queueClaim_ok (n : StationNo) (l : Line) (h : l.Ok) : (l.queueClaim n).Ok :=
  ⟨h.attempt, h.run, h.idle, h.waiting, h.recalled, h.trying, by rintro x ⟨⟩; simp, h.notice, h.report, h.status⟩
theorem Line.queueNotice_ok (l : Line) (h : l.Ok) : l.queueNotice.Ok :=
  ⟨h.attempt, h.run, h.idle, h.waiting, h.recalled, h.trying, h.claim, by rintro x ⟨⟩; decide, h.report, h.status⟩
theorem Line.queueReport_ok (r : ReportFields) (l : Line) (h : l.Ok) : (l.queueReport r).Ok :=
  ⟨h.attempt, h.run, h.idle, h.waiting, h.recalled, h.trying, h.claim, h.notice, by rintro x ⟨⟩; simp, h.status⟩
theorem Line.queueStatus_ok (r : StatusReply) (l : Line) (h : l.Ok) : (l.queueStatus r).Ok :=
  ⟨h.attempt, h.run, h.idle, h.waiting, h.recalled, h.trying, h.claim, h.notice, h.report, by rintro x ⟨⟩; simp⟩

/-- Recalling slots touches the recalled set alone. -/
theorem Line.recall_eq (set : SlotSet) (l : Line) :
    l.recall set = { l with recalled := (l.recall set).recalled } := by
  simp only [Line.recall]; split <;> rfl

/-- Without a NOTICE on the line nothing is recalled (R32). -/
theorem Line.recall_none (set : SlotSet) (l : Line) (h : l.attempt.any Attempt.isNotice = false) :
    (l.recall set).recalled = l.recalled := by
  simp [Line.recall, h]

theorem Line.recall_ok (set : SlotSet) (l : Line) (h : l.Ok) : (l.recall set).Ok := by
  rw [Line.recall_eq]
  exact ⟨h.attempt, h.run, h.idle, h.waiting, fun hn => (l.recall_none set hn).trans (h.recalled hn), h.trying, h.claim,
    h.notice, h.report, h.status⟩

/-- An attempt changed in its withdrawn mark alone, and a set that keeps the counts. -/
theorem Line.withdraw_ok (f : Attempt → Attempt) (set : TransmitSet) (c : LineCounters) (l : Line) (h : l.Ok)
    (hf : ∀ a, (f a).collisions = a.collisions ∧ (f a).isNotice = a.isNotice) (h1 : queuedOk set.claim)
    (h2 : queuedOk set.notice) (h3 : queuedOk set.report) (h4 : queuedOk set.status) :
    Line.Ok { l with set := set, attempt := l.attempt.map f, counters := c } := by
  refine ⟨by simpa using h.attempt, h.run, h.idle, h.waiting, fun hn => h.recalled ?_, ?_, h1, h2, h3, h4⟩
  · cases ha : l.attempt with
    | none => rfl
    | some a => rw [ha] at hn; simpa [(hf a).2] using hn
  · intro a ha
    rw [Option.map_eq_some_iff] at ha
    obtain ⟨b, hb, rfl⟩ := ha
    rw [(hf b).1]; exact h.trying b hb

theorem queuedOk_none {α : Type} : queuedOk (none : Option (Queued α)) := by rintro x ⟨⟩

theorem Line.withdrawNotice_ok (l : Line) (h : l.Ok) : l.withdrawNotice.Ok := by
  have hr := l.recall_ok (BitVec.allOnes 32) h
  have he := l.recall_eq (BitVec.allOnes 32)
  have := Line.withdraw_ok (fun a => { a with withdrawn := a.withdrawn || a.isNotice }) { l.set with notice := none }
    l.counters _ hr (fun _ => ⟨rfl, rfl⟩) h.claim queuedOk_none h.report h.status
  rw [he] at this
  simp only [Line.withdrawNotice]; rw [he]; exact this
theorem Line.withdrawClaim_ok (l : Line) (h : l.Ok) : l.withdrawClaim.Ok :=
  Line.withdraw_ok _ _ l.counters l h (fun _ => ⟨rfl, rfl⟩) queuedOk_none h.notice h.report h.status
theorem Line.restart_ok (l : Line) (h : l.Ok) : l.restart.Ok := by
  have hr := l.recall_ok (BitVec.allOnes 32) h
  have he := l.recall_eq (BitVec.allOnes 32)
  have := Line.withdraw_ok (fun a => { a with withdrawn := true }) TransmitSet.none
    LineCounters.zero _ hr (fun _ => ⟨rfl, rfl⟩) queuedOk_none queuedOk_none queuedOk_none queuedOk_none
  rw [he] at this
  simp only [Line.restart]; rw [he]; exact this

theorem Line.frameEnd_ok (l : Line) (h : l.Ok) (ha : l.attempt = none) : l.frameEnd.Ok :=
  ⟨by simp [Line.frameEnd, ha], by simp [Line.frameEnd], by simp [Line.frameEnd], by simp [Line.frameEnd], h.recalled,
    h.trying, h.claim, h.notice, h.report, h.status⟩

theorem no_attempt (l : Line) (h : l.Ok) (hs : l.state ≠ .sending) : l.attempt = none := by
  by_contra hc
  exact hs (h.attempt.1 (Option.isSome_iff_ne_none.2 hc))

theorem Line.receiveEnd_ok (l : Line) (h : l.Ok) : l.receiveEnd.Ok := by
  simp only [Line.receiveEnd]
  split
  · exact h
  · rename_i hs; exact l.frameEnd_ok h (no_attempt l h hs)

/-- The counters, the latched position, the receive buffer and the free line bits are bound by nothing. -/
theorem Line.counters_ok (l : Line) (c : LineCounters) (p : Position) (x : List Bool) (n : Nat) (h : l.Ok) :
    { l with counters := c, latched := p, rx := x, heard := n }.Ok :=
  ⟨h.attempt, h.run, h.idle, h.waiting, h.recalled, h.trying, h.claim, h.notice, h.report, h.status⟩

theorem Line.countDispatched_ok (l : Line) (h : l.Ok) : l.countDispatched.Ok :=
  Line.counters_ok _ _ _ _ _ (l.receiveEnd_ok h)
theorem Line.discard_ok (r : Discard) (l : Line) (h : l.Ok) : (l.discard r).Ok :=
  Line.counters_ok _ _ _ _ _ (l.receiveEnd_ok h)
theorem State.lineAfterFrame_ok (s : State) (h : s.line.Ok) : s.lineAfterFrame.Ok :=
  Line.counters_ok _ _ _ _ _ (s.line.countDispatched_ok h)
theorem dispatched_lineOk (s : State) (h : s.line.Ok) : (dispatched s).line.Ok := s.lineAfterFrame_ok h
theorem discarded_lineOk (r : Discard) (s : State) (h : s.line.Ok) : (discarded r s).line.Ok := s.line.discard_ok r h
theorem latchAt_lineOk (n : Nat) (s : State) (h : s.line.Ok) : (latchAt n s).line.Ok :=
  Line.counters_ok s.line s.line.counters _ s.line.rx s.line.heard h
theorem latch_lineOk (s : State) (h : s.line.Ok) : (latch s).line.Ok := latchAt_lineOk _ s h

theorem Line.transmitted_ok (l : Line) (h : l.Ok) : l.transmitted.Ok :=
  ⟨by simp [Line.transmitted, Line.frameEnd], by simp [Line.transmitted, Line.frameEnd],
   by simp [Line.transmitted, Line.frameEnd], by simp [Line.transmitted, Line.frameEnd],
   by simp [Line.transmitted, Line.frameEnd], by rintro a ⟨⟩, h.claim, h.notice, h.report, h.status⟩

theorem Line.returnFrame_ok (a : Attempt) (l : Line) (h : l.Ok) (ha : a.collisions < 8) : (l.returnFrame a).Ok := by
  simp only [Line.returnFrame]
  repeat' split
  all_goals first
    | exact h
    | exact Line.counters_ok _ _ _ _ _ h
    | exact ⟨h.attempt, h.run, h.idle, h.waiting, h.recalled, h.trying, by rintro x ⟨⟩; exact ha, h.notice, h.report,
        h.status⟩
    | exact ⟨h.attempt, h.run, h.idle, h.waiting, h.recalled, h.trying, h.claim, by rintro x ⟨⟩; exact ha, h.report,
        h.status⟩
    | exact ⟨h.attempt, h.run, h.idle, h.waiting, h.recalled, h.trying, h.claim, h.notice, by rintro x ⟨⟩; exact ha,
        h.status⟩
    | exact ⟨h.attempt, h.run, h.idle, h.waiting, h.recalled, h.trying, h.claim, h.notice, h.report,
        by rintro x ⟨⟩; exact ha⟩

theorem Line.stop_ok (l : Line) (h : l.Ok) (x : List Bool) (n : Nat) (hn : n ≤ 11) (c : LineCounters) :
    Line.Ok { l with state := .receiving, attempt := none, recalled := 0, run := n, rx := x, counters := c } :=
  ⟨by simp, hn, by simp, by simp, by simp, by rintro a ⟨⟩, h.claim, h.notice, h.report, h.status⟩

theorem Line.loseArbitration_ok (bit : Nat) (a : Attempt) (l : Line) (h : l.Ok) (ha : l.attempt = some a) :
    (l.loseArbitration bit a).Ok :=
  Line.returnFrame_ok _ _ (Line.stop_ok l h _ _ (by decide) _) (h.trying a ha)

theorem Attempt.runAt_le (bit : Nat) (a : Attempt) : a.runAt bit ≤ 11 := by
  simp only [Attempt.runAt, trailingRun, Config.idleGap]; split <;> omega

theorem Line.stopSending_ok (bit : Nat) (a : Attempt) (l : Line) (h : l.Ok) : (l.stopSending bit a).Ok :=
  Line.stop_ok l h _ _ (a.runAt_le bit) _

theorem Line.phase_ok (l : Line) (k : Fin 4) (h : l.Ok) : { l with bitPhase := k }.Ok :=
  ⟨h.attempt, h.run, h.idle, h.waiting, h.recalled, h.trying, h.claim, h.notice, h.report, h.status⟩

theorem Line.recessiveBit_ok (l : Line) (h : l.Ok) (hs : l.state = .waitIdle ∨ l.state = .idle) :
    l.recessiveBit.Ok := by
  have hno := no_attempt l h (by rcases hs with hs | hs <;> simp [hs])
  have hi := h.idle
  refine ⟨?_, by simp [Line.recessiveBit, Config.idleGap], ?_, ?_, h.recalled, h.trying, h.claim, h.notice, h.report,
    h.status⟩
  · simp only [Line.recessiveBit, hno]
    rcases hs with hs | hs <;> simp [hs]
    split <;> simp
  · simp only [Line.recessiveBit, Config.idleGap]
    rcases hs with hs | hs
    · simp [hs]; try omega
    · simp [hi hs]
  · simp only [Line.recessiveBit, Config.idleGap]
    rcases hs with hs | hs <;> simp [hs]

/-- A bit of the frame on the line, in SENDING or RECEIVING. -/
theorem Line.takeBit_ok (b : Bool) (l : Line) (h : l.Ok) (hs : l.state = .sending ∨ l.state = .receiving) :
    (l.takeBit b).Ok := by
  refine ⟨h.attempt, ?_, ?_, ?_, h.recalled, h.trying, h.claim, h.notice, h.report, h.status⟩
  · simp only [Line.takeBit, Config.idleGap]; split <;> omega
  · rcases hs with hs | hs <;> simp [Line.takeBit, hs]
  · rcases hs with hs | hs <;> simp [Line.takeBit, hs]

theorem Line.sentBit_ok (l : Line) (h : l.Ok) (hs : l.state = .sending) : l.sentBit.Ok := by
  simp only [Line.sentBit]
  repeat' split
  · exact h
  · exact l.takeBit_ok _ h (.inl hs)
  · exact h

theorem Line.heardBit_ok (l : Line) (h : l.Ok) (hs : l.state = .receiving) : l.heardBit.Ok := by
  have := l.takeBit_ok (Config.lineBit l.heard) h (.inr hs)
  exact Line.counters_ok _ _ (l.takeBit (Config.lineBit l.heard)).latched _ _ this

theorem nextAttempt_ok (s : State) (h : s.line.Ok) (a : Attempt) (set : TransmitSet)
    (hn : nextAttempt s = some (a, set)) :
    a.collisions < 8 ∧ queuedOk set.claim ∧ queuedOk set.notice ∧ queuedOk set.report ∧ queuedOk set.status := by
  have h1 := h.claim; have h2 := h.notice; have h3 := h.report; have h4 := h.status
  have hnone : ∀ α, queuedOk (none : Option (Queued α)) := by rintro α x ⟨⟩
  simp only [nextAttempt] at hn
  repeat' split at hn
  all_goals cases hn
  · rename_i q hq; exact ⟨h1 q hq, hnone _, h2, h3, h4⟩
  · rename_i q hq; exact ⟨h2 q hq, h1, hnone _, h3, h4⟩
  · rename_i q hq; exact ⟨h3 q hq, h1, h2, hnone _, h4⟩
  · rename_i q hq; exact ⟨h4 q hq, h1, h2, h3, hnone _⟩

theorem startAttempt_lineOk (s : State) (h : s.line.Ok) : (startAttempt s).line.Ok := by
  simp only [startAttempt]
  split
  · rename_i hg
    split
    · rename_i a set hn
      obtain ⟨h0, h1, h2, h3, h4⟩ := nextAttempt_ok s h a set hn
      refine ⟨by simp, by simp, by simp, by simp, fun _ => ?_, by rintro x ⟨⟩; exact h0, h1, h2, h3, h4⟩
      exact h.recalled (by simp [hg.2])
    · exact h
  · exact h

/-- One bit time of the line keeps its record (R150, R153). -/
theorem bitTick_lineOk (s : State) (h : s.line.Ok) : (bitTick s).line.Ok := by
  simp only [bitTick]
  split
  · rename_i hs; exact startAttempt_lineOk _ (s.line.recessiveBit_ok h (.inl hs))
  · rename_i hs; exact startAttempt_lineOk _ (s.line.recessiveBit_ok h (.inr hs))
  · rename_i hs; exact s.line.sentBit_ok h hs
  · rename_i hs; exact s.line.heardBit_ok h hs

theorem lineTick_lineOk (s : State) (h : s.line.Ok) : (lineTick s).line.Ok := by
  simp only [lineTick]
  split
  · exact bitTick_lineOk _ (s.line.phase_ok 0 h)
  · exact s.line.phase_ok _ h

theorem lineOk_of (s t : State) (h : s.line.Ok) (h1 : t.line = s.line) : t.line.Ok := by rw [h1]; exact h

theorem choose_lineOk (s : State) (h : s.line.Ok) : (choose s).line.Ok := by
  simp only [choose]; split
  · exact Line.queueClaim_ok _ _ h
  · exact h

theorem qn_lineOk (s : State) (h : s.line.Ok) : (queueNotice s).line.Ok := Line.queueNotice_ok _ h

theorem enterRunning_lineOk (s : State) (h : s.line.Ok) : (enterRunning s).line.Ok := by
  simp only [enterRunning, banksEnterLive_frame, driverEntersRunning_frame, calendarEntersRunning]
  exact qn_lineOk _ h

theorem leaveRunning_lineOk (s : State) (h : s.line.Ok) : (leaveRunning s).line.Ok := by
  simp only [leaveRunning]; split
  · exact Line.withdrawNotice_ok _ h
  · exact h

theorem halted_lineOk (s : State) (h : s.line.Ok) : (enterHalted s).line.Ok := by
  simp only [enterHalted]; split
  · simpa using leaveRunning_lineOk s h
  · simpa using h

theorem hold_lineOk (s : State) (h : s.line.Ok) : (holdOffEnds s).line.Ok := by
  simp only [holdOffEnds]
  (repeat' split) <;> first
    | exact h
    | (apply enterRunning_lineOk; simpa using h)
    | (simpa using h)

theorem nb_lineOk (s : State) (h : s.line.Ok) : (numberingBoundary s).line.Ok := by
  simp only [numberingBoundary]
  (repeat' split) <;> first
    | exact h
    | exact hold_lineOk s h
    | exact choose_lineOk s h

theorem cdb_lineOk (s : State) (h : s.line.Ok) : (countdownBoundary s).line.Ok := by
  simp only [countdownBoundary, countdownExpires]
  (repeat' split) <;> first
    | exact h
    | exact qn_lineOk _ h

theorem cb_lineOk (s : State) (h : s.line.Ok) : (cycleBoundary s).line.Ok := by
  simp only [cycleBoundary, State.line_mapReq]
  apply nb_lineOk
  simp only [banksBoundary_frame, calendarBoundary]
  apply cdb_lineOk; simpa using h

theorem takes_lineOk (n : StationNo) (x : Option Serial) (s : State) (h : s.line.Ok) : (numberingTakes n x s).line.Ok := by
  have hy : (yieldNumber n s).line.Ok := by
    simp only [yieldNumber]
    repeat' split
    · simp only [leaveForNumbering]
      split
      · simp only [banksLeaveLive_frame, setStation_frame]
        apply leaveRunning_lineOk
        apply Line.withdrawClaim_ok; simpa using h
      · apply Line.withdrawClaim_ok; simpa using h
    · exact h
    · exact h
    · exact halted_lineOk s h
  have hj : (joinTaken n s).line.Ok := h
  have hc := choose_lineOk _ hj
  simp only [numberingTakes]
  (repeat' split) <;> first
    | exact h
    | exact hy
    | exact hj
    | exact hc
    | exact Line.queueClaim_ok _ _ h

theorem release_lineOk (j : Nat) (n : StationNo) (set : SlotSet) (s : State) (h : s.line.Ok) :
    (releaseConflicts j n set s).line.Ok := by
  simp only [releaseConflicts]
  (repeat' split) <;> first
    | exact h
    | (simp only [markSuspect_frame]; exact Line.recall_ok _ _ h)

theorem calN_lineOk (n : StationNo) (f : NoticeFields) (s : State) (h : s.line.Ok) : (calendarTakesNotice n f s).line.Ok := by
  simp only [calendarTakesNotice, activeAfterNotice]
  (repeat' split) <;> first
    | exact h
    | exact qn_lineOk _ h
    | exact release_lineOk _ _ _ _ h
    | (apply qn_lineOk; exact release_lineOk _ _ _ _ h)
    | (apply qn_lineOk; simp only [runClaiming_frame]; exact release_lineOk _ _ _ _ h)
    | (simp only [runClaiming_frame]; exact release_lineOk _ _ _ _ h)

theorem notice_lineOk (n : StationNo) (f : NoticeFields) (s : State) (h : s.line.Ok) :
    (takeNotice n f s).line.Ok := by
  apply takes_lineOk
  have h2 : (calendarTakesNotice n f (hearNotice n s)).line.Ok := calN_lineOk _ _ _ (by simpa using h)
  generalize calendarTakesNotice n f (hearNotice n s) = a at *
  simp only [Machine.measure, stepTimer]
  (repeat' split) <;> first
    | exact h2
    | (simp only [slip_frame]; exact cb_lineOk _ h2)
    | (simpa using h2)

theorem restart_lineOk (x y : Byte) (s : State) (h : s.line.Ok) : (takeRestart x y s).line.Ok := by
  simp only [takeRestart]
  (repeat' split) <;> first
    | exact h
    | (simpa using h; done)
    | exact qn_lineOk _ h
    | exact Line.restart_ok _ h

theorem query_lineOk (a : Sender) (x y : Byte) (s : State) (h : s.line.Ok) : (takeQuery a x y s).line.Ok := by
  simp only [takeQuery]; split
  · exact Line.queueStatus_ok _ _ h
  · exact h

theorem load_lineOk (r : List Byte) (s : State) (h : s.line.Ok) : (loadDone r s).line.Ok := by
  simp only [loadDone]
  (repeat' split)
  · simpa [loadAuto] using h
  · simp only [loadFixed]
    split
    · apply halted_lineOk; simpa using h
    · apply enterRunning_lineOk; simpa using h
  · simpa [loadInvalid] using h

theorem frame_lineOk (f : Frame) (s : State) (h : s.line.Ok) : (takeFrame f s).line.Ok := by
  simp only [takeFrame]
  (repeat' split) <;> first
    | exact h
    | exact takes_lineOk _ _ _ h
    | exact notice_lineOk _ _ _ h
    | exact restart_lineOk _ _ _ h
    | exact query_lineOk _ _ _ _ h
    | (apply takes_lineOk; simpa using h)
    | (simpa using h)

theorem own_lineOk (s : State) (h : s.line.Ok) : (ownFrameEnds s).line.Ok := by
  have ht : ((latch s).mapLine Line.transmitted).line.Ok := Line.transmitted_ok _ (latch_lineOk s h)
  simp only [ownFrameEnds]
  generalize (latch s).mapLine Line.transmitted = m at ht
  split
  · simp only [tellTransmitted, noticeTransmitted, releasingEnds]
    (repeat' split) <;> first
      | exact ht
      | exact qn_lineOk _ ht
      | (simpa using ht)
  · exact h

end Sys2Proof.Machine
end

