-- ==== Sys2Proof/Laws/Station.lean ====
section
/-! SUPPORT. Every operation keeps the links between the station state, the numbering unit, the calendar and the driver (Safety: State.StationOk; R24, R42, R163..R171). -/

namespace Sys2Proof.Machine

/-- The links of State.StationOk, the length of the own claim list apart. -/
structure StationCore (s : State) : Prop where
  number : s.num.own.isSome = true ↔ s.num.state = .numbered
  fixed : s.num.mode = .fixed → s.num.state = .numbered
  live : s.loader.station = .running ∨ s.loader.station = .haltedDuplicate → s.num.state = .numbered
  rolling : s.loader.station = .numbering → s.num.state ≠ .numbered ∧ s.num.mode = .auto
  unconfigured : s.loader.station = .unconfigured → s.num.mode = .auto
  halted : s.loader.station = .haltedDuplicate → s.num.mode = .fixed
  calendar : s.calendar.state = .inactive ↔ s.loader.station ≠ .running
  driver : s.loader.station ≠ .running → s.laser.driver ≠ .charging ∧ s.laser.driver ≠ .charged
  holdOff : s.num.holdOff ≠ none → s.num.state = .claiming ∧ s.num.wanted ≠ none
  listen : s.num.listen ≠ none → s.num.state ≠ .numbered ∧ s.num.wanted = none

/-- The length of the own claim list (R23, R34). -/
def PositionsOk (s : State) : Prop :=
  s.calendar.claims.length = s.cfgNat StationConfig.shots

theorem stationOk_iff (s : State) : s.StationOk ↔ StationCore s ∧ PositionsOk s :=
  ⟨fun ⟨a, b, c, d, e, f, g, h, i, j, k⟩ => ⟨⟨a, b, c, d, e, f, g, i, j, k⟩, h⟩,
   fun ⟨⟨a, b, c, d, e, f, g, i, j, k⟩, h⟩ => ⟨a, b, c, d, e, f, g, h, i, j, k⟩⟩

def Uncharged (d : Driver) : Prop := d ≠ .charging ∧ d ≠ .charged

theorem StationCore.of (s t : State) (h : StationCore s) (h1 : t.num = s.num) (h2 : t.loader.station = s.loader.station)
    (h3 : t.calendar.state = .inactive ↔ s.calendar.state = .inactive)
    (h4 : s.loader.station ≠ .running → Uncharged s.laser.driver → Uncharged t.laser.driver) : StationCore t := by
  constructor
  · rw [h1]; exact h.number
  · rw [h1]; exact h.fixed
  · rw [h1, h2]; exact h.live
  · rw [h1, h2]; exact h.rolling
  · rw [h1, h2]; exact h.unconfigured
  · rw [h1, h2]; exact h.halted
  · rw [h2, h3]; exact h.calendar
  · rw [h2]; intro hn; exact h4 hn (h.driver hn)
  · rw [h1]; exact h.holdOff
  · rw [h1]; exact h.listen

/-- The number unit changes where it holds no number and goes on holding none. -/
theorem StationCore.num (s t : State) (h : StationCore s) (h2 : t.loader.station = s.loader.station)
    (h3 : t.calendar.state = s.calendar.state) (h4 : t.laser = s.laser)
    (hn : s.num.state ≠ .numbered) (hn' : t.num.state ≠ .numbered) (ho : t.num.own = none)
    (hm : t.num.mode = s.num.mode) (hh : t.num.holdOff ≠ none → t.num.state = .claiming ∧ t.num.wanted ≠ none)
    (hli : t.num.listen ≠ none → t.num.wanted = none) : StationCore t := by
  constructor
  · rw [ho]; simp [hn']
  · rw [hm]; intro hx; exact absurd (h.fixed hx) hn
  · rw [h2]; intro hx; exact absurd (h.live hx) hn
  · rw [h2]; intro hx; exact ⟨hn', by rw [hm]; exact (h.rolling hx).2⟩
  · rw [h2, hm]; exact h.unconfigured
  · rw [h2, hm]; exact h.halted
  · rw [h2, h3]; exact h.calendar
  · rw [h2, h4]; exact h.driver
  · exact hh
  · intro hx; exact ⟨hn', hli hx⟩

theorem own_none (s : State) (h : StationCore s) (hn : s.num.state ≠ .numbered) : s.num.own = none := by
  by_contra hc
  exact hn (h.number.1 (Option.isSome_iff_ne_none.2 hc))

def StationSafe (s : State) : Prop := StationCore s ∧ CalSafe s.num.own s.calendar

theorem choose_own (s : State) : (choose s).num.own = s.num.own ∧ (choose s).num.mode = s.num.mode ∧
    (choose s).num.state ≠ .numbered ∧
    ((choose s).num.holdOff ≠ none → (choose s).num.state = .claiming ∧ (choose s).num.wanted ≠ none) ∧
    ((choose s).num.listen ≠ none → (choose s).num.wanted = none) := by
  simp only [choose]; split <;> simp [Numbering.enterListen]

theorem choose_stationSafe (s : State) (h : StationSafe s) (hn : s.num.state ≠ .numbered) : StationSafe (choose s) := by
  obtain ⟨h1, h2, h3, h4, h5⟩ := choose_own s
  refine ⟨StationCore.num s _ h.1 (by simp) (by simp) (by simp) hn h3 (h1.trans (own_none s h.1 hn)) h2 h4 h5, ?_⟩
  rw [h1]; simpa using h.2

theorem joinTaken_stationSafe (n : StationNo) (s : State) (h : StationSafe s) (hn : s.num.state ≠ .numbered) : StationSafe (joinTaken n s) :=
  ⟨StationCore.num s _ h.1 rfl rfl rfl hn hn (own_none s h.1 hn) rfl h.1.holdOff (fun x => (h.1.listen x).2), h.2⟩

theorem claims_empty (s : State) (h : StationSafe s) (hr : s.loader.station ≠ .running) (x : Claim) :
    some x ∉ s.calendar.claims :=
  h.2.list.inactive (by rw [h.1.calendar.2 hr]; simp) x

theorem enterRunning_stationSafe (s : State) (hc : CalSafe s.num.own s.calendar)
    (hi : s.calendar.state = .inactive) (hn : s.num.state = .numbered) (ho : s.num.own.isSome = true) (hh : s.num.holdOff = none) (hl : s.num.listen = none) : StationSafe (enterRunning s) := by
  have e1 : (enterRunning s).num = s.num := by simp
  have e2 : (enterRunning s).loader.station = .running := by
    simp [enterRunning, setStation]
  have e3 : (enterRunning s).calendar = (calendarEntersRunning (setStation .running s)).calendar := by
    simp [enterRunning]
  have e4 : (enterRunning s).calendar.state = .active := by
    rw [e3]; simp [calendarEntersRunning, queueNotice, runClaiming]
  refine ⟨?_, ?_⟩
  · constructor
    · rw [e1]; simp [hn, ho]
    · rw [e1]; simp [hn]
    · rw [e1]; simp [hn]
    · rw [e2]; simp
    · rw [e2]; simp
    · rw [e2]; simp
    · rw [e2, e4]; simp
    · rw [e2]; simp
    · rw [e1, hh]; simp
    · rw [e1, hl]; simp
  · rw [e1, e3]
    unfold calendarEntersRunning
    apply queueNotice_safe
    refine runClaiming_safe ((setStation .running s).mapCalendar fun c => { c with state := .active }) ?_ rfl
    exact CalSafe.emptied (c := s.calendar) hc.peers .active _ s.calendar.countdown
      (hc.list.inactive (by rw [hi]; simp))

theorem leaveRunning_driver (s : State) (h : StationCore s) : Uncharged (leaveRunning s).laser.driver := by
  simp only [leaveRunning]
  split
  · simp only [State.laser_mapLaser, calendarLeavesRunning_frame, Laser.leaveRunning]
    split
    · simp [Uncharged, Laser.bleed]
    · rename_i hd; simpa [Uncharged, not_or] using hd
  · rename_i hr
    exact h.driver (by simpa [State.running] using hr)

theorem leaveRunning_calendar (s : State) (h : StationSafe s) :
    (leaveRunning s).calendar.state = .inactive ∧ CalSafe s.num.own (leaveRunning s).calendar := by
  simp only [leaveRunning]
  split
  · refine ⟨by simp [calendarLeavesRunning], ?_⟩
    exact CalSafe.emptied (c := s.calendar) h.2.peers .inactive _ none (not_mem_emptied _)
  · rename_i hr
    exact ⟨h.1.calendar.2 (by simpa [State.running] using hr), h.2⟩

theorem enterHalted_stationSafe (s : State) (h : StationSafe s) (hn : s.num.state = .numbered) (hm : s.num.mode = .fixed)
    (hh : s.num.holdOff = none) (hl : s.num.listen = none) : StationSafe (enterHalted s) := by
  have e1 : (enterHalted s).num = s.num := by simp
  have e2 : (enterHalted s).loader.station = .haltedDuplicate := by
    simp only [enterHalted]; split <;> simp [setStation]
  have e3 : (enterHalted s).calendar.state = .inactive ∧ CalSafe s.num.own (enterHalted s).calendar := by
    simp only [enterHalted]
    split
    · simpa using leaveRunning_calendar s h
    · rename_i hr
      simp only [banksEnterLive_frame, setStation_frame]
      exact ⟨h.1.calendar.2 (by simp [State.live] at hr; exact hr.1), h.2⟩
  have e4 : Uncharged (enterHalted s).laser.driver := by
    simp only [enterHalted]
    split
    · simpa using leaveRunning_driver s h.1
    · rename_i hr
      simp only [banksEnterLive_frame, setStation_frame]
      exact h.1.driver (by simp [State.live] at hr; exact hr.1)
  refine ⟨?_, by rw [e1]; exact e3.2⟩
  constructor
  · rw [e1]; exact h.1.number
  · rw [e1]; simp [hn]
  · rw [e1]; simp [hn]
  · rw [e2]; simp
  · rw [e2]; simp
  · rw [e1, hm]; simp
  · rw [e2, e3.1]; simp
  · intro _; exact e4
  · rw [e1, hh]; simp
  · rw [e1, hl]; simp

theorem numbered_stopped (s : State) (h : StationCore s) (hn : s.num.state = .numbered) :
    s.num.holdOff = none ∧ s.num.listen = none := by
  constructor
  · by_contra hc; have := (h.holdOff hc).1; rw [hn] at this; simp at this
  · by_contra hc; exact (h.listen hc).1 hn

theorem claims_setOwn (own : Option StationNo) (s : State) :
    (setOwnNumber own s).calendar.claims = s.calendar.claims ∧
    (setOwnNumber own s).calendar.state = s.calendar.state := by
  cases own <;> simp [setOwnNumber]

theorem num_setOwn (own : Option StationNo) (s : State) :
    (setOwnNumber own s).num = { s.num with own := own } := by
  cases own <;> simp [setOwnNumber]

/-- No number: every clause of the own number holds, whatever the list. -/
theorem setOwnNone_safe (s : State) (h : CalSafe s.num.own s.calendar) :
    CalSafe none (setOwnNumber none s).calendar := by
  have he : (setOwnNumber none s).calendar = { s.calendar with
      peers := s.calendar.peers.map (fun e => if e.active none then e else e.silence) } := by
    simp [setOwnNumber]
  rw [he]
  have : ∀ e : PeerEntry, (if e.active none = true then e else e.silence) = e := by
    intro e; simp [PeerEntry.active]
  simp only [this, List.map_id']
  exact ⟨h.list, ⟨h.peers.few, h.peers.distinct, h.peers.entries, by simp⟩, by simp⟩

theorem yield_stationSafe (n : StationNo) (s : State) (h : StationSafe s) (hn : s.num.state = .numbered) : StationSafe (yieldNumber n s) := by
  simp only [yieldNumber]
  split
  · rename_i hauto
    have hmode : s.num.mode = .auto := by
      rcases hauto with ha | ha
      · exact ha
      · exact h.1.unconfigured ha
    have hnh : s.loader.station ≠ .haltedDuplicate := by
      intro hc; have := h.1.halted hc; rw [hmode] at this; simp at this
    generalize hm : State.mapLine Line.withdrawClaim (setOwnNumber none (s.mapNum fun u => { u with
      state := .claiming, taken := setInsert n.val 0, wanted := none, listen := some Config.listenPeriod,
      holdOff := none })) = m
    have mcal : m.calendar = (setOwnNumber none (s.mapNum fun u => { u with
      state := .claiming, taken := setInsert n.val 0, wanted := none, listen := some Config.listenPeriod,
      holdOff := none })).calendar := by subst hm; rfl
    have mnum : m.num = { s.num with
      state := .claiming, own := none, taken := setInsert n.val 0, wanted := none, listen := some Config.listenPeriod,
      holdOff := none } := by subst hm; simp [num_setOwn]
    have mload : m.loader = s.loader := by subst hm; simp
    have mlas : m.laser = s.laser := by subst hm; simp
    have mstate : m.calendar.state = s.calendar.state := by
      rw [mcal]; simp [claims_setOwn]
    have msafe : CalSafe none m.calendar := by
      rw [mcal]; exact setOwnNone_safe _ h.2
    simp only [leaveForNumbering]
    split
    · rename_i hr
      have e1 : (banksLeaveLive (setStation .numbering (leaveRunning m))).num = m.num := by simp
      have e2 : (banksLeaveLive (setStation .numbering (leaveRunning m))).loader.station = .numbering := by
        simp [setStation]
      have e3 : (banksLeaveLive (setStation .numbering (leaveRunning m))).calendar = (leaveRunning m).calendar := by
        simp
      have e4 : (banksLeaveLive (setStation .numbering (leaveRunning m))).laser = (leaveRunning m).laser := by simp
      have hlc : (leaveRunning m).calendar = { m.calendar with
          state := .inactive, claims := emptied m.calendar.claims, countdown := none } := by
        simp [leaveRunning, hr, calendarLeavesRunning]
      refine ⟨?_, ?_⟩
      · constructor
        · rw [e1, mnum]; simp
        · rw [e1, mnum]; simp [hmode]
        · rw [e2]; simp
        · rw [e1, mnum]; simp [hmode]
        · rw [e2]; simp
        · rw [e2]; simp
        · rw [e2, e3, hlc]; simp
        · rw [e4]; intro _
          simp only [leaveRunning, hr, if_true, State.laser_mapLaser, calendarLeavesRunning_frame, Laser.leaveRunning]
          split
          · simp [Laser.bleed]
          · rename_i hd; simpa [not_or] using hd
        · rw [e1, mnum]; simp
        · rw [e1, mnum]; simp
      · rw [e1, e3, hlc, mnum]
        exact CalSafe.emptied (c := m.calendar) msafe.peers .inactive _ none (not_mem_emptied _)
    · rename_i hr
      have hr' : s.loader.station ≠ .running := by
        simpa [State.running, mload] using hr
      refine ⟨?_, by rw [mnum]; exact msafe⟩
      have hlive : ¬(s.loader.station = .running ∨ s.loader.station = .haltedDuplicate) := by
        rintro (hx | hx)
        · exact hr' hx
        · exact hnh hx
      constructor
      · rw [mnum]; simp
      · rw [mnum]; simp [hmode]
      · rw [mload]; intro hx; exact absurd hx hlive
      · rw [mnum]; simp [hmode]
      · rw [mnum]; simp [hmode]
      · rw [mload]; intro hx; exact absurd hx hnh
      · rw [mload, mstate]; exact h.1.calendar
      · rw [mload, mlas]; exact h.1.driver
      · rw [mnum]; simp
      · rw [mnum]; simp
  · rename_i hauto
    have hfix : s.num.mode = .fixed := by
      cases hmo : s.num.mode
      · exact absurd (.inl hmo) hauto
      · rfl
    split
    · refine ⟨?_, h.2⟩
      constructor
      · exact h.1.number
      · exact h.1.fixed
      · exact h.1.live
      · exact h.1.rolling
      · exact h.1.unconfigured
      · exact h.1.halted
      · exact h.1.calendar
      · exact h.1.driver
      · exact h.1.holdOff
      · exact h.1.listen
    · split
      · exact h
      · obtain ⟨h1, h2⟩ := numbered_stopped s h.1 hn
        exact enterHalted_stationSafe s h hn hfix h1 h2

theorem line_stationSafe (f : Line → Line) (s : State) (h : StationSafe s) : StationSafe (s.mapLine f) :=
  ⟨StationCore.of s _ h.1 rfl rfl Iff.rfl (fun _ h => h), h.2⟩

theorem takes_stationSafe (n : StationNo) (x : Option Serial) (s : State) (h : StationSafe s) : StationSafe (numberingTakes n x s) := by
  simp only [numberingTakes]
  split
  · rename_i hs; exact joinTaken_stationSafe n s h (by simp [hs])
  · rename_i hs
    have hn : s.num.state ≠ .numbered := by simp [hs]
    have hj := joinTaken_stationSafe n s h hn
    have hc := choose_stationSafe _ hj hn
    (repeat' split) <;> first
      | exact hj
      | exact hc
      | exact line_stationSafe _ s h
      | exact h
  · rename_i hs
    (repeat' split) <;> first
      | exact h
      | exact line_stationSafe _ s h
      | exact yield_stationSafe n s h hs

theorem holdOffEnds_stationSafe (s : State) (h : StationSafe s) (hh : s.num.holdOff ≠ none) : StationSafe (holdOffEnds s) := by
  obtain ⟨hst, hw⟩ := h.1.holdOff hh
  have hn : s.num.state ≠ .numbered := by simp [hst]
  have hl : s.num.listen = none := by
    by_contra hc; exact hw (h.1.listen hc).2
  have hr : s.loader.station ≠ .running := fun hc => hn (h.1.live (.inl hc))
  have hnh : s.loader.station ≠ .haltedDuplicate := fun hc => hn (h.1.live (.inr hc))
  have hmode : s.num.mode = .auto := by
    cases hmo : s.num.mode
    · rfl
    · exact absurd (h.1.fixed hmo) hn
  have hemp := claims_empty s h hr
  simp only [holdOffEnds]
  split
  · rename_i hw'; exact absurd hw' hw
  · rename_i w hw'
    generalize hm : setOwnNumber (some w) ((s.mapNum fun u => { u with holdOff := none }).mapNum
      fun u => { u with state := .numbered }) = m
    have mnum : m.num = { s.num with holdOff := none, state := .numbered, own := some w } := by
      subst hm; simp [num_setOwn]
    have msafe : CalSafe (some w) m.calendar := by
      subst hm
      exact setOwnNumber_safe (some w) _ h.2.peers hemp
    have mload : m.loader = s.loader := by subst hm; simp
    have mlas : m.laser = s.laser := by subst hm; simp
    have mstate : m.calendar.state = s.calendar.state := by subst hm; simp [claims_setOwn]
    split
    · exact enterRunning_stationSafe m (by rw [mnum]; exact msafe) (mstate.trans (h.1.calendar.2 hr)) (by rw [mnum]) (by rw [mnum]; rfl) (by rw [mnum])
        (by rw [mnum]; exact hl)
    · rename_i hnu
      refine ⟨?_, by rw [mnum]; exact msafe⟩
      constructor
      · rw [mnum]; simp
      · rw [mnum]; simp
      · rw [mnum]; simp
      · rw [mload]; intro hx; exact absurd hx hnu
      · rw [mnum]; simp [hmode]
      · rw [mload]; intro hx; exact absurd hx hnh
      · rw [mload, mstate]; exact h.1.calendar
      · rw [mload, mlas]; exact h.1.driver
      · rw [mnum]; simp
      · rw [mnum, hl]; simp

theorem numberingBoundary_stationSafe (s : State) (h : StationSafe s) : StationSafe (numberingBoundary s) := by
  simp only [numberingBoundary]
  split
  · rename_i k hk
    have hnl := h.1.listen (by rw [hk]; simp)
    split
    · exact choose_stationSafe s h hnl.1
    · exact ⟨StationCore.num s _ h.1 rfl rfl rfl hnl.1 hnl.1 (own_none s h.1 hnl.1) rfl h.1.holdOff
        (fun _ => hnl.2), h.2⟩
  · rename_i hk
    split
    · rename_i k hk2
      split
      · exact holdOffEnds_stationSafe s h (by rw [hk2]; simp)
      · have hc := h.1.holdOff (by rw [hk2]; simp)
        refine ⟨StationCore.num s _ h.1 rfl rfl rfl (by simp [hc.1]) (by simp [hc.1])
          (own_none s h.1 (by simp [hc.1])) rfl (fun _ => hc) (fun x => absurd hk x), h.2⟩
    · exact h

theorem StationSafe.of (s t : State) (h : StationSafe s) (h1 : t.num = s.num) (h2 : t.loader = s.loader) (h3 : t.calendar = s.calendar)
    (h4 : s.loader.station ≠ .running → Uncharged s.laser.driver → Uncharged t.laser.driver) : StationSafe t :=
  ⟨StationCore.of s t h.1 h1 (by rw [h2]) (by rw [h3]) h4, by rw [h1, h3]; exact h.2⟩

theorem boundary_uncharged (l : Laser) (h : Uncharged l.driver) : Uncharged l.boundary.driver := by
  have h1 := h.1
  simp only [Laser.boundary, h1, if_false]; exact h

theorem chargeOrIdle_uncharged (s : State) (h : s.loader.station ≠ .running) : Uncharged (chargeOrIdle s).laser.driver := by
  have : s.running = false := by simp [State.running, h]
  simp [chargeOrIdle, this, Uncharged, Laser.bleed]

theorem cycleBoundary_stationSafe (s : State) (h : StationSafe s) : StationSafe (cycleBoundary s) := by
  unfold cycleBoundary
  have h1 : StationSafe (((timerBoundary s).mapLaser Laser.boundary).mapExpo Exposure.rotate) :=
    StationSafe.of s _ h (by simp) (by simp) (by simp) (fun _ hq => by simpa using boundary_uncharged _ hq)
  generalize ((timerBoundary s).mapLaser Laser.boundary).mapExpo Exposure.rotate = a at *
  have h2 : StationSafe (calendarBoundary a) :=
    ⟨StationCore.of a _ h1.1 (by simp) (by simp) (by rw [calendarBoundary_state]) (fun _ h => by simpa using h), by
      simpa using calendarBoundary_safe a h1.2⟩
  generalize calendarBoundary a = b at *
  have h3 : StationSafe (banksBoundary b) := StationSafe.of b _ h2 (by simp) (by simp) (by simp) (fun _ h => by simpa using h)
  have h4 := numberingBoundary_stationSafe _ h3
  exact StationSafe.of _ _ h4 rfl rfl rfl (fun _ h => h)

theorem calendarTakesNotice_stationSafe (n : StationNo) (f : NoticeFields) (s : State) (h : StationSafe s) :
    StationSafe (calendarTakesNotice n f s) :=
  ⟨StationCore.of s _ h.1 (by simp) (by simp) (by rw [calendarTakesNotice_state]) (fun _ h => by simpa using h), by
    simpa using calendarTakesNotice_safe n f s h.2⟩

theorem takeNotice_stationSafe (n : StationNo) (f : NoticeFields) (s : State) (h : StationSafe s) :
    StationSafe (takeNotice n f s) := by
  apply takes_stationSafe
  have h1 : StationSafe (hearNotice n s) := StationSafe.of s _ h (by simp) (by simp) (by simp) (fun _ h => by simpa using h)
  have h2 := calendarTakesNotice_stationSafe n f _ h1
  generalize calendarTakesNotice n f (hearNotice n s) = a at *
  have hsl : ∀ t, StationSafe t → StationSafe (slip t) := fun t ht =>
    StationSafe.of t _ ht (by simp) (by simp) (by simp) (fun _ h => by simpa using h)
  simp only [measure, stepTimer]
  have hm : ∀ g : Timer → Timer, StationSafe (a.mapTimer g) := fun g => StationSafe.of a _ h2 rfl rfl rfl (fun _ h => h)
  (repeat' split) <;> first
    | exact h2
    | exact hm _
    | exact hsl _ (hm _)
    | exact hsl _ (cycleBoundary_stationSafe _ (hm _))

theorem restartStation_stationSafe (s : State) (h : StationSafe s) : StationSafe (restartStation s) := by
  have hq : Uncharged s.laser.restart.driver := by
    simp only [Laser.restart, Laser.leaveRunning]
    split
    · simp [Uncharged, Laser.bleed]
    · rename_i hd; simpa [Uncharged, not_or] using hd
  refine ⟨?_, ?_⟩
  · constructor
    · simp only [restartStation, numberKept, Numbering.restart]
      cases hm : s.num.mode
      · simp
      · simp [h.1.number, h.1.fixed hm]
    · intro hm; simp only [restartStation, Numbering.restart] at hm ⊢; simp [hm]
    · simp [restartStation]
    · simp [restartStation]
    · simp [restartStation]
    · simp [restartStation]
    · simp [restartStation, Calendar.restart]
    · intro _; exact hq
    · simp [restartStation, Numbering.restart]
    · simp [restartStation, Numbering.restart]
  · exact CalSafe.emptied (c := { s.calendar with peers := [], releases := 0 })
      ⟨by simp, by simp, by simp, by simp⟩ .inactive _ none (not_mem_emptied _)

theorem takeRestart_stationSafe (x y : Byte) (s : State) (h : StationSafe s) : StationSafe (takeRestart x y s) := by
  simp only [takeRestart]
  split
  · split
    · exact StationSafe.of s _ h (by simp) (by simp) (by simp) (fun _ h => by simpa using h)
    · split
      · rename_i hr
        have hrun : s.loader.station = .running := by simpa [State.running] using hr
        refine ⟨StationCore.of s _ h.1 (by simp) (by simp) ?_ (fun _ h => by simpa using h), ?_⟩
        · rw [h.1.calendar]; simp [restartFiring, calendarRestartFiring, queueNotice, hrun]
        · simp only [restartFiring_frame]
          unfold restartFiring calendarRestartFiring
          apply queueNotice_safe
          exact CalSafe.emptied (c := s.calendar) h.2.peers .releasing _ s.calendar.countdown (not_mem_emptied _)
      · exact h
    · exact restartStation_stationSafe s h
    · exact h
  · exact h

theorem takeFrame_stationSafe (f : Frame) (s : State) (h : StationSafe s) : StationSafe (takeFrame f s) := by
  simp only [takeFrame]
  (repeat' split) <;> first
    | exact h
    | exact takes_stationSafe _ _ _ h
    | exact takeNotice_stationSafe _ _ _ h
    | exact takeRestart_stationSafe _ _ _ h
    | exact takes_stationSafe _ _ _ (StationSafe.of s _ h (by simp) (by simp) (by simp) (fun _ h => by simpa using h))
    | exact StationSafe.of s _ h (by simp) (by simp) (by simp) (fun _ h => by simpa using h)

theorem claimTransmitted_stationSafe (n : StationNo) (s : State) (h : StationSafe s) : StationSafe (claimTransmitted n s) := by
  simp only [claimTransmitted]
  split
  · rename_i hc
    have hn : s.num.state ≠ .numbered := by simp [hc.1]
    refine ⟨StationCore.num s _ h.1 rfl rfl rfl hn hn (own_none s h.1 hn) rfl (fun _ => ⟨hc.1, ?_⟩)
      (fun x => (h.1.listen x).2), h.2⟩
    show s.num.wanted ≠ none
    rw [hc.2.1]; simp
  · exact h

theorem transmitted_stationSafe (f : Sending) (r : SlotSet) (s : State) (h : StationSafe s) :
    StationSafe (tellTransmitted f r s) := by
  simp only [tellTransmitted]
  split
  · exact claimTransmitted_stationSafe _ _ h
  · exact ⟨StationCore.of s _ h.1 (by simp) (by simp) (noticeTransmitted_state _ _ _) (fun _ h => by simpa using h), by
      simpa using noticeTransmitted_safe _ _ s h.2⟩
  · exact h
  · exact StationSafe.of s _ h (by simp) (by simp) (by simp) (fun _ h => by simpa using h)

theorem dropped_stationSafe (f : Sending) (s : State) (h : StationSafe s) : StationSafe (tellDropped f s) := by
  simp only [tellDropped]
  split
  · exact StationSafe.of s _ h (by simp) (by simp) (by simp) (fun _ h => by simpa using h)
  · exact ⟨StationCore.of s _ h.1 (by simp) (by simp) (noticeDropped_state _ _) (fun _ h => by simpa using h), by
      simpa using noticeDropped_safe _ s h.2⟩
  · exact h
  · exact StationSafe.of s _ h (by simp) (by simp) (by simp) (fun _ h => by simpa using h)

theorem ownFrameEnds_stationSafe (s : State) (h : StationSafe s) : StationSafe (ownFrameEnds s) := by
  simp only [ownFrameEnds]; split
  · exact transmitted_stationSafe _ _ _ (line_stationSafe _ (latch s) (by unfold latch latchAt; exact line_stationSafe _ s h))
  · exact h

theorem crossing_ok (r : List Byte) : ∀ (n j : Nat) (acc : List PeerEntry × Bool),
    (acc.1.Pairwise (fun x y => x.peer ≠ y.peer) ∧ ∀ e ∈ acc.1, e.lo ≤ e.hi ∧ e.hi ≤ 799 ∧ e.age = none ∧
      e.claimed = 0 ∧ e.settled = 0 ∧ e.serial = none) →
    ((crossingEntries r n j acc).1.Pairwise (fun x y => x.peer ≠ y.peer) ∧
      (∀ e ∈ (crossingEntries r n j acc).1, e.lo ≤ e.hi ∧ e.hi ≤ 799 ∧ e.age = none ∧
      e.claimed = 0 ∧ e.settled = 0 ∧ e.serial = none) ∧ (crossingEntries r n j acc).1.length ≤ acc.1.length + n) := by
  intro n
  induction n with
  | zero => intro j acc h; exact ⟨h.1, h.2, by simp [crossingEntries]⟩
  | succ n ih =>
    intro j acc h
    simp only [crossingEntries]
    split
    · rename_i hp
      split
      · have := ih (j + 1) (acc.1, true) h
        exact ⟨this.1, this.2.1, by have := this.2.2; simp at this ⊢; omega⟩
      · rename_i hc
        rw [not_or] at hc
        have := ih (j + 1) (acc.1 ++ [builtEntry ⟨field r (22 + 5 * j) 1, hp⟩ (clamp 0 799 (field r (23 + 5 * j) 2)).1
          (clamp 0 799 (field r (25 + 5 * j) 2)).1],
          acc.2 || (clamp 0 799 (field r (23 + 5 * j) 2)).2 || (clamp 0 799 (field r (25 + 5 * j) 2)).2) (by
          refine ⟨?_, ?_⟩
          · rw [List.pairwise_append]
            refine ⟨h.1, by simp, ?_⟩
            intro a ha b hb
            simp at hb; subst hb
            intro heq
            have h2 := hc.2
            rw [List.any_eq_true] at h2
            exact h2 ⟨a, ha, by simpa [builtEntry] using heq⟩
          · intro e he
            rw [List.mem_append] at he
            rcases he with he | he
            · exact h.2 e he
            · simp at he; subst he
              refine ⟨by simpa [builtEntry] using hc.1, ?_, rfl, rfl, rfl, rfl⟩
              simp [builtEntry, clamp]; repeat' split
              all_goals simp
              omega)
        refine ⟨this.1, this.2.1, ?_⟩
        have := this.2.2
        simp at this ⊢; omega
    · have := ih (j + 1) (acc.1, true) h
      exact ⟨this.1, this.2.1, by have := this.2.2; simp at this ⊢; omega⟩

theorem loaded_peers (r : List Byte) (own : Option StationNo) : PeersOk own (loadRecord r).peers := by
  have := crossing_ok r (clamp 0 8 (field r 21 1)).1 0 ([], false) ⟨by simp, by simp⟩
  have hp : (loadRecord r).peers = (crossingEntries r (clamp 0 8 (field r 21 1)).1 0 ([], false)).1 := rfl
  rw [hp]
  refine ⟨?_, this.1, ?_, ?_⟩
  · have h2 := this.2.2
    have : (clamp 0 8 (field r 21 1)).1 ≤ 8 := by
      simp [clamp]; repeat' split
      all_goals simp
      omega
    simp at h2; omega
  · intro e he
    obtain ⟨h1, h2, h3, h4, h5, h6⟩ := this.2.1 e he
    exact ⟨h1, h2, by simp [h3], by simp [h4, h5], by simp [h4, h5, h6]⟩
  · intro e he _; exact (this.2.1 e he).2.2.1

theorem loadDone_stationSafe (r : List Byte) (s : State) (h : StationSafe s) (hl : s.loader.station = .loading) : StationSafe (loadDone r s) := by
  have hemp := claims_empty s h (by simp [hl])
  have hcal : s.calendar.state = .inactive := h.1.calendar.2 (by simp [hl])
  have hdr := h.1.driver (by simp [hl])
  simp only [loadDone]
  split
  · have hp := loaded_peers (recordBytes r)
    generalize loadRecord (recordBytes r) = d at *
    have tnum : (takeRecord d s).num = s.num := by simp
    have tcal : (takeRecord d s).calendar = s.calendar.configure d.cfg.shots d.peers := by simp [takeRecord]
    have tsta : (takeRecord d s).loader.station = .loading := by simp [takeRecord, hl]
    have tdr : (takeRecord d s).laser.driver = s.laser.driver := by simp [takeRecord, recomputeTarget_fired]
    generalize takeRecord d s = a at *
    have aemp : ∀ x, some x ∉ a.calendar.claims := by rw [tcal]; simp [List.mem_replicate]
    have apeers : ∀ own, PeersOk own a.calendar.peers := by rw [tcal]; exact hp
    have acal : a.calendar.state = .inactive := by rw [tcal]; exact hcal
    split
    · simp only [loadAuto]
      generalize hm : setStation .numbering (setOwnNumber none (a.mapNum fun u => { u.enterListen with
        mode := .auto, yieldMark := false })) = m
      have mnum : m.num = { a.num.enterListen with mode := .auto, yieldMark := false, own := none } := by
        subst hm; simp [num_setOwn]
      have msta : m.loader.station = .numbering := by subst hm; simp [setStation]
      have mstate : m.calendar.state = .inactive := by subst hm; simp [claims_setOwn, acal]
      have mlas : m.laser = a.laser := by subst hm; simp
      have mcal : m.calendar = (setOwnNumber none (a.mapNum fun u => { u.enterListen with
        mode := .auto, yieldMark := false })).calendar := by subst hm; simp
      refine ⟨?_, ?_⟩
      · constructor <;> simp [mnum, msta, mstate, mlas, Numbering.enterListen, tdr, hdr]
      · rw [mnum, mcal]
        exact setOwnNumber_safe none _ (apeers _) aemp
    · simp only [loadFixed]
      generalize hm : setOwnNumber (some d.cfg.fixedNo) (a.mapNum fun u =>
        { u with state := .numbered, mode := .fixed, yieldMark := false, listen := none, holdOff := none }) = m
      have mnum : m.num = { a.num with
          state := .numbered, mode := .fixed, yieldMark := false, listen := none, holdOff := none
          own := some d.cfg.fixedNo } := by
        subst hm; simp [num_setOwn]
      have msta : m.loader.station = .loading := by subst hm; simp [tsta]
      have mstate : m.calendar.state = .inactive := by subst hm; simp [claims_setOwn, acal]
      have mlas : m.laser = a.laser := by subst hm; simp
      have msafe : CalSafe m.num.own m.calendar := by
        rw [mnum]; subst hm
        exact setOwnNumber_safe _ _ (apeers _) aemp
      split
      · refine enterHalted_stationSafe m ⟨?_, msafe⟩ (by rw [mnum]) (by rw [mnum]) (by rw [mnum]) (by rw [mnum])
        constructor <;> simp [mnum, msta, mstate, mlas, tdr, hdr]
      · exact enterRunning_stationSafe m msafe mstate (by rw [mnum]) (by rw [mnum]; rfl) (by rw [mnum]) (by rw [mnum])
  · simp only [loadInvalid]
    generalize hm : setOwnNumber none ((((recomputeTarget (s.mapLoader fun _ => { station := .unconfigured, cfg := none, valid := false, clamped := false })).mapExpo
        fun e => { e with limit := 0 }).mapCalendar (Calendar.configure 0 [])).mapNum fun u =>
        { u.enterListen with mode := .auto, yieldMark := false }) = m
    have mnum : m.num = { s.num.enterListen with mode := .auto, yieldMark := false, own := none } := by
      subst hm; simp [num_setOwn]
    have msta : m.loader.station = .unconfigured := by subst hm; simp
    have mstate : m.calendar.state = .inactive := by subst hm; simp [claims_setOwn, hcal]
    have mlas : m.laser.driver = s.laser.driver := by subst hm; simp [recomputeTarget_fired]
    refine ⟨?_, ?_⟩
    · constructor <;> simp [mnum, msta, mstate, mlas, Numbering.enterListen, hdr]
    · rw [mnum]; subst hm
      refine setOwnNumber_safe none _ ?_ ?_
      · exact ⟨by simp, by simp, by simp, by simp⟩
      · simpa using hemp

theorem raise_uncharged (slot : Slot) (s : State) (h : Uncharged s.laser.driver) :
    Uncharged (raiseSlotStart slot s).laser.driver := by
  have : Uncharged (if ownSettled slot s.calendar.claims then shotDecision s else s).laser.driver := by
    split
    · simp only [shotDecision]
      split
      · simpa using h
      · rename_i hr; exact absurd (withholdReason_charged s hr) h.2
    · exact h
  simp only [raiseSlotStart]
  split
  · simpa using this
  · exact this

theorem raise_stationSafe (slot : Slot) (s : State) (h : StationSafe s) : StationSafe (raiseSlotStart slot s) :=
  StationSafe.of s _ h (by simp) (by simp) (by simp) (fun _ hq => raise_uncharged slot s hq)

theorem after_uncharged (s : State) (h : s.loader.station ≠ .running) : Uncharged (driverAfterDud s).laser.driver := by
  simp only [driverAfterDud]
  split
  · simp [Uncharged, Laser.enterFault]
  · exact chargeOrIdle_uncharged _ (by simpa using h)

theorem dud_uncharged (s : State) (h : s.loader.station ≠ .running) : Uncharged (dudReading s).laser.driver := by
  simp only [dudReading, completeShot_frame]
  apply after_uncharged
  split <;> simpa using h

theorem taking_uncharged (c : Nat) (s : State) (h : s.loader.station ≠ .running) (hq : Uncharged s.laser.driver) :
    Uncharged (takeReading c s).laser.driver := by
  simp only [takeReading]
  repeat' split
  · exact dud_uncharged _ (by simpa using h)
  · simp only [shotReading, completeShot_frame]; exact chargeOrIdle_uncharged _ (by simpa using h)
  · simp only [strayReading]; split
    · simpa using hq
    · simp [Uncharged, Laser.enterFault]

theorem window_stationSafe (s : State) (h : StationSafe s) : StationSafe (windowEnd s) := by
  refine StationSafe.of s _ h (by simp) (by simp) (by simp) (fun hr hq => ?_)
  simp only [windowEnd]; split
  · exact dud_uncharged _ hr
  · exact hq

theorem tick_stationSafe (s : State) (h : StationSafe s) : StationSafe (tick s) := by
  have h1 : StationSafe (windowTick (convertTick s)) := by
    have h0 : StationSafe (convertTick s) := StationSafe.of s _ h (by simp) (by simp) (by simp) (fun _ h => by simpa using h)
    have hf : ∀ g, StationSafe ((convertTick s).mapFront g) := fun g => StationSafe.of _ _ h0 rfl rfl rfl (fun _ h => h)
    simp only [windowTick]
    (repeat' split) <;> first
      | exact h0
      | exact hf _
      | exact window_stationSafe _ (hf _)
  have hm : ∀ g : Timer → Timer, StationSafe ((windowTick (convertTick s)).mapTimer g) :=
    fun g => StationSafe.of _ _ h1 rfl rfl rfl (fun _ h => h)
  have h2 : StationSafe (advance (windowTick (convertTick s))) := by
    simp only [advance]
    (repeat' split) <;> first
      | exact hm _
      | exact raise_stationSafe _ _ (hm _)
      | exact raise_stationSafe _ _ (cycleBoundary_stationSafe _ (hm _))
  exact StationSafe.of _ _ h2 (by simp [tick]) (by simp [tick]) (by simp [tick]) (fun _ h => by simpa [tick] using h)

theorem bandReport_uncharged (b : Band) (s : State) (h : s.loader.station ≠ .running) (hq : Uncharged s.laser.driver) :
    Uncharged (bandReport b s).laser.driver := by
  have hr : s.running = false := by simp [State.running, h]
  have hr2 : State.running (recomputeTarget (s.mapLaser fun l => { l with band := b })) = false := hr
  simp only [bandReport]
  split
  · exact hq
  · have hd : (recomputeTarget (s.mapLaser fun l => { l with band := b })).laser.driver = s.laser.driver := rfl
    generalize recomputeTarget (s.mapLaser fun l => { l with band := b }) = m at *
    simp only [driverAtBandChange]
    split <;> rename_i hm
    · rw [hr2]; simp [Uncharged, hm]
    · rw [hd] at hm; exact absurd hm hq.1
    · rw [hd] at hm; exact absurd hm hq.2
    · simp [Uncharged, hm]
    · simp [Uncharged, hm]

end Sys2Proof.Machine
end

