-- ==== Sys2Proof/Laws/Positions.lean ====
section
/-! SUPPORT. Every operation keeps the length of the own claim list, which is S (Safety:
State.StationOk; R23, R34). -/

namespace Sys2Proof.Machine

/-- The calendar of `t` has as many positions as that of `s`, under the same configuration. -/
structure SamePositions (s t : State) : Prop where
  length : t.calendar.claims.length = s.calendar.claims.length
  cfg : t.loader.cfg = s.loader.cfg

theorem SamePositions.refl (s : State) : SamePositions s s := ⟨rfl, rfl⟩

theorem SamePositions.trans {s t u : State} (h1 : SamePositions s t) (h2 : SamePositions t u) : SamePositions s u :=
  ⟨h2.length.trans h1.length, h2.cfg.trans h1.cfg⟩

/-- An operation that leaves the calendar and the loader as they are. -/
theorem SamePositions.of {s t : State} (h1 : t.calendar = s.calendar) (h2 : t.loader = s.loader) : SamePositions s t :=
  ⟨by rw [h1], by rw [h2]⟩

theorem SamePositions.keeps {s t : State} (h : SamePositions s t) (hs : PositionsOk s) : PositionsOk t := by
  have : t.cfgNat StationConfig.shots = s.cfgNat StationConfig.shots := by simp only [State.cfgNat, h.cfg]
  unfold PositionsOk; rw [this, h.length]; exact hs

theorem fillClaims_length (n S : Nat) (l : List (Option Claim)) : ∀ (i : Nat) (o : SlotSet),
    (fillClaims n S i o l).length = l.length := by
  induction l with
  | nil => intro i o; rfl
  | cons c rest ih =>
    intro i o
    cases c with
    | some c => simp [fillClaims, ih]
    | none => simp only [fillClaims]; split <;> simp [ih]

/-- The claiming procedure fills positions and makes none (R26). -/
theorem claimedList_length (s : State) : (claimedList s).length = s.calendar.claims.length := by
  simp only [claimedList]; split
  · exact fillClaims_length _ _ _ _ _
  · rfl

theorem runClaiming_positions (s : State) : SamePositions s (runClaiming s) :=
  ⟨claimedList_length s, rfl⟩

theorem queueNotice_positions (s : State) : SamePositions s (queueNotice s) := ⟨rfl, rfl⟩

theorem enterRunning_positions (s : State) : SamePositions s (enterRunning s) := by
  refine ⟨?_, by simp [enterRunning, setStation]⟩
  simp only [enterRunning, banksEnterLive_frame, driverEntersRunning_frame, calendarEntersRunning]
  rw [(queueNotice_positions _).length, (runClaiming_positions _).length]
  simp [setStation]

theorem leaveRunning_positions (s : State) : SamePositions s (leaveRunning s) := by
  simp only [leaveRunning]
  split
  · exact ⟨by simp [calendarLeavesRunning, emptied], by simp⟩
  · exact .refl s

theorem setStation_positions (st : StationState) (s : State) : SamePositions s (setStation st s) := ⟨rfl, rfl⟩

theorem enterHalted_positions (s : State) : SamePositions s (enterHalted s) := by
  simp only [enterHalted]
  split
  · exact (leaveRunning_positions s).trans (setStation_positions _ _)
  · exact (setStation_positions .haltedDuplicate s).trans (.of (by simp) (by simp))

theorem setOwnNumber_positions (own : Option StationNo) (s : State) : SamePositions s (setOwnNumber own s) := by
  obtain ⟨h1, _⟩ := claims_setOwn own s
  exact ⟨by rw [h1], by simp⟩

theorem yieldNumber_positions (n : StationNo) (s : State) : SamePositions s (yieldNumber n s) := by
  simp only [yieldNumber]
  repeat' split
  · have h0 := setOwnNumber_positions none (s.mapNum fun u => { u with
      state := .claiming, taken := setInsert n.val 0, wanted := none, listen := some Config.listenPeriod,
      holdOff := none })
    have h1 : SamePositions s (State.mapLine Line.withdrawClaim (setOwnNumber none (s.mapNum fun u => { u with
      state := .claiming, taken := setInsert n.val 0, wanted := none, listen := some Config.listenPeriod,
      holdOff := none }))) := ⟨h0.length, h0.cfg⟩
    refine h1.trans ?_
    simp only [leaveForNumbering]
    split
    · exact ((leaveRunning_positions _).trans (setStation_positions .numbering _)).trans (.of (by simp) (by simp))
    · exact .refl _
  · exact .of rfl rfl
  · exact .refl s
  · exact enterHalted_positions s

theorem numberingTakes_positions (n : StationNo) (x : Option Serial) (s : State) :
    SamePositions s (numberingTakes n x s) := by
  simp only [numberingTakes]
  (repeat' split) <;> first
    | exact yieldNumber_positions n s
    | exact .of (by simp) (by simp)

theorem holdOffEnds_positions (s : State) (h : PositionsOk s) : PositionsOk (holdOffEnds s) := by
  simp only [holdOffEnds]
  repeat' split
  · exact h
  · exact ((setOwnNumber_positions _ _).trans (enterRunning_positions _)).keeps h
  · exact (setOwnNumber_positions _ _).keeps h

theorem numberingBoundary_positions (s : State) (h : PositionsOk s) : PositionsOk (numberingBoundary s) := by
  simp only [numberingBoundary]
  (repeat' split) <;> first
    | exact holdOffEnds_positions s h
    | exact SamePositions.keeps (.of (by simp) (by simp)) h

theorem countdownBoundary_positions (s : State) : SamePositions s (countdownBoundary s) := by
  simp only [countdownBoundary, countdownExpires]
  (repeat' split) <;> first
    | exact .refl s
    | exact ⟨rfl, rfl⟩
    | exact ⟨claimedList_length _, rfl⟩

theorem cycleBoundary_positions (s : State) (h : PositionsOk s) : PositionsOk (cycleBoundary s) := by
  have : PositionsOk (numberingBoundary (banksBoundary (calendarBoundary
      (((timerBoundary s).mapLaser Laser.boundary).mapExpo Exposure.rotate)))) := by
    apply numberingBoundary_positions
    refine SamePositions.keeps (s := calendarBoundary (((timerBoundary s).mapLaser Laser.boundary).mapExpo
      Exposure.rotate)) (.of (by simp) (by simp)) ?_
    refine (countdownBoundary_positions _).keeps ?_
    refine SamePositions.keeps (s := s) ⟨?_, ?_⟩ h <;> simp
  exact this

theorem releaseConflicts_positions (j : Nat) (n : StationNo) (set : SlotSet) (s : State) :
    SamePositions s (releaseConflicts j n set s) := by
  simp only [releaseConflicts]
  (repeat' split) <;> first
    | exact .refl s
    | exact ⟨by simp [releaseClaims], by simp⟩

theorem activeAfterNotice_positions (j : Nat) (n : StationNo) (set before : SlotSet) (new : Bool) (s : State) :
    SamePositions s (activeAfterNotice j n set before new s) := by
  have h := releaseConflicts_positions j n set s
  simp only [activeAfterNotice]
  (repeat' split) <;> first
    | exact h
    | exact h.trans (queueNotice_positions _)
    | exact h.trans (runClaiming_positions _)
    | exact (h.trans (runClaiming_positions _)).trans (queueNotice_positions _)

theorem calendarTakesNotice_positions (n : StationNo) (f : NoticeFields) (s : State) :
    SamePositions s (calendarTakesNotice n f s) := by
  simp only [calendarTakesNotice]
  (repeat' split) <;> first
    | exact .refl s
    | exact ⟨rfl, rfl⟩
    | exact SamePositions.trans (t := s.mapCalendar _) ⟨rfl, rfl⟩ (activeAfterNotice_positions _ _ _ _ _ _)

theorem takeNotice_positions (n : StationNo) (f : NoticeFields) (s : State) (h : PositionsOk s) :
    PositionsOk (takeNotice n f s) := by
  refine (numberingTakes_positions _ _ _).keeps ?_
  have h2 : PositionsOk (calendarTakesNotice n f (hearNotice n s)) :=
    (calendarTakesNotice_positions _ _ _).keeps (SamePositions.keeps (.of (by simp) (by simp)) h)
  generalize calendarTakesNotice n f (hearNotice n s) = a at *
  have hs : ∀ t, PositionsOk t → PositionsOk (slip t) := fun t => SamePositions.keeps (.of (by simp) (by simp))
  simp only [Machine.measure, stepTimer]
  (repeat' split) <;> first
    | exact h2
    | exact hs _ h2
    | exact hs _ (cycleBoundary_positions _ h2)

theorem takeRestart_positions (x y : Byte) (s : State) (h : PositionsOk s) : PositionsOk (takeRestart x y s) := by
  simp only [takeRestart]
  (repeat' split) <;> first
    | exact h
    | exact SamePositions.keeps (.of (by simp) (by simp)) h
    | skip
  · exact SamePositions.keeps (s := s)
      ⟨by simp [restartFiring, calendarRestartFiring, queueNotice, emptied], by simp⟩ h
  · exact SamePositions.keeps (s := s)
      ⟨by simp [restartStation, Calendar.restart, emptied], by simp [restartStation]⟩ h

theorem takeFrame_positions (f : Frame) (s : State) (h : PositionsOk s) : PositionsOk (takeFrame f s) := by
  simp only [takeFrame]
  (repeat' split) <;> first
    | exact h
    | exact (numberingTakes_positions _ _ _).keeps h
    | exact takeNotice_positions _ _ _ h
    | exact takeRestart_positions _ _ _ h
    | exact SamePositions.keeps (.of (by simp) (by simp)) h
    | exact (numberingTakes_positions _ _ _).keeps (SamePositions.keeps (.of (by simp) (by simp)) h)

theorem ownFrameEnds_positions (s : State) (h : PositionsOk s) : PositionsOk (ownFrameEnds s) := by
  have hm : PositionsOk ((latch s).mapLine Line.transmitted) := h
  simp only [ownFrameEnds]
  generalize (latch s).mapLine Line.transmitted = m at *
  split
  · simp only [tellTransmitted]
    split
    · exact SamePositions.keeps (.of (by simp) (by simp)) hm
    · simp only [noticeTransmitted]
      (repeat' split) <;> first
        | exact hm
        | exact SamePositions.keeps (s := m) ⟨by simp, rfl⟩ hm
        | exact SamePositions.keeps (s := m) ⟨by simp [queueNotice], rfl⟩ hm
        | skip
      exact SamePositions.keeps (s := m) ⟨claimedList_length _, rfl⟩ hm
    · exact hm
    · exact SamePositions.keeps (.of (by simp) (by simp)) hm
  · exact h

/-- A load gives the list the positions of its own S, whatever stood before (R23). -/
theorem loadDone_positions (r : List Byte) (s : State) : PositionsOk (loadDone r s) := by
  have ht : PositionsOk (takeRecord (loadRecord (recordBytes r)) s) := by
    simp [PositionsOk, takeRecord, State.cfgNat]
  simp only [loadDone]
  generalize takeRecord (loadRecord (recordBytes r)) s = t at ht
  repeat' split
  · simp only [loadAuto]
    exact (setStation_positions _ _).keeps ((setOwnNumber_positions _ _).keeps ht)
  · simp only [loadFixed]
    split
    · exact (enterHalted_positions _).keeps ((setOwnNumber_positions _ _).keeps ht)
    · exact (enterRunning_positions _).keeps ((setOwnNumber_positions _ _).keeps ht)
  · simp only [loadInvalid]
    refine (setOwnNumber_positions _ _).keeps ?_
    simp [PositionsOk, State.cfgNat]

theorem tick_positions (s : State) (h : PositionsOk s) : PositionsOk (tick s) := by
  have h1 : PositionsOk (windowTick (convertTick s)) := SamePositions.keeps (.of (by simp) (by simp)) h
  have h2 : PositionsOk (advance (windowTick (convertTick s))) := by
    simp only [advance]
    have hr : ∀ slot t, PositionsOk t → PositionsOk (raiseSlotStart slot t) :=
      fun _ _ => SamePositions.keeps (.of (by simp) (by simp))
    (repeat' split) <;> first
      | exact h1
      | exact hr _ _ h1
      | exact hr _ _ (cycleBoundary_positions _ h1)
  exact SamePositions.keeps (.of (by simp [tick]) (by simp [tick])) h2

end Sys2Proof.Machine
end

