-- ==== Sys2Proof/Laws/Slots.lean ====
section
/-! SUPPORT. The parts of a slot start: the adjustment fixed at slot 31 (R4), the own-settled test (R23), the tests of the shot decision (R48), and the station number of a sender field (R158). -/

namespace Sys2Proof.Machine

theorem fixNext_eq (t : Timer) : t.fixNext = { t with nextAdj := -t.slew.sign, slew := t.slew - t.slew.sign } := by
  unfold Timer.fixNext
  split
  · rename_i h; rw [Int.sign_eq_one_of_pos h]
  · split
    · rename_i h; rw [Int.sign_eq_neg_one_of_neg h]; rfl
    · have : t.slew = 0 := by omega
      simp [this]

theorem ownSettled_iff (slot : Slot) (cs : List (Option Claim)) :
    ownSettled slot cs = true ↔ ∃ c, some c ∈ cs ∧ c.slot = slot ∧ c.state = .settled := by
  simp only [ownSettled, List.any_eq_true]
  constructor
  · rintro ⟨x, hx, h⟩
    cases x with
    | none => simp at h
    | some e => simp at h; exact ⟨e, hx, h.1, h.2⟩
  · rintro ⟨c, hc, h1, h2⟩
    exact ⟨some c, hc, by simp [h1, h2]⟩

open Classical in
theorem withholdReason_eq (s : State) : withholdReason s =
    (if s.TestFails .fault then some .fault else if s.TestFails .quiet then some .quiet
     else if s.TestFails .suppressed then some .suppressed else if s.TestFails .noBank then some .noBank
     else if s.TestFails .supplyInhibit then some .supplyInhibit
     else if s.laser.driver ≠ .charged then some .notCharged
     else if s.TestFails .budget then some .budget else none : Option Reason) := by

  have hb : noBank s = true ↔ s.TestFails .noBank := by
    simp only [noBank, State.TestFails, Banks.accepting]
    by_cases ha : s.banks.a.state = .accepting
    · simp [ha, Banks.get]
    · by_cases hb : s.banks.b.state = .accepting <;> simp [ha, hb, Banks.get]
  have hbud : s.expo.overBudget = true ↔ s.TestFails .budget := by
    simp [Exposure.overBudget, State.TestFails, Config.greatestCode]
  unfold withholdReason
  simp only [← hb, ← hbud]
  simp only [State.TestFails]
  congr

theorem testFails_map (s : State) (f : Timer → Timer) (h : (f s.timer).suppress = s.timer.suppress) (r : Reason) :
    (s.mapTimer f).TestFails r ↔ s.TestFails r := by
  cases r <;> simp [State.TestFails, h, State.profileShots, State.cfgNat]

theorem stationOf_senderOf (n : StationNo) : stationOf (senderOf n) = some n := by
  revert n; decide

theorem Position.ext_val (x y : Position) (h1 : x.slot.val = y.slot.val) (h2 : x.phase.val = y.phase.val) : x = y := by
  rcases x with ⟨a, b⟩; rcases y with ⟨c, d⟩
  simp at h1 h2
  rw [Fin.ext h1, Fin.ext h2]

end Sys2Proof.Machine
end

