-- ==== Sys2Proof/Laws/Timer.lean ====
section
/-! SUPPORT. Every operation keeps the timer record and the reference (Safety: Timer.Ok; R1..R15). -/

namespace Sys2Proof.Machine

/-- The timer's record, the reference and what rests on it apart. -/
structure TimerCore (t : Timer) : Prop where
  inside : t.elapsed < t.cycleLength
  holds : t.held = true → t.pos = ⟨31, 249⟩ ∧ t.curAdj = 1
  current : -1 ≤ t.curAdj ∧ t.curAdj ≤ 1
  previous : -1 ≤ t.prevAdj ∧ t.prevAdj ≤ 1
  following : -1 ≤ t.nextAdj ∧ t.nextAdj ≤ 1
  slew : -20 ≤ t.slew ∧ t.slew ≤ 20
  stations : t.heard.length = 16
  ages : ∀ k, some k ∈ t.heard → k < 200
  suppress : t.suppress ≤ 2

theorem timerOk_iff (own : Option StationNo) (t : Timer) : t.Ok own ↔
    TimerCore t ∧ t.ref = referenceOf own t.heard ∧ (t.ref = own → t.slew = 0) :=
  ⟨fun ⟨a, b, c, d, e, f, g, h, i, j, k⟩ => ⟨⟨a, b, c, d, e, f, g, h, i⟩, j, k⟩,
   fun ⟨⟨a, b, c, d, e, f, g, h, i⟩, j, k⟩ => ⟨a, b, c, d, e, f, g, h, i, j, k⟩⟩

def TimerSafe (s : State) : Prop := s.timer.Ok s.num.own

theorem recompute_timerSafe (s : State) (h : TimerCore s.timer) : TimerSafe (recomputeReference s) := by
  unfold TimerSafe
  rw [timerOk_iff]
  simp only [recomputeReference_frame]
  have hs := h.slew
  refine ⟨⟨h.inside, h.holds, h.current, h.previous, h.following, ?_, h.stations, h.ages, h.suppress⟩, rfl, fun ho => ?_⟩
  · simp only [recomputeReference, State.timer_mapTimer]; split <;> omega
  · exact if_neg fun hn => hn.2 ho

theorem elapsed_pos (p : Position) : positionNumber p < 8000 := by
  unfold positionNumber Config.slotLength; have := p.slot.isLt; have := p.phase.isLt; omega

theorem moved_core (t : Timer) (h : TimerCore t) (p : Position) (hp : positionNumber p < 7999 ∨ t.curAdj = 0) :
    TimerCore { t with pos := p, held := false, stepped := false } := by
  refine ⟨?_, by simp, h.current, h.previous, h.following, h.slew, h.stations, h.ages, h.suppress⟩
  simp only [Timer.elapsed, Timer.cycleLength, Config.cycleLength]
  have := h.current
  have := elapsed_pos p
  simp; omega

theorem fixNext_core (t : Timer) (h : TimerCore t) : TimerCore t.fixNext := by
  have := h.slew
  simp only [Timer.fixNext]
  repeat' split
  · exact ⟨h.inside, h.holds, h.current, h.previous, by simp, by simp; omega, h.stations, h.ages, h.suppress⟩
  · exact ⟨h.inside, h.holds, h.current, h.previous, by simp, by simp; omega, h.stations, h.ages, h.suppress⟩
  · exact ⟨h.inside, h.holds, h.current, h.previous, by simp, h.slew, h.stations, h.ages, h.suppress⟩

theorem fixNext_ok (own : Option StationNo) (t : Timer) (h : t.Ok own) : t.fixNext.Ok own := by
  rw [timerOk_iff] at h ⊢
  refine ⟨fixNext_core t h.1, ?_⟩
  have : t.fixNext.ref = t.ref ∧ t.fixNext.heard = t.heard ∧ (t.slew = 0 → t.fixNext.slew = 0) := by
    simp only [Timer.fixNext]; (repeat' split) <;> simp <;> omega
  rw [this.1, this.2.1]; exact ⟨h.2.1, fun ho => this.2.2 (h.2.2 ho)⟩

theorem isHeard_age (l : List (Option Nat)) (hl : l.any heardLapses = false) (n : StationNo) :
    isHeard (l.map ageHeard) n = isHeard l n := by
  simp only [isHeard, List.getElem?_map]
  cases hx : l[n.val]? with
  | none => rfl
  | some x =>
    cases x with
    | none => rfl
    | some k =>
      rw [List.any_eq_false] at hl
      have := hl (some k) (List.mem_of_getElem? hx)
      simp only [heardLapses, decide_eq_true_eq] at this
      simp [ageHeard, this]


theorem referenceOf_age (own : Option StationNo) (l : List (Option Nat)) (hl : l.any heardLapses = false) :
    referenceOf own (l.map ageHeard) = referenceOf own l := by
  simp only [referenceOf, isHeard_age l hl]

theorem timerBoundary_timerSafe (s : State) (h : TimerSafe s) (h0 : s.timer.pos = ⟨0, 0⟩ ∨ s.timer.nextAdj = 0)
    (hh : s.timer.held = false) : TimerSafe (timerBoundary s) := by
  have h := (timerOk_iff _ _).1 h
  have hc : TimerCore { s.timer with
      cycles := bump s.timer.cycles, prevAdj := s.timer.curAdj, curAdj := s.timer.nextAdj, nextAdj := 0, suppress := s.timer.suppress - 1
      heard := s.timer.heard.map ageHeard } := by
    refine ⟨?_, by simp [hh], h.1.following, h.1.current, by simp, h.1.slew, by simpa using h.1.stations, ?_, ?_⟩
    · simp only [Timer.elapsed, Timer.cycleLength, Config.cycleLength, hh]
      have := h.1.following
      rcases h0 with h0 | h0
      · rw [h0]; simp [positionNumber]; omega
      · rw [h0]; have := elapsed_pos s.timer.pos; simp; omega
    · intro k hk
      simp only [List.mem_map] at hk
      obtain ⟨a, ha, hk⟩ := hk
      cases a with
      | none => simp [ageHeard] at hk
      | some j =>
        simp only [ageHeard] at hk
        split at hk
        · simp at hk
        · cases hk; rename_i hj; simp [Config.lapseAge] at hj; omega
    · have := h.1.suppress; simp; omega
  simp only [timerBoundary]
  split
  · exact recompute_timerSafe _ hc
  · rename_i hl
    unfold TimerSafe
    rw [timerOk_iff]
    refine ⟨hc, ?_⟩
    refine ⟨?_, h.2.2⟩
    show s.timer.ref = referenceOf s.num.own (s.timer.heard.map ageHeard)
    rw [referenceOf_age _ _ (by simpa using hl)]
    exact h.2.1

theorem setOwn_timerSafe (own : Option StationNo) (s : State) (h : TimerCore s.timer) : TimerSafe (setOwnNumber own s) := by
  simp only [setOwnNumber]
  apply recompute_timerSafe
  split <;> simpa using h

theorem TimerSafe.of (s t : State) (h : TimerSafe s) (h1 : t.timer = s.timer) (h2 : t.num.own = s.num.own) : TimerSafe t := by
  unfold TimerSafe; rw [h1, h2]; exact h

theorem TimerSafe.core (s : State) (h : TimerSafe s) : TimerCore s.timer := ((timerOk_iff _ _).1 h).1

theorem choose_timerSafe (s : State) (h : TimerSafe s) : TimerSafe (choose s) := by
  refine TimerSafe.of s _ h (by simp) ?_
  simp only [choose]; split <;> simp [Numbering.enterListen]

theorem hold_timerSafe (s : State) (h : TimerSafe s) : TimerSafe (holdOffEnds s) := by
  simp only [holdOffEnds]
  split
  · exact h
  · have := setOwn_timerSafe (some ‹_›) ((s.mapNum fun u => { u with holdOff := none }).mapNum fun u => { u with state := .numbered }) (TimerSafe.core s h)
    split
    · exact TimerSafe.of _ _ this (by simp) (by simp)
    · exact this

theorem nb_timerSafe (s : State) (h : TimerSafe s) : TimerSafe (numberingBoundary s) := by
  simp only [numberingBoundary]
  (repeat' split) <;> first
    | exact h
    | exact hold_timerSafe s h
    | exact choose_timerSafe s h

theorem cb_timerSafe (s : State) (h : TimerSafe s) (h0 : s.timer.pos = ⟨0, 0⟩ ∨ s.timer.nextAdj = 0)
    (hh : s.timer.held = false) : TimerSafe (cycleBoundary s) := by
  have h1 := timerBoundary_timerSafe s h h0 hh
  have : TimerSafe (numberingBoundary (banksBoundary (calendarBoundary
    (((timerBoundary s).mapLaser Laser.boundary).mapExpo Exposure.rotate)))) := by
    apply nb_timerSafe
    exact TimerSafe.of _ _ h1 (by simp) (by simp)
  exact this

theorem slip_timerSafe (s : State) (h : TimerSafe s) : TimerSafe (slip s) := by
  have h := (timerOk_iff _ _).1 h
  have : TimerSafe (s.mapTimer fun t => { t with suppress := 2, slips := bump t.slips }) :=
    (timerOk_iff _ _).2 ⟨⟨h.1.inside, h.1.holds, h.1.current, h.1.previous, h.1.following, h.1.slew, h.1.stations, h.1.ages, by simp⟩, h.2⟩
  exact TimerSafe.of _ _ this (by simp [slip]) (by simp [slip])

theorem takes_timerSafe (n : StationNo) (x : Option Serial) (s : State) (h : TimerSafe s) : TimerSafe (numberingTakes n x s) := by
  have hy : TimerSafe (yieldNumber n s) := by
    simp only [yieldNumber]
    repeat' split
    · have := setOwn_timerSafe none (s.mapNum fun u => { u with
        state := .claiming, taken := setInsert n.val 0, wanted := none, listen := some Config.listenPeriod, holdOff := none }) (TimerSafe.core s h)
      exact TimerSafe.of _ _ this (by simp) (by simp)
    · exact h
    · exact h
    · exact TimerSafe.of s _ h (by simp) (by simp)
  have hj : TimerSafe (joinTaken n s) := h
  have hc := choose_timerSafe _ hj
  simp only [numberingTakes]
  (repeat' split) <;> first
    | exact h
    | exact hy
    | exact hj
    | exact hc

theorem hear_timerSafe (n : StationNo) (s : State) (h : TimerSafe s) : TimerSafe (hearNotice n s) := by
  have h := TimerSafe.core s h
  simp only [hearNotice]
  apply recompute_timerSafe
  refine ⟨h.inside, h.holds, h.current, h.previous, h.following, h.slew, by simpa using h.stations, ?_, h.suppress⟩
  intro k hk
  rcases List.mem_or_eq_of_mem_set hk with hk | hk
  · exact h.ages k hk
  · cases hk; omega

theorem notice_timerSafe (n : StationNo) (f : NoticeFields) (s : State) (h : TimerSafe s) :
    TimerSafe (takeNotice n f s) := by
  apply takes_timerSafe
  have h2 : TimerSafe (calendarTakesNotice n f (hearNotice n s)) := TimerSafe.of _ _ (hear_timerSafe n s h) (by simp) (by simp)
  generalize calendarTakesNotice n f (hearNotice n s) = a at *
  simp only [Machine.measure, stepTimer]
  have hc := (timerOk_iff _ _).1 h2
  have hm : ∀ p, TimerSafe (a.mapTimer fun t => { t with pos := p, held := false, curAdj := 0, nextAdj := 0, slew := 0, stepped := true }) := by
    intro p
    refine (timerOk_iff _ _).2 ⟨⟨?_, by simp, by simp, hc.1.previous, by simp, by simp, hc.1.stations, hc.1.ages, hc.1.suppress⟩, hc.2.1, by simp⟩
    have := elapsed_pos p
    simp [Timer.elapsed, Timer.cycleLength, Config.cycleLength]; omega
  split
  · rename_i hm'
    split
    · rename_i hd
      refine (timerOk_iff _ _).2 ⟨⟨hc.1.inside, hc.1.holds, hc.1.current, hc.1.previous, hc.1.following, ?_, hc.1.stations, hc.1.ages, hc.1.suppress⟩, hc.2.1,
        fun ho => absurd (ho.symm.trans hm'.1) hm'.2.1⟩
      simp [Config.stepThreshold] at hd ⊢; omega
    · apply slip_timerSafe
      split
      · exact cb_timerSafe _ (hm _) (.inr rfl) rfl
      · exact hm _
  · exact h2

theorem restart_timerSafe (x y : Byte) (s : State) (h : TimerSafe s) : TimerSafe (takeRestart x y s) := by
  simp only [takeRestart]
  (repeat' split) <;> first
    | exact h
    | skip
  · exact TimerSafe.of s _ h (by simp) (by simp)
  · have hc := TimerSafe.core s h
    refine (timerOk_iff _ _).2 ⟨⟨hc.inside, hc.holds, hc.current, hc.previous, hc.following, by simp [restartStation, Timer.restart], by simp [restartStation, Timer.restart],
      ?_, hc.suppress⟩, by simp [restartStation, Timer.restart]⟩
    intro k hk
    have : some k ∈ List.replicate 16 (none : Option Nat) := hk
    rw [List.mem_replicate] at this; simp at this

theorem load_timerSafe (r : List Byte) (s : State) (h : TimerSafe s) : TimerSafe (loadDone r s) := by
  have hc := TimerSafe.core s h
  simp only [loadDone]
  (repeat' split)
  · refine TimerSafe.of (setOwnNumber none ((takeRecord (loadRecord (recordBytes r)) s).mapNum fun u => { u.enterListen with mode := .auto, yieldMark := false })) _ (setOwn_timerSafe none _ ?_) ?_ ?_
    · simpa using hc
    · simp [loadAuto]
    · simp [loadAuto]
  · simp only [loadFixed]
    have := setOwn_timerSafe (some (loadRecord (recordBytes r)).cfg.fixedNo) ((takeRecord (loadRecord (recordBytes r)) s).mapNum fun u =>
       { u with state := .numbered, mode := .fixed, yieldMark := false, listen := none, holdOff := none }) (by simpa using hc)
    split
    · exact TimerSafe.of _ _ this (by simp) (by simp)
    · exact TimerSafe.of _ _ this (by simp) (by simp)
  · simp only [loadInvalid]
    apply setOwn_timerSafe; simpa using hc

theorem frame_timerSafe (f : Frame) (s : State) (h : TimerSafe s) : TimerSafe (takeFrame f s) := by
  simp only [takeFrame]
  (repeat' split) <;> first
    | exact h
    | exact takes_timerSafe _ _ _ h
    | exact notice_timerSafe _ _ _ h
    | exact restart_timerSafe _ _ _ h
    | (refine takes_timerSafe _ _ _ (TimerSafe.of s _ h ?_ ?_) <;> (simp; done))
    | exact TimerSafe.of s _ h (by simp) (by simp)

theorem raise_timerSafe (slot : Slot) (s : State) (h : TimerSafe s) : TimerSafe (raiseSlotStart slot s) := by
  have : TimerSafe (if ownSettled slot s.calendar.claims then shotDecision s else s) :=
    TimerSafe.of s _ h (by split <;> simp) (by split <;> simp)
  simp only [raiseSlotStart]
  split
  · exact fixNext_ok _ _ this
  · exact this

theorem slot_moved (s : State) (slot : Slot) (h : TimerSafe s) :
    TimerSafe (s.mapTimer (Timer.arrive slot)) := by
  have h := (timerOk_iff _ _).1 h
  refine (timerOk_iff _ _).2 ⟨moved_core s.timer h.1 ⟨slot, 0⟩ (.inl ?_), h.2⟩
  have := slot.isLt; simp [positionNumber, Config.slotLength]; omega

theorem adv_timerSafe (s : State) (h : TimerSafe s) : TimerSafe (advance s) := by
  simp only [advance]
  have hc := (timerOk_iff _ _).1 h
  split
  · apply raise_timerSafe
    exact cb_timerSafe _ (slot_moved s 0 h) (.inl rfl) rfl
  · rename_i he
    have hm : TimerSafe (s.mapTimer fun t => { t with pos := positionAt (s.timer.elapsed + 1), held := decide (s.timer.elapsed + 1 ≥ Config.cycleLength) }) := by
      refine (timerOk_iff _ _).2 ⟨⟨?_, ?_, hc.1.current, hc.1.previous, hc.1.following, hc.1.slew, hc.1.stations, hc.1.ages, hc.1.suppress⟩, hc.2⟩
      · simp only [Timer.elapsed, State.timer_mapTimer, Timer.cycleLength, Config.cycleLength, ge_iff_le, not_le] at he ⊢
        unfold positionAt
        split
        · rename_i hl
          simp only [Config.cycleLength, Timer.elapsed] at hl
          have hd : decide (positionNumber s.timer.pos + s.timer.held.toNat + 1 ≥ 8000) = false := by simp; omega
          rw [hd]
          simp [positionOf, positionNumber, Config.slotLength] at *
          omega
        · rename_i hl
          simp only [Config.cycleLength, Timer.elapsed] at hl
          have := hc.1.current
          have hd : decide (positionNumber s.timer.pos + s.timer.held.toNat + 1 ≥ 8000) = true := by simp; omega
          rw [hd]
          simp [positionNumber, Config.slotLength] at *
          omega
      · intro hd
        simp only [State.timer_mapTimer, decide_eq_true_eq] at hd
        simp only [State.timer_mapTimer]
        refine ⟨by simp [positionAt, Nat.not_lt.2 hd], ?_⟩
        have := hc.1.current
        simp only [Timer.cycleLength, Config.cycleLength] at he hd
        simp at he; omega
    split
    · exact raise_timerSafe _ _ (slot_moved s _ h)
    · exact hm

end Sys2Proof.Machine
end

