-- ==== Sys2Proof/Laws/Tracker.lean ====
section
/-! SUPPORT. The parts of the layer table: sorting, merging, ids, outcomes and peer layers, each with what it keeps (R113..R130, R139..R145). -/

namespace Sys2Proof.Machine

/-! ## Sorting -/

theorem insertBy_perm {α : Type} (b : α → α → Bool) (x : α) (l : List α) : (insertBy b x l).Perm (x :: l) := by
  induction l with
  | nil => simp [insertBy]
  | cons y rest ih =>
    simp only [insertBy]; split
    · exact List.Perm.refl _
    · exact (List.Perm.cons y ih).trans (List.Perm.swap x y rest)

theorem sortBy_perm {α : Type} (b : α → α → Bool) (l : List α) : (sortBy b l).Perm l := by
  induction l with
  | nil => exact List.Perm.refl _
  | cons y rest ih => exact (insertBy_perm b y _).trans (List.Perm.cons y ih)

theorem insertBy_pairwise {α : Type} (b : α → α → Bool) (htot : ∀ x y, b x y = true ∨ b y x = true)
    (htr : ∀ x y z, b x y = true → b y z = true → b x z = true) (x : α) (l : List α)
    (h : l.Pairwise (fun x y => b x y = true)) : (insertBy b x l).Pairwise (fun x y => b x y = true) := by
  induction l with
  | nil => simp [insertBy]
  | cons y rest ih =>
    rw [List.pairwise_cons] at h
    simp only [insertBy]; split
    · rename_i hb
      rw [List.pairwise_cons]
      refine ⟨?_, List.pairwise_cons.2 h⟩
      intro z hz
      rw [List.mem_cons] at hz
      rcases hz with hz | hz
      · rw [hz]; exact hb
      · exact htr x y z hb (h.1 z hz)
    · rename_i hb
      rw [List.pairwise_cons]
      refine ⟨?_, ih h.2⟩
      intro z hz
      have := (insertBy_perm b x rest).mem_iff.1 hz
      rw [List.mem_cons] at this
      rcases this with hz | hz
      · rw [hz]
        rcases htot x y with h1 | h1
        · exact absurd h1 hb
        · exact h1
      · exact h.1 z hz

theorem sortBy_pairwise {α : Type} (b : α → α → Bool) (htot : ∀ x y, b x y = true ∨ b y x = true)
    (htr : ∀ x y z, b x y = true → b y z = true → b x z = true) (l : List α) :
    (sortBy b l).Pairwise (fun x y => b x y = true) := by
  induction l with
  | nil => simp [sortBy]
  | cons y rest ih => exact insertBy_pairwise b htot htr y _ ih

theorem below_total (t u : Track) : t.below u = true ∨ u.below t = true := by
  simp only [Track.below, decide_eq_true_eq]; omega

theorem below_trans (t u v : Track) : t.below u = true → u.below v = true → t.below v = true := by
  simp only [Track.below, decide_eq_true_eq]; omega

theorem sorted_base (l : List Track) : (sortBy Track.below l).Pairwise (fun t u => t.base ≤ u.base) := by
  refine List.Pairwise.imp ?_ (sortBy_pairwise Track.below below_total below_trans l)
  intro a b h
  simp only [Track.below, decide_eq_true_eq] at h; omega

/-! ## Merging -/

theorem absorb_id (u t : Track) : (u.absorb t).id = t.id ∧ (u.absorb t).base = t.base ∧ (u.absorb t).origin = t.origin :=
  ⟨rfl, rfl, rfl⟩

theorem merge_cases (t u : Track) : (mergeTracks t u = u.absorb t ∧ t.survives u = true) ∨
    (mergeTracks t u = t.absorb u ∧ u.survives t = true) := by
  simp only [mergeTracks]
  by_cases h : t.survives u = true
  · left; simp [h]
  · right; simp only [h]; refine ⟨by simp, ?_⟩
    simp only [Track.survives, decide_eq_true_eq] at h ⊢; omega

theorem combine_length (x y : List HistoryMark) : (combineHistory x y).length = max x.length y.length := by
  induction x generalizing y with
  | nil => simp [combineHistory]
  | cons a x ih =>
    cases y with
    | nil => simp [combineHistory]
    | cons b y => simp [combineHistory, ih]

theorem combine_left (x y : List HistoryMark) (n : Nat) (h : x[n]? = some .hit) :
    (combineHistory x y)[n]? = some .hit := by
  induction x generalizing y n with
  | nil => simp at h
  | cons a x ih =>
    cases y with
    | nil => simpa [combineHistory] using h
    | cons b y =>
      cases n with
      | zero => simp at h; simp [combineHistory, h]
      | succ n => simp at h; simpa [combineHistory] using ih y n h

theorem combine_right (x y : List HistoryMark) (n : Nat) (h : y[n]? = some .hit) :
    (combineHistory x y)[n]? = some .hit := by
  induction x generalizing y n with
  | nil => simpa [combineHistory] using h
  | cons a x ih =>
    cases y with
    | nil => simp at h
    | cons b y =>
      cases n with
      | zero => simp at h; simp [combineHistory, h]
      | succ n => simp at h; simpa [combineHistory] using ih y n h

theorem Track.Ok.own_hits (t : Track) (h : t.Ok) (ho : t.origin = .own) : 0 < t.hits := by
  obtain ⟨_, h2⟩ := h
  rw [ho] at h2
  simp only [Track.hits, List.countP_pos_iff]
  exact ⟨.hit, List.mem_of_getElem? h2.1, by simp⟩

theorem Track.Ok.peer_hits (t : Track) (h : t.Ok) (ho : t.origin = .peerOnly) : t.hits = 0 := by
  obtain ⟨_, h2⟩ := h
  rw [ho] at h2
  simp [Track.hits, h2.1]

theorem Track.absorb_ok (t u : Track) (ht : t.Ok) (hu : u.Ok) (hs : t.survives u = true) : (u.absorb t).Ok := by
  have hlen : (combineHistory t.history u.history).length ≤ 16 := by
    rw [combine_length]; have := ht.1; have := hu.1; omega
  refine ⟨hlen, ?_⟩
  have ht2 := ht.2; have hu2 := hu.2
  cases hto : t.origin <;> cases huo : u.origin <;> rw [hto] at ht2 <;> rw [huo] at hu2 <;>
    simp only [Track.absorb, hto, huo] <;> simp only [and_self, if_true, reduceCtorEq, and_false, false_and, if_false]
  · refine ⟨?_, by omega, by omega, ?_⟩
    · rcases le_total t.age u.age with h | h
      · rw [Nat.min_eq_left h]; exact combine_left _ _ _ ht2.1
      · rw [Nat.min_eq_right h]; exact combine_right _ _ _ hu2.1
    · trivial
  · exact ⟨combine_left _ _ _ ht2.1, ht2.2.1, ht2.2.2.1, trivial⟩
  · have h1 := Track.Ok.own_hits u hu huo
    have h2 := Track.Ok.peer_hits t ht hto
    simp only [Track.survives, decide_eq_true_eq] at hs; omega
  · refine ⟨by simp [ht2.1, hu2.1, combineHistory], trivial, trivial, ht2.2.2.2.1, ?_⟩
    obtain ⟨k, hk, _⟩ := ht2.2.2.2.2
    obtain ⟨m, hm, _⟩ := hu2.2.2.2.2
    exact ⟨max k m, by rw [hk, hm]; rfl, by omega, by omega⟩

theorem merge_ok (t u : Track) (ht : t.Ok) (hu : u.Ok) : (mergeTracks t u).Ok := by
  rcases merge_cases t u with ⟨h, hs⟩ | ⟨h, hs⟩ <;> rw [h]
  · exact Track.absorb_ok t u ht hu hs
  · exact Track.absorb_ok u t hu ht hs

theorem merge_keys (t u : Track) : ∃ v, (v = t ∨ v = u) ∧ v.id = (mergeTracks t u).id ∧
    v.base = (mergeTracks t u).base ∧ v.origin = (mergeTracks t u).origin := by
  rcases merge_cases t u with ⟨h, hs⟩ | ⟨h, hs⟩ <;> rw [h]
  · exact ⟨t, .inl rfl, rfl, rfl, rfl⟩
  · exact ⟨u, .inr rfl, rfl, rfl, rfl⟩

/-- One merge: a track fewer, sorted still, every track with the keys of one before, ids distinct still, records kept. -/
theorem mergeFirst_some (mMin : Nat) : ∀ (l m : List Track), mergeFirst mMin l = some m →
    m.length + 1 = l.length ∧
    (l.Pairwise (fun t u => t.base ≤ u.base) → m.Pairwise (fun t u => t.base ≤ u.base)) ∧
    (∀ t ∈ m, ∃ u ∈ l, u.id = t.id ∧ u.base = t.base ∧ u.origin = t.origin) ∧
    (l.Pairwise (fun t u => t.id ≠ u.id) → m.Pairwise (fun t u => t.id ≠ u.id)) ∧
    ((∀ t ∈ l, t.Ok) → ∀ t ∈ m, t.Ok) := by
  intro l
  induction l with
  | nil => intro m h; simp [mergeFirst] at h
  | cons t rest ih =>
    intro m h
    cases rest with
    | nil => simp [mergeFirst] at h
    | cons u rest =>
      simp only [mergeFirst] at h
      split at h
      · cases h
        obtain ⟨v, hv, h1, h2, h3⟩ := merge_keys t u
        refine ⟨by simp, ?_, ?_, ?_, ?_⟩
        · intro hp
          rw [List.pairwise_cons, List.pairwise_cons] at hp
          rw [List.pairwise_cons]
          refine ⟨?_, hp.2.2⟩
          intro x hx
          rw [← h2]
          rcases hv with hv | hv <;> subst hv
          · exact hp.1 x (List.mem_cons_of_mem _ hx)
          · exact hp.2.1 x hx
        · intro x hx
          rw [List.mem_cons] at hx
          rcases hx with hx | hx
          · subst hx
            exact ⟨v, by rcases hv with hv | hv <;> simp [hv], h1, h2, h3⟩
          · exact ⟨x, by simp [hx], rfl, rfl, rfl⟩
        · intro hp
          rw [List.pairwise_cons, List.pairwise_cons] at hp
          rw [List.pairwise_cons]
          refine ⟨?_, hp.2.2⟩
          intro x hx
          rw [← h1]
          rcases hv with hv | hv <;> subst hv
          · exact hp.1 x (List.mem_cons_of_mem _ hx)
          · exact hp.2.1 x hx
        · intro hok x hx
          rw [List.mem_cons] at hx
          rcases hx with hx | hx
          · subst hx; exact merge_ok t u (hok t (by simp)) (hok u (by simp))
          · exact hok x (by simp [hx])
      · rw [Option.map_eq_some_iff] at h
        obtain ⟨m', hm', rfl⟩ := h
        obtain ⟨i1, i2, i3, i4, i5⟩ := ih m' hm'
        refine ⟨by simp at i1 ⊢; omega, ?_, ?_, ?_, ?_⟩
        · intro hp
          rw [List.pairwise_cons] at hp
          rw [List.pairwise_cons]
          refine ⟨?_, i2 hp.2⟩
          intro x hx
          obtain ⟨y, hy, _, hb, _⟩ := i3 x hx
          rw [← hb]; exact hp.1 y hy
        · intro x hx
          rw [List.mem_cons] at hx
          rcases hx with hx | hx
          · subst hx; exact ⟨x, by simp, rfl, rfl, rfl⟩
          · obtain ⟨y, hy, hk⟩ := i3 x hx
            exact ⟨y, List.mem_cons_of_mem _ hy, hk⟩
        · intro hp
          rw [List.pairwise_cons] at hp
          rw [List.pairwise_cons]
          refine ⟨?_, i4 hp.2⟩
          intro x hx
          obtain ⟨y, hy, hi, _⟩ := i3 x hx
          rw [← hi]; exact hp.1 y hy
        · intro hok x hx
          rw [List.mem_cons] at hx
          rcases hx with hx | hx
          · subst hx; exact hok x (by simp)
          · exact i5 (fun y hy => hok y (List.mem_cons_of_mem _ hy)) x hx

/-- Nothing left to merge: every track stands above the lower one's tolerance. -/
theorem mergeFirst_none (mMin : Nat) : ∀ (l : List Track), mergeFirst mMin l = none →
    l.Pairwise (fun t u => t.base ≤ u.base) → l.Pairwise (fun t u => t.base + t.tol mMin < u.base) := by
  intro l
  induction l with
  | nil => intro _ _; simp
  | cons t rest ih =>
    intro h hp
    cases rest with
    | nil => simp
    | cons u rest =>
      simp only [mergeFirst] at h
      split at h
      · simp at h
      · rename_i hn
        rw [Option.map_eq_none_iff] at h
        rw [List.pairwise_cons] at hp
        have := ih h hp.2
        rw [List.pairwise_cons]
        refine ⟨?_, this⟩
        intro x hx
        rw [List.mem_cons] at hx
        have htu := hp.1 u (by simp)
        rcases hx with hx | hx
        · subst hx; omega
        · rw [List.pairwise_cons] at this
          have := this.1 x hx
          omega

/-! ## Ids -/

theorem freeIdFrom_free (tracks : List Track) : ∀ (n : Nat) (id : Byte),
    freeIdFrom tracks n id ∉ tracks.map Track.id ∨
    (∀ k : Nat, k < n → id + BitVec.ofNat 8 k ∈ tracks.map Track.id) := by
  intro n
  induction n with
  | zero => intro id; right; intro k hk; omega
  | succ n ih =>
    intro id
    simp only [freeIdFrom]
    split
    · rename_i h
      rcases ih (id + 1) with h1 | h1
      · exact .inl h1
      · right
        intro k hk
        cases k with
        | zero =>
          rw [List.any_eq_true] at h
          obtain ⟨t, ht, he⟩ := h
          rw [List.mem_map]; exact ⟨t, ht, by simpa using he⟩
        | succ k =>
          have := h1 k (by omega)
          have e : id + BitVec.ofNat 8 (k + 1) = id + 1 + BitVec.ofNat 8 k := by
            apply BitVec.eq_of_toNat_eq; simp; omega
          rw [e]; exact this
    · rename_i h
      left
      intro hm
      rw [List.mem_map] at hm
      obtain ⟨t, ht, he⟩ := hm
      exact h (by rw [List.any_eq_true]; exact ⟨t, ht, by simpa using he⟩)

theorem freeId_free (tracks : List Track) (id : Byte) (hl : tracks.length ≤ 200) :
    freeIdFrom tracks (tracks.length + 1) id ∉ tracks.map Track.id := by
  rcases freeIdFrom_free tracks (tracks.length + 1) id with h | h
  · exact h
  · exfalso
    have hsub : ((List.range (tracks.length + 1)).map (fun k => id + BitVec.ofNat 8 k)) ⊆ tracks.map Track.id := by
      intro x hx
      rw [List.mem_map] at hx
      obtain ⟨k, hk, rfl⟩ := hx
      exact h k (by simpa using hk)
    have hnd : ((List.range (tracks.length + 1)).map (fun k => id + BitVec.ofNat 8 k)).Nodup := by
      rw [List.nodup_map_iff_inj_on List.nodup_range]
      intro x hx y hy hxy
      simp at hx hy
      have := congrArg BitVec.toNat hxy
      simp at this
      omega
    have := (List.subperm_of_subset hnd hsub).length_le
    simp at this

theorem freeIdFrom_free' (l : List Track) (id : Byte) (hl : l.length ≤ 200) (t : Track) (ht : t ∈ l) :
    t.id ≠ freeIdFrom l (l.length + 1) id := by
  intro he
  exact freeId_free l id hl (by rw [List.mem_map]; exact ⟨t, ht, he⟩)

/-! ## The table's parts -/

/-- What holds of the table during an update, whatever its order. -/
structure TableOk (l : List Track) : Prop where
  few : l.length ≤ 5
  ids : l.Pairwise (fun t u => t.id ≠ u.id)
  records : ∀ t ∈ l, t.Ok

theorem Tracker.Ok.table {k : Tracker} (h : k.Ok) : TableOk k.tracks := ⟨h.few, h.ids, h.records⟩

theorem Track.hit_ok (c : Candidate) (t : Track) (ho : t.origin = .own) (h : t.Ok) : (t.hit c).Ok := by
  have h2 := h.2; rw [ho] at h2
  refine ⟨by simp [Track.hit, appendOutcome, Config.maxHistory], ?_⟩
  simp [Track.hit, ho, appendOutcome, h2.2.2.2, Config.maxHistory]

theorem Track.promote_ok (c : Candidate) (t : Track) : (t.promote c).Ok := ⟨by simp [Track.promote], by simp [Track.promote]⟩

theorem Track.judge_ok (reach : Nat) (c : Option Candidate) (t u : Track) (h : t.Ok) (hj : t.judge reach c = some u) :
    u.Ok ∧ u.id = t.id := by
  have h2 := h.2
  simp only [Track.judge] at hj
  split at hj
  · cases hj
    simp only [Track.matched]
    repeat' split
    · exact ⟨h, rfl⟩
    · exact ⟨Track.hit_ok _ t ‹_› h, rfl⟩
    · exact ⟨Track.promote_ok _ t, rfl⟩
  · split at hj
    · rename_i ho
      rw [ho] at h2
      split at hj
      · simp at hj
      · rename_i hout
        cases hj
        simp only [Track.outlived, decide_eq_true_eq, not_or, not_le] at hout
        simp only [Track.missed] at hout ⊢
        split
        · rename_i hr
          rw [if_pos hr] at hout
          refine ⟨⟨h.1, ?_⟩, rfl⟩
          rw [ho]; exact ⟨h2.1, h2.2.1, by simp at hout ⊢; omega, h2.2.2.2⟩
        · rename_i hr
          rw [if_neg hr] at hout
          simp only at hout
          refine ⟨⟨by simp [appendOutcome, Config.maxHistory], ?_⟩, rfl⟩
          rw [ho]
          refine ⟨?_, by simp; omega, h2.2.2.1, h2.2.2.2⟩
          simp only [appendOutcome, Config.maxHistory]
          rw [List.getElem?_take_of_lt (by omega), List.getElem?_cons_succ]
          exact h2.1
    · rename_i ho
      rw [ho] at h2
      simp only [Track.lapsed] at hj
      obtain ⟨h3, h4, h5, h6, k, hk, hk1, hk2⟩ := h2
      rw [hk] at hj
      simp only at hj
      split at hj
      · simp at hj
      · cases hj
        refine ⟨⟨h.1, ?_⟩, rfl⟩
        rw [ho]; exact ⟨h3, h4, h5, h6, k - 1, rfl, by omega, by omega⟩

theorem placed_mem {α : Type} (l : List α) : ∀ (n : Nat) (p : Nat × α), p ∈ placed n l → p.2 ∈ l := by
  induction l with
  | nil => intro n p h; simp [placed] at h
  | cons x rest ih =>
    intro n p h
    simp only [placed, List.mem_cons] at h
    rcases h with h | h
    · simp [h]
    · exact List.mem_cons_of_mem _ (ih _ p h)

theorem placed_map {α : Type} (l : List α) (n : Nat) : (placed n l).map Prod.snd = l := by
  induction l generalizing n with
  | nil => rfl
  | cons x rest ih => simp [placed, ih]

theorem TableOk.filterMap (l : List Track) (hok : TableOk l) (ps : List (Nat × Track)) (hp : ps.map Prod.snd = l)
    (g : Nat × Track → Option Track) (hg : ∀ p u, p.2 ∈ l → g p = some u → u.Ok ∧ u.id = p.2.id) :
    TableOk (ps.filterMap g) := by
  refine ⟨?_, ?_, ?_⟩
  · have h1 := List.length_filterMap_le g ps
    have : ps.length = l.length := by rw [← hp]; simp
    have := hok.few
    omega
  · have hids := hok.ids
    rw [← hp, List.pairwise_map] at hids
    rw [List.pairwise_filterMap]
    refine List.Pairwise.imp_of_mem ?_ hids
    intro a b ha hb hab x hx y hy
    have hma : a.2 ∈ l := by rw [← hp]; exact List.mem_map_of_mem (f := Prod.snd) ha
    have hmb : b.2 ∈ l := by rw [← hp]; exact List.mem_map_of_mem (f := Prod.snd) hb
    rw [(hg a x hma hx).2, (hg b y hmb hy).2]; exact hab
  · intro t ht
    rw [List.mem_filterMap] at ht
    obtain ⟨p, hpm, hpt⟩ := ht
    have hma : p.2 ∈ l := by rw [← hp]; exact List.mem_map_of_mem (f := Prod.snd) hpm
    exact (hg p t hma hpt).1

theorem judgeTracks_ok (mMin reach : Nat) (cs : List Candidate) (l : List Track) (h : TableOk l) :
    TableOk (judgeTracks mMin reach cs l) :=
  TableOk.filterMap l h (placed 0 l) (placed_map l 0) _ (fun p u hp hu => Track.judge_ok reach _ p.2 u (h.records _ hp) hu)

theorem newTrack_ok (id : Byte) (c : Candidate) : (newTrack id c).Ok := ⟨by simp [newTrack], by simp [newTrack]⟩

theorem addTrack_ok (c : Candidate) (k : Tracker) (h : TableOk k.tracks) (hl : k.tracks.length < 5) :
    TableOk (k.addTrack c).tracks := by
  refine ⟨by simp [Tracker.addTrack]; omega, ?_, ?_⟩
  · simp only [Tracker.addTrack]
    rw [List.pairwise_append]
    refine ⟨h.ids, by simp, ?_⟩
    intro a ha b hb
    simp at hb; subst hb
    exact freeIdFrom_free' _ _ (by omega) a ha
  · intro t ht
    simp only [Tracker.addTrack, List.mem_append, List.mem_singleton] at ht
    rcases ht with ht | ht
    · exact h.records t ht
    · subst ht; exact newTrack_ok _ _

theorem takeFresh_ok (c : Candidate) (k : Tracker) (h : TableOk k.tracks) : TableOk (k.takeFresh c).tracks := by
  simp only [Tracker.takeFresh]
  split
  · rename_i hl; exact addTrack_ok c k h hl
  · split
    · exact h
    · rename_i v hv
      split
      · have hmem : v ∈ k.tracks := by
          have := List.mem_of_mem_head? hv
          exact (sortBy_perm _ _).mem_iff.1 this
        apply addTrack_ok
        · refine ⟨?_, ?_, ?_⟩
          · simp only [List.length_erase_of_mem hmem]; have := h.few; omega
          · exact h.ids.sublist List.erase_sublist
          · intro t ht; exact h.records t (List.mem_of_mem_erase ht)
        · simp only [List.length_erase_of_mem hmem]
          have := h.few; have := List.length_pos_of_mem hmem; omega
      · exact h

theorem foldFresh_ok (cs : List Candidate) : ∀ k : Tracker, TableOk k.tracks →
    TableOk (cs.foldl Tracker.takeFresh k).tracks := by
  induction cs with
  | nil => intro k h; exact h
  | cons c rest ih => intro k h; exact ih _ (takeFresh_ok c k h)

/-! ## Peer reports -/

theorem nearest_mem (mMin base : Nat) (l : List (Track × Bool)) (p : Nat) (t : Track) (b : Bool)
    (h : nearestTrack mMin base l = some (p, t, b)) : l[p]? = some (t, b) := by
  have hm : (p, t, b) ∈ placed 0 l := by
    have := List.mem_of_mem_head? h
    have := (sortBy_perm _ _).mem_iff.1 this
    exact (List.mem_filter.1 this).1
  have gen : ∀ (l : List (Track × Bool)) (n p : Nat) (x : Track × Bool), (p, x) ∈ placed n l →
      n ≤ p ∧ l[p - n]? = some x := by
    intro l
    induction l with
    | nil => intro n p x h; simp [placed] at h
    | cons y rest ih =>
      intro n p x h
      simp only [placed, List.mem_cons] at h
      rcases h with h | h
      · cases h; simp
      · obtain ⟨h1, h2⟩ := ih (n + 1) p x h
        refine ⟨by omega, ?_⟩
        have e : p - n = (p - (n + 1)) + 1 := by omega
        rw [e, List.getElem?_cons_succ]; exact h2
  simpa using (gen l 0 p (t, b) hm).2

theorem Track.confirmedBy_ok (n : StationNo) (base : Nat) (t : Track) (h : t.Ok) :
    (t.confirmedBy n base).Ok ∧ (t.confirmedBy n base).id = t.id ∧
      (t.origin = .own → (t.confirmedBy n base).base = t.base) := by
  have h2 := h.2
  simp only [Track.confirmedBy]
  split
  · rename_i ho
    refine ⟨⟨h.1, ?_⟩, rfl, fun _ => rfl⟩
    rw [ho] at h2 ⊢; exact h2
  · rename_i ho
    refine ⟨⟨h.1, ?_⟩, rfl, by rw [ho]; simp⟩
    rw [ho] at h2 ⊢
    exact ⟨h2.1, h2.2.1, h2.2.2.1, h2.2.2.2.1, 3, rfl, by omega, by omega⟩

theorem set_pairwise {α β : Type} (f : α → β) (R : β → β → Prop) (l : List α) (i : Nat) (x y : α) (hx : l[i]? = some x)
    (hf : f y = f x) (h : l.Pairwise (fun a b => R (f a) (f b))) : (l.set i y).Pairwise (fun a b => R (f a) (f b)) := by
  have : (l.set i y).map f = l.map f := by
    rw [List.map_set, hf]
    apply List.ext_getElem?
    intro k
    rw [List.getElem?_set]
    split
    · rename_i hk; subst hk
      rw [List.getElem?_map, hx]
      split
      · rfl
      · rename_i hl
        rw [List.getElem?_eq_some_iff] at hx
        obtain ⟨hl', _⟩ := hx
        simp at hl; omega
    · rfl
  rw [← List.pairwise_map (R := R)] at h ⊢
  rw [this]; exact h

/-- A peer report under way: the table's parts, and the ascending order for as long as no base has changed. -/
structure PassOk (p : PeerPass) : Prop where
  few : p.tracks.length ≤ 5
  ids : p.tracks.Pairwise (fun a b => a.1.id ≠ b.1.id)
  records : ∀ a ∈ p.tracks, a.1.Ok
  ascending : p.changed = false → p.tracks.Pairwise (fun a b => a.1.base < b.1.base)

theorem PeerPass.take_ok (mMin : Nat) (reach : Option Nat) (n : StationNo) (p : PeerPass) (l : LayerFields) (h : PassOk p) :
    PassOk (p.take mMin reach n l) := by
  simp only [PeerPass.take]
  split
  · rename_i i t b hn
    have hm := nearest_mem _ _ _ _ _ _ hn
    split
    · exact h
    · have hok := Track.confirmedBy_ok n l.base.toNat t (h.records _ (List.mem_of_getElem? hm))
      refine ⟨by simpa using h.few, ?_, ?_, ?_⟩
      · exact set_pairwise (fun a => a.1.id) (· ≠ ·) _ _ (t, b) (t.confirmedBy n l.base.toNat, true) hm hok.2.1 h.ids
      · intro a ha
        rcases List.mem_or_eq_of_mem_set ha with ha | ha
        · exact h.records a ha
        · subst ha; exact hok.1
      · intro hc
        simp at hc
        refine set_pairwise (fun a => a.1.base) (· < ·) _ _ (t, b) (t.confirmedBy n l.base.toNat, true) hm (hok.2.2 ?_) (h.ascending hc.1)
        cases ho : t.origin
        · rfl
        · exact absurd ho hc.2
  · split
    · rename_i hc
      have hl : p.tracks.length < 5 := hc.2.2
      refine ⟨by simp; omega, ?_, ?_, by simp⟩
      · rw [List.pairwise_append]
        refine ⟨h.ids, by simp, ?_⟩
        intro a ha b hb
        simp at hb; subst hb
        have := freeIdFrom_free' (p.tracks.map Prod.fst) p.nextId (by simp; omega) a.1
          (List.mem_map_of_mem (f := Prod.fst) ha)
        simpa [adoptedTrack] using this
      · intro a ha
        rw [List.mem_append] at ha
        rcases ha with ha | ha
        · exact h.records a ha
        · simp at ha; subst ha
          exact ⟨by simp [adoptedTrack], by simp [adoptedTrack]⟩
    · exact h

theorem PeerPass.fold_ok (mMin : Nat) (reach : Option Nat) (n : StationNo) (ls : List LayerFields) :
    ∀ p : PeerPass, PassOk p → PassOk (ls.foldl (PeerPass.take mMin reach n) p) := by
  induction ls with
  | nil => intro p h; exact h
  | cons l rest ih => intro p h; exact ih _ (PeerPass.take_ok _ _ _ _ _ h)

theorem Tracker.Ok.of_map (k : Tracker) (f : Track → Track) (hf : ∀ t, (f t).id = t.id ∧ (f t).base = t.base)
    (ho : ∀ t : Track, t.Ok → (f t).Ok) (h : k.Ok) (l : Tracker) (hl : l.tracks = k.tracks.map f) : l.Ok := by
  refine ⟨by rw [hl]; simpa using h.few, ?_, ?_, ?_⟩
  · rw [hl, List.pairwise_map]; simpa [hf] using h.ascending
  · rw [hl, List.pairwise_map]; simpa [hf] using h.ids
  · intro t ht; rw [hl, List.mem_map] at ht; obtain ⟨a, ha, rfl⟩ := ht; exact ho a (h.records a ha)

end Sys2Proof.Machine
end

