-- ==== Sys2Proof/WellFormed.lean ====
section
/-! DEFINITION. Which terms of Instr are commands the outside of a CX22 can give: the bounds the spec puts on the
operands. exec is total and says what it does with the others too (log 23). -/

namespace Sys2Proof

/-- A command whose operands keep the spec's bounds. -/
def Instr.wf : Instr → Bool
  | .powerOn _ => true
  | .pinReset _ => true
  | .slotStart _ => true
  | .cycleBoundary => true
  | .heardEntryLapse _ => true
  | .suppressionEnd => true
  | .crossingPeerLapse _ => true
  | .noticeCountdownExpiry => true
  | .chargeTimeout => true
  | .deadlineExpiry => true
  | .listenCountdownExpiry => true
  | .holdOffExpiry => true
  | .quietEnd => true
  | .chargeDone => true
  | .bandChange _ => true
  | .energyReading _ => true
  | .shotWindowEnd => true
  | .rangeCaptureComplete samples => decide (samples.length ≤ Config.bins)
  | .reductionComplete => true
  | .loadComplete record => record.length == 64
  | .lineIdle => true
  | .attemptStart => true
  | .arbitrationLoss bit => decide (bit < 40)
  | .collisionError bit => decide (bit < 425)
  | .frameTransmitted => true
  | .frameDiscard bits delimiter => decide (bits.length ≤ 448 ∧ delimiter.length ≤ 8)
  | .notice sender _ _ => Machine.isStation sender
  | .claim sender _ => Machine.isStation sender
  | .report sender fields => Machine.isStation sender && decide (fields.layers.length ≤ 5)
  | .status sender payload => Machine.isStation sender && Machine.statusLengthAgrees payload
  | .query sender _ _ => Machine.isRecorder sender
  | .quiet sender _ _ => Machine.isRecorder sender
  | .restartTracking sender _ => Machine.isRecorder sender
  | .restartFiring sender _ => Machine.isRecorder sender
  | .restartStation sender _ => Machine.isRecorder sender
  | .startBit => true

end Sys2Proof
end

