-- ==== Sys2Proof/Tests/Slice0.lean ====
section
/-! SUPPORT. Tests: ill-formed terms, worked sequences of the manual, and for every statement with hypotheses a state
and operands that meet them. -/

namespace Sys2Proof.Tests

open Sys2Proof.Machine

/-! ## Small states -/

/-- A configuration with S = 2, N = 64, L = 14. -/
def cfg : StationConfig where
  mode := .fixed
  fixedNo := 5
  elevation := 640
  tilt := 887
  shots := 2
  exponent := 6
  period := 2
  level := 14
  limit := 2000
  overlap := 20
  tMin := 5000
  mMin := 50

/-- An ACCEPTING bank with a deadline and a shot count. -/
def accepting (deadline m : Nat) : Bank := { Bank.blank with state := .accepting, deadline := deadline, m := m }

/-- A RUNNING station 5 with slot 8 settled, station 3 as its only crossing peer, and the laser CHARGED. -/
def running : State :=
  { State.reset with
    timer := { Timer.reset with ref := some 5 }
    num := { Numbering.reset 7 with state := .numbered, own := some 5, mode := .fixed }
    loader := ⟨.running, some cfg, true, false⟩
    calendar :=
      { state := .active, claims := [some ⟨8, .settled, 2⟩, none],
        peers := [⟨3, 230, 270, some 10, 0x10, 0, some 1⟩], countdown := some 1, releases := 0 }
    laser := { Laser.reset .full with driver := .charged, level := some 14, lt := 14 }
    expo := { Exposure.reset with limit := 2000 }
    banks := { Banks.reset with a := accepting 250 0, seq := 1 } }

/-- The laser of the running station in another driver state. -/
def driverIn (d : Driver) (level : Option Nat) (timeout : Nat) : State :=
  running.mapLaser fun l => { l with driver := d, level := level, timeout := timeout }

/-- A shot in flight into bank A, with its reading or without. -/
def inFlight (window : WindowState) (code : Option Nat) (range : List Sample) : State :=
  (driverIn (if code = none then .fired else .idle) none 0).mapFront fun f =>
    { f with window := window, shot := some ⟨.a, f.pre, range, code, .accumulate, 0⟩ }

/-- The running station with its banks in these states. -/
def banksIn (a b : BankState) : State :=
  running.mapBanks fun _ => ⟨{ Bank.blank with state := a }, { Bank.blank with state := b }, 3⟩

/-- The running station, left for another station state. -/
def stationIn (st : StationState) (s : State) : State := s.mapLoader fun l => { l with station := st }

/-- A numbering unit without a number. -/
def unnumbered (st : NumState) (wanted : Option StationNo) (listen holdOff : Option Nat) (taken : StationSet) : State :=
  { State.reset with
    num :=
      { Numbering.reset 7 with state := st, wanted := wanted, listen := listen, holdOff := holdOff, taken := taken } }

/-- The line of the running station in a state. -/
def lineIn (st : LineState) (set : TransmitSet) (a : Option Attempt) : State :=
  running.mapLine fun l => { l with state := st, set := set, attempt := a }

/-- A thin result. -/
def thin : ResultRecord := ⟨4, 3, true, false, false, false, false, false, none, none, none, []⟩

/-- A NOTICE at a position with nothing claimed. -/
def noticeAt (slot : Byte) (phase : BitVec 16) : NoticeFields := ⟨⟨slot, phase, 0, 0, 14, 2⟩, 9⟩

/-- A track with the given history. -/
def track (id : Byte) (o : Origin) (base : Nat) (history : List HistoryMark) (lapse : Option Nat) : Track :=
  ⟨id, o, base, none, none, history, 0, 0, 0, lapse⟩

/-- A candidate. -/
def candidate (base top peak : Nat) (i : Int) (suspect : Bool) : Candidate := ⟨base, some top, peak, i, suspect⟩

/-- A layer of a REPORT. -/
def layer (base top : BitVec 16) (cover : BitVec 4) (peerOnly : Bool) : LayerFields := ⟨0, base, top, cover, peerOnly, 0, 0⟩

/-- A REPORT with these layers. -/
def reportOf (halted : Bool) (layers : List LayerFields) : ReportFields :=
  ⟨1, ⟨false, false, false, false, false, false, false, halted⟩, 0xFFFF, 0xFFFF, 0xFFFF, layers⟩

/-! ## Ill-formed terms -/

theorem test_wf_capture : (Instr.rangeCaptureComplete (List.replicate 801 0)).wf = false := by decide +kernel
theorem test_wf_load : (Instr.loadComplete (List.replicate 63 0)).wf = false := by decide
theorem test_wf_arbitration : (Instr.arbitrationLoss 40).wf = false := by decide
theorem test_wf_collision : (Instr.collisionError 425).wf = false := by decide
theorem test_wf_discard : (Instr.frameDiscard [] (List.replicate 9 true)).wf = false := by decide
theorem test_wf_notice : (Instr.notice 16 9 (noticeAt 0 0).toNoticeBody).wf = false := by decide
theorem test_wf_claim : (Instr.claim 24 0).wf = false := by decide
theorem test_wf_report : (Instr.report 3 (reportOf false (List.replicate 6 (layer 9 9 0 false)))).wf = false := by decide
theorem test_wf_report_sender : (Instr.report 31 (reportOf false [])).wf = false := by decide
theorem test_wf_status : (Instr.status 3 [24, 1, 0, 0]).wf = false := by decide
theorem test_wf_status_sender : (Instr.status 23 [24, 1, 0]).wf = false := by decide
theorem test_wf_query : (Instr.query 31 5 0).wf = false := by decide
theorem test_wf_quiet : (Instr.quiet 5 5 1).wf = false := by decide
theorem test_wf_restart_tracking : (Instr.restartTracking 16 5).wf = false := by decide
theorem test_wf_restart_firing : (Instr.restartFiring 23 5).wf = false := by decide
theorem test_wf_restart_station : (Instr.restartStation 31 5).wf = false := by decide
theorem test_wf_accepts :
    (Instr.notice 3 9 (noticeAt 12 30).toNoticeBody).wf = true ∧ (Instr.status 3 [24, 1, 0]).wf = true ∧
      (Instr.query 24 5 3).wf = true ∧ (Instr.quiet 30 31 255).wf = true := by decide

/-- The table gives no row any bits. -/
theorem test_no_word (nbits w : Nat) : decodeTableWord nbits w = none := rfl

/-! ## Worked sequences of the manual -/

/-- The frame bits of CLAIM, wanted 4 (09, four frames at one gap): header 000 00100. -/
theorem test_claim_header : (Frame.claim 4 0).arbitrationBits.take 8 =
    [false, false, false, false, false, true, false, false] := by decide

/-- The lengths in bit times with the start bit: 73, 177 and 57 (09, four frames at one gap). -/
theorem test_frame_lengths :
    (Frame.claim 4 0x00B40012).bits.length + 1 = 73 ∧ (Frame.notice 3 (noticeAt 0 0)).bits.length + 1 = 177 ∧
      (Frame.query 24 31 0).bits.length + 1 = 57 := by decide +kernel

/-- A NOTICE and its CRC read back, and a flipped payload bit is a CRC discard. -/
theorem test_notice_reads_back :
    checkFrame (Frame.notice 3 (noticeAt 12 30)).bits = .ok (.notice 3 (noticeAt 12 30)) ∧
      checkFrame ((Frame.notice 3 (noticeAt 12 30)).bits.set 20 true) = .error .crc := by decide +kernel

/-- The slew of 3 µs (section 1.3.1): the measurement at slot 12, and the adjustment at slot start 31. -/
theorem test_slew :
    offset 3030 3027 = 3 ∧ offset 10 7990 = 20 ∧ offset 7990 10 = -20 ∧
      ({ Timer.reset with slew := 3 } : Timer).fixNext = { Timer.reset with slew := 2, nextAdj := -1 } := by decide

/-- The ideal slots of stations 1, 5 and 9 (section 2.8). -/
theorem test_ideal_slots :
    (List.range 4).map (idealSlot 1 4) = [1, 9, 17, 25] ∧
      (List.range 8).map (idealSlot 5 8) = [1, 5, 9, 13, 17, 21, 25, 29] ∧
      (List.range 2).map (idealSlot 9 2) = [9, 25] := by decide

/-- Station 5 with S = 2 and slot 5 held by station 3 claims 6 instead (R26). -/
theorem test_claiming :
    fillClaims 5 2 0 0x20#32 [none, none] = [some (newClaim 6), some (newClaim 21)] := by decide

/-- Cases A and B of normalized intensity, exact halves away from zero, and the clamp (R90, R91). -/
theorem test_intensity :
    intensityOf 50176 99 128000 = 78125 ∧ intensityOf 50176 99 127999 = 78124 ∧ intensityOf 50176 99 (-127999) = -78124 ∧
      roundAway 5 2 = 3 ∧ roundAway (-5) 2 = -3 ∧ intensityOf 1 799 1000000 = 4194303 ∧
      intensityOf 1 799 (-1000000) = -4194304 := by decide

/-- Halves up, and the classes around the thresholds (05, worked cases). -/
theorem test_background_and_classes :
    background 819200 = 25600 ∧ background 819215 = 25600 ∧ background 819216 = 25601 ∧
      classOf 5001 2000 128000 78125 = .strong ∧ classOf 5001 2000 9000 5000 = .neither ∧
      classOf 5001 2000 7999 60000 = .neither ∧ classOf 5001 2000 3999 60000 = .weak := by decide

/-- The datum heights of the fog under two layers (06). -/
theorem test_datum_heights : [27, 60, 73, 240, 255, 799].map (datumHeight 640 887) = [878, 1164, 1277, 2723, 2853, 7565] := by
  decide

/-- Bins of one class. -/
def span (n : Nat) (c : BinClass) : List BinClass := List.replicate n c

/-- The classes of fog under two layers (06), from bin 0. -/
def fogClasses : List BinClass :=
  List.flatten [span 20 .weak, span 8 .strong, span 32 .weak, span 12 .strong, span 1 .weak, span 1 .neither,
    span 166 .weak, span 12 .strong, span 1 .neither, span 2 .weak, span 1 .neither, span 544 .weak]

/-- Its intensities: peaks at bin 64, and at bins 246 and 249. -/
def fogIntensity : List Int :=
  ((((List.replicate 800 0).set 64 61200).set 246 140800).set 249 140800)

/-- The scan of fog under two layers (06): the obscuring run 20..27, the candidates 60..73 and 240..255. -/
theorem test_fog_scan :
    scanProfile 20 fogClasses fogIntensity =
      { mode := .ended, position := 798, openRun := none, obscuring := some ⟨20, some 27, 20, 0⟩,
        candidates := [⟨60, some 73, 64, 61200⟩, ⟨240, some 255, 246, 140800⟩], cause := some .exhausted } := by
  decide +kernel

/-- The example of section 7.5: q matches Y and p matches X. -/
theorem test_matching :
    matchesOf 50 [candidate 1240 1300 0 0 false, candidate 1270 1300 0 0 false]
        [track 1 .own 1200 [.hit] none, track 2 .own 1300 [.hit] none] =
      [⟨1, 1, 30, 1300, 1270⟩, ⟨0, 0, 40, 1200, 1240⟩] := by decide

/-- A valley morning, profile 103 (07): C2 becomes track 9 and merges into track 8. -/
theorem test_valley_103 :
    (Tracker.ownUpdate 50
        { thin with
          thin := false, reach := some 7565,
          candidates := [candidate 1181 1199 62 64800 false, candidate 1242 1268 70 9400 false,
            candidate 2732 2862 245 138000 false] }
        { tracks :=
            [{ track 8 .own 1169 [.hit] none with peers := 2 },
             { track 7 .own 2730 [.hit, .hit, .hit, .miss, .hit] none with unseen := 2, peers := 2 }],
          reach := some 7565, nextId := 9, overflow := false, ceiling := some 1169 }) =
      { tracks :=
          [{ track 8 .own 1172 [.hit, .hit] none with top := some 1199, peak := some 64800, peers := 2 },
           { track 7 .own 2731 [.hit, .hit, .hit, .hit, .miss, .hit] none with
             top := some 2862, peak := some 138000, peers := 2 }],
        reach := some 7565, nextId := 10, overflow := false, ceiling := some 1172 } := by decide +kernel

/-- The covers of 07: 4 hits in 5 are 6 oktas, 5 in 6 are 7, 5 in 7 are 6. -/
theorem test_cover :
    (track 7 .own 2730 [.hit, .hit, .hit, .miss, .hit] none).cover = 6 ∧
      (track 7 .own 2730 [.hit, .hit, .hit, .hit, .miss, .hit] none).cover = 7 ∧
      (track 7 .own 2730 [.miss, .hit, .hit, .hit, .hit, .miss, .hit] none).cover = 6 := by decide

/-- One report, five layers (08). -/
theorem test_five_layers :
    Tracker.peerReport 50 5
        [layer 1150 1240 6 false, layer 1900 1980 5 false, layer 2460 0xFFFF 4 false, layer 4300 4420 0 true,
          layer 5200 0xFFFF 3 false]
        { tracks := [track 12 .own 1180 [.hit] none, track 15 .peerOnly 2400 [] (some 2),
            { track 16 .peerOnly 3900 [] (some 1) with peers := 0x200 }],
          reach := some 2000, nextId := 17, overflow := false, ceiling := none } =
      { tracks := [{ track 12 .own 1180 [.hit] none with peers := 0x20 },
          { track 15 .peerOnly 2415 [] (some 3) with peers := 0x20 },
          { track 16 .peerOnly 3900 [] (some 1) with peers := 0x200 },
          { track 17 .peerOnly 5200 [] (some 3) with peers := 0x20 }],
        reach := some 2000, nextId := 18, overflow := false, ceiling := none } := by decide +kernel

/-- The budget at a low limit (03): the exposure total 1,745 passes, 1,746 fails. -/
theorem test_budget :
    ({ Exposure.reset with total := 1568, current := 177, limit := 2000 } : Exposure).overBudget = false ∧
      ({ Exposure.reset with total := 1568, current := 178, limit := 2000 } : Exposure).overBudget = true := by decide

/-- A supply dip (03): CHARGED at 14, REDUCED bleeds and charges to 12. -/
theorem test_supply_dip :
    (bandReport .reduced running).laser =
      { running.laser with band := .reduced, lt := 12, driver := .charging, level := some 12, timeout := 2 } := by decide

/-- A recorder holds a station silent (11): 4 seconds are 500 cycles. -/
theorem test_quiet : (takeQuiet 5 4 running).req.quiet = 500 ∧ (takeQuiet 6 4 running).req.quiet = 0 := by decide

/-- The listen ends (10, two newcomers): stations 0, 1 and 3 are taken, 2 is wanted. -/
theorem test_choose : (choose (unnumbered .listen none (some 1) none 0b1011)).num.wanted = some 2 := by decide

/-- Lengths of the STATUS items (R159). -/
theorem test_status_lengths :
    (statusPayload 25 0 running).length = 38 ∧ (statusPayload 25 1 running).length = 3 ∧
      (statusPayload 25 2 running).length = 38 ∧ (statusPayload 25 3 running).length = 30 := by decide

/-- The position 676 µs on, over a shortened and a lengthened cycle (R11). -/
theorem test_ahead :
    ({ Timer.reset with pos := ⟨31, 0⟩ } : Timer).ahead 676 = ⟨1, 176⟩ ∧
      ({ Timer.reset with pos := ⟨31, 0⟩, curAdj := -1 } : Timer).ahead 676 = ⟨1, 177⟩ ∧
      ({ Timer.reset with pos := ⟨29, 74⟩, curAdj := 1 } : Timer).ahead 676 = ⟨31, 249⟩ := by decide

/-- A frame's position is that of 32 µs before its end, also over the end of a cycle of 8,001 µs (R9, R152). -/
theorem test_latch :
    (latch (running.mapTimer fun t => { t with pos := ⟨12, 59⟩ })).line.latched = ⟨12, 27⟩ ∧
      (latch (running.mapTimer fun t => { t with pos := ⟨0, 10⟩, prevAdj := 1 })).line.latched = ⟨31, 229⟩ := by decide

/-- A slot start that was due before a step is not raised, the one after the slot stepped into is (R12, R15). -/
theorem test_stale_slot_start :
    let s := running.mapTimer fun t => { t with pos := ⟨7, 12⟩, stepped := true }
    execSlotStart 5 s = .next s ∧ execCycleBoundary s = .next s ∧
      ∃ t, execSlotStart 8 s = .next t ∧ t.timer.pos = ⟨8, 0⟩ ∧ t.timer.stepped = false := by
  exact ⟨rfl, rfl, _, rfl, by decide, by decide⟩

/-- SHOT_WINDOW_END at a window still CAPTURING takes the dud and goes on capturing (log 37). -/
theorem test_window_end_while_capturing :
    let t := windowEnd (inFlight .capturing none [])
    t.front.window = .capturing ∧ t.front.shot.map Shot.disposition = some .dud ∧ t.laser.dudRun = 1 ∧
      t.banks.a.inFlight = 0 := by decide +kernel

/-- A shot found a dud and then discarded completes at bin 799 (R65, R77). -/
theorem test_discarded_dud_completes :
    (convert (List.replicate 800 0) (emptyBanks (dudReading (inFlight .capturing none [])))).front.shot = none := by
  decide +kernel

/-- The idle gap is 11 bit times: a waiting NOTICE starts with the 12th (R150, R153). -/
theorem test_idle_gap :
    let s := lineIn .waitIdle { TransmitSet.none with notice := some ⟨(), 0⟩ } none
    let after (n : Nat) := (List.range n).foldl (fun s _ => lineTick s) s
    (after 43).line.state = .waitIdle ∧ (after 44).line.state = .sending := by decide +kernel

/-- A start bit that a waiting frame joins begins the bit times anew, as one that is only received does (R150, R153). -/
theorem test_start_bit_aligns :
    let at2 (set : TransmitSet) := (lineIn .idle set none).mapLine fun l => { l with bitPhase := 2 }
    let joined := otherStartBit (at2 { TransmitSet.none with notice := some ⟨(), 0⟩ })
    let heard := otherStartBit (at2 TransmitSet.none)
    (joined.line.state = .sending ∧ joined.line.bitPhase = 0) ∧
      (heard.line.state = .receiving ∧ heard.line.bitPhase = 0) := by decide

/-! ## For every statement with hypotheses, states and operands that meet them

Each theorem is named after its statement; each part of it meets the hypotheses of one clause together. -/

theorem test_meets_StepRunsTheFrontCommandOrOneMicrosecond :
    State.reset.pending = [] ∧ State.reset.timer.held = false ∧ -1 ≤ State.reset.timer.curAdj ∧
      State.reset.timer.pos.phase.val < 248 := by decide

/-- Phase 248, the last phase of a slot, and the ends of slot 31 after 249, 250 and 251 microseconds, with the held one. -/
theorem test_meets_SlotArrivalAndCycleEnd :
    let s (slot : Slot) (phase : Fin 250) (adj : Int) (held : Bool) := State.reset.mapTimer fun t =>
      { t with pos := ⟨slot, phase⟩, curAdj := adj, held := held }
    (∀ x ∈ [s 3 248 (-1) false, s 31 248 0 false],
      x.pending = [] ∧ (tick x).timer.pos.phase = 249 ∧ (tick x).timer.pos.slot = x.timer.pos.slot) ∧
      (tick (s 3 249 0 false)).timer.pos = ⟨4, 0⟩ ∧
      (∀ x ∈ [s 31 248 (-1) false, s 31 249 0 false, s 31 249 1 true],
        (tick x).timer.pos = ⟨0, 0⟩ ∧ (tick x).timer.cycles = 1) ∧
      (tick (s 31 249 1 false)).timer.pos = ⟨31, 249⟩ ∧ (tick (s 31 249 1 false)).timer.held = true := by decide +kernel

theorem test_meets_ResetAndRestartOfTheRequestHandler : isRecorder 24 = true ∧ running.isOwnTarget 5 = true := by decide

/-- The running station just stepped into a slot. -/
def steppedInto (slot : Slot) : State := running.mapTimer fun t => { t with pos := ⟨slot, 12⟩, stepped := true }

theorem test_meets_SlotStartFixesTheNextAdjustment :
    (∀ c, some c ∈ running.calendar.claims → c.slot = 31 → c.state ≠ .settled) ∧ running.timer.stepped = false ∧
      (steppedInto 30).timer.stepped = true ∧ (31 : Slot).val = (steppedInto 30).timer.pos.slot.val + 1 ∧
      (31 : Slot).val ≠ (steppedInto 31).timer.pos.slot.val + 1 := by
  refine ⟨by simp [running], by decide, by decide, by decide, by decide⟩

theorem test_meets_ShotIsTriggeredWhenNoTestFails :
    some (⟨8, .settled, 2⟩ : Claim) ∈ running.calendar.claims ∧ running.timer.stepped = false ∧
      (8 : Slot).val = (steppedInto 7).timer.pos.slot.val + 1 ∧ ∀ r, ¬running.TestFails r := by
  refine ⟨by simp [running], by decide, by decide, fun r => ?_⟩
  cases r <;> simp [State.TestFails, running, accepting, Bank.blank, Banks.reset, State.reset, Laser.reset, Timer.reset,
    Request.reset, Exposure.reset, State.profileShots, State.cfgNat, cfg]

/-- A running station at which one test fails and none before it. -/
def failing : Reason → State
  | .fault => driverIn .fault none 0
  | .quiet => running.mapReq fun r => { r with quiet := 1 }
  | .suppressed => running.mapTimer fun t => { t with suppress := 1 }
  | .noBank => running.mapBanks fun bs => { bs with a := accepting 250 64 }
  | .supplyInhibit => (driverIn .idle none 0).mapLaser fun l => { l with band := .inhibit }
  | .notCharged => driverIn .charging (some 14) 2
  | .budget => running.mapExpo fun e => { e with total := 1568, current := 178 }

theorem test_meets_FirstFailingTestWithholdsTheShot (r : Reason) :
    some (⟨8, .settled, 2⟩ : Claim) ∈ (failing r).calendar.claims ∧ (failing r).timer.stepped = false ∧
      (failing r).TestFails r ∧
      ∀ q, q.order < r.order → ¬(failing r).TestFails q := by
  refine ⟨by cases r <;> simp [failing, running, driverIn, State.mapReq, State.mapTimer, State.mapBanks,
    State.mapLaser, State.mapExpo], by cases r <;> rfl, ?_, fun q => ?_⟩
  · cases r <;> simp [failing, State.TestFails, running, driverIn, accepting, Bank.blank, Banks.reset, State.reset,
      State.mapReq, State.mapTimer, State.mapBanks, State.mapLaser, State.mapExpo, State.profileShots, State.cfgNat, cfg]
  · cases r <;> cases q <;> simp [Reason.order, failing, State.TestFails, running, driverIn, accepting, Bank.blank,
      Banks.reset, State.reset, State.mapReq, State.mapTimer, State.mapBanks, State.mapLaser, State.mapExpo,
      State.profileShots, State.cfgNat, cfg, Laser.reset, Timer.reset, Request.reset, Exposure.reset]

/-- The running station with a heard table of three ages. -/
def hearing : State := running.mapTimer fun t => { t with heard := [some 198, some 199, none] ++ List.replicate 13 none }

theorem test_meets_CycleBoundaryAtTheTimer :
    (hearing.timer.stepped = false ∧ hearing.timer.heard[0]? = some (some 198) ∧
      hearing.timer.heard[1]? = some (some 199) ∧ hearing.timer.heard[2]? = some none) ∧
      (steppedInto 31).timer.pos.slot = 31 ∧
      (steppedInto 30).timer.stepped = true ∧ (steppedInto 30).timer.pos.slot ≠ 31 := by decide

theorem test_meets_CycleBoundaryRotatesTheExposureRing :
    running.timer.stepped = false ∧ Exposure.Ok running.expo ∧ running.expo.ring = 0 :: List.replicate 124 0 := by
  refine ⟨rfl, ⟨?_, ?_, ?_, ?_⟩, ?_⟩ <;> simp [running, Exposure.reset, Config.ringLength, List.replicate]

/-- The running station at the last count of bank A's deadline, with bank B in a state and `f` shots in flight. -/
def expiring (b : BankState) (f : Nat) : State :=
  running.mapBanks fun _ => ⟨{ accepting 1 3 with inFlight := f }, { Bank.blank with state := b }, 4⟩

theorem test_meets_CycleBoundaryCountsAtTheOtherBlocks :
    ((driverIn .charging (some 14) 2).laser.driver = .charging ∧ 2 ≤ (driverIn .charging (some 14) 2).laser.timeout) ∧
      (driverIn .charging (some 14) 1).laser.timeout = 1 ∧
      (running.banks.get .a).state = .accepting ∧ (running.banks.get .b).state ≠ .accepting ∧
      2 ≤ (running.banks.get .a).deadline ∧
      (∀ b ∈ [BankState.reducing, .empty], ∀ f ∈ [0, 1], ((expiring b f).banks.get .a).state = .accepting ∧
        ((expiring b f).banks.get .b).state = b ∧ ((expiring b f).banks.get .a).deadline = 1 ∧
        ((expiring b f).banks.get .a).inFlight = f ∧ (expiring b f).live = true) ∧
      (running.calendar.state ≠ .inactive ∧ running.calendar.countdown = some 1 ∧ running.loader.station ≠ .numbering) ∧
      (∀ k ∈ [1, 2], (unnumbered .listen none (some k) none 0).num.listen = some k ∧
        (unnumbered .listen none (some k) none 0).num.taken.getLsbD (0 : StationNo).val = false ∧
        (unnumbered .claiming (some 4) none (some k) 0).num.holdOff = some k ∧
        (unnumbered .claiming (some 4) none (some k) 0).num.listen = none ∧
        (unnumbered .claiming (some 4) none (some k) 0).num.wanted = some 4) ∧
      running.timer.stepped = false := by decide

/-- Crossing peer entries not heard, of age 198 and of age 199, none of them the number the unit wants. -/
theorem test_meets_CrossingAgesAtTheBoundary :
    let s := running.mapCalendar fun c =>
      { c with peers := [⟨3, 0, 9, none, 0, 0, none⟩, ⟨4, 0, 9, some 198, 0, 0, some 1⟩, ⟨9, 0, 9, some 199, 0, 0, some 1⟩] }
    s.timer.stepped = false ∧ s.num.wanted = none ∧
      s.calendar.peers.map PeerEntry.age = [none, some 198, some 199] ∧
      (s.calendar.peers.map PeerEntry.boundary).map PeerEntry.age = [none, some 199, none] := by decide

theorem test_meets_LastCountsTakenAsCommands :
    hearing.timer.heard[(1 : StationNo).val]? = some (some 199) ∧
      (∃ e, (running.mapCalendar fun c => { c with peers := [⟨3, 0, 9, some 199, 0, 0, some 1⟩] }).calendar.peers[(0 : Fin 8).val]?
        = some e ∧ e.age = some 199) ∧
      (failing .suppressed).timer.suppress = 1 ∧ (driverIn .charging (some 14) 1).laser.driver = .charging ∧
      (failing .quiet).req.quiet = 1 := by
  refine ⟨by decide, ⟨_, rfl, rfl⟩, by decide, by decide, by decide⟩

theorem test_meets_NoticeCountdownExpiryQueuesANotice :
    running.calendar.state ≠ .inactive ∧ running.calendar.countdown = some 1 := by decide

theorem test_meets_DeadlineExpiryClosesTheBank :
    (∀ b ∈ [BankState.reducing, .empty], ∀ f ∈ [0, 1], ((expiring b f).banks.get .a).state = .accepting ∧
      ((expiring b f).banks.get .b).state ≠ .accepting ∧ ((expiring b f).banks.get .a).deadline = 1 ∧
      ((expiring b f).banks.get .a).inFlight = f ∧ ((expiring b f).banks.get .b).state = b ∧
      (expiring b f).live = true) ∧
    (stationIn .unconfigured (expiring .empty 0)).live = false := by decide

theorem test_meets_ListenExpiryChoosesTheLowestFreeNumber :
    let s (taken : StationSet) := unnumbered .listen none (some 1) none taken
    (s 0).num.listen = some 1 ∧
      ((s 0x7FFF).num.taken.getLsbD (15 : StationNo).val = false ∧
        ∀ n : StationNo, n < 15 → (s 0x7FFF).num.taken.getLsbD n.val = true) ∧
      (s 0).num.taken.getLsbD (0 : StationNo).val = false ∧
      ∀ n : StationNo, (s 0xFFFF).num.taken.getLsbD n.val = true := by decide

theorem test_meets_HoldOffExpiryNumbersTheStation :
    let s := unnumbered .claiming (some 4) none (some 1) 0
    s.num.holdOff = some 1 ∧ s.num.wanted = some 4 ∧ s.loader.station ≠ .numbering ∧
      (stationIn .numbering s).loader.station = .numbering ∧ (stationIn .numbering s).laser.driver = .idle ∧
      (stationIn .numbering s).laser.band ≠ .inhibit ∧ (stationIn .numbering s).banks.a.state = .empty ∧
      (stationIn .numbering s).banks.b.state = .empty ∧
      (stationIn .numbering (s.mapLaser fun l => { l with band := .inhibit })).laser.band = .inhibit := by decide

/-- A unit that takes the number it has slewed to loses the slew (R8), and one beside a lower number keeps it. -/
theorem test_no_slew_as_own_reference :
    let s (ref : StationNo) := (unnumbered .claiming (some 4) none (some 1) 0).mapTimer fun t =>
      { t with ref := some ref, heard := t.heard.set ref.val (some 3), slew := 5 }
    (holdOffEnds (s 4)).timer.slew = 0 ∧ (holdOffEnds (s 4)).timer.ref = some 4 ∧
      (holdOffEnds (s 2)).timer.slew = 5 ∧ (holdOffEnds (s 2)).timer.ref = some 2 := by decide

/-- A NUMBERING station at the last count of the hold-off beside bank pairs of R75, with a crossing peer of the wanted
number and a track the wanted number is in the peer set of. -/
theorem test_meets_HoldOffExpiryBanksAndPeers :
    let s (a b : BankState) := stationIn .numbering
      ((banksIn a b).mapNum fun u =>
        { u with state := .claiming, own := none, wanted := some 3, listen := none, holdOff := some 1 })
    (∀ p ∈ [(BankState.empty, BankState.reducing), (.closed, .reducing), (.accepting, .reducing)],
      (s p.1 p.2).num.holdOff = some 1 ∧ (s p.1 p.2).num.wanted = some 3 ∧ (s p.1 p.2).loader.station = .numbering ∧
        ((s p.1 p.2).banks.get .a).state = p.1 ∧ ((s p.1 p.2).banks.get .b).state = p.2) ∧
      (∃ e ∈ (s .empty .reducing).calendar.peers, e.peer = 3) ∧
      ((holdOffEnds (s .empty .reducing)).banks.get .a).state = .accepting ∧
      (Tracker.forget 3 { Tracker.reset with tracks := [{ track 1 .own 500 [.hit] none with peers := 0x18 }] }).tracks.map
        Track.peers = [0x10] := by
  refine ⟨by decide, ⟨_, List.mem_cons_self, rfl⟩, by decide, by decide⟩

/-- The entry into RUNNING claims under the number that the hold-off ended with (R26). -/
theorem test_entry_into_running_claims :
    let s := stationIn .numbering (running.mapNum fun u =>
      { u with state := .claiming, own := none, wanted := some 5, holdOff := some 1 })
    (holdOffEnds s).calendar.claims = [some ⟨8, .settled, 2⟩, some (newClaim 21)] := by decide

theorem test_meets_ChargeDoneInEveryDriverState :
    let s (band : Band) := (driverIn .charging (some 14) 2).mapLaser fun l => { l with band := band }
    ((s .full).laser.driver = .charging ∧ (s .full).laser.level = some 14 ∧ 14 ≤ bandCap (s .full).laser.band) ∧
      ((s .low).laser.driver = .charging ∧ bandCap (s .low).laser.band < 14 ∧ (s .low).loader.station = .running ∧
        (s .low).laser.band ≠ .inhibit) ∧
      running.laser.driver ≠ .charging := by decide

theorem test_meets_BandChangeByDriverState :
    (min (running.cfgNat StationConfig.level) 12 = 12 ∧ Band.reduced ≠ running.laser.band ∧
      running.laser.driver = .charged ∧ running.laser.level = some 14 ∧ bandCap .reduced < 14 ∧
      running.loader.station = .running) ∧
      ((driverIn .charged (some 12) 0).laser.level = some 12 ∧ 12 ≤ bandCap .reduced) ∧
      (driverIn .idle none 0).laser.driver = .idle ∧ (stationIn .numbering (driverIn .idle none 0)).loader.station ≠ .running ∧
      (driverIn .charging (some 14) 2).laser.driver = .charging ∧ (driverIn .fired none 0).laser.driver = .fired ∧
      (driverIn .fault none 0).laser.driver = .fault := by decide

/-- A shot in flight into bank A whose close is pending, with bank B in a state. -/
def pendingClose (b : BankState) : State :=
  (inFlight .capturing none []).mapBanks fun _ =>
    ⟨{ accepting 0 3 with inFlight := 1, closePending := true }, { Bank.blank with state := b }, 4⟩

theorem test_meets_ReadingsOfTheShotInFlight :
    let s := inFlight .capturing none []
    (196 : Byte) ≠ 0 ∧ s.laser.driver = .fired ∧ s.front.shot = some ⟨.a, s.front.pre, [], none, .accumulate, 0⟩ ∧
      s.front.window = .capturing ∧ (s.banks.get .a).state = .accepting ∧ (s.banks.get .a).closePending = false ∧
      s.expo.current ≤ 65535 ∧ (s.banks.get .a).m + 1 ≠ s.profileShots ∧
      (inFlight .holding none []).front.window = .holding ∧ (inFlight .holding none []).laser.driver = .fired ∧
      (emptyBanks (inFlight .holding none [])).front.shot =
        some ⟨.a, s.front.pre, [], none, .discard, 0⟩ ∧
      (∀ b ∈ [BankState.reducing, .empty], ((pendingClose b).banks.get .a).state = .accepting ∧
        ((pendingClose b).banks.get .a).closePending = true ∧ ((pendingClose b).banks.get .b).state = b ∧
        (pendingClose b).laser.driver = .fired ∧ (pendingClose b).front.shot.isSome = true ∧
        (pendingClose b).live = true ∧ (stationIn .numbering (pendingClose b)).live = false) := by decide

/-- Readings in HOLDING that bring m to N, or find a close pending, beside a REDUCING and an EMPTY bank (R69, R71). -/
theorem test_meets_ReadingsThatCloseTheBank :
    let s (m : Nat) (close : Bool) (b : BankState) := (inFlight .holding none []).mapBanks fun _ =>
      ⟨{ accepting 9 m with inFlight := 1, closePending := close }, { Bank.blank with state := b }, 4⟩
    let t (b : BankState) := takeReading 196 (s 63 false b)
    (∀ b ∈ [BankState.reducing, .empty], ((s 63 false b).banks.get .a).m + 1 = (s 63 false b).profileShots ∧
      ((s 3 true b).banks.get .a).closePending = true ∧ ((s 3 true b).banks.get .b).state = b ∧
      ((s 3 true b).banks.get .a).state = .accepting ∧ (s 3 true b).laser.driver = .fired ∧
      (s 3 true b).front.window = .holding ∧ (s 3 true b).live = true ∧
      (stationIn .numbering (s 3 true b)).live = false) ∧
      (t .reducing).banks.a.state = .closed ∧
      (t .empty).banks.a.state = .reducing ∧ (t .empty).banks.b.state = .accepting ∧ (t .empty).banks.a.m = 64 := by
  decide +kernel

theorem test_meets_StrayEmissionLatchesTheFault :
    running.laser.driver ≠ .fired ∧ (driverIn .fault none 0).laser.driver = .fault := by decide

theorem test_meets_WindowEndIsAReadingOfZero :
    let s := inFlight .holding none (List.replicate 800 0)
    s.front.shot.isSome = true ∧ s.expo.current ≤ 65535 ∧ s.laser.driver = .fired ∧ s.front.window = .holding ∧
      (s.banks.get .a).state = .accepting ∧ (s.banks.get .a).closePending = false ∧
      (emptyBanks s).banks.a.state ≠ .accepting ∧ (emptyBanks s).front.shot.isSome = true ∧
      (inFlight .capturing (some 144) []).laser.driver ≠ .fired := by decide

theorem test_meets_CaptureCompleteHoldsTheShot :
    let s := inFlight .capturing none [1, 2]
    s.front.window = .capturing ∧ (∃ sh, s.front.shot = some sh ∧ sh.code = none ∧ sh.disposition ≠ .dud ∧
      sh.disposition ≠ .discard ∧ sh.range.length + (List.replicate 798 (0 : Sample)).length = 800) ∧
      (emptyBanks s).laser.driver = .fired ∧
      (∃ sh, (emptyBanks s).front.shot = some sh ∧ sh.code = none ∧ sh.disposition = .discard) := by
  refine ⟨by decide, ⟨_, rfl, rfl, by decide, by decide, by decide +kernel⟩, by decide, ⟨_, rfl, rfl, rfl⟩⟩

theorem test_meets_CaptureCompleteAccumulatesTheShot :
    let s := inFlight .capturing (some 144) []
    let n := s.mapBanks fun _ => ⟨accepting 9 63, { Bank.blank with state := .reducing }, 4⟩
    (∃ sh, s.front.shot = some sh ∧ s.front.window = .capturing ∧ sh.code = some 144 ∧ sh.disposition = .accumulate ∧
      sh.range.length + (List.replicate 800 (0 : Sample)).length = 800 ∧ (s.banks.get sh.bank).state = .accepting ∧
      (s.banks.get sh.bank).sums.length = 800 ∧ (s.banks.get sh.bank).m + 1 ≠ s.profileShots ∧
      (s.banks.get sh.bank).closePending = false ∧
      (n.banks.get sh.bank).m + 1 = n.profileShots ∧ (n.banks.get sh.bank.other).state = .reducing) ∧
      (let e := s.mapBanks fun _ => ⟨accepting 9 63, { Bank.blank with state := .empty }, 4⟩
       (e.banks.get .a).m + 1 = e.profileShots ∧ (e.banks.get .b).state = .empty ∧ e.live = true ∧
         (stationIn .numbering e).live = false) ∧
      (let d := dudReading (inFlight .capturing none [])
       (∃ sh, d.front.shot = some sh ∧ d.front.window = .capturing ∧ sh.disposition = .dud) ∧
         ∃ sh, (emptyBanks d).front.shot = some sh ∧ sh.disposition = .discard ∧ d.laser.driver ≠ .fired) ∧
      (({ Bank.blank with lowSat := some 7 } : Bank).addShot ⟨.a, [], [0, 4095], none, .accumulate, 0⟩).lowSat = some 1 := by
  refine ⟨⟨_, rfl, by decide, rfl, rfl, by decide +kernel, by decide, ?_, by decide, by decide, by decide, by decide⟩,
    by decide, ⟨⟨_, rfl, by decide, rfl⟩, ⟨_, rfl, rfl, by decide⟩⟩, by decide⟩
  decide +kernel

theorem test_meets_NormalizedIntensityIsRoundedAndClamped :
    (0 < 50176 ∧ (62720000000 : Int) = 128000 * (((99 + 1) ^ 2 * 49 : Nat) : Int)) ∧
      2 * (intensityOf 50176 99 127999 * (50176 * 16) - 62719510000).natAbs ≤ 50176 * 16 := by decide

theorem test_meets_BackgroundFloorAndClasses : (List.replicate 800 (0 : Int)).length = 800 ∧ 1 ≤ 1 := by
  exact ⟨List.length_replicate, le_refl _⟩

theorem test_meets_DatumHeightRisesStrictly :
    datumHeight 0 512 0 = 3 ∧ datumHeight 4000 1024 799 = 11995 ∧ 512 ≤ 1024 ∧ 799 ≤ 799 := by decide

theorem test_meets_ScanFindsAscendingRuns : fogClasses.length = 800 ∧ fogIntensity.length = 800 ∧ 40 ≤ 40 := by
  decide +kernel

theorem test_meets_ReductionOfAClosedBank : (accepting 0 15).m < 2 ^ cfg.exponent / 4 ∧
    2 ^ cfg.exponent / 4 ≤ (accepting 0 16).m := by decide

/-- The sums of 16 shots with strong returns at the given bins alone. -/
def sumsOf (strong : List Nat) : List Nat := (List.range 800).map fun n => if n ∈ strong then 100000 else 0

/-- A profile of the configuration that is not thin, of the given sums. -/
def profile (strong : List Nat) : Bank := { accepting 0 16 with sums := sumsOf strong, esum := 1600, suspects := 1 }

/-- A profile that is not thin without an obscuring run and with one, whose candidate meets a suspect crossing. -/
theorem test_meets_ReductionFields :
    let peers : List PeerEntry := [⟨3, 64, 70, none, 0, 0, none⟩]
    let clear := reduce (some cfg) peers .a (profile [])
    let fog := reduce (some cfg) peers .a (profile [20, 21, 22, 23, 60, 61, 62, 63, 64])
    (clear.result.thin, clear.result.obscured, clear.result.candidates) = (false, false, []) ∧
      (fog.result.thin, fog.result.obscured, fog.result.visibility) = (false, true, some (datumHeight 640 887 23)) ∧
      fog.result.candidates.map (fun x => (x.base, x.suspect)) = [(datumHeight 640 887 60, true)] ∧
      clear.work.isSome = true ∧ (fog.work.map fun w => w.scan.candidates.length) = some 1 := by
  decide +kernel

theorem test_meets_ReductionCompleteUpdatesAndHandsOff :
    let r : Reduction := ⟨.a, none, thin⟩
    let s (b : BankState) := (banksIn .reducing b).setRed (some r)
    ∀ b ∈ [BankState.accepting, .closed, .empty], (s b).red = some r ∧ ((s b).banks.get r.bank.other).state = b ∧
      (s b).live = true ∧ (stationIn .numbering (s b)).live = false := by decide

theorem test_meets_CoverAndCeiling :
    (track 7 .own 2730 [.hit] none).history.length ≤ 16 ∧ (track 7 .own 2730 [.hit] none).hits = 1 ∧
      Tracker.Ok Tracker.reset := by
  refine ⟨by decide, by decide, ⟨?_, ?_, ?_, ?_⟩⟩ <;> simp [Tracker.reset]

theorem test_meets_MatchingUsesEachMemberOnce :
    (track 1 .own 1200 [.hit] none).within 50 1275 = true ∧ (track 1 .own 1200 [.hit] none).within 50 1276 = false := by
  decide

/-- The candidates of section 7.5 are of distinct bases and all matched, so none of them is fresh, and each track is
judged with the candidate its match gives it. -/
theorem test_meets_JudgedAsMatched :
    let cs := [candidate 1240 1300 0 0 false, candidate 1270 1300 0 0 false]
    let ts := [track 1 .own 1200 [.hit] none, track 2 .own 1300 [.hit] none, track 3 .own 9000 [.hit] none]
    let given := [some (candidate 1240 1300 0 0 false), some (candidate 1270 1300 0 0 false), none]
    cs.Pairwise (fun x y => x.base ≠ y.base) ∧ (∃ p ∈ matchesOf 50 cs ts, p.candidate = 0) ∧
      freshCandidates 50 cs ts = [] ∧ given.length = ts.length ∧
      (∀ p ∈ matchesOf 50 cs ts, given[p.track]? = some cs[p.candidate]?) ∧
      (∀ p ∈ matchesOf 50 cs ts, p.track ≠ 2) ∧ given[2]? = some none ∧
      distance 1240 1300 = 60 ∧ distance 1270 1300 = 30 ∧ (track 2 .own 1300 [.hit] none).within 50 1270 = true := by
  refine ⟨by decide, ⟨_, List.mem_cons_of_mem _ List.mem_cons_self, rfl⟩, by decide, rfl, by decide, by decide, rfl,
    by decide, by decide, by decide⟩

/-- A full table whose last track is of an origin and a history. -/
def full (o : Origin) (history : List HistoryMark) : Tracker :=
  { Tracker.reset with
    nextId := 6
    tracks := [track 1 .own 500 [.hit, .hit] none, track 2 .own 600 [.hit, .hit] none, track 3 .own 700 [.hit, .hit] none,
      track 4 .own 800 [.hit, .hit] none, track 5 o 900 history (some 3)] }

theorem test_meets_OutcomesOfATrack :
    let own (base age unseen : Nat) : Track := { track 7 .own base [.hit] none with age := age, unseen := unseen }
    (candidate 9 9 9 9 true).suspect = true ∧ (candidate 9 9 9 9 false).suspect = false ∧
      (own 819 7 15).origin = .own ∧ 818 < (own 819 7 15).base ∧ (own 819 7 15).age < 8 ∧
      (own 818 7 15).base ≤ 818 ∧ (own 818 7 15).unseen < 16 ∧ (own 818 7 15).age ≤ 7 ∧
      (track 8 .peerOnly 1170 [] (some 1)).lapse = some 1 ∧
      freshCandidates 50 [candidate 1240 1300 0 0 false, candidate 1240 1300 0 0 true] [] =
        [candidate 1240 1300 0 0 false] ∧
      Tracker.reset.tracks.length < 5 ∧ (full .peerOnly []).tracks.length = 5 ∧
      (full .peerOnly []).tracks[4]? = some (track 5 .peerOnly 900 [] (some 3)) ∧
      (full .own [.hit, .hit]).tracks[4]? = some (track 5 .own 900 [.hit, .hit] (some 3)) ∧
      thin.thin = true ∧ ({ thin with thin := false, reach := some 3 } : ResultRecord).reach = some 3 := by
  decide

/-- The last track of a full table is the victim of a displacement, peer-only or of two hits (R128). -/
theorem test_victim :
    (∀ u ∈ (full .peerOnly []).tracks, u ≠ track 5 .peerOnly 900 [] (some 3) →
      (track 5 .peerOnly 900 [] (some 3)).VictimOver u) ∧
    (∀ u ∈ (full .own [.hit, .hit]).tracks, u ≠ track 5 .own 900 [.hit, .hit] (some 3) →
      (track 5 .own 900 [.hit, .hit] (some 3)).VictimOver u) ∧
    ((full .peerOnly []).takeFresh (candidate 1240 1300 0 0 false)).tracks.map Track.id = [1, 2, 3, 4, 6] ∧
    ((full .own [.hit, .hit]).takeFresh (candidate 1240 1300 0 0 false)).overflow = true := by
  simp only [full, Track.VictimOver]
  decide

theorem test_meets_OrderingPassSeparatesTracks :
    let low := track 9 .own 1181 [.hit] none
    let high := track 8 .own 1200 [.hit, .hit] none
    let top := track 7 .own 2731 [.hit] none
    ([low, top].Perm [top, low] ∧ low.base + low.tol 50 < top.base ∧ low.id ≠ top.id) ∧
      ([] ++ low :: high :: [top]).Pairwise Track.Under ∧ high.base ≤ low.base + low.tol 50 ∧
      ¬low.SurvivesOver high ∧ high.SurvivesOver low := by
  refine ⟨⟨List.Perm.swap _ _ _, by decide, by decide⟩, ?_, by decide, ?_, ?_⟩ <;>
    simp [Track.Under, Track.SurvivesOver, track, Track.hits]

/-- The running station with one own track in its table. -/
def tracking : State := running.mapTracker fun k => { k with tracks := [track 12 .own 1180 [.hit] none] }

theorem test_meets_ReportConfirmsOrAdoptsALayer :
    let l := layer 1150 0xFFFF 6 false
    let f := reportOf false [l]
    (tracking.num.state = .numbered ∧ f.layers = [l] ∧ tracking.num.own ≠ some 3 ∧ f.flags.halted = false ∧
      tracking.loader.station = .running ∧ l.peerOnly = false ∧ 3 ≤ l.base.toNat ∧ l.base.toNat ≤ 11995 ∧
      l.top = 0xFFFF ∧ l.cover.toNat ≤ 8 ∧ tracking.tracker.tracks = [track 12 .own 1180 [.hit] none] ∧
      (track 12 .own 1180 [.hit] none).within (tracking.cfgNat StationConfig.mMin) l.base.toNat = true) ∧
      running.num.own = some 5 ∧ (reportOf true [l]).flags.halted = true ∧
      Tracker.reset.tracks = [] ∧ (∀ h, Tracker.reset.reach = some h → h < l.base.toNat) ∧
      (∃ h, ({ Tracker.reset with reach := some 1150 } : Tracker).reach = some h ∧ l.base.toNat ≤ h) ∧
      f.layers.length ≤ 5 ∧ running.loader.station ≠ .loading ∧ running.loader.station ≠ .unconfigured ∧
      (stationIn .loading running).loader.station = .loading := by
  refine ⟨by decide, by decide, by decide, by decide, by simp [Tracker.reset], ⟨1150, rfl, by decide⟩, by decide,
    by decide, by decide, by decide⟩

/-- A track between two others is the nearest to a layer 30 m above it, own-origin or peer-only, and a layer between the
tolerances matches none (R140). -/
theorem test_meets_ReportLayers :
    let below := track 1 .own 1100 [.hit] none
    let above := track 3 .own 1250 [.hit] none
    (track 2 .peerOnly 1180 [] (some 1)).NearestOf 50 1210 [below, above] ∧
      (track 2 .own 1180 [.hit] none).NearestOf 50 1210 [below, above] ∧
      (∀ t ∈ [(below, false), (above, true)], t.1.within 50 1600 = false) ∧ [below, above].length < 5 ∧
      5 ≤ (full .peerOnly []).tracks.length := by
  refine ⟨⟨by decide, ?_⟩, ⟨by decide, ?_⟩, by decide, by decide, by decide⟩ <;> decide

theorem test_meets_ClaimingTakesTheFirstFreeSlots :
    running.num.own = some 5 ∧ running.calendar.claims[0]? = some (some ⟨8, .settled, 2⟩) ∧
      running.calendar.claims[1]? = some none ∧ (claimedList running)[1]? = some (some (newClaim 21)) ∧
      (claimedList (running.mapCalendar fun c => { c with peers := [⟨3, 0, 9, some 0, 0xFFFFFFFF, 0, some 1⟩] }))[1]?
        = some none := by decide

theorem test_meets_NoticeIsHeardAndSlews :
    running.num.state = .numbered ∧ running.num.own ≠ some 4 ∧ (∀ e ∈ running.calendar.peers, e.peer ≠ 4) ∧
      referenceOf running.num.own (running.timer.heard.set (4 : StationNo).val (some 0)) = some 4 ∧
      ((250 * 12 + 30 : Int) - (250 * 12 + 10) = 20 + 8000 * 0) ∧
      running.timer.behind 32 = ⟨31, 218⟩ ∧
      (running.mapTimer fun t => { t with pos := ⟨12, 42⟩ }).timer.behind 32 = ⟨12, 10⟩ ∧
      referenceOf running.num.own (running.timer.heard.set (9 : StationNo).val (some 0)) ≠ some 9 := by decide

theorem test_meets_LineAfterFrame :
    (lineIn .receiving TransmitSet.none none).line.state ≠ .sending ∧
      (lineIn .sending TransmitSet.none none).line.state = .sending := by decide

theorem test_meets_NoticeStepsTheTimer :
    let late := running.mapTimer fun t => { t with pos := ⟨31, 200⟩ }
    (20 < (21 : Int) ∧ (250 * 12 + 31 : Int) - (250 * 12 + 10) = 21 + 8000 * 0) ∧
      (250 * running.timer.pos.slot.val + running.timer.pos.phase.val : Int) + 21 < 8000 ∧
      (8000 ≤ (250 * late.timer.pos.slot.val + late.timer.pos.phase.val : Int) + 50 ∧
        late.timer.behind 32 = ⟨31, 168⟩ ∧ (250 * 0 + 0 : Int) - (250 * 31 + 168) = 82 + 8000 * (-1)) ∧
      (running.banks.get .a).state = .accepting ∧ (running.banks.get .b).state ≠ .accepting := by decide

/-- A crossing peer that is the reference steps the timer: the entry's index and the slip are marked, and the slot is
released (R13, R35). -/
theorem test_meets_CrossingPeerStepsTheTimer :
    let s := running.mapTimer fun t => { t with pos := ⟨12, 42⟩ }
    let t := takeNotice 3 { noticeAt 12 31 with claimed := 0x100 } (dispatched s)
    (s.timer.behind 32 = ⟨12, 10⟩ ∧ s.num.own ≠ some 3 ∧ s.num.listen = none ∧ s.num.holdOff = none ∧
      referenceOf s.num.own (s.timer.heard.set (3 : StationNo).val (some 0)) = some 3 ∧
      ∃ e ∈ s.calendar.peers, e.peer = 3) ∧
      t.timer.pos = ⟨12, 63⟩ ∧ t.timer.slips = 1 ∧ t.calendar.releases = 1 ∧ t.banks.a.slip = true ∧
      t.banks.a.suspects = 1 := by
  refine ⟨⟨by decide, by decide, by decide, by decide, by decide, ⟨_, List.mem_cons_self, rfl⟩⟩, ?_⟩
  decide +kernel

/-- Units in LISTEN and CLAIMING that hear their reference, which holds no crossing entry, far off. -/
theorem test_meets_StepAtAUnitWithoutANumber :
    (∀ s ∈ [unnumbered .listen none (some 9) none 0, unnumbered .claiming (some 4) none (some 9) 0],
      s.num.own ≠ some 3 ∧ referenceOf s.num.own (s.timer.heard.set (3 : StationNo).val (some 0)) = some 3) ∧
      (1000 : Int) - (250 * 31 + 218) = 1032 + 8000 * (-1) := by decide

theorem test_meets_NoticeReleasesConflictingSlots :
    running.num.state = .numbered ∧ running.num.own = some 5 ∧ (3 : StationNo) < 5 ∧ running.calendar.state = .active ∧
      (∃ e, running.calendar.peers[0]? = some e ∧ e.peer = 3) ∧
      (31 < (noticeAt 32 0).slot.toNat ∨ 249 < (noticeAt 32 0).phase.toNat) ∧
      conflicts (0x100#32 ||| 0) running.calendar.claims = 1 ∧ conflicts (0x10#32 ||| 0) running.calendar.claims = 0 ∧
      (let higher := running.mapCalendar fun c => { c with peers := [⟨9, 230, 270, some 10, 0x10, 0, some 1⟩] }
       (∃ e, higher.calendar.peers[0]? = some e ∧ e.peer = 9) ∧ (5 : StationNo) < 9 ∧
         referenceOf higher.num.own (higher.timer.heard.set (9 : StationNo).val (some 0)) ≠ some 9) := by
  refine ⟨by decide, by decide, by decide, by decide, ⟨_, rfl, rfl⟩, by decide, by decide, by decide, ⟨_, rfl, rfl⟩,
    by decide, by decide⟩

/-- Crossing peer entries at an INACTIVE, a RELEASING and an ACTIVE calendar: not heard, of a changed serial, and one
whose NOTICE frees a held slot. -/
theorem test_meets_NoticeOfACrossingPeer :
    let s (st : CalendarState) (age : Option Nat) := running.mapCalendar fun c =>
      { c with state := st, peers := [⟨3, 230, 270, age, 0x30, 0, some 1⟩] }
    (∀ st ∈ [CalendarState.inactive, .releasing, .active], ∀ age ∈ [none, some 10],
      (s st age).calendar.state = st ∧ (s st age).num.own ≠ some 3 ∧
        (∃ e, (s st age).calendar.peers[0]? = some e ∧ e.peer = 3 ∧ e.age = age ∧ e.serial = some 1) ∧
        (noticeAt 32 0).serial ≠ 1) ∧
      (heldSet (some 5) (s .active (some 10)).calendar.peers).getLsbD 5 = true ∧
      (heldSet (some 5) [⟨3, 230, 270, some 0, 0x10, 0, some 9⟩]).getLsbD 5 = false ∧
      none ∈ running.calendar.claims ∧ (3 : StationNo) < 5 := by
  refine ⟨?_, by decide, by decide, by decide, by decide⟩
  intro st hst age hage
  refine ⟨rfl, by simp [running, State.mapCalendar], ⟨_, rfl, rfl, rfl, rfl⟩, by decide⟩

theorem test_meets_ClaimAtAUnitWithoutANumber :
    let s (h : Option Nat) := unnumbered .claiming (some 4) none h 0b1011
    (unnumbered .listen none (some 9) none 0).num.state = .listen ∧
      ((s none).num.state = .claiming ∧ (s none).num.wanted ≠ some 2) ∧
      ((s (some 3)).num.wanted = some 4 ∧ (s (some 3)).num.holdOff ≠ none ∧ (s (some 3)).num.serial < 8) ∧
      ((s none).num.holdOff = none ∧ (6 : Serial) < (s (some 3)).num.serial) ∧
      (setInsert 4 (s none).num.taken).getLsbD (2 : StationNo).val = false ∧
      ∀ m : StationNo, m < 2 → (setInsert 4 (s none).num.taken).getLsbD m.val = true := by decide

/-- Every number taken; and a NOTICE with a phase out of range and a REPORT at units in LISTEN and CLAIMING. -/
theorem test_meets_FramesAtAUnitWithoutANumber :
    let s := unnumbered .claiming (some 4) none none 0xFFEF
    (s.num.state = .claiming ∧ s.num.wanted = some 4 ∧ s.num.holdOff = none ∧
      ∀ m : StationNo, (setInsert (4 : StationNo).val s.num.taken).getLsbD m.val = true) ∧
      s.num.state ≠ .numbered ∧ 249 < (noticeAt 0 250).phase.toNat ∧ (unnumbered .listen none (some 9) none 0).num.state ≠ .numbered ∧
      (reportOf false []).layers.length ≤ 5 := by decide

theorem test_meets_DuplicateNumberIsSettledBySerial :
    let auto := running.mapNum fun u => { u with mode := .auto }
    running.num.state = .numbered ∧ running.num.own ≠ some 4 ∧ running.num.own = some 5 ∧
      running.num.serial < 8 ∧ (6 : Serial) < running.num.serial ∧ running.loader.station = .running ∧
      running.num.mode = .fixed ∧ auto.num.mode = .auto ∧ auto.loader.station = .running ∧
      (driverIn .charged (some 14) 0).laser.driver = .charged := by decide

/-- An auto yield beside the bank pairs of R72, and the yields of the other station states. -/
theorem test_meets_YieldsByStationState :
    let s (b : BankState) (f : Nat) := (expiring b f).mapNum fun u => { u with mode := .auto }
    (∀ b ∈ [BankState.reducing, .empty], ∀ f ∈ [0, 1], ((s b f).banks.get .a).state = .accepting ∧
      ((s b f).banks.get .a).inFlight = f ∧ ((s b f).banks.get .b).state = b ∧ (s b f).num.own = some 5 ∧
      (s b f).num.mode = .auto ∧ (s b f).loader.station = .running) ∧
      ((banksIn .empty .reducing).banks.a.state ≠ .accepting ∧ (banksIn .empty .reducing).banks.b.state ≠ .accepting) ∧
      (∀ st ∈ [StationState.unconfigured, .loading, .haltedDuplicate],
        (stationIn st running).loader.station = st ∧ (stationIn st running).num.own = some 5 ∧
          (stationIn st running).num.mode = .fixed ∧ (stationIn st running).num.state = .numbered) := by decide

/-- A record with a right magic and CRC: number byte and S as given, every other field below its range. -/
def record (number : Byte) : List Byte :=
  let r := [0x5A#8, 0x3C, number] ++ List.replicate 59 0
  r ++ word16 (crc16 (bytesBits r))

theorem test_meets_LoadCompleteJudgesTheRecord :
    State.reset.loader.station = .loading ∧
      ((List.replicate 64 (0 : Byte)).length = 64 ∧ recordValid (List.replicate 64 0) = false) ∧
      ((record 0xFF).length = 64 ∧ recordValid (record 0xFF) = true ∧ (loadRecord (record 0xFF)).cfg.mode = .auto) ∧
      (recordValid (record 5) = true ∧ (loadRecord (record 5)).cfg.mode = .fixed ∧
        State.reset.num.yieldMark = false ∧ (loadRecord (record 5)).cfg.fixedNo = 5) ∧
      (loadRecord (record 16)).cfg.fixedNo = 15 ∧ (loadRecord (record 16)).clamped = true := by decide +kernel

/-- A yield mark for another number than the record's leads to RUNNING, where the list has claimed (R26, R170). -/
theorem test_meets_LoadWithAnotherNumberMarked :
    let s := stationIn .loading (running.mapNum fun u => { u with own := some 6, yieldMark := true })
    s.loader.station = .loading ∧ s.num.yieldMark = true ∧ s.num.own ≠ some (loadRecord (record 5)).cfg.fixedNo ∧
      (loadDone (record 5) s).loader.station = .running ∧
      (loadDone (record 5) s).calendar.claims = [some (newClaim 5)] := by decide +kernel

/-- A load that does not lead to RUNNING gives the list its S positions too, and an invalid one leaves none (R23). -/
theorem test_load_gives_positions :
    let s := stationIn .loading (running.mapCalendar fun c => { c with state := .inactive, claims := [none, none] })
    let yielded := s.mapNum fun u => { u with yieldMark := true }
    (loadDone (record 0xFF) s).calendar.claims = [none] ∧
      ((loadDone (record 5) yielded).calendar.claims, (loadDone (record 5) yielded).loader.station) =
        ([none], .haltedDuplicate) ∧
      (loadDone [] s).calendar.claims = [] := by decide +kernel

theorem test_meets_IdleGapAndStartBit :
    let full : TransmitSet := { TransmitSet.none with notice := some ⟨(), 0⟩ }
    (lineIn .waitIdle TransmitSet.none none).line.state = .waitIdle ∧
      ((lineIn .idle TransmitSet.none none).line.state = .idle ∧ (lineIn .idle TransmitSet.none none).line.attempt = none ∧
        (lineIn .idle TransmitSet.none none).line.set = TransmitSet.none) ∧
      ((lineIn .idle full none).num.own ≠ none ∧ (lineIn .idle full none).line.set.notice ≠ none) ∧
      (lineIn .receiving full none).line.state = .receiving := by decide

theorem test_meets_AttemptTakesTheLowestKind :
    (∀ set ∈ [({ TransmitSet.none with claim := some ⟨4, 7⟩ } : TransmitSet),
        { TransmitSet.none with notice := some ⟨(), 0⟩ }, { TransmitSet.none with report := some ⟨reportOf false [], 1⟩ },
        { TransmitSet.none with status := some ⟨⟨24, 1, [24, 1, 0]⟩, 2⟩ }],
      (lineIn .idle set none).line.state = .idle ∧ (lineIn .idle set none).line.attempt = none ∧
        (lineIn .idle set none).num.own = some 5) ∧
      State.reset.num.own = none := by decide

theorem test_meets_AttemptWithNothingToSend :
    (lineIn .idle TransmitSet.none none).num.own = some 5 ∧
      (lineIn .idle TransmitSet.none none).line.set = ⟨none, none, none, none⟩ := by decide

theorem test_meets_NoticeCarriesThePositionAhead :
    Timer.Ok none Timer.reset ∧ Timer.reset.held = false ∧
      (250 * Timer.reset.pos.slot.val + Timer.reset.pos.phase.val + 676 : Int) < 8000 + Timer.reset.curAdj ∧
      Timer.Ok none { Timer.reset with pos := ⟨31, 0⟩ } ∧ (8000 + 0 : Int) ≤ 250 * 31 + 0 + 676 := by
  refine ⟨⟨?_, ?_, ?_, ?_, ?_, ?_, ?_, ?_, ?_, ?_, ?_⟩, by decide, by decide,
    ⟨?_, ?_, ?_, ?_, ?_, ?_, ?_, ?_, ?_, ?_, ?_⟩, by decide⟩ <;>
    first
    | decide
    | simp [Timer.reset]

/-- The running station SENDING a frame. -/
def sending (f : Sending) (collisions : Nat) : State := lineIn .sending TransmitSet.none (some ⟨f, collisions, false⟩)

theorem test_meets_LostAndBrokenAttempts :
    (Sending.claim 4 1).frame.arbitrationBits[5]? = some true ∧
      (Sending.claim 4 1).frame.arbitrationBits[1 - 1]? = some false ∧
      ((Sending.claim 4 1).frame.arbitrationBits.length < 41 ∧ 41 ≤ (Sending.claim 4 1).frame.bits.length) ∧
      6 + 1 < 8 ∧ 7 + 1 = 8 ∧
      (∀ f ∈ [Sending.claim 4 1, .notice 5 (noticeAt 0 0), .report 5 (reportOf false []), .status 5 ⟨24, 1, [24, 1, 0]⟩],
        ∃ a, (sending f 7).line.attempt = some a ∧ a.frame = f ∧ a.withdrawn = false) ∧
      (sending (.claim 4 1) 7).num.state = .numbered ∧ (sending (.claim 4 1) 7).calendar.state = .active ∧
      (sending (.claim 5 1) 7).num.own = some 5 ∧ (sending (.claim 4 1) 7).num.own ≠ some 4 ∧
      (sending (.status 5 ⟨24, 1, [24, 1, 0]⟩) 7).line.set.status = none ∧
      (unnumbered .claiming (some 4) none none 0).num.state = .claiming ∧
      (unnumbered .claiming (some 4) none none 0).num.wanted = some 4 := by
  refine ⟨by decide, by decide, by decide, by decide, by decide, ?_, by decide, by decide, by decide, by decide, by decide,
    by decide, by decide⟩
  intro f _
  exact ⟨_, rfl, rfl, rfl⟩

/-- A RELEASING calendar whose NOTICE with empty sets, or with a slot claimed, is at its last error. -/
theorem test_meets_DroppedNoticeEndsReleasing :
    let s (f : NoticeFields) := (sending (.notice 5 f) 7).mapCalendar fun c => { c with state := .releasing }
    (s (noticeAt 0 0)).calendar.state = .releasing ∧ (noticeAt 0 0).claimed = 0 ∧ (noticeAt 0 0).settled = 0 ∧
      ({ noticeAt 0 0 with claimed := 0x10 } : NoticeFields).claimed ≠ 0 ∧
      ((s (noticeAt 0 0)).line.attempt.map Attempt.collisions) = some 7 := by decide

theorem test_meets_TransmissionTellsTheQueuingBlock :
    let tentative := (sending (.notice 5 { noticeAt 0 0 with claimed := 0x100 }) 0).mapCalendar fun c =>
      { c with claims := [some ⟨8, .tentative, 1⟩, none] }
    let claiming := (unnumbered .claiming (some 4) none none 0).mapLine fun l =>
      { l with state := .sending, attempt := some ⟨.claim 4 7, 0, false⟩ }
    (tentative.line.attempt.isSome = true ∧ tentative.calendar.state = .active ∧
      tentative.calendar.claims[0]? = some (some ⟨8, .tentative, 1⟩) ∧ (0x100#32).getLsbD (8 : Slot).val = true ∧
      tentative.line.recalled = 0) ∧
      (claiming.line.attempt.isSome = true ∧ claiming.num.state = .claiming ∧ claiming.num.wanted = some 4 ∧
        claiming.num.holdOff = none) ∧
      (sending (.claim 4 1) 0).num.wanted ≠ some 4 ∧
      (sending (.status 5 ⟨24, 1, [24, 1, 0]⟩) 0).line.set.status = none ∧
      ((sending (.notice 5 (noticeAt 0 0)) 0).mapCalendar fun c => { c with state := .releasing }).calendar.state
        = .releasing := by decide

/-- A defence of a NUMBERED unit, NOTICEs with a set not empty at a RELEASING calendar and at an INACTIVE one, and a
STATUS queued since. -/
theorem test_meets_TransmissionThatChangesNothing :
    let s (st : CalendarState) (f : NoticeFields) := (sending (.notice 5 f) 0).mapCalendar fun c => { c with state := st }
    ((sending (.claim 5 1) 0).line.attempt.isSome = true ∧ (sending (.claim 5 1) 0).num.state ≠ .claiming) ∧
      ({ noticeAt 0 0 with claimed := 0x10 } : NoticeFields).claimed ≠ 0 ∧
      (s .releasing { noticeAt 0 0 with claimed := 0x10 }).calendar.state = .releasing ∧
      (s .inactive (noticeAt 0 0)).calendar.state = .inactive ∧
      ((sending (.status 5 ⟨24, 1, [24, 1, 0]⟩) 0).mapLine
        (Line.queueStatus ⟨24, 0, [24, 0]⟩)).line.set.status ≠ none := by decide

theorem test_meets_EveryLegalFrameReadsBack :
    (Frame.report 3 (reportOf false (List.replicate 5 (layer 9 9 0 false)))).Legal ∧ (Frame.quiet 30 255 255).Legal ∧
      (Frame.status 15 [24, 1, 0]).Legal := by
  refine ⟨⟨by decide, by decide⟩, ?_, by decide, by decide⟩
  show isRecorder 30 = true
  decide

theorem test_meets_ReceiveChecksDiscardInOrder :
    let s := lineIn .receiving TransmitSet.none none
    let covered := bytesBits (headerByte 3 24 :: BitVec.ofNat 8 2 :: [5, 0])
    s.line.state = .receiving ∧ (0 : BitVec 16) ≠ crc16 covered ∧ lengthAgrees 3 [5] = false ∧
      lengthAgrees 7 [5] = true ∧ lengthAgrees 3 [5, 0] = true ∧ senderAgrees 3 5 = false ∧
      48 < (49 : Byte).toNat ∧ (List.replicate 48 (0 : Byte)).length ≤ 48 ∧ [false, true, true, true, true, true, true, true].length = 8 ∧
      crc16 covered = crc16 covered := by decide +kernel

/-- Legal frames of every kind as the bits before their end delimiter and those of it, and a RESTART of scope 3. -/
theorem test_meets_LegalFrameDispatched :
    let s (st : LineState) := lineIn st TransmitSet.none none
    (∀ f ∈ [Frame.claim 4 1, .notice 3 (noticeAt 12 30), .report 3 (reportOf false []), .query 24 5 0,
        .status 3 [24, 1, 0], .quiet 24 5 1, .restart 24 5 0, .restart 24 5 1, .restart 24 5 2, .restart 24 5 3],
      f.bits.take (f.bits.length - 8) ++ f.bits.drop (f.bits.length - 8) = f.bits) ∧
      (Frame.claim 4 1).Legal ∧ (Frame.restart 24 5 3).Legal ∧ 2 < (3 : Byte).toNat ∧
      (∀ st ∈ [LineState.waitIdle, .idle, .sending, .receiving], (s st).line.state = st) ∧
      (hearFrame (Frame.restart 24 5 3).bits (s .receiving)).line.counters.dispatched = 1 := by
  refine ⟨fun f _ => List.take_append_drop _ _, ?_, ?_, by decide, by decide, by decide +kernel⟩
  · show isStation 4 = true
    decide
  · show isRecorder 24 = true
    decide

theorem test_meets_QueryQuietAndStatusFrames :
    isRecorder 24 = true ∧ running.isOwnTarget 5 = true ∧ (3 : Byte).toNat ≤ 3 ∧ running.tracker.tracks.length ≤ 5 ∧
      running.isOwnTarget 31 = false ∧ running.isOwnTarget 6 = false ∧ (6 : Byte) ≠ 31 ∧ 3 < (4 : Byte).toNat ∧
      statusLengthAgrees [24, 1, 0] = true := by decide

theorem test_meets_RestartByScope :
    isRecorder 30 = true ∧ running.isOwnTarget 5 = true ∧ running.live = true ∧ running.loader.station = .running ∧
      (stationIn .numbering running).live = false ∧ (stationIn .numbering running).isOwnTarget 5 = true ∧
      running.isOwnTarget 31 = false := by decide

theorem test_meets_NoShotExceedsTheExposureLimit :
    (inFlight .capturing none []).Headroom ∧ (inFlight .capturing none []).laser.driver = .fired := by
  refine ⟨?_, by decide⟩
  intro _
  decide

/-- Every command answers a next state in the running station too. -/
theorem test_step_answers : ∃ t, step running = .next t := ⟨_, rfl⟩

theorem test_meets_EveryStepKeepsTheTimer : running.timer.Ok running.num.own := by
  refine ⟨?_, ?_, ?_, ?_, ?_, ?_, ?_, ?_, ?_, ?_, ?_⟩ <;> first
    | decide
    | simp [running, Timer.reset]

theorem test_meets_EveryStepKeepsDriverAndExposure : Laser.Ok running.laser ∧ Exposure.Ok running.expo := by
  refine ⟨⟨?_, ?_, ?_, ?_, ?_, ?_, ?_, ?_⟩, ⟨?_, ?_, ?_, ?_⟩⟩ <;> first
    | simp [running, Laser.reset, Exposure.reset, Config.ringLength]

theorem test_meets_EveryStepKeepsTheBanks : BanksOk running.banks running.red ∧ running.CountsOk := by
  refine ⟨⟨?_, ?_, ?_, ?_, ?_, ?_, ?_⟩, ⟨?_, ?_, ?_, ?_, ?_⟩⟩
  all_goals first
    | decide
    | (simp only [Bank.Ok]; decide)
    | (intro i; cases i <;> decide)
    | simp [running]

theorem test_meets_EveryStepKeepsTheLayerTable : Tracker.Ok tracking.tracker := by
  refine ⟨by decide, ?_, ?_, ?_⟩ <;> simp [tracking, State.mapTracker, Track.Ok, track]

theorem test_meets_EveryStepKeepsTheLine : Line.Ok (sending (.claim 4 1) 7).line := by
  refine ⟨?_, ?_, ?_, ?_, ?_, ?_, ?_, ?_, ?_, ?_⟩ <;>
    simp [sending, lineIn, State.mapLine, running, State.reset, Line.reset, TransmitSet.none, queuedOk]

theorem test_meets_EveryStepKeepsTheCalendarAndTheStation :
    running.StationOk ∧ running.calendar.Ok ∧ PeersOk running.num.own running.calendar.peers ∧ running.Apart := by
  refine ⟨⟨?_, ?_, ?_, ?_, ?_, ?_, ?_, ?_, ?_, ?_, ?_⟩, ⟨?_, ?_, ?_⟩, ⟨?_, ?_, ?_, ?_⟩, ?_⟩ <;> first
    | decide
    | simp [running, Claim.Ok, PeerEntry.Ok, State.Apart]

end Sys2Proof.Tests
end

section
/-! SUPPORT. What one step can do, the firing cycle and its timebase: the advance of the cycle timer, the measurement of
a NOTICE against the latched position, and the statements of the family 01 (R1..R17). -/

namespace Sys2Proof.Machine

/-! ## What a step can do -/

/-- A step runs the command at the front of the queue with the rest of it, or is a microsecond of time. -/
theorem step_cases (s t : State) (h : step s = .next t) :
    t = tick s ∨ ∃ c rest, s.pending = c :: rest ∧ exec c { s with pending := rest } = .next t := by
  unfold step at h
  cases hp : s.pending with
  | nil => rw [hp] at h; cases h; exact .inl rfl
  | cons c rest => rw [hp] at h; exact .inr ⟨c, rest, rfl, h⟩

/-- What the queue does not matter to is kept by every step if the commands and the microsecond keep it. -/
theorem keeps_of_exec_of_tick {P : State → Prop} (queue : ∀ s rest, P s → P { s with pending := rest })
    (commands : ∀ c s t, P s → exec c s = .next t → P t) (time : ∀ s, P s → P (tick s)) : Keeps P := by
  intro s t hs ht
  rcases step_cases s t ht with rfl | ⟨c, rest, -, hc⟩
  · exact time s hs
  · exact commands c _ t (queue s rest hs) hc

/-- A command that answers one of two states by a test keeps what both states keep. -/
theorem of_ite_next {P : State → Prop} {p : Prop} [Decidable p] {a b t : State} (ha : P a) (hb : P b)
    (h : (if p then .next a else .next b : Host.Outcome State Fault Refusal) = .next t) : P t := by
  split at h <;> cases h
  · exact ha
  · exact hb

/-! ## Every command and every microsecond keep the timer -/

theorem TimerSafe.suppressed (s : State) (h : TimerSafe s) : TimerSafe (s.mapTimer fun t => { t with suppress := 0 }) :=
  ⟨h.inside, h.holds, h.current, h.previous, h.following, h.slew, h.stations, h.ages, Nat.zero_le 2, h.reference,
    h.alone⟩

/-- A heard entry that lapses leaves the table, and the reference is computed again (R6, R7). -/
theorem TimerSafe.forget (n : Nat) (s : State) (h : TimerSafe s) :
    TimerSafe (recomputeReference (s.mapTimer fun t => { t with heard := t.heard.set n none })) := by
  have core := TimerSafe.core s h
  apply recompute_timerSafe
  refine ⟨core.inside, core.holds, core.current, core.previous, core.following, core.slew, ?_,
    fun k hk => ?_, core.suppress⟩
  · simpa using core.stations
  · rcases List.mem_or_eq_of_mem_set hk with hk | hk
    · exact core.ages k hk
    · cases hk

theorem ownFrameEnds_own (s : State) : (ownFrameEnds s).num.own = s.num.own := by
  unfold ownFrameEnds
  split
  · rename_i a _
    unfold tellTransmitted
    split
    · simp only [claimTransmitted]; split <;> simp
    all_goals simp
  · rfl

theorem hearFrame_timerSafe (bits : List Bool) (s : State) (h : TimerSafe s) : TimerSafe (hearFrame bits s) := by
  unfold hearFrame
  split
  · exact h
  · exact h
  · exact TimerSafe.of s _ h (by simp) (ownFrameEnds_own s)
  · dsimp only
    split
    · exact TimerSafe.of s _ h (by split <;> simp) (by split <;> simp)
    · exact frame_timerSafe _ _ (TimerSafe.of s _ h (by simp) (by simp))

theorem discarded_timerSafe (r : Discard) (s : State) (h : TimerSafe s) : TimerSafe (discarded r (latch s)) :=
  TimerSafe.of s _ h (by simp) (by simp)

theorem dispatched_timerSafe (s : State) (h : TimerSafe s) : TimerSafe (dispatched s) :=
  TimerSafe.of s _ h (by simp) (by simp)

theorem execSlotStart_timerSafe (slot : Slot) (s t : State) (h : TimerSafe s) (ht : execSlotStart slot s = .next t) :
    TimerSafe t :=
  of_ite_next h (raise_timerSafe slot _ (slot_moved s slot h)) ht

theorem execCycleBoundary_timerSafe (s t : State) (h : TimerSafe s) (ht : execCycleBoundary s = .next t) :
    TimerSafe t :=
  of_ite_next h (cb_timerSafe _ (slot_moved s 0 h) (.inl rfl) rfl) ht

theorem execHeardEntryLapse_timerSafe (n : StationNo) (s t : State) (h : TimerSafe s)
    (ht : execHeardEntryLapse n s = .next t) : TimerSafe t := by
  unfold execHeardEntryLapse at ht
  (repeat' split at ht) <;> cases ht
  · exact TimerSafe.forget n.val s h
  · exact h
  · exact h

/-- The timer of R16 keeps its bounds; a unit without a number has no reference. -/
theorem Timer.reset_ok : Timer.reset.Ok none := by
  refine (timerOk_iff _ _).2 ⟨⟨by decide, by decide, by decide, by decide, by decide, by decide, by decide, ?_,
    by decide⟩, by decide, fun _ => rfl⟩
  intro k hk
  exact absurd (List.eq_of_mem_replicate hk) (by simp)

theorem resetAll_timerSafe (band : Band) (s : State) : TimerSafe (resetAll band s) := Timer.reset_ok

theorem exec_timerSafe (c : Instr) (s t : State) (h : TimerSafe s) (ht : exec c s = .next t) : TimerSafe t := by
  have frame : ∀ u, u.timer = s.timer → u.num.own = s.num.own → TimerSafe u := fun u => TimerSafe.of s u h
  have heard := dispatched_timerSafe s h
  have dropped := fun r => discarded_timerSafe r s h
  cases c with
  | powerOn band => cases ht; exact resetAll_timerSafe band s
  | pinReset band => cases ht; exact resetAll_timerSafe band s
  | slotStart slot => exact execSlotStart_timerSafe slot s t h ht
  | cycleBoundary => exact execCycleBoundary_timerSafe s t h ht
  | heardEntryLapse n => exact execHeardEntryLapse_timerSafe n s t h ht
  | suppressionEnd => exact of_ite_next (TimerSafe.suppressed s h) h ht
  | crossingPeerLapse j =>
    change execCrossingPeerLapse j s = _ at ht
    unfold execCrossingPeerLapse at ht
    (repeat' split at ht) <;> cases ht <;> exact h
  | noticeCountdownExpiry => exact of_ite_next (frame _ (by simp) (by simp)) h ht
  | chargeTimeout => exact of_ite_next (frame (s.mapLaser Laser.boundary) rfl rfl) h ht
  | deadlineExpiry =>
    change execDeadlineExpiry s = _ at ht
    unfold execDeadlineExpiry at ht
    split at ht
    · exact of_ite_next (frame _ (by simp) (by simp)) h ht
    · cases ht; exact h
  | listenCountdownExpiry => exact of_ite_next (choose_timerSafe s h) h ht
  | holdOffExpiry => exact of_ite_next (hold_timerSafe s h) h ht
  | quietEnd => exact of_ite_next (frame (s.mapReq Request.boundary) rfl rfl) h ht
  | chargeDone => cases ht; exact frame _ (by simp) (by simp)
  | bandChange band => cases ht; exact frame _ (by simp) (by simp)
  | energyReading code => cases ht; exact frame _ (by simp) (by simp)
  | shotWindowEnd => cases ht; exact frame _ (by simp) (by simp)
  | rangeCaptureComplete samples => cases ht; exact frame _ (by simp) (by simp)
  | reductionComplete =>
    change execReductionComplete s = _ at ht
    unfold execReductionComplete at ht
    split at ht <;> cases ht
    · exact frame _ (by simp) (by simp)
    · exact h
  | loadComplete record => exact of_ite_next (load_timerSafe record s h) h ht
  | lineIdle => cases ht; exact h
  | attemptStart => cases ht; exact frame _ (by simp) (by simp)
  | arbitrationLoss bit => cases ht; exact frame _ (by simp) (by simp)
  | collisionError bit => cases ht; exact frame _ (by simp) (by simp)
  | frameTransmitted => cases ht; exact frame _ (by simp) (ownFrameEnds_own s)
  | frameDiscard bits delimiter => cases ht; exact hearFrame_timerSafe _ s h
  | notice sender serial body =>
    change execNotice sender serial body s = _ at ht
    unfold execNotice at ht
    split at ht <;> cases ht
    · exact notice_timerSafe _ _ _ heard
    · exact dropped _
  | claim sender serial =>
    change execClaim sender serial s = _ at ht
    unfold execClaim at ht
    split at ht <;> cases ht
    · exact takes_timerSafe _ _ _ heard
    · exact dropped _
  | report sender fields =>
    change execReport sender fields s = _ at ht
    unfold execReport at ht
    (repeat' split at ht) <;> cases ht
    · exact dropped _
    · exact takes_timerSafe _ _ _ (frame _ (by simp) (by simp))
    · exact dropped _
  | status sender payload =>
    change execStatus sender payload s = _ at ht
    unfold execStatus at ht
    split at ht
    · exact of_ite_next heard (dropped _) ht
    · cases ht; exact dropped _
  | query sender target item => exact of_ite_next (frame _ (by simp) (by simp)) (dropped _) ht
  | quiet sender target seconds => exact of_ite_next (frame _ (by simp) (by simp)) (dropped _) ht
  | restartTracking sender target => exact of_ite_next (restart_timerSafe _ _ _ heard) (dropped _) ht
  | restartFiring sender target => exact of_ite_next (restart_timerSafe _ _ _ heard) (dropped _) ht
  | restartStation sender target => exact of_ite_next (restart_timerSafe _ _ _ heard) (dropped _) ht
  | startBit => cases ht; exact frame _ (by simp) (by simp)

theorem tick_timerSafe (s : State) (h : TimerSafe s) : TimerSafe (tick s) :=
  TimerSafe.of _ _ (adv_timerSafe _ (TimerSafe.of s (windowTick (convertTick s)) h (by simp) (by simp)))
    (by simp [tick]) (by simp [tick])

/-- Settles O53: the microsecond and each of the commands keep the timer. -/
theorem everyStepKeepsTheTimer : Obligations.EveryStepKeepsTheTimer :=
  keeps_of_exec_of_tick (P := TimerSafe) (fun _ _ h => h) exec_timerSafe tick_timerSafe

end Sys2Proof.Machine
end

section
/-! SUPPORT. Resets, positions of the cycle, slot starts, cycle boundaries and the microsecond, and the statements about
them (R1..R16). -/

namespace Sys2Proof.Machine

/-! ## Reset (R16, R40, R60, R61, R78, R96, R136, R162, R171, R176) -/

/-- Settles O3: both resets are `resetAll`, every field of which is the reset value of its block. -/
theorem resetGivesEveryBlockItsValues : Obligations.ResetGivesEveryBlockItsValues := by
  intro band s
  refine ⟨resetAll band s, rfl, rfl, ?_⟩
  repeat' apply And.intro
  all_goals rfl

theorem Laser.reset_ok (band : Band) : (Laser.reset band).Ok where
  level := by simp [Laser.reset]
  timeout := by simp [Laser.reset]
  timeoutBound := Nat.zero_le 2
  cause := by simp [Laser.reset]
  duds := Nat.zero_le 3
  target := Nat.zero_le 15
  levelBound := fun _ h => nomatch h
  inhibit := by simp [Laser.reset]

theorem Exposure.reset_ok : Exposure.reset.Ok where
  entries := List.length_replicate
  bounded := fun x h => by rw [List.eq_of_mem_replicate h]; exact Nat.zero_le _
  window := by rw [Exposure.reset, List.sum_replicate]; rfl
  current := Nat.zero_le _

theorem Banks.reset_ok : BanksOk Banks.reset none where
  accepting := by decide
  closedA := by decide
  closedB := by decide
  reducingA := by decide
  reducingB := by decide
  recordA := by unfold Bank.Ok; decide
  recordB := by unfold Bank.Ok; decide

theorem Tracker.reset_ok : Tracker.reset.Ok where
  few := Nat.zero_le 5
  ascending := List.Pairwise.nil
  ids := List.Pairwise.nil
  records := fun _ h => nomatch h

theorem Line.reset_ok : Line.reset.Ok where
  attempt := by decide
  run := Nat.zero_le 11
  idle := by decide
  waiting := by decide
  recalled := fun _ => rfl
  trying := fun _ h => nomatch h
  claim := fun _ h => nomatch h
  notice := fun _ h => nomatch h
  report := fun _ h => nomatch h
  status := fun _ h => nomatch h

theorem Calendar.reset_ok : Calendar.reset.Ok where
  distinct := List.Pairwise.nil
  entries := fun _ h => nomatch h
  inactive := fun _ _ h => nomatch h

theorem peersOk_nil (own : Option StationNo) : PeersOk own [] where
  few := Nat.zero_le 8
  distinct := List.Pairwise.nil
  entries := fun _ h => nomatch h
  silent := fun _ h => nomatch h

theorem State.reset_headroom : State.reset.Headroom := fun h => nomatch h

/-- A unit without a number has no own slot to keep apart (R34). -/
theorem State.reset_apart : State.reset.Apart := fun _ h => nomatch h

theorem State.reset_bank (i : BankId) : State.reset.banks.get i = Bank.blank := by cases i <;> rfl

theorem State.reset_countsOk : State.reset.CountsOk where
  full := fun i => by rw [State.reset_bank]; exact Nat.zero_le _
  room := fun i h => by rw [State.reset_bank] at h; cases h
  blank := fun i _ => by rw [State.reset_bank]; rfl
  idle := fun _ i => by rw [State.reset_bank]; rfl
  configured := fun h => absurd rfl h

theorem State.reset_stationOk : State.reset.StationOk where
  number := by decide
  fixed := by decide
  live := by decide
  rolling := by decide
  unconfigured := by decide
  halted := by decide
  calendar := by decide
  positions := rfl
  driver := by decide
  holdOff := by decide
  listen := by decide

/-- Settles O60, block by block. -/
theorem resetKeepsEverything : Obligations.ResetKeepsEverything :=
  ⟨Timer.reset_ok, Laser.reset_ok .full, Exposure.reset_ok, State.reset_headroom, Banks.reset_ok, State.reset_countsOk,
    Tracker.reset_ok, Line.reset_ok, State.reset_stationOk, Calendar.reset_ok, peersOk_nil _,
    State.reset_apart⟩

/-! ## Positions as numbers (R1, R9, R11) -/

theorem positionNumber_eq (p : Position) : positionNumber p = 250 * p.slot.val + p.phase.val := rfl

theorem positionNumber_positionOf (n : Nat) (h : n < 8000) : positionNumber (positionOf n) = n := by
  simp only [positionNumber_eq, positionOf]
  omega

/-- The position into which a microsecond leads from one that is not the last of its slot (R1). -/
theorem positionOf_succ (p : Position) (h : p.phase.val < 249) :
    positionOf (positionNumber p + 1) = ⟨p.slot, p.phase + 1⟩ := by
  have := p.slot.isLt
  apply Position.ext_val
  · simp only [positionNumber_eq, positionOf]
    omega
  · simp only [positionNumber_eq, positionOf, Fin.val_add]
    omega

theorem positionAt_of_lt (e : Nat) (h : e < 8000) : positionAt e = positionOf e := if_pos h

theorem positionNumber_positionAt (e : Nat) (h : e < 8000) : positionNumber (positionAt e) = e := by
  rw [positionAt_of_lt e h, positionNumber_positionOf e h]

theorem Timer.elapsed_of_not_held (t : Timer) (h : t.held = false) : t.elapsed = positionNumber t.pos := by
  rw [Timer.elapsed, h]; rfl

theorem Timer.cycleLength_cast (t : Timer) (h : -1 ≤ t.curAdj) : (t.cycleLength : Int) = 8000 + t.curAdj := by
  simp only [Timer.cycleLength, Config.cycleLength, Int.ofNat_eq_natCast]
  omega

/-- Settles O46: the lead of 676 microseconds ends within the cycle in progress, or past its end. -/
theorem noticeCarriesThePositionAhead : Obligations.NoticeCarriesThePositionAhead := by
  intro own t ok free
  have start := t.elapsed_of_not_held free
  have length := t.cycleLength_cast ok.current.1
  have inside := ok.inside
  have number := positionNumber_eq t.pos
  have carried := positionNumber_eq (t.ahead 676)
  refine ⟨fun within small => ?_, fun past => ?_⟩
  · have ends : t.elapsed + 676 < t.cycleLength := by omega
    rw [Timer.ahead, if_pos ends, positionNumber_positionAt _ (by omega)] at carried
    rw [Timer.ahead, if_pos ends]
    omega
  · have ends : ¬ t.elapsed + 676 < t.cycleLength := by omega
    rw [Timer.ahead, if_neg ends, positionNumber_positionAt _ (by omega)] at carried
    rw [Timer.ahead, if_neg ends]
    omega

/-! ## Slot starts (R2, R4, R12, R15) -/

/-- A slot start that a step has not made void is raised at phase 0 of its slot. -/
theorem exec_slotStart_due (slot : Slot) (s : State)
    (h : s.timer.stepped = true → slot.val = s.timer.pos.slot.val + 1) :
    exec (.slotStart slot) s = .next (raiseSlotStart slot (s.mapTimer (Timer.arrive slot))) :=
  if_neg fun ⟨stepped, other⟩ => other (h stepped)

theorem exec_slotStart_void (slot : Slot) (s : State) (h : s.timer.stepped = true)
    (hs : slot.val ≠ s.timer.pos.slot.val + 1) : exec (.slotStart slot) s = .next s :=
  if_pos ⟨h, hs⟩

/-- A slot start fixes the next adjustment at slot 31, in one spelling for all slots. -/
theorem raiseSlotStart_of_not_ownSettled (slot : Slot) (s : State) (h : ownSettled slot s.calendar.claims = false) :
    raiseSlotStart slot s = s.mapTimer fun t =>
      { t with
        nextAdj := if slot = 31 then -t.slew.sign else t.nextAdj
        slew := if slot = 31 then t.slew - t.slew.sign else t.slew } := by
  simp only [raiseSlotStart, h, Bool.false_eq_true, if_false, State.mapTimer, fixNext_eq]
  split <;> rfl

/-- Settles O5: the slot start that is due, at a slot that is not own-settled, and the one that a step made void. -/
theorem slotStartFixesTheNextAdjustment : Obligations.SlotStartFixesTheNextAdjustment := by
  refine ⟨fun slot s due claims => ?_, exec_slotStart_void⟩
  have other : ownSettled slot s.calendar.claims = false := by
    rw [Bool.eq_false_iff, ne_eq, ownSettled_iff]
    rintro ⟨c, hc, at_slot, settled⟩
    exact claims c hc at_slot settled
  rw [exec_slotStart_due slot s due, raiseSlotStart_of_not_ownSettled slot (s.mapTimer (Timer.arrive slot)) other]
  rfl

/-! ## Cycle boundaries (R3, R6, R12, R15) -/

/-- A boundary that a step has not made void is raised at phase 0 of slot 0. -/
theorem exec_cycleBoundary_due (s : State) (h : s.timer.stepped = true → s.timer.pos.slot = 31) :
    exec .cycleBoundary s = .next (cycleBoundary (s.mapTimer (Timer.arrive 0))) :=
  if_neg fun ⟨stepped, other⟩ => other (h stepped)

theorem exec_cycleBoundary_void (s : State) (h : s.timer.stepped = true) (hs : s.timer.pos.slot ≠ 31) :
    exec .cycleBoundary s = .next s :=
  if_pos ⟨h, hs⟩

theorem ageHeard_young (k : Nat) (h : k < 199) : ageHeard (some k) = some (k + 1) :=
  if_neg (by simp only [Config.lapseAge]; omega)

theorem ageHeard_old (k : Nat) (h : 199 ≤ k) : ageHeard (some k) = none :=
  if_pos (by simp only [Config.lapseAge]; omega)

theorem ageHeard_none : ageHeard none = none := rfl

/-- Settles O8: the timer's part of the boundary, and the heard table aged entry by entry. -/
theorem cycleBoundaryAtTheTimer : Obligations.CycleBoundaryAtTheTimer := by
  refine ⟨fun s due => ⟨_, exec_cycleBoundary_due s due, ?_⟩, exec_cycleBoundary_void⟩
  obtain ⟨r, x, timer⟩ := cycleBoundary_timer (s.mapTimer (Timer.arrive 0))
  have aged : ∀ (n : Nat) (e : Option Nat), s.timer.heard[n]? = some e →
      (cycleBoundary (s.mapTimer (Timer.arrive 0))).timer.heard[n]? = some (ageHeard e) := by
    intro n e he
    rw [timer]
    exact (List.getElem?_map ..).trans (congrArg (Option.map ageHeard) he)
  refine ⟨?_, ?_, ?_, ?_, ?_, ?_, ?_, ?_, fun n k hn hk => ?_, fun n k hn hk => ?_, fun n hn => ?_, ?_, ?_⟩
  case refine_9 => rw [aged n _ hn, ageHeard_young k hk]
  case refine_10 => rw [aged n _ hn, ageHeard_old k hk]
  case refine_11 => rw [aged n _ hn, ageHeard_none]
  case refine_12 => exact (cycleBoundary_frame _).1
  case refine_13 => exact (cycleBoundary_frame _).2
  all_goals exact (congrArg _ timer).trans rfl

/-! ## Lapses and last counts as commands (R6, R7, R14, R21, R47, R174) -/

theorem exec_heardEntryLapse_last (n : StationNo) (s : State) (h : s.timer.heard[n.val]? = some (some 199)) :
    exec (.heardEntryLapse n) s =
      .next (recomputeReference (s.mapTimer fun t => { t with heard := t.heard.set n.val none })) := by
  change execHeardEntryLapse n s = _
  rw [execHeardEntryLapse, h]
  rfl

theorem exec_crossingPeerLapse_last (j : Fin 8) (e : PeerEntry) (s : State) (h : s.calendar.peers[j.val]? = some e)
    (age : e.age = some 199) :
    exec (.crossingPeerLapse j) s = .next (s.mapCalendar fun c => { c with peers := c.peers.set j.val e.silence }) := by
  have lapses : e.lapses = true := by rw [PeerEntry.lapses, age]; rfl
  change execCrossingPeerLapse j s = _
  rw [execCrossingPeerLapse, h]
  exact if_pos lapses

/-- The charge timeout's last count: the driver enters FAULT with cause "charge" (R47, R55). -/
theorem Laser.boundary_last (l : Laser) (charging : l.driver = .charging) (last : l.timeout = 1) :
    l.boundary = { l with driver := .fault, level := none, timeout := 0, cause := .charge } := by
  rw [Laser.boundary, if_pos charging, if_pos last.le]
  rfl

/-- Settles O11: each lapse and last count, by the share of the boundary it stands for. -/
theorem lastCountsTakenAsCommands : Obligations.LastCountsTakenAsCommands := by
  refine ⟨fun n s h => ⟨_, rfl, exec_heardEntryLapse_last n s h⟩, exec_crossingPeerLapse_last,
    fun s => ⟨fun h => if_pos h, fun charging last => ?_, fun h => ?_⟩⟩
  · refine (if_pos ⟨charging, last⟩).trans ?_
    rw [State.mapLaser, s.laser.boundary_last charging last]
  · refine (if_pos h).trans ?_
    rw [State.mapReq, Request.boundary, h]

end Sys2Proof.Machine
end

section
/-! SUPPORT. The microsecond that passes on an empty queue (R1, R2, R3, R62, R64; log 2). -/

namespace Sys2Proof.Machine

/-! ## The advance of the cycle timer (R1, R2, R3) -/

theorem step_command (c : Instr) (rest : List Instr) (s : State) :
    step { s with pending := c :: rest } = exec c { s with pending := rest } := rfl

theorem step_empty (s : State) (h : s.pending = []) : step s = .next (tick s) := by
  rw [step, h]

/-- Inside a slot the phase advances by one (R1). -/
theorem advance_in_slot (s : State) (free : s.timer.held = false) (cur : -1 ≤ s.timer.curAdj)
    (h : s.timer.pos.phase.val < 248 ∨
      (s.timer.pos.phase.val = 248 ∧ (s.timer.pos.slot.val < 31 ∨ 0 ≤ s.timer.curAdj))) :
    advance s = s.mapTimer fun t => { t with pos := ⟨t.pos.slot, t.pos.phase + 1⟩ } := by
  have start := s.timer.elapsed_of_not_held free
  have number := positionNumber_eq s.timer.pos
  have length := s.timer.cycleLength_cast cur
  have slot := s.timer.pos.slot.isLt
  have running : ¬ s.timer.elapsed + 1 ≥ s.timer.cycleLength := by omega
  have small : s.timer.elapsed + 1 < 8000 := by omega
  have inside : ¬ (s.timer.elapsed + 1 < Config.cycleLength ∧ (s.timer.elapsed + 1) % Config.slotLength = 0) := by
    simp only [Config.cycleLength, Config.slotLength]
    omega
  have moved : positionAt (s.timer.elapsed + 1) = ⟨s.timer.pos.slot, s.timer.pos.phase + 1⟩ := by
    rw [positionAt_of_lt _ small, start, positionOf_succ _ (by omega)]
  have still : decide (s.timer.elapsed + 1 ≥ Config.cycleLength) = s.timer.held := by
    rw [free, decide_eq_false_iff_not, not_le]
    exact small
  simp only [advance, if_neg running, if_neg inside, moved, still]
  rfl

/-- The last microsecond of slots 0..30 raises the start of the next (R2). -/
theorem advance_next_slot (slot : Slot) (s : State) (free : s.timer.held = false) (cur : -1 ≤ s.timer.curAdj)
    (last : s.timer.pos.phase.val = 249) (next : slot.val = s.timer.pos.slot.val + 1) :
    advance s = raiseSlotStart slot (s.mapTimer (Timer.arrive slot)) := by
  have start := s.timer.elapsed_of_not_held free
  have number := positionNumber_eq s.timer.pos
  have length := s.timer.cycleLength_cast cur
  have bound := slot.isLt
  have arrives : s.timer.elapsed + 1 = 250 * slot.val := by omega
  have running : ¬ s.timer.elapsed + 1 ≥ s.timer.cycleLength := by omega
  have falls : s.timer.elapsed + 1 < Config.cycleLength ∧ (s.timer.elapsed + 1) % Config.slotLength = 0 := by
    simp only [Config.cycleLength, Config.slotLength]
    omega
  have reached : (positionAt (s.timer.elapsed + 1)).slot = slot := by
    rw [positionAt_of_lt _ falls.1]
    apply Fin.ext
    simp only [positionOf]
    omega
  simp only [advance, if_neg running, if_pos falls, reached]

/-- The last microsecond of the cycle raises the boundary and the start of slot 0 (R3). -/
theorem advance_cycle_end (s : State) (h : s.timer.cycleLength ≤ s.timer.elapsed + 1) :
    advance s = raiseSlotStart 0 (cycleBoundary (s.mapTimer (Timer.arrive 0))) :=
  if_pos h

/-- Phase 249 of a slot 31 lengthened by 1 is held for a second microsecond (R1). -/
theorem advance_hold (s : State) (slot : s.timer.pos.slot = 31) (phase : s.timer.pos.phase = 249)
    (cur : s.timer.curAdj = 1) (free : s.timer.held = false) :
    advance s = s.mapTimer fun t => { t with held := true } := by
  have pos : s.timer.pos = ⟨31, 249⟩ := by rw [← slot, ← phase]
  have start : s.timer.elapsed = 7999 := by rw [Timer.elapsed, pos, free]; rfl
  have length : s.timer.cycleLength = 8001 := by rw [Timer.cycleLength, cur]; rfl
  simp only [advance, start, length]
  change s.mapTimer (fun t => { t with pos := ⟨31, 249⟩, held := true }) = _
  rw [← pos]
  rfl

/-- Slot 31 ends after 249, 250 or 251 microseconds by the current adjustment (R1). -/
theorem cycle_ends (t : Timer) (slot : t.pos.slot = 31)
    (h : (t.pos.phase = 248 ∧ t.curAdj = -1 ∧ t.held = false) ∨ (t.pos.phase = 249 ∧ t.curAdj = 0 ∧ t.held = false) ∨
      (t.pos.phase = 249 ∧ t.curAdj = 1 ∧ t.held = true)) : t.cycleLength ≤ t.elapsed + 1 := by
  rcases h with ⟨phase, cur, held⟩ | ⟨phase, cur, held⟩ | ⟨phase, cur, held⟩ <;>
    simp only [Timer.cycleLength, Timer.elapsed, positionNumber, slot, phase, cur, held] <;> decide

/-- A boundary leaves the timer at phase 0 of slot 0, where the slot start of slot 0 finds it. -/
theorem cycleBoundary_arrived (s : State) :
    (cycleBoundary (s.mapTimer (Timer.arrive 0))).mapTimer (Timer.arrive 0) =
      cycleBoundary (s.mapTimer (Timer.arrive 0)) := by
  obtain ⟨r, x, timer⟩ := cycleBoundary_timer (s.mapTimer (Timer.arrive 0))
  have fixed : Timer.arrive 0 (cycleBoundary (s.mapTimer (Timer.arrive 0))).timer =
      (cycleBoundary (s.mapTimer (Timer.arrive 0))).timer := by rw [timer]; rfl
  rw [State.mapTimer, fixed]

/-! ## The blocks at a microsecond -/

/-- The line's microsecond changes nothing but the line's record. -/
theorem lineTick_rest (s : State) : { lineTick s with line := s.line } = s := by
  simp only [lineTick_frame]

/-- With no shot in progress the digitizer's conversions reach the front end alone (R62). -/
theorem convertTick_without_shot (s : State) (h : s.front.shot = none) :
    (convertTick s).front.shot = none ∧ { convertTick s with front := s.front } = s := by
  simp only [convertTick, convert, h]
  cases s.front.window <;> exact ⟨h, rfl⟩

theorem windowTick_without_shot (s : State) (h : s.front.shot = none) : windowTick s = s := by
  rw [windowTick, h]

/-- Settles O1: the queue, the microsecond inside a slot, and those that end a slot, hold phase 249 or end the cycle. -/
theorem stepRunsTheFrontCommandOrOneMicrosecond : Obligations.StepRunsTheFrontCommandOrOneMicrosecond := by
  refine ⟨step_command, fun s empty free cur inside => ?_, fun s m raised empty hm hraised => ?_⟩
  · have tick_eq : tick s = lineTick ((windowTick (convertTick s)).mapTimer fun t =>
        { t with pos := ⟨t.pos.slot, t.pos.phase + 1⟩ }) := by
      rw [tick, advance_in_slot _ (by simpa using free) (by simpa using cur) (by simpa using inside)]
    refine ⟨tick s, step_empty s empty, ?_⟩
    simp [tick_eq, empty]
  · have timer : m.timer = s.timer := by simp [hm]
    have step_eq : step s = .next (lineTick (advance m)) := by rw [step_empty s empty, tick, hm]
    have unstepped : raised.timer.stepped = false := by rw [hraised]
    have arrives : ∀ slot, raised.mapTimer (Timer.arrive slot) = m.mapTimer (Timer.arrive slot) := by
      intro slot; rw [hraised]; rfl
    refine ⟨timer, by simp [hm], by simp [hm], by simp [hm], by simp [hm], by simp [hm], by simp [hm], by simp [hm],
      by simp [hm, empty], fun no_shot => ?_, fun slot free cur last next => ?_, fun slot ends => ?_,
      fun slot phase cur free => ?_⟩
    · obtain ⟨still, rest⟩ := convertTick_without_shot s no_shot
      rw [hm, windowTick_without_shot _ still]
      exact rest
    · refine ⟨_, _, exec_slotStart_due slot raised (by simp [unstepped]), step_eq, ?_⟩
      rw [advance_next_slot slot m (by rw [timer]; exact free) (by rw [timer]; exact cur) (by rw [timer]; exact last)
        (by rw [timer]; exact next), arrives, lineTick_rest]
    · refine ⟨_, _, _, exec_cycleBoundary_due raised (by simp [unstepped]), exec_slotStart_due 0 _ ?_, step_eq, ?_⟩
      · obtain ⟨r, x, boundary⟩ := cycleBoundary_timer (raised.mapTimer (Timer.arrive 0))
        rw [boundary]
        exact fun h => nomatch h
      · rw [advance_cycle_end m (by rw [timer]; exact cycle_ends s.timer slot ends), cycleBoundary_arrived, arrives,
          lineTick_rest]
    · refine ⟨_, step_eq, ?_⟩
      rw [advance_hold m (by rw [timer]; exact slot) (by rw [timer]; exact phase) (by rw [timer]; exact cur)
        (by rw [timer]; exact free)]
      exact ⟨by simp [timer], by simp only [lineTick_frame]; rfl⟩

end Sys2Proof.Machine
end

section
/-! SUPPORT. A NOTICE at the cycle timer: hearing, the measurement against the latched position, the slew, the step and
the slip (R6..R15). -/

namespace Sys2Proof.Machine

/-! ## A NOTICE at each block it reaches (R6, R9, R19, R160, R170) -/

theorem exec_notice (n : StationNo) (serial : Serial) (body : NoticeBody) (s : State) :
    exec (.notice (senderOf n) serial body) s = .next (takeNotice n ⟨body, serial⟩ (dispatched s)) := by
  change execNotice (senderOf n) serial body s = _
  rw [execNotice, stationOf_senderOf]

/-- The calendar passes over a NOTICE of a station without an entry (R19). -/
theorem calendarTakesNotice_of_no_entry (n : StationNo) (f : NoticeFields) (s : State)
    (h : ∀ e ∈ s.calendar.peers, e.peer ≠ n) : calendarTakesNotice n f s = s := by
  have none : entryOf s.num.own n s.calendar.peers = none := by
    rw [entryOf, List.findIdx?_eq_none_iff]
    intro e he
    simp [h e he]
  rw [calendarTakesNotice, none]

theorem Line.recall_latched (set : SlotSet) (l : Line) : (l.recall set).latched = l.latched := by
  rw [Line.recall_eq]

theorem releaseConflicts_latched (j : Nat) (n : StationNo) (set : SlotSet) (s : State) :
    (releaseConflicts j n set s).line.latched = s.line.latched := by
  simp only [releaseConflicts]
  repeat' split
  · rfl
  · simp [Line.recall_latched]
  · rfl

theorem queueNotice_latched (s : State) : (queueNotice s).line.latched = s.line.latched := rfl

/-- The calendar keeps the position latched for the frame (R9, R35). -/
theorem calendarTakesNotice_latched (n : StationNo) (f : NoticeFields) (s : State) :
    (calendarTakesNotice n f s).line.latched = s.line.latched := by
  simp only [calendarTakesNotice]
  split
  · rfl
  · split
    · rfl
    · split
      · rfl
      · simp only [activeAfterNotice]
        (repeat' split) <;> simp [queueNotice_latched, releaseConflicts_latched]
      · split <;> rfl

/-- A NUMBERED unit is concerned with its own number alone (R170). -/
theorem numberingTakes_of_numbered (n : StationNo) (serial : Option Serial) (s : State)
    (numbered : s.num.state = .numbered) (other : s.num.own ≠ some n) : numberingTakes n serial s = s := by
  simp only [numberingTakes, numbered, if_neg other]
  split <;> rfl

theorem choose_of_banks_timer (bs : Banks) (tm : Timer) (s : State) :
    choose { s with banks := bs, timer := tm } = { choose s with banks := bs, timer := tm } := by
  simp only [choose]
  split <;> rfl

/-- Another station's number concerns the numbering unit and the line alone, whatever the banks and the timer hold. -/
theorem numberingTakes_of_banks_timer (n : StationNo) (serial : Option Serial) (bs : Banks) (tm : Timer) (s : State)
    (other : s.num.own ≠ some n) :
    numberingTakes n serial { s with banks := bs, timer := tm } =
      { numberingTakes n serial s with banks := bs, timer := tm } := by
  have chooses := choose_of_banks_timer bs tm (joinTaken n s)
  cases state : s.num.state with
  | listen => simp only [numberingTakes, state]; rfl
  | claiming =>
    simp only [numberingTakes, state]
    (repeat' split) <;> first
      | rfl
      | exact chooses
  | numbered =>
    rw [numberingTakes_of_numbered n serial s state other]
    exact numberingTakes_of_numbered n serial _ state other

theorem numberingTakes_other_frame (n : StationNo) (serial : Option Serial) (s : State) (other : s.num.own ≠ some n) :
    (numberingTakes n serial s).timer = s.timer ∧ (numberingTakes n serial s).banks = s.banks ∧
    (numberingTakes n serial s).calendar = s.calendar := by
  cases state : s.num.state with
  | listen => simp [numberingTakes, state]
  | claiming =>
    simp only [numberingTakes, state]
    (repeat' split) <;> simp
  | numbered => simp [numberingTakes_of_numbered n serial s state other]

/-! ## The measurement (R9, R10, R12) -/

/-- The offset is the difference taken into -4,000..3,999 (R9). -/
theorem offset_eq (a b : Nat) (d : Int) (low : -4000 ≤ d) (high : d < 4000)
    (h : ∃ q : Int, (a : Int) - b = d + 8000 * q) : offset a b = d := by
  obtain ⟨q, h⟩ := h
  simp only [offset]
  split <;> omega

/-- The NOTICE is one the timer measures, of its reference and in range, with the offset `d` (R8, R9). -/
structure Measures (n : StationNo) (f : NoticeFields) (d : Int) (s : State) : Prop where
  reference : s.timer.ref = some n
  other : s.num.own ≠ some n
  slot : f.slot.toNat ≤ 31
  phase : f.phase.toNat ≤ 249
  offset : offset (250 * f.slot.toNat + f.phase.toNat) (positionNumber s.line.latched) = d

theorem measure_of_not_measured (n : StationNo) (f : NoticeFields) (s : State)
    (h : s.timer.ref ≠ some n ∨ 31 < f.slot.toNat ∨ 249 < f.phase.toNat) : measure n f s = s := by
  refine if_neg fun ⟨reference, other, slot, phase⟩ => ?_
  rcases h with h | h | h
  · exact h reference
  · omega
  · omega

theorem Measures.slews {n : StationNo} {f : NoticeFields} {d : Int} {s : State} (m : Measures n f d s)
    (low : -20 ≤ d) (high : d ≤ 20) : measure n f s = s.mapTimer fun t => { t with slew := d } := by
  have small : d.natAbs ≤ Config.stepThreshold := by simp only [Config.stepThreshold]; omega
  rw [measure, if_pos ⟨m.reference, m.other, m.slot, m.phase⟩]
  simp only [Config.slotLength, m.offset, if_pos small]

theorem Measures.steps {n : StationNo} {f : NoticeFields} {d : Int} {s : State} (m : Measures n f d s)
    (large : d < -20 ∨ 20 < d) : measure n f s = stepTimer (250 * f.slot.toNat + f.phase.toNat) d s := by
  have big : ¬ d.natAbs ≤ Config.stepThreshold := by simp only [Config.stepThreshold]; omega
  rw [measure, if_pos ⟨m.reference, m.other, m.slot, m.phase⟩]
  simp only [Config.slotLength, m.offset, if_neg big]

/-- Settles O37: hearing, and then no measurement or the slew; the calendar and a NUMBERED unit pass the frame over. -/
theorem noticeIsHeardAndSlews : Obligations.NoticeIsHeardAndSlews := by
  intro n f p s ref d hp
  subst hp
  refine ⟨rfl, fun waits => ?_, fun sends => ?_, fun numbered other no_entry href low high offset => ?_⟩
  · simp only [State.lineAfterFrame, Line.countDispatched, Line.receiveEnd, if_neg waits]
    rfl
  · simp only [State.lineAfterFrame, Line.countDispatched, Line.receiveEnd, if_pos sends]
    rfl
  · subst href
    have taken : ∀ t, measure n f (hearNotice n (dispatched s)) = t → t.num = s.num →
        exec (.notice (senderOf n) f.serial f.toNoticeBody) s = .next t := by
      rintro t ht num
      rw [exec_notice, takeNotice, calendarTakesNotice_of_no_entry n _ _ (by simpa using no_entry), ht,
        numberingTakes_of_numbered n _ t (by rw [num, numbered]) (by rw [num]; exact other)]
    refine ⟨fun not_measured => ?_, fun reference slot phase least most => ?_⟩
    · exact taken _ (measure_of_not_measured n f _ not_measured) rfl
    · have m : Measures n f d (hearNotice n (dispatched s)) :=
        ⟨reference, other, slot, phase, offset_eq _ _ d low high (by exact_mod_cast offset)⟩
      exact taken _ (m.slews least most) rfl

end Sys2Proof.Machine
end

section
/-! SUPPORT. A NOTICE that steps the cycle timer: the step within the cycle, the step across the end of slot 31 with its
boundary, and the slip (R3, R12, R13, R14, R15). -/

namespace Sys2Proof.Machine

/-! ## The step and the slip (R12, R13) -/

/-- The timer stepped to a position (R12, R14, R15), before the slip. -/
def Timer.stepTo (p : Position) (t : Timer) : Timer :=
  { t with pos := p, held := false, curAdj := 0, nextAdj := 0, slew := 0, stepped := true }

/-- The position a NOTICE carries, advanced by the end delimiter (R12). -/
def noticeTarget (f : NoticeFields) : Position := positionOf ((250 * f.slot.toNat + f.phase.toNat + 32) % 8000)

theorem stepTimer_within (f : NoticeFields) (d : Int) (s : State)
    (h : d < 0 ∨ (positionNumber s.timer.pos : Int) + d < 8000) :
    stepTimer (250 * f.slot.toNat + f.phase.toNat) d s = slip (s.mapTimer (Timer.stepTo (noticeTarget f))) :=
  congrArg slip (if_neg (by omega))

theorem stepTimer_across (f : NoticeFields) (d : Int) (s : State) (forward : 0 < d)
    (h : 8000 ≤ (positionNumber s.timer.pos : Int) + d) :
    stepTimer (250 * f.slot.toNat + f.phase.toNat) d s =
      slip (cycleBoundary (s.mapTimer (Timer.stepTo (noticeTarget f)))) :=
  congrArg slip (if_pos ⟨forward, h⟩)

/-- A slip counts itself, suppresses firing and marks the banks, and nothing else (R13). -/
theorem slip_eq (s : State) : ∃ bs,
    slip s = { s with banks := bs, timer := { s.timer with suppress := 2, slips := bump s.timer.slips } } ∧
    s.banks.SlipMarked s.calendar.peers.length bs :=
  markSlip_slipMarked (s.mapTimer fun t => { t with suppress := 2, slips := bump t.slips })

theorem slip_timer (s : State) : (slip s).timer = { s.timer with suppress := 2, slips := bump s.timer.slips } := by
  simp [slip]

/-! ## A NOTICE elsewhere than at the measurement (R6, R19, R35, R170; log 7) -/

/-- What a NOTICE makes of the state but for its measurement. -/
def noticeElsewhere (n : StationNo) (f : NoticeFields) (s : State) : State :=
  numberingTakes n (some f.serial) (calendarTakesNotice n f (hearNotice n (dispatched s)))

/-- A slot index out of range keeps a NOTICE from being measured (R9). -/
theorem exec_notice_unmeasured (n : StationNo) (f : NoticeFields) (s : State) :
    exec (.notice (senderOf n) f.serial { f.toNoticeBody with slot := 32 }) s = .next (noticeElsewhere n f s) := by
  rw [exec_notice, takeNotice, measure_of_not_measured _ _ _ (.inr (.inl (by decide : 31 < (32 : Byte).toNat)))]
  rfl

/-- A NUMBERED unit without an entry for the sender hears it, and that is all. -/
theorem noticeElsewhere_of_no_entry (n : StationNo) (f : NoticeFields) (s : State) (numbered : s.num.state = .numbered)
    (other : s.num.own ≠ some n) (no_entry : ∀ e ∈ s.calendar.peers, e.peer ≠ n) :
    noticeElsewhere n f s = hearNotice n (dispatched s) := by
  rw [noticeElsewhere, calendarTakesNotice_of_no_entry n f _ (by simpa using no_entry)]
  exact numberingTakes_of_numbered n _ _ numbered other

/-- The NOTICE steps the timer: of the reference it makes of its sender, in range, with an offset above 20 (R9, R12). -/
structure NoticeSteps (n : StationNo) (f : NoticeFields) (d : Int) (s : State) : Prop where
  other : s.num.own ≠ some n
  reference : referenceOf s.num.own (s.timer.heard.set n.val (some 0)) = some n
  slot : f.slot.toNat ≤ 31
  phase : f.phase.toNat ≤ 249
  offset : offset (250 * f.slot.toNat + f.phase.toNat) (positionNumber (s.timer.behind 32)) = d
  large : d < -20 ∨ 20 < d

section
variable {n : StationNo} {f : NoticeFields} {d : Int} {s : State}

/-- The calendar's part changes nothing that the measurement reads. -/
theorem NoticeSteps.measures (h : NoticeSteps n f d s) :
    Measures n f d (calendarTakesNotice n f (hearNotice n (dispatched s))) where
  reference := by
    rw [(calendarTakesNotice_frame _ n f).1]
    exact h.reference
  other := by simpa using h.other
  slot := h.slot
  phase := h.phase
  offset := by
    rw [calendarTakesNotice_latched]
    exact h.offset

theorem NoticeSteps.exec_eq (h : NoticeSteps n f d s) :
    exec (.notice (senderOf n) f.serial f.toNoticeBody) s =
      .next (numberingTakes n (some f.serial) (stepTimer (250 * f.slot.toNat + f.phase.toNat) d
        (calendarTakesNotice n f (hearNotice n (dispatched s))))) := by
  rw [exec_notice, takeNotice, ← h.measures.steps h.large]

/-- The position a step starts from is the one the timer held before the frame. -/
theorem heardNotice_pos (n : StationNo) (f : NoticeFields) (s : State) :
    (calendarTakesNotice n f (hearNotice n (dispatched s))).timer.pos = s.timer.pos := by
  rw [(calendarTakesNotice_frame _ n f).1]
  rfl

/-- A step that does not cross the end of slot 31 forward, after what the NOTICE does elsewhere (R12, R13). -/
theorem NoticeSteps.within (h : NoticeSteps n f d s) (inside : d < 0 ∨ (positionNumber s.timer.pos : Int) + d < 8000) :
    ∃ bs, exec (.notice (senderOf n) f.serial f.toNoticeBody) s = .next
        { noticeElsewhere n f s with
          banks := bs
          timer :=
            { (noticeElsewhere n f s).timer.stepTo (noticeTarget f) with
              suppress := 2
              slips := bump (noticeElsewhere n f s).timer.slips } } ∧
      (noticeElsewhere n f s).banks.SlipMarked (noticeElsewhere n f s).calendar.peers.length bs := by
  obtain ⟨a, ha⟩ : ∃ a, a = calendarTakesNotice n f (hearNotice n (dispatched s)) := ⟨_, rfl⟩
  have other : a.num.own ≠ some n := by rw [ha]; exact h.measures.other
  obtain ⟨timer, banks, calendar⟩ := numberingTakes_other_frame n (some f.serial) a other
  obtain ⟨bs, slipped, marked⟩ := slip_eq (a.mapTimer (Timer.stepTo (noticeTarget f)))
  rw [h.exec_eq, noticeElsewhere, ← ha, stepTimer_within f d a (by rw [ha, heardNotice_pos]; exact inside), slipped,
    timer, banks, calendar]
  exact ⟨bs, congrArg _ (numberingTakes_of_banks_timer n _ bs _ a other), marked⟩

/-! ## The boundary of a step across the end of slot 31 (R3, R12) -/

/-- The timer's place in the cycle, which a boundary neither reads nor sets. -/
def Timer.placeAt (p : Position) (stepped : Bool) (t : Timer) : Timer :=
  { t with pos := p, held := false, stepped := stepped }

theorem timerBoundary_placeAt (p : Position) (b : Bool) (s : State) :
    timerBoundary (s.mapTimer (Timer.placeAt p b)) = (timerBoundary s).mapTimer (Timer.placeAt p b) := by
  have heard : (s.mapTimer (Timer.placeAt p b)).timer.heard = s.timer.heard := rfl
  by_cases lapses : s.timer.heard.any heardLapses = true
  · rw [timerBoundary, timerBoundary, heard, if_pos lapses, if_pos lapses]
    rfl
  · rw [timerBoundary, timerBoundary, heard, if_neg lapses, if_neg lapses]
    rfl

theorem countdownExpires_mapTimer (g : Timer → Timer) (s : State) :
    countdownExpires (s.mapTimer g) = (countdownExpires s).mapTimer g := by
  by_cases claims : s.calendar.state = .active ∧ hasEmpty s.calendar.claims = true
  · rw [countdownExpires, countdownExpires, State.calendar_mapTimer, if_pos claims, if_pos claims]
    rfl
  · rw [countdownExpires, countdownExpires, State.calendar_mapTimer, if_neg claims, if_neg claims]
    rfl

theorem countdownBoundary_mapTimer (g : Timer → Timer) (s : State) :
    countdownBoundary (s.mapTimer g) = (countdownBoundary s).mapTimer g := by
  rw [countdownBoundary, countdownBoundary, State.calendar_mapTimer]
  by_cases inactive : s.calendar.state = .inactive
  · rw [if_pos inactive, if_pos inactive]
  · rw [if_neg inactive, if_neg inactive]
    cases s.calendar.countdown with
    | none => rfl
    | some k =>
      by_cases last : k ≤ 1
      · simp only [if_pos last]
        exact countdownExpires_mapTimer g (s.mapCalendar fun c => { c with countdown := some 0 })
      · simp only [if_neg last]
        rfl

theorem calendarBoundary_mapTimer (g : Timer → Timer) (s : State) :
    calendarBoundary (s.mapTimer g) = (calendarBoundary s).mapTimer g :=
  countdownBoundary_mapTimer g (s.mapCalendar fun c => { c with peers := c.peers.map PeerEntry.boundary })

theorem closeBank_mapTimer (i : BankId) (g : Timer → Timer) (s : State) :
    closeBank i (s.mapTimer g) = (closeBank i s).mapTimer g := by
  have live : (s.mapTimer g).live = s.live := rfl
  rw [closeBank, closeBank, State.banks_mapTimer, live]
  by_cases other : (s.banks.get i.other).state = .empty
  · simp only [if_pos other]
    cases s.live <;> rfl
  · simp only [if_neg other]
    rfl

theorem banksBoundary_mapTimer (g : Timer → Timer) (s : State) :
    banksBoundary (s.mapTimer g) = (banksBoundary s).mapTimer g := by
  rw [banksBoundary, banksBoundary, State.banks_mapTimer]
  cases s.banks.accepting with
  | none => rfl
  | some i =>
    by_cases stopped : (s.banks.get i).deadline = 0
    · simp only [if_pos stopped]
    · by_cases last : (s.banks.get i).deadline = 1
      · by_cases free : (s.banks.get i).inFlight = 0
        · simp only [if_neg stopped, if_pos last, if_pos free]
          exact closeBank_mapTimer i g (s.mapBanks fun bs => bs.put i { s.banks.get i with deadline := 0 })
        · simp only [if_neg stopped, if_pos last, if_neg free]
          rfl
      · simp only [if_neg stopped, if_neg last]
        rfl

/-- The numbering unit passes a boundary over while neither of its countdowns runs. -/
theorem numberingBoundary_of_stopped (s : State) (listen : s.num.listen = none) (hold : s.num.holdOff = none) :
    numberingBoundary s = s := by
  rw [numberingBoundary, listen, hold]

theorem cycleBoundary_of_stopped (s : State) (listen : s.num.listen = none) (hold : s.num.holdOff = none) :
    cycleBoundary s = (banksBoundary (calendarBoundary
      (((timerBoundary s).mapLaser Laser.boundary).mapExpo Exposure.rotate))).mapReq Request.boundary := by
  rw [cycleBoundary, numberingBoundary_of_stopped _ (by simpa using listen) (by simpa using hold)]

/-- A boundary at a unit without a running countdown is the same wherever in the cycle it is raised. -/
theorem cycleBoundary_placeAt (p : Position) (b : Bool) (s : State) (listen : s.num.listen = none)
    (hold : s.num.holdOff = none) :
    cycleBoundary (s.mapTimer (Timer.placeAt p b)) = (cycleBoundary s).mapTimer (Timer.placeAt p b) := by
  rw [cycleBoundary_of_stopped s listen hold,
    cycleBoundary_of_stopped (s.mapTimer (Timer.placeAt p b)) listen hold, timerBoundary_placeAt]
  have calendar := calendarBoundary_mapTimer (Timer.placeAt p b)
    (((timerBoundary s).mapLaser Laser.boundary).mapExpo Exposure.rotate)
  have banks := banksBoundary_mapTimer (Timer.placeAt p b)
    (calendarBoundary (((timerBoundary s).mapLaser Laser.boundary).mapExpo Exposure.rotate))
  rw [← calendar] at banks
  exact congrArg (State.mapReq Request.boundary) banks

theorem cycleBoundary_num (s : State) (listen : s.num.listen = none) (hold : s.num.holdOff = none) :
    (cycleBoundary s).num = s.num := by
  rw [cycleBoundary_of_stopped s listen hold]
  simp

/-- A step across the end of slot 31 at a unit without a running countdown: the boundary, then the slip (R3, R13). -/
theorem NoticeSteps.across (h : NoticeSteps n f d s) (forward : 0 < d)
    (past : 8000 ≤ (positionNumber s.timer.pos : Int) + d) (numbered : s.num.state = .numbered)
    (listen : s.num.listen = none) (hold : s.num.holdOff = none) :
    ∃ v bs, exec .cycleBoundary ((noticeElsewhere n f s).mapTimer fun t =>
        { t with stepped := false, slew := 0, curAdj := 0, nextAdj := 0 }) = .next v ∧
      exec (.notice (senderOf n) f.serial f.toNoticeBody) s = .next
        { v with
          banks := bs
          timer :=
            { v.timer.placeAt (noticeTarget f) true with
              suppress := 2
              slips := bump v.timer.slips } } ∧
      v.banks.SlipMarked v.calendar.peers.length bs := by
  have elsewhere : noticeElsewhere n f s = calendarTakesNotice n f (hearNotice n (dispatched s)) :=
    numberingTakes_of_numbered n _ _ (by simpa using numbered) h.measures.other
  generalize hb : (noticeElsewhere n f s).mapTimer
    (fun t => { t with stepped := false, slew := 0, curAdj := 0, nextAdj := 0 }) = b
  have num : b.num = s.num := by rw [← hb, elsewhere]; simp
  rw [← num] at listen hold
  have raised : exec .cycleBoundary b = .next ((cycleBoundary b).mapTimer (Timer.placeAt ⟨0, 0⟩ false)) := by
    rw [exec_cycleBoundary_due b (by rw [← hb]; exact fun stepped => nomatch stepped),
      ← cycleBoundary_placeAt _ _ b listen hold]
    rfl
  have moved : (calendarTakesNotice n f (hearNotice n (dispatched s))).mapTimer (Timer.stepTo (noticeTarget f)) =
      b.mapTimer (Timer.placeAt (noticeTarget f) true) := by rw [← hb, elsewhere]; rfl
  obtain ⟨bs, slipped, marked⟩ := slip_eq ((cycleBoundary b).mapTimer (Timer.placeAt (noticeTarget f) true))
  refine ⟨_, bs, raised, ?_, marked⟩
  rw [h.exec_eq, stepTimer_across f d _ forward (by rw [heardNotice_pos]; exact past), moved,
    cycleBoundary_placeAt _ _ b listen hold, slipped]
  have kept : (cycleBoundary b).num = s.num := by rw [cycleBoundary_num b listen hold, num]
  exact congrArg _ (numberingTakes_of_numbered n _ _ (by simpa [kept] using numbered) (by simpa [kept] using h.other))

/-! ## What the numbering unit can do to the timer (R7, R8) -/

/-- The reference is another one, and a slew of 0 stays 0. -/
def Timer.Rereferenced (t u : Timer) : Prop := ∃ r x, u = { t with ref := r, slew := x } ∧ (t.slew = 0 → x = 0)

theorem Timer.Rereferenced.refl (t : Timer) : t.Rereferenced t := ⟨t.ref, t.slew, rfl, id⟩

theorem recomputeReference_rereferenced (s : State) : s.timer.Rereferenced (recomputeReference s).timer := by
  refine ⟨_, _, rfl, fun zero => ?_⟩
  rw [zero, ite_self]

theorem setOwnNumber_rereferenced (own : Option StationNo) (s : State) :
    s.timer.Rereferenced (setOwnNumber own s).timer := by
  cases own <;> exact recomputeReference_rereferenced _

theorem holdOffEnds_rereferenced (s : State) : s.timer.Rereferenced (holdOffEnds s).timer := by
  simp only [holdOffEnds]
  split
  · exact Timer.Rereferenced.refl _
  · split
    · simpa using setOwnNumber_rereferenced _
        ((s.mapNum fun u => { u with holdOff := none }).mapNum fun u => { u with state := .numbered })
    · exact setOwnNumber_rereferenced _
        ((s.mapNum fun u => { u with holdOff := none }).mapNum fun u => { u with state := .numbered })

theorem numberingBoundary_rereferenced (s : State) : s.timer.Rereferenced (numberingBoundary s).timer := by
  simp only [numberingBoundary]
  split
  · split
    · simpa using Timer.Rereferenced.refl s.timer
    · exact Timer.Rereferenced.refl _
  · split
    · split
      · exact holdOffEnds_rereferenced s
      · exact Timer.Rereferenced.refl _
    · exact Timer.Rereferenced.refl _

theorem yieldNumber_rereferenced (n : StationNo) (s : State) : s.timer.Rereferenced (yieldNumber n s).timer := by
  simp only [yieldNumber]
  split
  · simpa using setOwnNumber_rereferenced none
      (s.mapNum fun u => { u with
        state := .claiming, taken := setInsert n.val 0, wanted := none, listen := some Config.listenPeriod,
        holdOff := none })
  · (repeat' split) <;> simpa using Timer.Rereferenced.refl s.timer

theorem numberingTakes_rereferenced (n : StationNo) (serial : Option Serial) (s : State) :
    s.timer.Rereferenced (numberingTakes n serial s).timer := by
  have same := Timer.Rereferenced.refl s.timer
  cases state : s.num.state with
  | listen => simpa [numberingTakes, state] using same
  | claiming =>
    simp only [numberingTakes, state]
    (repeat' split) <;> simpa using same
  | numbered =>
    simp only [numberingTakes, state]
    (repeat' split) <;> first
      | exact yieldNumber_rereferenced n s
      | simpa using same

theorem timerBoundary_slew (s : State) (zero : s.timer.slew = 0) : (timerBoundary s).timer.slew = 0 := by
  simp only [timerBoundary]
  split
  · obtain ⟨r, x, timer, kept⟩ := recomputeReference_rereferenced (s.mapTimer fun t =>
      { t with
        cycles := bump t.cycles, prevAdj := t.curAdj, curAdj := t.nextAdj, nextAdj := 0, suppress := t.suppress - 1
        heard := t.heard.map ageHeard })
    rw [timer]
    exact kept zero
  · exact zero

/-- A boundary leaves no slew where there was none (R4, R5). -/
theorem cycleBoundary_slew (s : State) (zero : s.timer.slew = 0) : (cycleBoundary s).timer.slew = 0 := by
  obtain ⟨r, x, timer, kept⟩ := numberingBoundary_rereferenced (banksBoundary (calendarBoundary
    (((timerBoundary s).mapLaser Laser.boundary).mapExpo Exposure.rotate)))
  rw [cycleBoundary, State.timer_mapReq, timer]
  exact kept (by simpa using timerBoundary_slew s zero)

/-! ## The statement -/

/-- A step across the end of slot 31, at the timer, the exposure monitor and the front end, whatever the unit does. -/
theorem NoticeSteps.across_timer (h : NoticeSteps n f d s) (forward : 0 < d)
    (past : 8000 ≤ (positionNumber s.timer.pos : Int) + d) :
    ∃ t, exec (.notice (senderOf n) f.serial f.toNoticeBody) s = .next t ∧
      t.timer.pos = noticeTarget f ∧ t.timer.stepped = true ∧
      t.timer.suppress = 2 ∧ t.timer.slips = bump s.timer.slips ∧ t.timer.cycles = bump s.timer.cycles ∧
      t.timer.slew = 0 ∧ t.timer.curAdj = 0 ∧ t.timer.nextAdj = 0 ∧ t.expo = s.expo.rotate ∧ t.front = s.front := by
  refine ⟨_, h.exec_eq, ?_⟩
  rw [stepTimer_across f d _ forward (by rw [heardNotice_pos]; exact past)]
  generalize hm : (calendarTakesNotice n f (hearNotice n (dispatched s))).mapTimer (Timer.stepTo (noticeTarget f)) = m
  have start : m.timer = (hearNotice n (dispatched s)).timer.stepTo (noticeTarget f) := by rw [← hm]; simp
  have expo : m.expo = s.expo := by rw [← hm]; simp
  have front : m.front = s.front := by rw [← hm]; simp
  have zero := cycleBoundary_slew m (by rw [start]; rfl)
  obtain ⟨r, x, boundary⟩ := cycleBoundary_timer m
  obtain ⟨r', x', timer, kept⟩ := numberingTakes_rereferenced n (some f.serial) (slip (cycleBoundary m))
  rw [slip_timer] at timer kept
  rw [timer, kept zero, boundary, start]
  refine ⟨rfl, rfl, rfl, rfl, rfl, rfl, rfl, rfl, ?_, ?_⟩
  · simp [cycleBoundary_expo, expo]
  · simp [front]

end

/-- Settles O38: the step within the cycle, for a stranger and after any sender's part elsewhere, and the step across
its end, at the timer and after the boundary. -/
theorem noticeStepsTheTimer : Obligations.NoticeStepsTheTimer := by
  intro n f p s d hp other reference slot phase low high large congruent
  subst hp
  have h : NoticeSteps n f d s :=
    ⟨other, reference, slot, phase, offset_eq _ _ d low high (by exact_mod_cast congruent), large⟩
  have number : (positionNumber s.timer.pos : Int) = 250 * s.timer.pos.slot.val + s.timer.pos.phase.val := by
    rw [positionNumber_eq]; push_cast; rfl
  simp only [← number]
  refine ⟨fun inside numbered no_entry => ?_, fun forward past _ _ => h.across_timer forward past,
    fun inside => ?_, fun forward past numbered listen hold => ?_⟩
  · obtain ⟨bs, steps, marked⟩ := h.within (.inr inside)
    rw [noticeElsewhere_of_no_entry n f s numbered other no_entry] at steps marked
    refine ⟨bs, steps.trans ?_, marked⟩
    rw [← reference]
    rfl
  · obtain ⟨bs, steps, marked⟩ := h.within inside
    exact ⟨_, bs, exec_notice_unmeasured n f s, steps, marked⟩
  · obtain ⟨v, bs, raised, steps, marked⟩ := h.across forward past numbered listen hold
    exact ⟨_, v, bs, exec_notice_unmeasured n f s, raised, steps, marked⟩

end Sys2Proof.Machine
end

section
/-! SUPPORT. The scopes of RESTART (R17, R38, R77, R162, R171, R172, R175). -/

namespace Sys2Proof.Machine

section
variable (sender : Sender) (target : Byte) (s : State)

/-- A RESTART of a recorder for the own number reaches the request handler with its scope (R172). -/
theorem exec_restart_of_own (recorder : isRecorder sender = true) (own : s.isOwnTarget target = true) :
    exec (.restartTracking sender target) s = .next (restartTracking (dispatched s)) ∧
    exec (.restartFiring sender target) s =
      .next (if s.running then restartFiring (dispatched s) else dispatched s) ∧
    exec (.restartStation sender target) s = .next (restartStation (dispatched s)) := by
  have taken : (dispatched s).isOwnTarget target = true := own
  refine ⟨(if_pos recorder).trans ?_, (if_pos recorder).trans ?_, (if_pos recorder).trans ?_⟩ <;>
    rw [takeRestart, if_pos taken] <;> rfl

/-- A RESTART that does not name the own number is counted, and ignored in every scope (R172). -/
theorem exec_restart_of_other (recorder : isRecorder sender = true) (other : s.isOwnTarget target = false) :
    exec (.restartTracking sender target) s = .next (dispatched s) ∧
    exec (.restartFiring sender target) s = .next (dispatched s) ∧
    exec (.restartStation sender target) s = .next (dispatched s) := by
  have ignored : ¬ (dispatched s).isOwnTarget target = true := by
    rw [Bool.not_eq_true]; exact other
  refine ⟨(if_pos recorder).trans ?_, (if_pos recorder).trans ?_, (if_pos recorder).trans ?_⟩ <;>
    rw [takeRestart, if_neg ignored]

end

/-! ## Tracking scope (R77, R84, R136) -/

theorem reopenBanks_of_live (s : State) (live : s.live = true) : reopenBanks s = openBank .a s := if_pos live

theorem reopenBanks_of_not_live (s : State) (live : s.live = false) : reopenBanks s = s :=
  if_neg (by rw [live]; exact Bool.false_ne_true)

/-- The banks of R77: both emptied, and bank A opened under the next sequence number where the station is live. -/
theorem restartTracking_banks (s : State) :
    (restartTracking s).banks.b.state = .empty ∧
    (s.live = true → (restartTracking s).banks.a.state = .accepting ∧ (restartTracking s).banks.a.seq = s.banks.seq ∧
      (restartTracking s).banks.a.m = 0 ∧ (restartTracking s).banks.seq = s.banks.seq + 1) ∧
    (s.live = false → (restartTracking s).banks.a.state = .empty ∧ (restartTracking s).banks.seq = s.banks.seq) := by
  rw [restartTracking, State.banks_mapTracker]
  cases live : s.live with
  | true =>
    rw [reopenBanks_of_live (emptyBanks s) live]
    exact ⟨rfl, fun _ => ⟨rfl, rfl, rfl, rfl⟩, nofun⟩
  | false =>
    rw [reopenBanks_of_not_live (emptyBanks s) live]
    exact ⟨rfl, nofun, fun _ => ⟨rfl, rfl⟩⟩

/-- The shot in flight is discarded, the reduction abandoned and the layer table cleared but for its id counter. -/
theorem restartTracking_rest (s : State) :
    (restartTracking s).red = none ∧
    (restartTracking s).tracker =
      { tracks := [], reach := none, nextId := s.tracker.nextId, overflow := false, ceiling := none } ∧
    (restartTracking s).front =
      { s.front with shot := s.front.shot.map (fun x => { x with disposition := .discard }) } := by
  simp only [restartTracking, State.red_mapTracker, State.tracker_mapTracker, State.front_mapTracker,
    reopenBanks_frame, emptyBanks_frame]
  exact ⟨rfl, rfl, rfl⟩

/-! ## Station scope (R17, R40, R60, R61, R78, R96, R136, R162, R163, R171) -/

/-- With nobody heard the reference is the own number, or none (R7). -/
theorem referenceOf_silence (own : Option StationNo) : referenceOf own (List.replicate 16 none) = own := by
  cases own with
  | none => decide
  | some n => revert n; decide

theorem Timer.restart_ref (own : Option StationNo) (t : Timer) : (t.restart own).ref = own := referenceOf_silence own

theorem Laser.leaveRunning_of_charged (l : Laser) (h : l.driver = .charging ∨ l.driver = .charged) :
    l.leaveRunning = l.bleed := if_pos h

theorem Laser.leaveRunning_of_uncharged (l : Laser) (h : l.driver = .fired ∨ l.driver = .fault) :
    l.leaveRunning = l := by
  refine if_neg ?_
  rcases h with h | h <;> simp [h]

/-- A station restart bleeds the driver and clears its counters; cause, dud run and band stay (R42, R60). -/
theorem Laser.restart_spec (l : Laser) :
    l.restart.shotsFired = 0 ∧ l.restart.withheld = ⟨0, 0, 0, 0, 0, 0, 0⟩ ∧ l.restart.cause = l.cause ∧
    l.restart.dudRun = l.dudRun ∧ l.restart.band = l.band ∧
    (l.driver = .charging ∨ l.driver = .charged → l.restart.driver = .idle ∧ l.restart.level = none) ∧
    (l.driver = .fired ∨ l.driver = .fault → l.restart.driver = l.driver) := by
  have bled : l.leaveRunning.cause = l.cause ∧ l.leaveRunning.dudRun = l.dudRun ∧ l.leaveRunning.band = l.band := by
    rw [Laser.leaveRunning]
    split <;> exact ⟨rfl, rfl, rfl⟩
  obtain ⟨cause, duds, band⟩ := bled
  refine ⟨rfl, rfl, cause, duds, band, fun charged => ?_, fun uncharged => ?_⟩
  · rw [Laser.restart, l.leaveRunning_of_charged charged]
    exact ⟨rfl, rfl⟩
  · rw [Laser.restart, l.leaveRunning_of_uncharged uncharged]

/-- A station restart empties the line's set and counters and withdraws the attempt; the rest of the line stays
(R162). -/
theorem Line.restart_spec (l : Line) :
    l.restart.set = ⟨none, none, none, none⟩ ∧ l.restart.counters = ⟨0, 0, 0, 0, 0, 0, 0, 0, 0, 0, 0⟩ ∧
    l.restart.state = l.state ∧ l.restart.run = l.run ∧ l.restart.rx = l.rx ∧
    l.restart.attempt = l.attempt.map (fun a => { a with withdrawn := true }) := by
  rw [Line.restart, Line.recall_eq]
  exact ⟨rfl, rfl, rfl, rfl, rfl, rfl⟩

/-- A frame of another party, and its end, leave the own attempt as it was. -/
theorem lineAfterFrame_attempt (s : State) : s.lineAfterFrame.attempt = s.line.attempt := by
  simp only [State.lineAfterFrame, Line.countDispatched, Line.receiveEnd]
  split <;> rfl

/-- The number and the state of the unit at a station restart, by its mode (R169, R171). -/
theorem restart_number (u : Numbering) :
    (u.mode = .fixed → numberKept u = u.own ∧ u.restart.state = .numbered) ∧
    (u.mode = .auto → numberKept u = none ∧ u.restart.state = .listen ∧ u.restart.listen = none) := by
  refine ⟨fun mode => ?_, fun mode => ?_⟩ <;> simp [numberKept, Numbering.restart, mode]

/-- Settles O52: each scope at the own number, and every scope at another. -/
theorem restartByScope : Obligations.RestartByScope := by
  intro sender target s recorder
  refine ⟨fun own => ?_, exec_restart_of_other sender target s recorder⟩
  obtain ⟨tracking, firing, station⟩ := exec_restart_of_own sender target s recorder own
  refine ⟨⟨_, tracking, ?_⟩, fun running => ⟨_, ?_, rfl⟩, fun stopped => ?_, ⟨_, station, ?_⟩⟩
  · obtain ⟨red, tracker, front⟩ := restartTracking_rest (dispatched s)
    obtain ⟨bankB, live, idle⟩ := restartTracking_banks (dispatched s)
    refine ⟨red, tracker, front, bankB, live, idle, ?_⟩
    simp only [restartTracking_frame, dispatched_frame, and_true]
    rfl
  · rw [firing, if_pos (by rw [State.running, running]; rfl)]
    rfl
  · rw [firing, if_neg (by rw [State.running, beq_iff_eq]; exact stopped)]
    rfl
  · obtain ⟨shots, withheld, cause, duds, band, charged, uncharged⟩ := s.laser.restart_spec
    obtain ⟨set, counters, line, run, rx, attempt⟩ := s.lineAfterFrame.restart_spec
    rw [lineAfterFrame_attempt] at attempt
    obtain ⟨fixed, auto⟩ := restart_number s.num
    exact ⟨rfl, rfl, rfl, rfl, rfl, rfl, rfl, rfl, rfl, Timer.restart_ref _ _, rfl, rfl, rfl, rfl, not_mem_emptied _,
      shots, withheld, cause, duds, band, charged, uncharged, rfl, rfl, rfl, rfl, rfl, rfl, rfl, rfl, set, counters,
      line, run, rx, attempt, fixed, auto, rfl, rfl, rfl, rfl, rfl, rfl, rfl, rfl⟩

end Sys2Proof.Machine
end

section
/-! SUPPORT. What the commands can do, each named by the operation it comes to (spec/opcode_table.json). -/

namespace Sys2Proof.Machine

/-- What a command can make of a state: nothing, or one operation of a block under the condition of its event. A frame
comes with the receive buffer it leaves, a discarded one with the position latched at its end. -/
inductive CommandStep : State → State → Prop
  | nothing (s : State) : CommandStep s s
  | reset (band : Band) (s : State) : CommandStep s (resetAll band s)
  | slotStart (slot : Slot) (s : State) : CommandStep s (raiseSlotStart slot (s.mapTimer (Timer.arrive slot)))
  | boundary (s : State) : CommandStep s (cycleBoundary (s.mapTimer (Timer.arrive 0)))
  | heardLapse (n : StationNo) (s : State) :
      CommandStep s (recomputeReference (s.mapTimer fun t => { t with heard := t.heard.set n.val none }))
  | suppressionEnd (s : State) (last : s.timer.suppress = 1) :
      CommandStep s (s.mapTimer fun t => { t with suppress := 0 })
  | peerLapse (j : Nat) (e : PeerEntry) (s : State) (entry : s.calendar.peers[j]? = some e) (lapses : e.lapses = true) :
      CommandStep s (s.mapCalendar fun c => { c with peers := c.peers.set j e.silence })
  | countdown (s : State) (last : s.calendar.countdown = some 1) : CommandStep s (countdownBoundary s)
  | chargeTimeout (s : State) (charging : s.laser.driver = .charging) (last : s.laser.timeout = 1) :
      CommandStep s (s.mapLaser Laser.boundary)
  | deadline (i : BankId) (s : State) (accepting : s.banks.accepting = some i) (last : (s.banks.get i).deadline = 1) :
      CommandStep s (banksBoundary s)
  | listenEnd (s : State) (last : s.num.listen = some 1) : CommandStep s (choose s)
  | holdOffEnd (s : State) (last : s.num.holdOff = some 1) : CommandStep s (holdOffEnds s)
  | quietEnd (s : State) (last : s.req.quiet = 1) : CommandStep s (s.mapReq Request.boundary)
  | chargeDone (s : State) : CommandStep s (chargeReport s)
  | bandChange (band : Band) (s : State) : CommandStep s (bandReport band s)
  | reading (code : Byte) (s : State) : CommandStep s (takeReading code.toNat s)
  | windowEnd (s : State) : CommandStep s (windowEnd s)
  | capture (samples : List Sample) (s : State) : CommandStep s (captureRest samples s)
  | reduced (r : Reduction) (s : State) (busy : s.red = some r) :
      CommandStep s (endReduction r.bank (ownUpdate r.result s))
  | load (record : List Byte) (s : State) (loading : s.loader.station = .loading) : CommandStep s (loadDone record s)
  | lineIdle (s : State) : CommandStep s (s.mapLine Line.becomeIdle)
  | attempt (s : State) : CommandStep s (startAttempt s)
  | loss (bit : Nat) (s : State) : CommandStep s (loseArbitration bit s)
  | collision (bit : Nat) (s : State) : CommandStep s (collide bit s)
  | transmitted (s : State) : CommandStep s (ownFrameEnds s)
  | startBit (s : State) : CommandStep s (otherStartBit s)
  | frame (f : Frame) (rx : List Bool) (s : State) :
      CommandStep s (takeFrame f (dispatched (s.mapLine fun l => { l with rx := rx })))
  | discard (r : Discard) (rx : List Bool) (p : Position) (s : State) :
      CommandStep s (discarded r (s.mapLine fun l => { l with rx := rx, latched := p }))

/-- A command that answers one of two states by a test, each under what the test says. -/
theorem of_tested_next {P : State → Prop} {p : Prop} [Decidable p] {a b t : State} (ha : p → P a) (hb : ¬p → P b)
    (h : (if p then .next a else .next b : Host.Outcome State Fault Refusal) = .next t) : P t := by
  split at h <;> cases h
  · exact ha ‹_›
  · exact hb ‹_›

/-- A frame whose operands passed the receive checks, with the buffer as it stands. -/
theorem CommandStep.dispatch (f : Frame) (s : State) : CommandStep s (takeFrame f (dispatched s)) :=
  .frame f s.line.rx s

/-- A frame whose operands fail a receive check, with the buffer as it stands and the position latched. -/
theorem CommandStep.dropped (r : Discard) (s : State) : CommandStep s (discarded r (latch s)) :=
  .discard r s.line.rx (s.timer.behind Config.delimiterLength) s

/-- A frame heard to its end is dispatched or discarded, or is the own one, or there is none (R158, R160). -/
theorem hearFrame_step (bits : List Bool) (s : State) : CommandStep s (hearFrame bits s) := by
  unfold hearFrame
  split
  · exact .nothing s
  · exact .nothing s
  · exact .transmitted s
  · dsimp only
    split
    · rename_i r _
      split
      · exact .discard r bits s.line.latched s
      · exact .discard r bits (s.timer.behind (4 * delimiterHeard bits)) s
    · exact .frame _ bits s

section
variable (s t : State)

theorem execHeardEntryLapse_step (n : StationNo) (h : execHeardEntryLapse n s = .next t) : CommandStep s t := by
  unfold execHeardEntryLapse at h
  split at h
  · exact of_ite_next (.heardLapse n s) (.nothing s) h
  · cases h; exact .nothing s

theorem execCrossingPeerLapse_step (j : Fin 8) (h : execCrossingPeerLapse j s = .next t) : CommandStep s t := by
  unfold execCrossingPeerLapse at h
  split at h
  · rename_i e entry
    exact of_tested_next (.peerLapse j.val e s entry) (fun _ => .nothing s) h
  · cases h; exact .nothing s

theorem execDeadlineExpiry_step (h : execDeadlineExpiry s = .next t) : CommandStep s t := by
  unfold execDeadlineExpiry at h
  split at h
  · rename_i i accepting
    exact of_tested_next (.deadline i s accepting) (fun _ => .nothing s) h
  · cases h; exact .nothing s

theorem execReductionComplete_step (h : execReductionComplete s = .next t) : CommandStep s t := by
  unfold execReductionComplete at h
  split at h <;> cases h
  · rename_i r busy
    exact .reduced r s busy
  · exact .nothing s

theorem execNotice_step (sender : Sender) (serial : Serial) (body : NoticeBody)
    (h : execNotice sender serial body s = .next t) : CommandStep s t := by
  have taken := CommandStep.dispatch (.notice sender ⟨body, serial⟩) s
  unfold execNotice at h
  dsimp only [takeFrame] at taken
  split at h <;> cases h
  · rename_i station
    rw [station] at taken
    exact taken
  · exact .dropped .sender s

theorem execClaim_step (sender : Sender) (serial : Serial) (h : execClaim sender serial s = .next t) :
    CommandStep s t := by
  have taken := CommandStep.dispatch (.claim sender serial) s
  unfold execClaim at h
  dsimp only [takeFrame] at taken
  split at h <;> cases h
  · rename_i station
    rw [station] at taken
    exact taken
  · exact .dropped .sender s

theorem execReport_step (sender : Sender) (fields : ReportFields) (h : execReport sender fields s = .next t) :
    CommandStep s t := by
  have taken := CommandStep.dispatch (.report sender fields) s
  unfold execReport at h
  dsimp only [takeFrame] at taken
  split at h
  · cases h; exact .dropped .length s
  · split at h <;> cases h
    · rename_i station
      rw [station] at taken
      exact taken
    · exact .dropped .sender s

theorem execStatus_step (sender : Sender) (payload : List Byte) (h : execStatus sender payload s = .next t) :
    CommandStep s t := by
  unfold execStatus at h
  split at h
  · exact of_ite_next (CommandStep.dispatch (.status sender payload) s) (.dropped .sender s) h
  · cases h; exact .dropped .length s

/-- Every answer of a command is one of these steps. -/
theorem exec_step (c : Instr) (h : exec c s = .next t) : CommandStep s t := by
  cases c with
  | powerOn band => cases h; exact .reset band s
  | pinReset band => cases h; exact .reset band s
  | slotStart slot => exact of_ite_next (.nothing s) (.slotStart slot s) h
  | cycleBoundary => exact of_ite_next (.nothing s) (.boundary s) h
  | heardEntryLapse n => exact execHeardEntryLapse_step s t n h
  | suppressionEnd => exact of_tested_next (.suppressionEnd s) (fun _ => .nothing s) h
  | crossingPeerLapse j => exact execCrossingPeerLapse_step s t j h
  | noticeCountdownExpiry => exact of_tested_next (.countdown s) (fun _ => .nothing s) h
  | chargeTimeout => exact of_tested_next (fun ⟨charging, last⟩ => .chargeTimeout s charging last) (fun _ => .nothing s) h
  | deadlineExpiry => exact execDeadlineExpiry_step s t h
  | listenCountdownExpiry => exact of_tested_next (.listenEnd s) (fun _ => .nothing s) h
  | holdOffExpiry => exact of_tested_next (.holdOffEnd s) (fun _ => .nothing s) h
  | quietEnd => exact of_tested_next (.quietEnd s) (fun _ => .nothing s) h
  | chargeDone => cases h; exact .chargeDone s
  | bandChange band => cases h; exact .bandChange band s
  | energyReading code => cases h; exact .reading code s
  | shotWindowEnd => cases h; exact .windowEnd s
  | rangeCaptureComplete samples => cases h; exact .capture samples s
  | reductionComplete => exact execReductionComplete_step s t h
  | loadComplete record => exact of_tested_next (.load record s) (fun _ => .nothing s) h
  | lineIdle => cases h; exact .lineIdle s
  | attemptStart => cases h; exact .attempt s
  | arbitrationLoss bit => cases h; exact .loss bit s
  | collisionError bit => cases h; exact .collision bit s
  | frameTransmitted => cases h; exact .transmitted s
  | frameDiscard bits delimiter => cases h; exact hearFrame_step _ s
  | notice sender serial body => exact execNotice_step s t sender serial body h
  | claim sender serial => exact execClaim_step s t sender serial h
  | report sender fields => exact execReport_step s t sender fields h
  | status sender payload => exact execStatus_step s t sender payload h
  | query sender target item =>
    exact of_ite_next (CommandStep.dispatch (.query sender target item) s) (.dropped .sender s) h
  | quiet sender target seconds =>
    exact of_ite_next (CommandStep.dispatch (.quiet sender target seconds) s) (.dropped .sender s) h
  | restartTracking sender target =>
    exact of_ite_next (CommandStep.dispatch (.restart sender target 0) s) (.dropped .sender s) h
  | restartFiring sender target =>
    exact of_ite_next (CommandStep.dispatch (.restart sender target 1) s) (.dropped .sender s) h
  | restartStation sender target =>
    exact of_ite_next (CommandStep.dispatch (.restart sender target 2) s) (.dropped .sender s) h
  | startBit => cases h; exact .startBit s

end

/-- What the queue does not matter to is kept by every step if the operations behind the commands and the microsecond
keep it. -/
theorem keeps_of_commandStep_of_tick {P : State → Prop} (queue : ∀ s rest, P s → P { s with pending := rest })
    (commands : ∀ s t, CommandStep s t → P s → P t) (time : ∀ s, P s → P (tick s)) : Keeps P :=
  keeps_of_exec_of_tick queue (fun c s t hs ht => commands s t (exec_step s t c ht) hs) time

end Sys2Proof.Machine
end

section
/-! SUPPORT. Every step keeps the line interface (R32, R150, R153, R155). -/

namespace Sys2Proof.Machine

/-! ## The line's own operations -/

theorem Line.becomeIdle_ok (l : Line) (h : l.Ok) : l.becomeIdle.Ok := by
  unfold Line.becomeIdle
  split
  · rename_i waits
    have free := no_attempt l h (by rw [waits]; nofun)
    exact ⟨by simp [free], by simp [Config.idleGap], fun _ => rfl, by simp, h.recalled, h.trying, h.claim, h.notice,
      h.report, h.status⟩
  · exact h

theorem Line.dominantBit_ok (l : Line) (h : l.Ok) (waits : l.state = .waitIdle) : l.dominantBit.Ok :=
  ⟨h.attempt, Nat.zero_le 11, fun idle => (nomatch waits.symm.trans idle), fun _ => Nat.zero_lt_succ 10, h.recalled,
    h.trying, h.claim, h.notice, h.report, h.status⟩

theorem Line.startReceiving_ok (l : Line) (h : l.Ok) (idle : l.state = .idle) : l.startReceiving.Ok := by
  have free := no_attempt l h (by rw [idle]; nofun)
  exact ⟨by simp [Line.startReceiving, free], Nat.zero_le 11, nofun, nofun, h.recalled, h.trying, h.claim, h.notice,
    h.report, h.status⟩

theorem otherStartBit_lineOk (s : State) (h : s.line.Ok) : (otherStartBit s).line.Ok := by
  unfold otherStartBit
  split
  · exact s.line.dominantBit_ok h ‹_›
  · split
    · exact startAttempt_lineOk s h
    · exact s.line.startReceiving_ok h ‹_›
  · exact h
  · exact h

theorem loseArbitration_lineOk (bit : Nat) (s : State) (h : s.line.Ok) : (loseArbitration bit s).line.Ok := by
  unfold loseArbitration
  split
  · exact h
  · rename_i a attempt
    split
    · exact s.line.loseArbitration_ok bit a h attempt
    · exact h

theorem releasingEnds_lineOk (s : State) (h : s.line.Ok) : (releasingEnds s).line.Ok := qn_lineOk _ h

/-- What a block does when its frame is dropped queues a frame at most (R157, R167, R168, R170). -/
theorem tellDropped_lineOk (f : Sending) (s : State) (h : s.line.Ok) : (tellDropped f s).line.Ok := by
  cases f with
  | claim n serial =>
    simp only [tellDropped, claimDropped]
    split
    · exact h
    · split
      · exact Line.queueClaim_ok _ _ h
      · exact h
    · split
      · exact Line.queueClaim_ok _ _ h
      · exact h
  | notice n fields =>
    simp only [tellDropped, noticeDropped]
    split
    · exact releasingEnds_lineOk s h
    · exact h
  | report n fields => exact h
  | status n reply => simpa [tellDropped] using h

/-- A collision error below 8 returns the frame, and at 8 drops it: no frame stands with 8 of them (R155). -/
theorem collide_lineOk (bit : Nat) (s : State) (h : s.line.Ok) : (collide bit s).line.Ok := by
  unfold collide
  split
  · exact h
  · rename_i a attempt
    have stopped := s.line.stopSending_ok bit a h
    have counted : (s.line.stopSending bit a).countDropped.Ok := Line.counters_ok _ _ _ _ _ stopped
    split
    · dsimp only
      split
      · split
        · exact counted
        · exact tellDropped_lineOk _ _ counted
      · rename_i below
        exact Line.returnFrame_ok _ _ stopped (Nat.lt_of_not_le below)
    · exact h

theorem raiseSlotStart_lineOk (slot : Slot) (s : State) (h : s.line.Ok) : (raiseSlotStart slot s).line.Ok :=
  lineOk_of s _ h (by simp)

theorem ownUpdate_lineOk (r : ResultRecord) (s : State) (h : s.line.Ok) : (ownUpdate r s).line.Ok := by
  unfold ownUpdate
  dsimp only
  split
  · exact Line.queueReport_ok _ _ h
  · exact h

theorem resetAll_lineOk (band : Band) (s : State) : (resetAll band s).line.Ok :=
  Line.counters_ok Line.reset _ _ _ s.line.heard Line.reset_ok

/-! ## Every command and every microsecond -/

theorem CommandStep.keepsLine {s t : State} (step : CommandStep s t) (h : s.line.Ok) : t.line.Ok := by
  have kept : ∀ u : State, u.line = s.line → u.line.Ok := fun u => lineOk_of s u h
  cases step with
  | reset band => exact resetAll_lineOk band s
  | slotStart slot => exact raiseSlotStart_lineOk slot _ h
  | boundary => exact cb_lineOk _ h
  | countdown => exact cdb_lineOk s h
  | listenEnd => exact choose_lineOk s h
  | holdOffEnd => exact hold_lineOk s h
  | reduced r => exact lineOk_of _ _ (ownUpdate_lineOk r.result s h) (by simp)
  | load record => exact load_lineOk record s h
  | lineIdle => exact s.line.becomeIdle_ok h
  | attempt => exact startAttempt_lineOk s h
  | loss bit => exact loseArbitration_lineOk bit s h
  | collision bit => exact collide_lineOk bit s h
  | transmitted => exact own_lineOk s h
  | startBit => exact otherStartBit_lineOk s h
  | frame f rx => exact frame_lineOk f _ (dispatched_lineOk _ (Line.counters_ok _ _ _ rx _ h))
  | discard r rx p => exact discarded_lineOk r _ (Line.counters_ok _ _ p rx _ h)
  | nothing | heardLapse | suppressionEnd | peerLapse | chargeTimeout | deadline | quietEnd | chargeDone | bandChange
    | reading | windowEnd | capture => exact kept _ (by simp)

theorem advance_lineOk (s : State) (h : s.line.Ok) : (advance s).line.Ok := by
  simp only [advance]
  split
  · exact raiseSlotStart_lineOk 0 _ (cb_lineOk _ h)
  · split
    · exact raiseSlotStart_lineOk _ _ h
    · exact h

theorem tick_lineOk (s : State) (h : s.line.Ok) : (tick s).line.Ok :=
  lineTick_lineOk _ (advance_lineOk _ (lineOk_of s _ h (by simp)))

/-- Settles O58: the microsecond and the operations behind the commands keep the line record. -/
theorem everyStepKeepsTheLine : Obligations.EveryStepKeepsTheLine :=
  keeps_of_commandStep_of_tick (P := fun s => s.line.Ok) (fun _ _ h => h) (fun _ _ step h => step.keepsLine h) tick_lineOk

end Sys2Proof.Machine
end

section
/-! SUPPORT. Every step keeps the calendar, the station state and the numbering unit (R18, R23, R24, R34, R42,
R163..R171). -/

namespace Sys2Proof.Machine

/-- The invariant of the calendar, the station state and the numbering unit, in the parts the operations keep. -/
def StationKept (s : State) : Prop := StationSafe s ∧ PositionsOk s

theorem stationKept_iff (s : State) : StationKept s ↔
    s.StationOk ∧ s.calendar.Ok ∧ PeersOk s.num.own s.calendar.peers ∧ s.Apart := by
  rw [stationOk_iff]
  exact ⟨fun ⟨⟨core, ⟨list, peers, apart⟩⟩, positions⟩ => ⟨⟨core, positions⟩, list, peers, apart⟩,
    fun ⟨⟨core, positions⟩, list, peers, apart⟩ => ⟨⟨core, ⟨list, peers, apart⟩⟩, positions⟩⟩

/-- An operation that leaves the calendar, the loader and the numbering unit as they are, and charges the driver in
RUNNING alone. -/
theorem StationKept.of {s : State} (h : StationKept s) (t : State) (num : t.num = s.num) (loader : t.loader = s.loader)
    (calendar : t.calendar = s.calendar)
    (driver : s.loader.station ≠ .running → Uncharged s.laser.driver → Uncharged t.laser.driver) : StationKept t :=
  ⟨StationSafe.of s t h.1 num loader calendar driver, (SamePositions.of calendar loader).keeps h.2⟩

/-- An operation that leaves the driver too as it is. -/
theorem StationKept.of_same {s : State} (h : StationKept s) (t : State) (num : t.num = s.num)
    (loader : t.loader = s.loader) (calendar : t.calendar = s.calendar) (laser : t.laser = s.laser) : StationKept t :=
  h.of t num loader calendar fun _ quiet => by rw [laser]; exact quiet

/-! ## Reset -/

/-- After a reset the unit listens without a number, the list and the peer table are empty (R16, R40, R171). -/
theorem resetAll_stationKept (band : Band) (s : State) : StationKept (resetAll band s) := by
  obtain ⟨number, fixed, live, rolling, unconfigured, halted, calendar, positions, driver, holdOff, listen⟩ :=
    State.reset_stationOk
  exact (stationKept_iff _).2 ⟨⟨number, fixed, live, rolling, unconfigured, halted, calendar, positions, driver, holdOff,
    listen⟩, Calendar.reset_ok, peersOk_nil _, State.reset_apart⟩

/-! ## Operations of the calendar -/

/-- An entry that falls silent forgets what it knew and takes nothing from the list or the table (R21). -/
theorem CalSafe.silence {own : Option StationNo} {c : Calendar} (h : CalSafe own c) (j : Nat) (e : PeerEntry)
    (entry : c.peers[j]? = some e) : CalSafe own { c with peers := c.peers.set j e.silence } := by
  have same : (c.peers.set j e.silence).map PeerEntry.peer = c.peers.map PeerEntry.peer := by
    obtain ⟨bound, rfl⟩ := List.getElem?_eq_some_iff.1 entry
    rw [List.map_set]
    refine Eq.trans ?_ (List.set_getElem_self (as := c.peers.map PeerEntry.peer) (i := j) (by simpa using bound))
    rw [List.getElem_map]
    rfl
  have from_table : ∀ x ∈ c.peers.set j e.silence, x ∈ c.peers ∨ x = e.silence :=
    fun x hx => List.mem_or_eq_of_mem_set hx
  refine ⟨⟨h.list.distinct, h.list.entries, h.list.inactive⟩,
    ⟨by simpa using h.peers.few, ?_, fun x hx => ?_, fun x hx own => ?_⟩, fun n hn c hc x hx lower heard => ?_⟩
  · rw [← List.pairwise_map (f := PeerEntry.peer) (R := (· ≠ ·)), same, List.pairwise_map]
    exact h.peers.distinct
  · rcases from_table x hx with hx | rfl
    · exact h.peers.entries x hx
    · exact e.silence_ok (h.peers.entries e (List.mem_of_getElem? entry))
  · rcases from_table x hx with hx | rfl
    · exact h.peers.silent x hx own
    · rfl
  · rcases from_table x hx with hx | rfl
    · exact h.apart n hn c hc x hx lower heard
    · exact absurd rfl heard

theorem peerLapse_stationKept (j : Nat) (e : PeerEntry) (s : State) (h : StationKept s)
    (entry : s.calendar.peers[j]? = some e) :
    StationKept (s.mapCalendar fun c => { c with peers := c.peers.set j e.silence }) :=
  ⟨⟨StationCore.of s _ h.1.1 rfl rfl Iff.rfl fun _ quiet => quiet, h.1.2.silence j e entry⟩,
    SamePositions.keeps ⟨rfl, rfl⟩ h.2⟩

theorem countdownBoundary_stationKept (s : State) (h : StationKept s) : StationKept (countdownBoundary s) :=
  ⟨⟨StationCore.of s _ h.1.1 (by simp) (by simp) (by rw [countdownBoundary_state]) fun _ quiet => by simpa using quiet,
    by simpa using countdownBoundary_safe s h.1.2⟩, (countdownBoundary_positions s).keeps h.2⟩

/-! ## Operations of the numbering unit -/

/-- The listen countdown runs in a unit that holds no number (R166). -/
theorem choose_stationKept (s : State) (h : StationKept s) (listens : s.num.listen ≠ none) : StationKept (choose s) :=
  ⟨choose_stationSafe s h.1 (h.1.1.listen listens).1, SamePositions.keeps (.of (by simp) (by simp)) h.2⟩

theorem holdOffEnds_stationKept (s : State) (h : StationKept s) (holds : s.num.holdOff ≠ none) :
    StationKept (holdOffEnds s) :=
  ⟨holdOffEnds_stationSafe s h.1 holds, holdOffEnds_positions s h.2⟩

/-! ## Operations of the driver -/

theorem chargeReport_uncharged (s : State) (h : Uncharged s.laser.driver) : Uncharged (chargeReport s).laser.driver := by
  rw [chargeReport, if_neg h.1]
  exact h

/-! ## Frames -/

theorem ownFrameEnds_stationKept (s : State) (h : StationKept s) : StationKept (ownFrameEnds s) :=
  ⟨ownFrameEnds_stationSafe s h.1, ownFrameEnds_positions s h.2⟩

theorem takeFrame_stationKept (f : Frame) (s : State) (h : StationKept s) : StationKept (takeFrame f s) :=
  ⟨takeFrame_stationSafe f s h.1, takeFrame_positions f s h.2⟩

theorem noticeDropped_positions (f : NoticeFields) (s : State) : SamePositions s (noticeDropped f s) := by
  unfold noticeDropped
  split
  · exact ⟨claimedList_length _, rfl⟩
  · exact .refl s

theorem tellDropped_stationKept (f : Sending) (s : State) (h : StationKept s) : StationKept (tellDropped f s) := by
  refine ⟨dropped_stationSafe f s h.1, ?_⟩
  cases f with
  | claim n serial => exact (SamePositions.of (s := s) (by simp [tellDropped]) (by simp [tellDropped])).keeps h.2
  | notice n fields => exact (noticeDropped_positions fields s).keeps h.2
  | report n fields => exact h.2
  | status n reply => exact (SamePositions.of (s := s) (by simp [tellDropped]) (by simp [tellDropped])).keeps h.2

theorem collide_stationKept (bit : Nat) (s : State) (h : StationKept s) : StationKept (collide bit s) := by
  have line : ∀ f : Line → Line, StationKept (s.mapLine f) := fun f => h.of_same _ rfl rfl rfl rfl
  unfold collide
  split
  · exact h
  · rename_i a _
    split
    · dsimp only
      split
      · split
        · exact line fun l => (l.stopSending bit a).countDropped
        · exact tellDropped_stationKept _ _ (line fun l => (l.stopSending bit a).countDropped)
      · exact line fun l => (l.stopSending bit a).returnFrame { a with collisions := a.collisions + 1 }
    · exact h

/-! ## Every command and every microsecond -/

theorem CommandStep.keepsStation {s t : State} (step : CommandStep s t) (h : StationKept s) : StationKept t := by
  cases step with
  | reset band => exact resetAll_stationKept band s
  | slotStart slot =>
    have arrived := h.of_same (s.mapTimer (Timer.arrive slot)) rfl rfl rfl rfl
    exact arrived.of _ (by simp) (by simp) (by simp) fun _ quiet => raise_uncharged slot _ quiet
  | boundary =>
    have arrived := h.of_same (s.mapTimer (Timer.arrive 0)) rfl rfl rfl rfl
    exact ⟨cycleBoundary_stationSafe _ arrived.1, cycleBoundary_positions _ arrived.2⟩
  | peerLapse j e _ entry => exact peerLapse_stationKept j e s h entry
  | countdown => exact countdownBoundary_stationKept s h
  | chargeTimeout => exact h.of _ rfl rfl rfl fun _ quiet => boundary_uncharged _ quiet
  | listenEnd _ last => exact choose_stationKept s h (by rw [last]; nofun)
  | holdOffEnd _ last => exact holdOffEnds_stationKept s h (by rw [last]; nofun)
  | chargeDone => exact h.of _ (by simp) (by simp) (by simp) fun _ quiet => chargeReport_uncharged s quiet
  | bandChange band => exact h.of _ (by simp) (by simp) (by simp) (bandReport_uncharged band s)
  | reading code => exact h.of _ (by simp) (by simp) (by simp) (taking_uncharged code.toNat s)
  | windowEnd => exact ⟨window_stationSafe s h.1, SamePositions.keeps (.of (by simp) (by simp)) h.2⟩
  | load record _ loading => exact ⟨loadDone_stationSafe record s h.1 loading, loadDone_positions record s⟩
  | collision bit => exact collide_stationKept bit s h
  | transmitted => exact ownFrameEnds_stationKept s h
  | frame f rx => exact takeFrame_stationKept f _ (h.of_same _ (by simp) (by simp) (by simp) (by simp))
  | nothing | heardLapse | suppressionEnd | deadline | quietEnd | capture | reduced | lineIdle | attempt | loss
    | startBit | discard => exact h.of_same _ (by simp) (by simp) (by simp) (by simp)

theorem tick_stationKept (s : State) (h : StationKept s) : StationKept (tick s) :=
  ⟨tick_stationSafe s h.1, tick_positions s h.2⟩

/-- Settles O59: the microsecond and the operations behind the commands keep the invariant in its parts. -/
theorem everyStepKeepsTheCalendarAndTheStation : Obligations.EveryStepKeepsTheCalendarAndTheStation := by
  have kept : Keeps StationKept := keeps_of_commandStep_of_tick (fun s _ h => h.of_same _ rfl rfl rfl rfl)
    (fun _ _ step h => step.keepsStation h) tick_stationKept
  exact fun s t hs step => (stationKept_iff t).1 (kept s t ((stationKept_iff s).2 hs) step)

end Sys2Proof.Machine
end

section
/-! SUPPORT. The claiming procedure, the notice countdown and the start of an attempt (R11, R25, R26, R30, R31, R153). -/

namespace Sys2Proof.Machine

/-! ## Ideal slots (R25) -/

/-- Settles O35, for each allowed S. -/
theorem idealSlotsAreDistinct : Obligations.IdealSlotsAreDistinct := by
  intro n S allowed
  refine ⟨fun i _ => rfl, fun i j hi hj differ => ?_⟩
  rcases allowed with rfl | rfl | rfl | rfl <;> simp only [idealSlot, Nat.reduceDiv] <;> omega

/-! ## The claiming procedure (R26) -/

theorem setInsert_or {w : Nat} (k : Nat) (x y : BitVec w) : setInsert k x ||| y = x ||| setInsert k y := by
  simp only [setInsert, BitVec.or_assoc, BitVec.or_comm (1#w <<< k)]

theorem setInsert_of_mem (k : Nat) (x : SlotSet) (h : x.getLsbD k = true) : setInsert k x = x := by
  apply BitVec.eq_of_getLsbD_eq
  intro j hj
  rw [getLsbD_setInsert k j x hj]
  by_cases same : j = k
  · rw [same, h]; rfl
  · simp [same]

theorem claimedSet_nil : claimedSet [] = 0 := rfl

theorem claimedSet_cons (c : Claim) (cs : List (Option Claim)) :
    claimedSet (some c :: cs) = setInsert c.slot.val (claimedSet cs) := by
  apply BitVec.eq_of_getLsbD_eq
  intro j hj
  rw [getLsbD_setInsert _ _ _ hj, Bool.eq_iff_iff, Bool.or_eq_true, claimedSet_mem _ _ hj, claimedSet_mem _ _ hj]
  simp [or_comm, eq_comm]

/-- A larger list claims more. -/
theorem claimedSet_mono {cs ds : List (Option Claim)} (sub : ∀ c, some c ∈ cs → some c ∈ ds) (j : Nat) (hj : j < 32)
    (h : (claimedSet cs).getLsbD j = true) : (claimedSet ds).getLsbD j = true := by
  obtain ⟨c, hc, slot⟩ := (claimedSet_mem cs j hj).1 h
  exact (claimedSet_mem ds j hj).2 ⟨c, sub c hc, slot⟩

section
variable (number shots : Nat)

theorem fillClaims_some (i : Nat) (occ : SlotSet) (c : Claim) (rest : List (Option Claim)) :
    fillClaims number shots i occ (some c :: rest) = some c :: fillClaims number shots (i + 1) occ rest := rfl

theorem fillClaims_found (i m : Nat) (occ : SlotSet) (rest : List (Option Claim))
    (found : firstFree occ (idealSlot number shots i) = some m) :
    fillClaims number shots i occ (none :: rest) =
      some (newClaim m) :: fillClaims number shots (i + 1) (setInsert m occ) rest := by
  rw [fillClaims, found]

theorem fillClaims_ends (i : Nat) (occ : SlotSet) (rest : List (Option Claim))
    (full : firstFree occ (idealSlot number shots i) = none) :
    fillClaims number shots i occ (none :: rest) = none :: rest := by
  rw [fillClaims, full]

/-- An occupied position is passed over. -/
theorem fillClaims_occupied (cs : List (Option Claim)) : ∀ (i : Nat) (occ : SlotSet) (k : Nat) (c : Claim),
    cs[k]? = some (some c) → (fillClaims number shots i occ cs)[k]? = some (some c) := by
  induction cs with
  | nil => intro i occ k c h; cases h
  | cons x rest ih =>
    intro i occ k c h
    cases x with
    | some y =>
      cases k with
      | zero => exact h
      | succ k => exact ih (i + 1) occ k c h
    | none =>
      cases k with
      | zero => cases h
      | succ k =>
        cases found : firstFree occ (idealSlot number shots i) with
        | some m => rw [fillClaims_found _ _ _ _ _ _ found]; exact ih (i + 1) _ k c h
        | none => rw [fillClaims_ends _ _ _ _ _ found]; exact h

/-- A position filled takes the first slot, from its ideal one upward, of those neither occupied before nor taken by an
earlier position. -/
theorem fillClaims_filled (cs : List (Option Claim)) : ∀ (i : Nat) (occ : SlotSet) (k : Nat) (c : Claim),
    (∀ x, some x ∈ cs → occ.getLsbD x.slot.val = true) → cs[k]? = some none →
    (fillClaims number shots i occ cs)[k]? = some (some c) →
    c.state = .tentative ∧ c.count = 0 ∧
      firstFree (occ ||| claimedSet ((fillClaims number shots i occ cs).take k)) (idealSlot number shots (i + k)) =
        some c.slot.val := by
  induction cs with
  | nil => intro i occ k c _ h; cases h
  | cons x rest ih =>
    intro i occ k c listed empty filled
    have listed_rest : ∀ x, some x ∈ rest → occ.getLsbD x.slot.val = true :=
      fun x hx => listed x (List.mem_cons_of_mem _ hx)
    cases x with
    | some y =>
      cases k with
      | zero => cases empty
      | succ k =>
        obtain ⟨state, count, first⟩ := ih (i + 1) occ k c listed_rest empty filled
        refine ⟨state, count, ?_⟩
        rw [fillClaims_some, List.take_succ_cons, claimedSet_cons, ← setInsert_or,
          setInsert_of_mem _ _ (listed y List.mem_cons_self), Nat.add_comm k 1, ← Nat.add_assoc]
        exact first
    | none =>
      cases found : firstFree occ (idealSlot number shots i) with
      | some m =>
        have small := (firstFree_spec _ _ _ found).1
        rw [fillClaims_found _ _ _ _ _ _ found] at filled ⊢
        cases k with
        | zero =>
          cases filled
          refine ⟨rfl, rfl, ?_⟩
          rw [List.take_zero, claimedSet_nil, newClaim_slot m small]
          simpa using found
        | succ k =>
          obtain ⟨state, count, first⟩ := ih (i + 1) (setInsert m occ) k c
            (fun x hx => by rw [getLsbD_setInsert _ _ _ x.slot.isLt, listed_rest x hx, Bool.true_or]) empty filled
          refine ⟨state, count, ?_⟩
          rw [List.take_succ_cons, claimedSet_cons, newClaim_slot m small, ← setInsert_or, Nat.add_comm k 1, ← Nat.add_assoc]
          exact first
      | none =>
        rw [fillClaims_ends _ _ _ _ _ found] at filled
        cases empty.symm.trans filled

/-- A position left empty means that every slot is occupied or on the list. -/
theorem fillClaims_full (cs : List (Option Claim)) : ∀ (i : Nat) (occ : SlotSet) (k : Nat),
    (fillClaims number shots i occ cs)[k]? = some none → ∀ j : Nat, j < 32 →
      occ.getLsbD j = true ∨ (claimedSet (fillClaims number shots i occ cs)).getLsbD j = true := by
  induction cs with
  | nil => intro i occ k h; cases h
  | cons x rest ih =>
    intro i occ k empty j hj
    cases x with
    | some y =>
      cases k with
      | zero => cases empty
      | succ k =>
        refine (ih (i + 1) occ k empty j hj).imp id fun claimed => ?_
        exact claimedSet_mono (fun c hc => List.mem_cons_of_mem _ hc) j hj claimed
    | none =>
      cases found : firstFree occ (idealSlot number shots i) with
      | some m =>
        have small := (firstFree_spec _ _ _ found).1
        rw [fillClaims_found _ _ _ _ _ _ found] at empty ⊢
        cases k with
        | zero => cases empty
        | succ k =>
          have later := ih (i + 1) (setInsert m occ) k empty j hj
          rw [claimedSet_cons, getLsbD_setInsert _ _ _ hj, newClaim_slot m small, Bool.or_eq_true]
          rw [getLsbD_setInsert _ _ _ hj, Bool.or_eq_true] at later
          tauto
      | none => exact .inl (firstFree_none _ _ found j hj)

end

theorem claimedList_of_own (s : State) (n : StationNo) (own : s.num.own = some n) :
    claimedList s = fillClaims n.val (s.cfgNat StationConfig.shots) 0
      (heldSet s.num.own s.calendar.peers ||| claimedSet s.calendar.claims) s.calendar.claims := by
  rw [claimedList, own]

/-- The procedure leaves the entries of the list where they stand. -/
theorem claimedList_occupied (s : State) (i : Nat) (c : Claim) (h : s.calendar.claims[i]? = some (some c)) :
    (claimedList s)[i]? = some (some c) := by
  unfold claimedList
  split
  · exact fillClaims_occupied _ _ _ _ _ i c h
  · exact h

/-- Settles O36: the length, the occupied positions, the filled ones and those left empty. -/
theorem claimingTakesTheFirstFreeSlots : Obligations.ClaimingTakesTheFirstFreeSlots := by
  intro s n own
  refine ⟨claimedList_length s, claimedList_occupied s, fun i c empty filled => ?_, fun i empty k hk => ?_⟩
  · rw [claimedList_of_own s n own] at filled ⊢
    obtain ⟨state, count, first⟩ := fillClaims_filled n.val (s.cfgNat StationConfig.shots) s.calendar.claims 0 _ i c
      (fun x hx => by
        rw [BitVec.getLsbD_or, (claimedSet_mem _ _ x.slot.isLt).2 ⟨x, hx, rfl⟩, Bool.or_true]) empty filled
    obtain ⟨_, free, d, hd, slot, passed⟩ := firstFree_spec _ _ _ first
    rw [Nat.zero_add] at slot passed
    simp only [BitVec.getLsbD_or, Bool.or_eq_false_iff] at free
    obtain ⟨⟨held, listed⟩, taken⟩ := free
    refine ⟨state, count, held, listed, taken, d, hd, slot, fun e he => ?_⟩
    have occupied := passed e he
    simp only [BitVec.getLsbD_or, Bool.or_eq_true] at occupied
    have small : (idealSlot n.val (s.cfgNat StationConfig.shots) i + e) % 32 < 32 := Nat.mod_lt _ (by decide)
    rcases occupied with (held | listed) | taken
    · exact .inl held
    · exact .inr (claimedSet_mono (fun x hx => List.mem_append_right _ hx) _ small listed)
    · exact .inr (claimedSet_mono (fun x hx => List.mem_append_left _ hx) _ small taken)
  · rw [claimedList_of_own s n own] at empty
    have full := fillClaims_full _ _ _ _ _ i empty k hk
    rw [← claimedList_of_own s n own, BitVec.getLsbD_or, Bool.or_eq_true] at full
    rcases full with (held | listed) | taken
    · exact .inl held
    · refine .inr (claimedSet_mono (fun x hx => ?_) k hk listed)
      obtain ⟨i, at_i⟩ := List.mem_iff_getElem?.1 hx
      exact List.mem_of_getElem? (claimedList_occupied s i x at_i)
    · exact .inr taken

/-! ## The notice countdown (R30) -/

theorem hasEmpty_iff (claims : List (Option Claim)) : hasEmpty claims = true ↔ none ∈ claims := by
  simp [hasEmpty]

/-- A NOTICE queued, with the supersession counted and the countdown set again (R29, R156). -/
theorem queueNotice_eq (s : State) : queueNotice s =
    { s with
      calendar := { s.calendar with countdown := some 64 }
      line :=
        { s.line with
          set := { s.line.set with notice := some ⟨(), 0⟩ }
          counters :=
            { s.line.counters with
              superseded :=
                if s.line.set.notice = none then s.line.counters.superseded
                else bump s.line.counters.superseded } } } := by
  cases h : s.line.set.notice <;> simp [queueNotice, Line.queueNotice, State.mapLine, State.mapCalendar, countSuperseded,
    h, Config.noticePeriod]

/-- The claiming procedure reads and writes nothing of the countdown. -/
theorem countdownExpires_eq (s : State) : countdownExpires s = queueNotice (s.mapCalendar fun c =>
    { c with claims := if s.calendar.state = .active ∧ none ∈ s.calendar.claims then claimedList s else c.claims }) := by
  by_cases claims : s.calendar.state = .active ∧ none ∈ s.calendar.claims
  · simp only [countdownExpires, hasEmpty_iff, if_pos claims]
    rfl
  · simp only [countdownExpires, hasEmpty_iff, if_neg claims]
    rfl

theorem exec_noticeCountdownExpiry_last (s : State) (counts : s.calendar.state ≠ .inactive)
    (last : s.calendar.countdown = some 1) :
    exec .noticeCountdownExpiry s =
      .next (countdownExpires (s.mapCalendar fun c => { c with countdown := some 0 })) := by
  refine (if_pos last).trans ?_
  rw [countdownBoundary, if_neg counts, last]
  rfl

/-- Settles O12: at the last count the countdown expires. -/
theorem noticeCountdownExpiryQueuesANotice : Obligations.NoticeCountdownExpiryQueuesANotice := by
  intro s counts last
  rw [exec_noticeCountdownExpiry_last s counts last, countdownExpires_eq, queueNotice_eq]
  rfl

/-! ## The start of an attempt (R31, R153) -/

/-- From IDLE, the frame that may be sent next goes onto the line with the bit times aligned to its start bit. -/
theorem exec_attemptStart_next (s : State) (a : Attempt) (set : TransmitSet) (idle : s.line.state = .idle)
    (free : s.line.attempt = none) (next : nextAttempt s = some (a, set)) :
    exec .attemptStart s = .next (s.mapLine fun l =>
      { l with state := .sending, run := 0, bitPhase := 0, rx := [], set := set, attempt := some a }) := by
  refine congrArg Host.Outcome.next ?_
  rw [startAttempt, if_pos ⟨idle, free⟩, next]

theorem exec_attemptStart_nothing (s : State) (next : nextAttempt s = none) : exec .attemptStart s = .next s := by
  refine congrArg Host.Outcome.next ?_
  rw [startAttempt, next]
  exact ite_self s

/-- Settles O45: the kinds in their order, and nothing to send. -/
theorem attemptTakesTheLowestKind : Obligations.AttemptTakesTheLowestKind := by
  intro s idle free
  have starts := fun a set => exec_attemptStart_next s a set idle free
  have nothing := exec_attemptStart_nothing s
  refine ⟨fun w k claim => starts _ _ ?_, fun n k claim own notice => starts _ _ ?_,
    fun n r k claim own notice report => starts _ _ ?_, fun n r k claim own notice report status => starts _ _ ?_,
    fun claim own => nothing ?_, fun empty => nothing ?_⟩
  · rw [nextAttempt, claim]
  · rw [nextAttempt, claim, own, notice]
    rfl
  · rw [nextAttempt, claim, own, notice, report]
  · rw [nextAttempt, claim, own, notice, report, status]
  · rw [nextAttempt, claim, own]
  · rw [nextAttempt, empty]
    cases s.num.own <;> rfl

end Sys2Proof.Machine
end

section
/-! SUPPORT. A duplicate of the own station number: the defence, the number given up and the number kept (R24, R42, R72,
R73, R165, R170). -/

namespace Sys2Proof.Machine

theorem exec_claim (n : StationNo) (serial : Serial) (s : State) :
    exec (.claim (senderOf n) serial) s = .next (numberingTakes n (some serial) (dispatched s)) := by
  change execClaim (senderOf n) serial s = _
  rw [execClaim, stationOf_senderOf]

/-! ## The own number heard at a NUMBERED unit (R170) -/

section
variable (n : StationNo) (serial : Serial) (s : State)

/-- A higher serial brings a defence CLAIM. -/
theorem numberingTakes_defends (numbered : s.num.state = .numbered) (own : s.num.own = some n)
    (higher : s.num.serial < serial) : numberingTakes n (some serial) s = sendClaim n s := by
  simp only [numberingTakes, numbered, if_pos own, if_pos higher]

/-- A lower serial makes the unit yield. -/
theorem numberingTakes_yields (numbered : s.num.state = .numbered) (own : s.num.own = some n)
    (lower : serial < s.num.serial) : numberingTakes n (some serial) s = yieldNumber n s := by
  simp only [numberingTakes, numbered, if_pos own, if_neg (BitVec.lt_asymm lower), if_pos lower]

/-- Equal serials change nothing (log 19). -/
theorem numberingTakes_equal (numbered : s.num.state = .numbered) (own : s.num.own = some n)
    (equal : serial = s.num.serial) : numberingTakes n (some serial) s = s := by
  simp only [numberingTakes, numbered, if_pos own, equal, BitVec.lt_irrefl, if_false]

end

/-! ## What a change of the timer does not reach -/

theorem banksLeaveLive_mapTimer (g : Timer → Timer) (s : State) :
    banksLeaveLive (s.mapTimer g) = (banksLeaveLive s).mapTimer g := by
  rw [banksLeaveLive, banksLeaveLive, State.banks_mapTimer]
  cases s.banks.accepting with
  | none => rfl
  | some i =>
    by_cases free : (s.banks.get i).inFlight = 0
    · simp only [if_pos free]
      exact closeBank_mapTimer i g s
    · simp only [if_neg free]
      rfl

theorem banksEnterLive_mapTimer (g : Timer → Timer) (s : State) :
    banksEnterLive (s.mapTimer g) = (banksEnterLive s).mapTimer g := by
  rw [banksEnterLive, banksEnterLive, State.banks_mapTimer]
  cases s.banks.accepting.isSome <;> cases s.banks.a.state <;> cases s.banks.b.state <;> rfl

theorem leaveRunning_mapTimer (g : Timer → Timer) (s : State) :
    leaveRunning (s.mapTimer g) = (leaveRunning s).mapTimer g := by
  have same : (s.mapTimer g).running = s.running := rfl
  rw [leaveRunning, leaveRunning, same]
  cases s.running <;> rfl

theorem leaveForNumbering_mapTimer (g : Timer → Timer) (s : State) :
    leaveForNumbering (s.mapTimer g) = (leaveForNumbering s).mapTimer g := by
  have same : (s.mapTimer g).running = s.running := rfl
  rw [leaveForNumbering, leaveForNumbering, same, leaveRunning_mapTimer]
  cases s.running
  · rfl
  · exact banksLeaveLive_mapTimer g (setStation .numbering (leaveRunning s))

theorem enterHalted_mapTimer (g : Timer → Timer) (s : State) :
    enterHalted (s.mapTimer g) = (enterHalted s).mapTimer g := by
  have same : (s.mapTimer g).live = s.live := rfl
  rw [enterHalted, enterHalted, same, leaveRunning_mapTimer]
  cases s.live
  · exact banksEnterLive_mapTimer g (setStation .haltedDuplicate s)
  · rfl

/-! ## The number given up -/

/-- The end of a frame leaves the transmit set as it was. -/
theorem lineAfterFrame_set (s : State) : s.lineAfterFrame.set = s.line.set := by
  simp only [State.lineAfterFrame, Line.countDispatched, Line.receiveEnd]
  split <;> rfl

theorem lineAfterFrame_notice (s : State) : s.lineAfterFrame.set.notice = s.line.set.notice :=
  congrArg TransmitSet.notice (lineAfterFrame_set s)

/-- Giving up the number changes the unit and the reference, and no entry or track (R7, R18). -/
theorem setOwnNumber_none (s : State) : setOwnNumber none s = recomputeReference (s.mapNum fun u => { u with own := none }) := by
  have known : ∀ e : PeerEntry, (if e.active none = true then e else e.silence) = e := fun e => if_pos rfl
  simp only [setOwnNumber, known, List.map_id']
  rfl

/-- The numbering unit that has given up its number `n` and listens again (R166, R170). -/
def Numbering.giveUp (n : StationNo) (u : Numbering) : Numbering :=
  { u with
    state := .claiming, own := none, taken := setInsert n.val 0, wanted := none, listen := some 250, holdOff := none }

/-- A unit gives up its number: its CLAIM is withdrawn too, and the reference is still to be recomputed (R156, R170). -/
def State.giveUp (n : StationNo) (s : State) : State := (s.mapNum (Numbering.giveUp n)).mapLine Line.withdrawClaim

/-- The timer of a unit without a number, as its reference is recomputed with this slew (R7, R8). -/
def Timer.unreferenced (slew : Int) (t : Timer) : Timer := { t with ref := referenceOf none t.heard, slew := slew }

/-- A unit in auto mode, or of an UNCONFIGURED station, gives its number up, and the station leaves RUNNING (R170). -/
theorem yieldNumber_gives_up (n : StationNo) (s : State) (h : s.num.mode = .auto ∨ s.loader.station = .unconfigured) :
    ∃ x, yieldNumber n s = (leaveForNumbering (s.giveUp n)).mapTimer (Timer.unreferenced x) := by
  refine ⟨(recomputeReference (s.mapNum (Numbering.giveUp n))).timer.slew, ?_⟩
  rw [← leaveForNumbering_mapTimer, yieldNumber, if_pos h, setOwnNumber_none]
  rfl

/-- A fixed unit whose station runs, or is NUMBERING, keeps its number: the station is HALTED-DUPLICATE (R170). -/
theorem yieldNumber_halts (n : StationNo) (s : State) (fixed : s.num.mode = .fixed)
    (configured : s.loader.station ≠ .unconfigured) (loaded : s.loader.station ≠ .loading)
    (first : s.loader.station ≠ .haltedDuplicate) : yieldNumber n s = enterHalted s := by
  simp only [yieldNumber, fixed, configured, loaded, first, reduceCtorEq, or_self, if_false]

theorem yieldNumber_marks (n : StationNo) (s : State) (fixed : s.num.mode = .fixed) (loading : s.loader.station = .loading) :
    yieldNumber n s = s.mapNum fun u => { u with yieldMark := true } := by
  simp only [yieldNumber, fixed, loading, reduceCtorEq, or_self, if_false, if_true]

theorem yieldNumber_halted (n : StationNo) (s : State) (fixed : s.num.mode = .fixed)
    (halted : s.loader.station = .haltedDuplicate) : yieldNumber n s = s := by
  simp only [yieldNumber, fixed, halted, reduceCtorEq, or_self, if_false, if_true]

/-! ## The station leaves RUNNING (R24, R42, R72) -/

theorem running_of_station (s : State) (h : s.loader.station = .running) : s.running = true := by
  rw [State.running, h]; rfl

/-- The calendar emptied and stopped, the NOTICE withdrawn and the driver bled (R24, R42). -/
theorem leaveRunning_of_running (s : State) (h : s.loader.station = .running) : leaveRunning s =
    { s with
      calendar := { s.calendar with state := .inactive, claims := emptied s.calendar.claims, countdown := none }
      line := s.line.withdrawNotice
      laser := s.laser.leaveRunning } :=
  if_pos (running_of_station s h)

theorem leaveForNumbering_of_running (s : State) (h : s.loader.station = .running) :
    leaveForNumbering s = banksLeaveLive (setStation .numbering (leaveRunning s)) :=
  if_pos (running_of_station s h)

theorem leaveForNumbering_of_not_running (s : State) (h : s.loader.station ≠ .running) : leaveForNumbering s = s :=
  if_neg (by rw [State.running, beq_iff_eq]; exact h)

/-- A RUNNING station stays live as it becomes HALTED-DUPLICATE (R72). -/
theorem enterHalted_of_running (s : State) (h : s.loader.station = .running) :
    enterHalted s = setStation .haltedDuplicate (leaveRunning s) :=
  if_pos (by rw [State.live, h]; rfl)

/-! ## The ACCEPTING bank of a station that is no longer live (R72, R73) -/

theorem Banks.put_put (bs : Banks) (i : BankId) (b c : Bank) : (bs.put i b).put i c = bs.put i c := by cases i <;> rfl

theorem Banks.put_seq (bs : Banks) (i : BankId) (b : Bank) : (bs.put i b).seq = bs.seq := by cases i <;> rfl

/-- A reduction reads a bank's record and not its state or its pending close (R80). -/
theorem reduce_closed (cfg : Option StationConfig) (peers : List PeerEntry) (i : BankId) (b : Bank) :
    reduce cfg peers i { b with state := .closed, closePending := false } = reduce cfg peers i b := by
  cases cfg <;> rfl

/-- The bank waits CLOSED behind one that is not EMPTY. -/
theorem closeBank_waits (i : BankId) (s : State) (h : (s.banks.get i.other).state ≠ .empty) :
    closeBank i s =
      { s with banks := s.banks.put i { s.banks.get i with state := .closed, closePending := false } } :=
  if_neg h

/-- The bank is reduced at once beside an EMPTY one, which a station that is not live leaves EMPTY. -/
theorem closeBank_reduces (i : BankId) (s : State) (h : (s.banks.get i.other).state = .empty) (live : s.live = false) :
    closeBank i s =
      { s with
        banks := s.banks.put i { s.banks.get i with state := .reducing, closePending := false }
        red := some (reduce s.loader.cfg s.calendar.peers i (s.banks.get i)) } := by
  have still : ¬ s.live = true := by rw [live]; exact Bool.false_ne_true
  rw [closeBank, if_pos h, if_neg still, startReduction]
  simp only [State.mapBanks, State.setRed, Banks.get_put, Banks.put_put, reduce_closed]

section
variable (s : State)

theorem banksLeaveLive_of_none (ha : s.banks.a.state ≠ .accepting) (hb : s.banks.b.state ≠ .accepting) :
    banksLeaveLive s = s := by
  have idle : s.banks.accepting = none := by rw [Banks.accepting, if_neg ha, if_neg hb]
  rw [banksLeaveLive, idle]

variable (i : BankId) (accepts : (s.banks.get i).state = .accepting)
  (other : (s.banks.get i.other).state ≠ .accepting)
include accepts other

theorem banksLeaveLive_pends (flies : (s.banks.get i).inFlight ≠ 0) :
    banksLeaveLive s = s.mapBanks fun bs => bs.put i { bs.get i with closePending := true } := by
  simp only [banksLeaveLive, s.banks.accepting_eq i accepts other, if_neg flies]

theorem banksLeaveLive_closes (lands : (s.banks.get i).inFlight = 0) : banksLeaveLive s = closeBank i s := by
  simp only [banksLeaveLive, s.banks.accepting_eq i accepts other, if_pos lands]

end

/-- Leaving the live states opens no bank, so no sequence number is taken (R72). -/
theorem banksLeaveLive_seq (s : State) (live : s.live = false) : (banksLeaveLive s).banks.seq = s.banks.seq := by
  unfold banksLeaveLive
  split
  · rfl
  · rename_i i _
    split
    · by_cases empty : (s.banks.get i.other).state = .empty
      · rw [closeBank_reduces i s empty live]; exact Banks.put_seq _ _ _
      · rw [closeBank_waits i s empty]; exact Banks.put_seq _ _ _
    · exact Banks.put_seq _ _ _

/-! ## The statement -/

section
variable (n : StationNo) (s : State)

/-- A RUNNING auto station that gives up its number, its reference and its ACCEPTING bank apart (R24, R42, R165,
R170). -/
def State.yielded : State :=
  { s with
    num := s.num.giveUp n
    loader := { s.loader with station := .numbering }
    calendar := { s.calendar with state := .inactive, claims := emptied s.calendar.claims, countdown := none }
    line := s.line.withdrawClaim.withdrawNotice
    laser := s.laser.leaveRunning }

theorem yieldNumber_of_running (auto : s.num.mode = .auto) (running : s.loader.station = .running) :
    ∃ x, yieldNumber n s = (banksLeaveLive (s.yielded n)).mapTimer (Timer.unreferenced x) := by
  obtain ⟨x, gives_up⟩ := yieldNumber_gives_up n s (.inl auto)
  refine ⟨x, gives_up.trans ?_⟩
  rw [leaveForNumbering_of_running (s.giveUp n) running, leaveRunning_of_running (s.giveUp n) running]
  rfl

/-- Whatever the timer held, the number is settled the same way but for the timer. -/
theorem yieldNumber_mapTimer (g : Timer → Timer) :
    ∃ h, yieldNumber n (s.mapTimer g) = (yieldNumber n s).mapTimer h := by
  by_cases gives_up : s.num.mode = .auto ∨ s.loader.station = .unconfigured
  · obtain ⟨x, before⟩ := yieldNumber_gives_up n s gives_up
    obtain ⟨y, after⟩ := yieldNumber_gives_up n (s.mapTimer g) gives_up
    have moved : leaveForNumbering ((s.mapTimer g).giveUp n) = (leaveForNumbering (s.giveUp n)).mapTimer g :=
      leaveForNumbering_mapTimer g (s.giveUp n)
    rw [before, after, moved]
    exact ⟨fun _ => (g (leaveForNumbering (s.giveUp n)).timer).unreferenced y, rfl⟩
  · obtain ⟨not_auto, configured⟩ := not_or.1 gives_up
    have fixed : s.num.mode = .fixed := by cases mode : s.num.mode <;> [exact absurd mode not_auto; rfl]
    refine ⟨g, ?_⟩
    by_cases loading : s.loader.station = .loading
    · rw [yieldNumber_marks n s fixed loading, yieldNumber_marks n (s.mapTimer g) fixed loading]
      rfl
    · by_cases halted : s.loader.station = .haltedDuplicate
      · rw [yieldNumber_halted n s fixed halted, yieldNumber_halted n (s.mapTimer g) fixed halted]
      · rw [yieldNumber_halts n s fixed configured loading halted,
          yieldNumber_halts n (s.mapTimer g) fixed configured loading halted, enterHalted_mapTimer]

theorem numberingTakes_mapTimer (serial : Serial) (g : Timer → Timer) (numbered : s.num.state = .numbered)
    (own : s.num.own = some n) :
    ∃ h, numberingTakes n (some serial) (s.mapTimer g) = (numberingTakes n (some serial) s).mapTimer h := by
  by_cases higher : s.num.serial < serial
  · rw [numberingTakes_defends n serial s numbered own higher,
      numberingTakes_defends n serial (s.mapTimer g) numbered own higher]
    exact ⟨g, rfl⟩
  · by_cases lower : serial < s.num.serial
    · rw [numberingTakes_yields n serial s numbered own lower,
        numberingTakes_yields n serial (s.mapTimer g) numbered own lower]
      exact yieldNumber_mapTimer n s g
    · have equal : serial = s.num.serial := BitVec.le_antisymm (BitVec.not_lt.1 higher) (BitVec.not_lt.1 lower)
      rw [numberingTakes_equal n serial s numbered own equal,
        numberingTakes_equal n serial (s.mapTimer g) numbered own equal]
      exact ⟨g, rfl⟩

/-- A NOTICE of the own number reaches the timer, as heard, and the numbering unit alone (R6, R8, R18). -/
theorem takeNotice_of_own (f : NoticeFields) (own : s.num.own = some n) :
    takeNotice n f s = numberingTakes n (some f.serial) (hearNotice n s) := by
  have no_entry : entryOf (hearNotice n s).num.own n (hearNotice n s).calendar.peers = none := by
    rw [entryOf, List.findIdx?_eq_none_iff]
    intro e _
    by_cases peer : e.peer = n <;> simp [peer, own, PeerEntry.active]
  rw [takeNotice, calendarTakesNotice, no_entry]
  exact congrArg _ (if_neg fun ⟨_, other, _⟩ => other own)

end

/-- What a lower serial makes of the banks of a RUNNING auto station (R72, R73). -/
theorem banksLeaveLive_cases (u : State) (live : u.live = false) :
    (banksLeaveLive u).banks.seq = u.banks.seq ∧
    (u.banks.a.state ≠ .accepting → u.banks.b.state ≠ .accepting →
      (banksLeaveLive u).banks = u.banks ∧ (banksLeaveLive u).red = u.red) ∧
    (∀ i, (u.banks.get i).state = .accepting → (u.banks.get i.other).state ≠ .accepting →
      ((u.banks.get i).inFlight ≠ 0 →
        (banksLeaveLive u).banks = u.banks.put i { u.banks.get i with closePending := true } ∧
        (banksLeaveLive u).red = u.red) ∧
      ((u.banks.get i).inFlight = 0 → (u.banks.get i.other).state = .reducing →
        (banksLeaveLive u).banks = u.banks.put i { u.banks.get i with state := .closed, closePending := false } ∧
        (banksLeaveLive u).red = u.red) ∧
      ((u.banks.get i).inFlight = 0 → (u.banks.get i.other).state = .empty →
        (banksLeaveLive u).banks = u.banks.put i { u.banks.get i with state := .reducing, closePending := false } ∧
        (banksLeaveLive u).red = some (reduce u.loader.cfg u.calendar.peers i (u.banks.get i)))) := by
  refine ⟨banksLeaveLive_seq u live, fun ha hb => ?_, fun i accepts other => ⟨fun flies => ?_, fun lands reduces => ?_,
    fun lands empty => ?_⟩⟩
  · rw [banksLeaveLive_of_none u ha hb]; exact ⟨rfl, rfl⟩
  · rw [banksLeaveLive_pends u i accepts other flies]; exact ⟨rfl, rfl⟩
  · rw [banksLeaveLive_closes u i accepts other lands, closeBank_waits i u (by rw [reduces]; nofun)]
    exact ⟨rfl, rfl⟩
  · rw [banksLeaveLive_closes u i accepts other lands, closeBank_reduces i u empty live]
    exact ⟨rfl, rfl⟩

/-- Settles O41: the number passed over, defended, given up or kept, and the NOTICE beside the CLAIM. -/
theorem duplicateNumberIsSettledBySerial : Obligations.DuplicateNumberIsSettledBySerial := by
  intro n serial s numbered
  have taken := exec_claim n serial s
  have yields := numberingTakes_yields n serial (dispatched s) numbered
  refine ⟨fun other => ?_, fun own higher => ?_, fun own lower running auto => ⟨_, taken, ?_⟩,
    fun own lower running fixed => ⟨_, taken, ?_⟩, fun own lower unconfigured => ⟨_, taken, ?_⟩,
    fun own lower loading fixed => ?_, fun own lower halted fixed => ?_, fun body own => ?_⟩
  · rw [taken, numberingTakes_of_numbered n _ (dispatched s) numbered other]
    rfl
  · rw [taken, numberingTakes_defends n serial (dispatched s) numbered own higher]
    rfl
  · obtain ⟨x, gives_up⟩ := yieldNumber_of_running n (dispatched s) auto running
    obtain ⟨seq, idle, accepting⟩ := banksLeaveLive_cases ((dispatched s).yielded n) rfl
    obtain ⟨timer, calendar, laser, expo, front, tracker, line, loader, num, req, _⟩ :=
      banksLeaveLive_frame ((dispatched s).yielded n)
    have bled := s.laser.leaveRunning_of_charged
    rw [yields own lower, gives_up]
    simp only [State.timer_mapTimer, State.calendar_mapTimer, State.laser_mapTimer, State.expo_mapTimer,
      State.front_mapTimer, State.banks_mapTimer, State.red_mapTimer, State.tracker_mapTimer, State.line_mapTimer,
      State.loader_mapTimer, State.num_mapTimer, State.req_mapTimer, timer, calendar, laser, expo, front, tracker, line,
      loader, num, req]
    exact ⟨rfl, rfl, rfl, not_mem_emptied _, rfl, rfl, rfl, rfl,
      fun charged => ⟨congrArg Laser.driver (bled charged), congrArg Laser.level (bled charged)⟩,
      fun fired => s.laser.leaveRunning_of_uncharged (.inl fired), rfl, seq, idle, accepting, rfl, rfl, rfl, rfl⟩
  · rw [yields own lower, yieldNumber_halts n (dispatched s) fixed (by simp [running]) (by simp [running])
        (by simp [running]), enterHalted_of_running (dispatched s) running, leaveRunning_of_running (dispatched s) running]
    exact ⟨rfl, rfl, rfl, not_mem_emptied _, rfl, rfl, rfl, rfl, rfl, rfl, rfl, rfl⟩
  · obtain ⟨x, gives_up⟩ := yieldNumber_gives_up n (dispatched s) (.inr unconfigured)
    have stopped : ((dispatched s).giveUp n).loader.station ≠ .running := by simp [State.giveUp, unconfigured]
    rw [yields own lower, gives_up, leaveForNumbering_of_not_running _ stopped]
    exact ⟨rfl, rfl, rfl, lineAfterFrame_notice s, rfl, rfl, rfl, rfl, rfl, rfl, rfl, rfl⟩
  · rw [taken, yields own lower, yieldNumber_marks n (dispatched s) fixed loading]
    rfl
  · rw [taken, yields own lower, yieldNumber_halted n (dispatched s) fixed halted]
    rfl
  · refine ⟨_, _, exec_notice n serial body s, taken, ?_⟩
    rw [takeNotice_of_own n (dispatched s) ⟨body, serial⟩ own]
    obtain ⟨g, hears⟩ : ∃ g, hearNotice n (dispatched s) = (dispatched s).mapTimer g :=
      ⟨fun _ => (hearNotice n (dispatched s)).timer, rfl⟩
    obtain ⟨r, x, timer, _⟩ := numberingTakes_rereferenced n (some serial) (hearNotice n (dispatched s))
    obtain ⟨h, same⟩ := numberingTakes_mapTimer n (dispatched s) serial g numbered own
    refine ⟨?_, by rw [timer]; rfl⟩
    rw [hears, same]
    rfl

end Sys2Proof.Machine
end

section
/-! SUPPORT. A NOTICE of a crossing peer at the firing calendar: the entry, the releases, the freed slots and the NOTICE
it brings (R19, R20, R27, R29, R33, R34, R35, R37, R41). -/

namespace Sys2Proof.Machine

/-! ## The entry of the sender (R18, R19) -/

theorem entryOf_first (own : Option StationNo) (n : StationNo) (peers : List PeerEntry) (j : Nat) (e : PeerEntry)
    (other : own ≠ some n) (entry : peers[j]? = some e) (peer : e.peer = n)
    (first : ∀ k x, k < j → peers[k]? = some x → x.peer ≠ n) : entryOf own n peers = some j := by
  obtain ⟨bound, at_j⟩ := List.getElem?_eq_some_iff.1 entry
  rw [entryOf, List.findIdx?_eq_some_iff_getElem]
  refine ⟨bound, ?_, fun k before => ?_⟩
  · simp [at_j, peer, PeerEntry.active, other]
  · simp [first k _ before (List.getElem?_eq_getElem (before.trans bound))]

/-- A frame of the peer of entry `j` is taken into the table (R19). -/
def State.takeEntry (j : Nat) (e : PeerEntry) (f : NoticeFields) (s : State) : State :=
  s.mapCalendar fun c => { c with peers := c.peers.set j (e.take f) }

/-- R20 queues a NOTICE for this frame: its sender was not heard, or has another serial. -/
def PeerEntry.news (f : NoticeFields) (e : PeerEntry) : Bool := !e.heard || e.serial != some f.serial

theorem PeerEntry.news_iff (f : NoticeFields) (e : PeerEntry) :
    e.news f = true ↔ e.age = none ∨ e.serial ≠ some f.serial := by
  simp [PeerEntry.news, PeerEntry.heard]

section
variable (n : StationNo) (f : NoticeFields) (s : State) (j : Nat) (e : PeerEntry)
  (found : entryOf s.num.own n s.calendar.peers = some j) (entry : s.calendar.peers[j]? = some e)
include found entry

theorem calendarTakesNotice_inactive (state : s.calendar.state = .inactive) :
    calendarTakesNotice n f s = s.takeEntry j e f := by
  simp only [calendarTakesNotice, found, entry, state]
  rfl

theorem calendarTakesNotice_active (state : s.calendar.state = .active) :
    calendarTakesNotice n f s = activeAfterNotice j n (f.claimed ||| f.settled)
      (heldSet s.num.own s.calendar.peers) (e.news f) (s.takeEntry j e f) := by
  simp only [calendarTakesNotice, found, entry, state]
  rfl

theorem calendarTakesNotice_releasing (state : s.calendar.state = .releasing) :
    calendarTakesNotice n f s = if e.news f = true then queueNotice (s.takeEntry j e f) else s.takeEntry j e f := by
  simp only [calendarTakesNotice, found, entry, state]
  rfl

end

/-! ## The slots of the peer (R22, R26) -/

/-- The claimed set of the frame is held from then on. -/
theorem heldSet_takeEntry (own : Option StationNo) (peers : List PeerEntry) (j : Nat) (e : PeerEntry) (f : NoticeFields)
    (entry : peers[j]? = some e) (active : e.active own = true) (k : Nat)
    (h : (f.claimed ||| f.settled).getLsbD k = true) : (heldSet own (peers.set j (e.take f))).getLsbD k = true :=
  (heldSet_mem _ _ _).2 ⟨e.take f, List.mem_set (List.getElem?_eq_some_iff.1 entry).1 _, active, rfl, h⟩

/-- An entry of the list after the claiming procedure stood there before, or stands on a slot that is not held. -/
theorem claimedList_new (s : State) (x : Claim) (h : some x ∈ claimedList s) :
    some x ∈ s.calendar.claims ∨ (heldSet s.num.own s.calendar.peers).getLsbD x.slot.val = false := by
  cases own : s.num.own with
  | none => rw [claimedList, own] at h; exact .inl h
  | some n =>
    obtain ⟨i, at_i⟩ := List.mem_iff_getElem?.1 h
    cases before : s.calendar.claims[i]? with
    | none =>
      have short := List.getElem?_eq_none_iff.1 before
      rw [← claimedList_length s, ← List.getElem?_eq_none_iff, at_i] at short
      cases short
    | some c =>
      cases c with
      | none =>
        obtain ⟨_, _, held, _⟩ := (claimingTakesTheFirstFreeSlots s n own).2.2.1 i x before at_i
        rw [own] at held
        exact .inr held
      | some y =>
        have same := claimedList_occupied s i y before
        rw [at_i] at same
        cases same
        exact .inl (List.mem_of_getElem? before)

/-- The claiming procedure reads the own number, S, the peer table and the list. -/
theorem claimedList_congr (s t : State) (num : t.num = s.num) (loader : t.loader = s.loader)
    (peers : t.calendar.peers = s.calendar.peers) (claims : t.calendar.claims = s.calendar.claims) :
    claimedList t = claimedList s := by
  simp only [claimedList, State.cfgNat, num, loader, peers, claims]

/-! ## Releases (R33, R35, R41) -/

theorem releaseClaims_eq (set : SlotSet) (claims : List (Option Claim)) :
    releaseClaims set claims = claims.map (Option.filter fun x => !set.getLsbD x.slot.val) := by
  refine List.map_congr_left fun c _ => ?_
  cases c with
  | none => rfl
  | some x =>
    by_cases h : set.getLsbD x.slot.val = true
    · exact (if_pos h).trans (if_neg (by simp only [h]; decide)).symm
    · exact (if_neg h).trans (if_pos (by simp only [Bool.eq_false_of_not_eq_true h]; rfl)).symm

/-- A conflict is an own slot in the set. -/
theorem conflicts_pos (set : SlotSet) (claims : List (Option Claim)) (h : conflicts set claims ≠ 0) :
    ∃ x, some x ∈ claims ∧ set.getLsbD x.slot.val = true := by
  obtain ⟨c, hc, conflict⟩ := List.countP_pos_iff.1 (Nat.pos_of_ne_zero h)
  cases c with
  | none => cases conflict
  | some x => exact ⟨x, hc, conflict⟩

theorem bumpBy_zero (c : Counter) : bumpBy 0 c = c := by
  have bound := c.isLt
  rw [bumpBy, Nat.add_zero, Nat.min_eq_left (by omega), BitVec.ofNat_toNat, BitVec.setWidth_eq]

theorem markSuspect_banks (j : Nat) (s : State) (i : BankId) (accepts : (s.banks.get i).state = .accepting)
    (other : (s.banks.get i.other).state ≠ .accepting) :
    (markSuspect j s).banks = s.banks.put i { s.banks.get i with suspects := setInsert j (s.banks.get i).suspects } := by
  rw [markSuspect, s.banks.accepting_eq i accepts other]
  rfl

section
variable (j : Nat) (n own : StationNo) (set before : SlotSet) (new : Bool) (s : State) (number : s.num.own = some own)
include number

theorem releaseConflicts_nothing (h : ¬ (n < own ∧ conflicts set s.calendar.claims ≠ 0)) :
    releaseConflicts j n set s = s := by
  rw [releaseConflicts, number]
  exact if_neg h

theorem releaseConflicts_releases (lower : n < own) (conflict : conflicts set s.calendar.claims ≠ 0) :
    releaseConflicts j n set s = markSuspect j ((s.mapCalendar fun c =>
      { c with claims := releaseClaims set c.claims, releases := bumpBy (conflicts set c.claims) c.releases }).mapLine
        (Line.recall set)) := by
  rw [releaseConflicts, number]
  exact if_pos ⟨lower, conflict⟩

theorem releaseConflicts_calendar (lower : n < own) (conflict : conflicts set s.calendar.claims ≠ 0) :
    (releaseConflicts j n set s).calendar =
      { s.calendar with
        claims := releaseClaims set s.calendar.claims
        releases := bumpBy (conflicts set s.calendar.claims) s.calendar.releases } := by
  rw [releaseConflicts_releases j n own set s number lower conflict, (markSuspect_frame _ j).2.1]
  rfl

theorem releaseConflicts_banks (lower : n < own) (conflict : conflicts set s.calendar.claims ≠ 0) (i : BankId)
    (accepts : (s.banks.get i).state = .accepting) (other : (s.banks.get i.other).state ≠ .accepting) :
    (releaseConflicts j n set s).banks =
      s.banks.put i { s.banks.get i with suspects := setInsert j (s.banks.get i).suspects } := by
  rw [releaseConflicts_releases j n own set s number lower conflict]
  exact markSuspect_banks j _ i accepts other

end

/-! ## The claiming procedure after the frame (R27, R29, R37) -/

/-- A held slot is freed where it was held before and is not now. -/
theorem freed_iff (before after : SlotSet) :
    before &&& ~~~after ≠ 0 ↔ ∃ k : Nat, before.getLsbD k = true ∧ after.getLsbD k = false := by
  constructor
  · intro freed
    by_contra none
    push Not at none
    refine freed (BitVec.eq_of_getLsbD_eq fun k hk => ?_)
    cases b : before.getLsbD k with
    | false => simp [b]
    | true => simp [none k b]
  · rintro ⟨k, held, gone⟩ same
    have freed : (before &&& ~~~after).getLsbD k = true := by
      rw [BitVec.getLsbD_and, BitVec.getLsbD_not, held, gone, decide_eq_true (BitVec.lt_of_getLsbD held)]
      rfl
    rw [same] at freed
    exact absurd freed (by simp)

/-- The state after a frame that releases nothing: the claiming procedure runs if a held slot is freed and a position is
empty (R27, R37). -/
def reclaimed (before : SlotSet) (s : State) : State :=
  if before &&& ~~~(heldSet s.num.own s.calendar.peers) ≠ 0 ∧ none ∈ s.calendar.claims then runClaiming s else s

section
variable (j : Nat) (n own : StationNo) (set before : SlotSet) (new : Bool) (s : State) (number : s.num.own = some own)
include number

theorem activeAfterNotice_keeps (h : ¬ (n < own ∧ conflicts set s.calendar.claims ≠ 0)) :
    activeAfterNotice j n set before new s =
      if new = true ∨ (reclaimed before s).calendar.claims ≠ s.calendar.claims then queueNotice (reclaimed before s)
      else reclaimed before s := by
  have runs : (if (decide (s.calendar.claims ≠ s.calendar.claims) ||
      (before &&& ~~~(heldSet s.num.own s.calendar.peers) != 0 && hasEmpty s.calendar.claims)) = true
      then runClaiming s else s) = reclaimed before s := if_congr (by simp [hasEmpty_iff]) rfl rfl
  simp only [activeAfterNotice, releaseConflicts_nothing j n own set s number h, runs]
  exact if_congr (by simp) rfl rfl

theorem activeAfterNotice_releases (lower : n < own) (conflict : conflicts set s.calendar.claims ≠ 0) :
    activeAfterNotice j n set before new s = queueNotice (runClaiming (releaseConflicts j n set s)) := by
  have differs : (releaseConflicts j n set s).calendar.claims ≠ s.calendar.claims := by
    rw [releaseConflicts_calendar j n own set s number lower conflict]
    intro same
    obtain ⟨x, hx, conflicting⟩ := conflicts_pos set _ conflict
    have kept := ((releaseClaims_spec set s.calendar.claims x).1 ((congrArg (some x ∈ ·) same).mpr hx)).2
    rw [conflicting] at kept
    cases kept
  simp [activeAfterNotice, differs]

/-- A frame that releases nothing leaves the release counter and the banks as they were. -/
theorem activeAfterNotice_spares (h : ¬ (n < own ∧ conflicts set s.calendar.claims ≠ 0)) :
    (activeAfterNotice j n set before new s).calendar.claims = (reclaimed before s).calendar.claims ∧
    (activeAfterNotice j n set before new s).calendar.releases = s.calendar.releases ∧
    (activeAfterNotice j n set before new s).banks = s.banks := by
  rw [activeAfterNotice_keeps j n own set before new s number h, reclaimed]
  repeat' split
  all_goals exact ⟨rfl, rfl, rfl⟩

/-- Where nothing is released, the claiming procedure runs exactly if a held slot is freed and a position is empty. -/
theorem activeAfterNotice_reclaims (h : ¬ (n < own ∧ conflicts set s.calendar.claims ≠ 0)) :
    ((∃ k : Nat, before.getLsbD k = true ∧ (heldSet s.num.own s.calendar.peers).getLsbD k = false) →
      none ∈ s.calendar.claims → (activeAfterNotice j n set before new s).calendar.claims = claimedList s) ∧
    ((∀ k : Nat, before.getLsbD k = true → (heldSet s.num.own s.calendar.peers).getLsbD k = true) ∨
        none ∉ s.calendar.claims →
      (activeAfterNotice j n set before new s).calendar.claims = s.calendar.claims) := by
  rw [(activeAfterNotice_spares j n own set before new s number h).1, reclaimed]
  refine ⟨fun freed empty => ?_, fun still => ?_⟩
  · rw [if_pos ⟨(freed_iff _ _).2 freed, empty⟩]
    rfl
  · rw [if_neg]
    rintro ⟨freed, empty⟩
    obtain ⟨k, held, gone⟩ := (freed_iff _ _).1 freed
    rcases still with kept | full
    · rw [kept k held] at gone
      cases gone
    · exact full empty

/-- Own slots stand in their states where nothing is released (R34). -/
theorem activeAfterNotice_stands (h : ¬ (n < own ∧ conflicts set s.calendar.claims ≠ 0)) :
    (activeAfterNotice j n set before new s).calendar.claims.length = s.calendar.claims.length ∧
    ∀ (i : Nat) (x : Claim), s.calendar.claims[i]? = some (some x) →
      (activeAfterNotice j n set before new s).calendar.claims[i]? = some (some x) := by
  rw [(activeAfterNotice_spares j n own set before new s number h).1, reclaimed]
  split
  · exact ⟨claimedList_length s, claimedList_occupied s⟩
  · exact ⟨rfl, fun _ _ stands => stands⟩

/-- No own slot is left in the claimed set of a lower-numbered peer (R33, R34). -/
theorem activeAfterNotice_apart (lower : n < own)
    (held : ∀ k, set.getLsbD k = true → (heldSet s.num.own s.calendar.peers).getLsbD k = true) (x : Claim)
    (hx : some x ∈ (activeAfterNotice j n set before new s).calendar.claims) : set.getLsbD x.slot.val = false := by
  have from_free : ∀ slot, (heldSet s.num.own s.calendar.peers).getLsbD slot = false → set.getLsbD slot = false :=
    fun slot free => by
      by_contra taken
      rw [held slot (Bool.eq_true_of_not_eq_false taken)] at free
      cases free
  by_cases conflict : conflicts set s.calendar.claims = 0
  · have nothing : ¬ (n < own ∧ conflicts set s.calendar.claims ≠ 0) := fun h => h.2 conflict
    rw [(activeAfterNotice_spares j n own set before new s number nothing).1, reclaimed] at hx
    split at hx
    · exact (claimedList_new s x hx).elim (conflicts_zero set _ conflict x) (from_free _)
    · exact conflicts_zero set _ conflict x hx
  · rw [activeAfterNotice_releases j n own set before new s number lower conflict] at hx
    have calendar := releaseConflicts_calendar j n own set s number lower conflict
    rcases claimedList_new _ x hx with listed | free
    · rw [calendar] at listed
      exact ((releaseClaims_spec set s.calendar.claims x).1 listed).2
    · obtain ⟨_, _, _, _, _, _, _, num, _⟩ := releaseConflicts_frame s j n set
      rw [calendar, num] at free
      exact from_free _ free

/-- A NOTICE is queued for a frame that brings news or changes the list (R20, R29). -/
theorem activeAfterNotice_queues (h : new = true ∨
      (activeAfterNotice j n set before new s).calendar.claims ≠ s.calendar.claims) :
    (activeAfterNotice j n set before new s).line.set.notice = some ⟨(), 0⟩ ∧
    (activeAfterNotice j n set before new s).calendar.countdown = some 64 := by
  by_cases releases : n < own ∧ conflicts set s.calendar.claims ≠ 0
  · rw [activeAfterNotice_releases j n own set before new s number releases.1 releases.2]
    exact ⟨rfl, rfl⟩
  · rw [(activeAfterNotice_spares j n own set before new s number releases).1] at h
    rw [activeAfterNotice_keeps j n own set before new s number releases, if_pos h]
    exact ⟨rfl, rfl⟩

/-- No NOTICE is queued for a frame that brings no news and changes nothing: a slot released is not taken again. -/
theorem activeAfterNotice_queues_nothing
    (held : ∀ k, set.getLsbD k = true → (heldSet s.num.own s.calendar.peers).getLsbD k = true) (old : new = false)
    (same : (activeAfterNotice j n set before new s).calendar.claims = s.calendar.claims) :
    (activeAfterNotice j n set before new s).line.set.notice = s.line.set.notice ∧
    (activeAfterNotice j n set before new s).calendar.countdown = s.calendar.countdown := by
  by_cases releases : n < own ∧ conflicts set s.calendar.claims ≠ 0
  · obtain ⟨x, hx, conflicting⟩ := conflicts_pos set _ releases.2
    rw [← same] at hx
    have apart := activeAfterNotice_apart j n own set before new s number releases.1 held x hx
    rw [conflicting] at apart
    cases apart
  · rw [(activeAfterNotice_spares j n own set before new s number releases).1] at same
    have quiet : ¬ (new = true ∨ (reclaimed before s).calendar.claims ≠ s.calendar.claims) := by simp [old, same]
    rw [activeAfterNotice_keeps j n own set before new s number releases, if_neg quiet, reclaimed]
    split <;> exact ⟨rfl, rfl⟩

/-- A lower-numbered peer's frame that claims own slots: they are released, counted and marked, the claiming procedure
runs, and a NOTICE is queued (R33, R35, R37, R41). -/
theorem activeAfterNotice_of_conflict (lower : n < own) (conflict : conflicts set s.calendar.claims ≠ 0) :
    (activeAfterNotice j n set before new s).calendar.releases =
      bumpBy (conflicts set s.calendar.claims) s.calendar.releases ∧
    (activeAfterNotice j n set before new s).calendar.claims = claimedList
      (s.mapCalendar fun c =>
        { c with claims := c.claims.map (Option.filter fun x => !set.getLsbD x.slot.val) }) ∧
    (activeAfterNotice j n set before new s).line.set.notice = some ⟨(), 0⟩ ∧
    (activeAfterNotice j n set before new s).calendar.countdown = some 64 ∧
    ∀ i, (s.banks.get i).state = .accepting → (s.banks.get i.other).state ≠ .accepting →
      (activeAfterNotice j n set before new s).banks =
        s.banks.put i { s.banks.get i with suspects := setInsert j (s.banks.get i).suspects } := by
  have calendar := releaseConflicts_calendar j n own set s number lower conflict
  obtain ⟨_, _, _, _, _, _, loader, num, _⟩ := releaseConflicts_frame s j n set
  rw [activeAfterNotice_releases j n own set before new s number lower conflict]
  refine ⟨congrArg Calendar.releases calendar, ?_, rfl, rfl,
    releaseConflicts_banks j n own set s number lower conflict⟩
  refine claimedList_congr _ _ num loader (by rw [calendar]; rfl) ?_
  rw [calendar]
  exact releaseClaims_eq set s.calendar.claims

end

/-! ## The frame at the other blocks (R9, R160, R170) -/

/-- Another station's number changes the numbering unit and the line, and not the NOTICE that is queued. -/
theorem numberingTakes_other_eq (n : StationNo) (serial : Option Serial) (s : State) (other : s.num.own ≠ some n) :
    ∃ u l, numberingTakes n serial s = { s with num := u, line := l } ∧ l.set.notice = s.line.set.notice ∧
      (s.num.state = .numbered → u = s.num ∧ l = s.line) := by
  have chooses : ∃ u l, choose (joinTaken n s) = { s with num := u, line := l } ∧
      l.set.notice = s.line.set.notice := by
    unfold choose
    split
    · exact ⟨_, _, rfl, rfl⟩
    · exact ⟨_, s.line, rfl, rfl⟩
  cases state : s.num.state with
  | listen =>
    refine ⟨(joinTaken n s).num, s.line, ?_, rfl, nofun⟩
    simp only [numberingTakes, state]
    rfl
  | claiming =>
    obtain ⟨u, l, chosen, notice⟩ := chooses
    simp only [numberingTakes, state]
    split
    · split
      · exact ⟨u, l, chosen, notice, nofun⟩
      · split
        · exact ⟨u, l, chosen, notice, nofun⟩
        · split
          · exact ⟨u, l, chosen, notice, nofun⟩
          · split <;> exact ⟨_, _, rfl, rfl, nofun⟩
    · exact ⟨_, _, rfl, rfl, nofun⟩
  | numbered => exact ⟨s.num, s.line, numberingTakes_of_numbered n serial s state other, rfl, fun _ => ⟨rfl, rfl⟩⟩

/-- Without a step the measurement changes the timer at most (R9, R10). -/
theorem measure_unstepped (n : StationNo) (f : NoticeFields) (s : State)
    (h : s.timer.ref ≠ some n ∨ 31 < f.slot.toNat ∨ 249 < f.phase.toNat ∨
      (offset (250 * f.slot.toNat + f.phase.toNat) (positionNumber s.line.latched)).natAbs ≤ 20) :
    ∃ g, measure n f s = s.mapTimer g := by
  by_cases measured : s.timer.ref = some n ∧ s.num.own ≠ some n ∧ f.slot.toNat ≤ 31 ∧ f.phase.toNat ≤ 249
  · have ⟨reference, _, slot, phase⟩ := measured
    have small : (offset (250 * f.slot.toNat + f.phase.toNat) (positionNumber s.line.latched)).natAbs ≤ 20 := by
      rcases h with h | h | h | h
      · exact absurd reference h
      · omega
      · omega
      · exact h
    rw [measure, if_pos measured]
    exact ⟨_, if_pos small⟩
  · exact ⟨id, if_neg measured⟩

/-- A NOTICE that does not step the timer: the calendar's part of it, with the timer, the numbering unit and the line as
they come out. -/
theorem exec_notice_unstepped (n : StationNo) (f : NoticeFields) (s : State) (other : s.num.own ≠ some n)
    (h : referenceOf s.num.own (s.timer.heard.set n.val (some 0)) ≠ some n ∨ 31 < f.slot.toNat ∨ 249 < f.phase.toNat ∨
      (offset (250 * f.slot.toNat + f.phase.toNat) (positionNumber (s.timer.behind 32))).natAbs ≤ 20)
    (b : State) (hb : b = calendarTakesNotice n f (hearNotice n (dispatched s))) :
    ∃ tm u l, exec (.notice (senderOf n) f.serial f.toNoticeBody) s = .next { b with timer := tm, num := u, line := l } ∧
      l.set.notice = b.line.set.notice ∧ (s.num.state = .numbered → u = s.num ∧ l = b.line) := by
  have num : b.num = s.num := by rw [hb]; simp
  have timer : b.timer.ref = referenceOf s.num.own (s.timer.heard.set n.val (some 0)) := by
    rw [hb, (calendarTakesNotice_frame _ n f).1]
    rfl
  have latched : b.line.latched = s.timer.behind 32 := by
    rw [hb, calendarTakesNotice_latched]
    rfl
  rw [← timer, ← latched] at h
  obtain ⟨g, measured⟩ := measure_unstepped n f b h
  obtain ⟨u, l, taken, notice, still⟩ := numberingTakes_other_eq n (some f.serial) (b.mapTimer g)
    (by rw [State.num_mapTimer, num]; exact other)
  refine ⟨g b.timer, u, l, ?_, notice, fun numbered => ?_⟩
  · rw [exec_notice, takeNotice, ← hb, measured, taken]
    rfl
  · rw [State.num_mapTimer, num] at still
    exact still numbered

/-! ## The statement -/

theorem releaseConflicts_peers (j : Nat) (n : StationNo) (set : SlotSet) (s : State) :
    (releaseConflicts j n set s).calendar.peers = s.calendar.peers := by
  unfold releaseConflicts
  split
  · rfl
  · split
    · rw [(markSuspect_frame _ j).2.1]
      rfl
    · rfl

theorem activeAfterNotice_peers (j : Nat) (n : StationNo) (set before : SlotSet) (new : Bool) (s : State) :
    (activeAfterNotice j n set before new s).calendar.peers = s.calendar.peers := by
  have released := releaseConflicts_peers j n set s
  simp only [activeAfterNotice]
  (repeat' split) <;> exact released

section
variable (n : StationNo) (f : NoticeFields) (s : State)

theorem calendarTakesNotice_peers (j : Nat) (e : PeerEntry) (found : entryOf s.num.own n s.calendar.peers = some j)
    (entry : s.calendar.peers[j]? = some e) :
    (calendarTakesNotice n f s).calendar.peers = s.calendar.peers.set j (e.take f) := by
  cases state : s.calendar.state with
  | inactive => rw [calendarTakesNotice_inactive n f s j e found entry state]; rfl
  | releasing =>
    rw [calendarTakesNotice_releasing n f s j e found entry state]
    split <;> rfl
  | active =>
    rw [calendarTakesNotice_active n f s j e found entry state]
    exact activeAfterNotice_peers j n _ _ _ _

end

/-- Settles O39: the entry, and the calendar's part in each of its states. -/
theorem noticeReleasesConflictingSlots : Obligations.NoticeReleasesConflictingSlots := by
  intro n f p s j e peers hp other entry peer first unstepped hpeers
  subst hp hpeers
  have found := entryOf_first s.num.own n s.calendar.peers j e other entry peer first
  have active : e.active s.num.own = true := by simp [PeerEntry.active, peer, other]
  generalize hb : calendarTakesNotice n f (hearNotice n (dispatched s)) = b
  obtain ⟨tm, u, l, taken, notice, numbered⟩ := exec_notice_unstepped n f s other unstepped b hb.symm
  have table := calendarTakesNotice_peers n f (hearNotice n (dispatched s)) j e found entry
  have state := calendarTakesNotice_state n f (hearNotice n (dispatched s))
  obtain ⟨_, laser, expo, front, red, tracker, loader, _, req, _⟩ :=
    calendarTakesNotice_frame (hearNotice n (dispatched s)) n f
  rw [hb] at table state laser expo front red tracker loader req
  refine ⟨_, taken, table, state, laser, expo, front, red, tracker, loader, req, fun h => (numbered h).1,
    fun inactive => ?_, fun releasing => ?_, fun own number active_state => ?_⟩
  · rw [calendarTakesNotice_inactive n f (hearNotice n (dispatched s)) j e found entry inactive] at hb
    subst hb
    exact ⟨rfl, rfl, fun h => (numbered h).2⟩
  · rw [calendarTakesNotice_releasing n f (hearNotice n (dispatched s)) j e found entry releasing] at hb
    have news := e.news_iff f
    subst hb
    by_cases brings : e.news f = true
    · rw [if_pos brings] at notice ⊢
      refine ⟨rfl, rfl, rfl, fun _ => ⟨notice, rfl⟩, fun heard serial => ?_⟩
      exact absurd (news.1 brings) (not_or.2 ⟨heard, not_not.2 serial⟩)
    · rw [if_neg brings] at notice ⊢
      exact ⟨rfl, rfl, rfl, fun h => absurd (news.2 h) brings,
        fun _ _ => ⟨notice.trans (lineAfterFrame_notice s), rfl⟩⟩
  · have news := e.news_iff f
    have held := heldSet_takeEntry s.num.own s.calendar.peers j e f entry active
    rw [calendarTakesNotice_active n f (hearNotice n (dispatched s)) j e found entry active_state] at hb
    subst hb
    have number : ((hearNotice n (dispatched s)).takeEntry j e f).num.own = some own := number
    let set := f.claimed ||| f.settled
    have spares : own < n ∨ conflicts set s.calendar.claims = 0 →
        ¬ (n < own ∧ conflicts set s.calendar.claims ≠ 0) :=
      fun h both => h.elim (fun higher => absurd higher both.1.asymm) both.2
    refine ⟨fun h => ?_, fun heard serial same => ?_, fun h => ?_,
      fun lower => ⟨?_, ?_, fun free => ?_, fun conflict => ?_⟩, fun higher => ?_⟩
    · rw [← or_assoc, ← news] at h
      obtain ⟨queued, countdown⟩ := activeAfterNotice_queues j n own set _ (e.news f) _ number h
      exact ⟨notice.trans queued, countdown⟩
    · have old : e.news f = false := Bool.eq_false_of_not_eq_true fun brings =>
        absurd (news.1 brings) (not_or.2 ⟨heard, not_not.2 serial⟩)
      obtain ⟨queued, countdown⟩ := activeAfterNotice_queues_nothing j n own set _ (e.news f) _ number held old same
      exact ⟨(notice.trans queued).trans (lineAfterFrame_notice s), countdown⟩
    · exact activeAfterNotice_reclaims j n own set _ (e.news f) _ number (spares h)
    · by_cases free : conflicts set s.calendar.claims = 0
      · dsimp only [set] at free
        rw [free, bumpBy_zero]
        exact (activeAfterNotice_spares j n own set _ (e.news f) _ number (spares (.inr free))).2.1
      · exact (activeAfterNotice_of_conflict j n own set _ (e.news f) _ number lower free).1
    · exact activeAfterNotice_apart j n own set _ (e.news f) _ number lower held
    · exact (activeAfterNotice_spares j n own set _ (e.news f) _ number (spares (.inr free))).2.2
    · obtain ⟨_, claims, queued, countdown, banks⟩ :=
        activeAfterNotice_of_conflict j n own set _ (e.news f) _ number lower conflict
      exact ⟨notice.trans queued, countdown, claims, banks⟩
    · have nothing := spares (.inl higher)
      obtain ⟨_, releases, banks⟩ := activeAfterNotice_spares j n own set _ (e.news f) _ number nothing
      obtain ⟨length, stands⟩ := activeAfterNotice_stands j n own set _ (e.news f) _ number nothing
      exact ⟨releases, length, stands, banks⟩

end Sys2Proof.Machine
end

section
/-! SUPPORT. Every step keeps the driver record and the exposure monitor, and no triggered shot exceeds the exposure
limit (R42..R59). -/

namespace Sys2Proof.Machine

/-! ## What a load and the boundary make of the exposure monitor (R58, R61) -/

/-- A load sets the limit of the exposure monitor, and nothing else of it (R61). -/
theorem loadDone_expo (record : List Byte) (s : State) :
    ∃ limit, (loadDone record s).expo = { s.expo with limit := limit } := by
  unfold loadDone
  dsimp only
  split
  · refine ⟨(loadRecord (recordBytes record)).cfg.limit, ?_⟩
    split <;> simp [takeRecord]
  · exact ⟨0, by simp [loadInvalid]⟩

theorem Exposure.Ok.of {e : Exposure} (h : e.Ok) {x : Exposure} (same : x = e ∨ x = e.rotate) : x.Ok := by
  rcases same with rfl | rfl
  · exact h
  · exact e.rotate_ok h

/-! ## The driver record (R42..R55) -/

theorem holdOffEnds_laserOk (s : State) (h : s.laser.Ok) : (holdOffEnds s).laser.Ok := by
  unfold holdOffEnds
  split
  · exact h
  · split
    · exact enterRunning_laserOk _ (by simpa using h)
    · simpa using h

theorem CommandStep.keepsLaser {s t : State} (step : CommandStep s t) (h : s.laser.Ok) : t.laser.Ok := by
  have kept : ∀ u : State, u.laser = s.laser → u.laser.Ok := fun u same => same ▸ h
  cases step with
  | reset band => exact Laser.reset_ok band
  | slotStart slot => exact raiseSlotStart_laserOk slot _ h
  | boundary => exact cycleBoundary_laserOk _ h
  | chargeTimeout => exact s.laser.boundary_laserOk h
  | holdOffEnd => exact holdOffEnds_laserOk s h
  | chargeDone => exact chargeReport_laserOk s h
  | bandChange band => exact bandReport_laserOk band s h
  | reading code => exact takeReading_laserOk code.toNat s h
  | windowEnd => exact windowEnd_laserOk s h
  | load record => exact loadDone_laserOk record s h
  | frame f rx => exact takeFrame_laserOk f _ (kept _ (by simp))
  | nothing | heardLapse | suppressionEnd | peerLapse | countdown | deadline | listenEnd | quietEnd | capture | reduced
    | lineIdle | attempt | loss | collision | transmitted | startBit | discard => exact kept _ (by simp)

/-! ## The exposure monitor (R57, R58) -/

theorem CommandStep.keepsExposure {s t : State} (step : CommandStep s t) (h : s.expo.Ok) : t.expo.Ok := by
  have kept : ∀ u : State, u.expo = s.expo → u.expo.Ok := fun u same => same ▸ h
  cases step with
  | reset band => exact Exposure.reset_ok
  | boundary => rw [cycleBoundary_expo]; exact s.expo.rotate_ok h
  | reading code => rw [takeReading_expo]; exact s.expo.add_ok code.toNat h
  | load record =>
    obtain ⟨limit, loaded⟩ := loadDone_expo record s
    rw [loaded]
    exact s.expo.limit_ok limit h
  | frame f rx => exact h.of (by simpa using takeFrame_expo f (dispatched (s.mapLine fun l => { l with rx := rx })))
  | nothing | slotStart | heardLapse | suppressionEnd | peerLapse | countdown | chargeTimeout | deadline | listenEnd
    | holdOffEnd | quietEnd | chargeDone | bandChange | windowEnd | capture | reduced | lineIdle | attempt | loss
    | collision | transmitted | startBit | discard => exact kept _ (by simp)

/-- Settles O54: the driver record and the exposure monitor are kept, each by the microsecond and by the operations
behind the commands. -/
theorem everyStepKeepsDriverAndExposure : Obligations.EveryStepKeepsDriverAndExposure := by
  have driver : Keeps (fun s => s.laser.Ok) :=
    keeps_of_commandStep_of_tick (fun _ _ h => h) (fun _ _ step h => step.keepsLaser h) tick_laserOk
  have exposure : Keeps (fun s => s.expo.Ok) :=
    keeps_of_commandStep_of_tick (fun _ _ h => h) (fun _ _ step h => step.keepsExposure h)
      fun s h => h.of (tick_expo s)
  exact fun s t ⟨laser, expo⟩ step => ⟨driver s t laser step, exposure s t expo step⟩

/-! ## The headroom of a shot in flight (R48, R59) -/

/-- A monitor kept or rotated under a driver that is FIRED only where it was leaves the headroom that stood. -/
theorem State.Headroom.of {s : State} (h : s.Headroom) (ok : s.expo.Ok) (t : State)
    (expo : t.expo = s.expo ∨ t.expo = s.expo.rotate) (fired : t.laser.driver = .fired → s.laser.driver = .fired) :
    t.Headroom := by
  intro flies
  have bound := h (fired flies)
  rcases expo with same | rotated
  · rw [same]; exact bound
  · rw [rotated]; exact HeadroomOf.rotate s.laser s.expo h ok (fired flies)

theorem holdOffEnds_fired (s : State) (h : (holdOffEnds s).laser.driver = .fired) : s.laser.driver = .fired := by
  unfold holdOffEnds at h
  split at h
  · exact h
  · split at h
    · simpa using enterRunning_fired _ h
    · simpa using h

section
variable (s : State) (ok : s.expo.Ok) (h : s.Headroom)
include ok h

/-- An operation that reaches neither the driver nor the monitor. -/
theorem headroom_of_same (t : State) (laser : t.laser = s.laser) (expo : t.expo = s.expo) : t.Headroom :=
  h.of ok t (.inl expo) fun flies => laser ▸ flies

theorem takeNotice_headroom (n : StationNo) (f : NoticeFields) : (takeNotice n f (dispatched s)).Headroom :=
  h.of ok _ (by simpa using takeNotice_expo n f (dispatched s)) fun flies => by simpa using takeNotice_fired n f _ flies

theorem numberingTakes_headroom (n : StationNo) (serial : Option Serial) :
    (numberingTakes n serial s).Headroom :=
  h.of ok _ (.inl (by simp)) (takes_fired n serial s)

theorem takeRestart_headroom (target scope : Byte) : (takeRestart target scope (dispatched s)).Headroom :=
  h.of ok _ (.inl (by simp)) fun flies => by simpa using takeRestart_fired target scope _ flies

theorem takeFrame_headroom (f : Frame) : (takeFrame f s).Headroom :=
  h.of ok _ (takeFrame_expo f s) (takeFrame_fired f s)

theorem hearFrame_headroom (bits : List Bool) : (hearFrame bits s).Headroom := by
  have same := headroom_of_same s ok h
  unfold hearFrame
  split
  · exact h
  · exact h
  · exact same _ (by simp) (by simp)
  · dsimp only
    split
    · split <;> exact same _ (by simp) (by simp)
    · exact takeFrame_headroom (dispatched (s.mapLine fun l => { l with rx := bits })) ok (same _ (by simp) (by simp)) _

/-- Every command but a load leaves the headroom: the trigger makes sure of it, and a reading takes the driver out of
FIRED. -/
theorem exec_headroom (c : Instr) (t : State) (other : ∀ record, c ≠ .loadComplete record) (ht : exec c s = .next t) :
    t.Headroom := by
  have same := headroom_of_same s ok h
  have dropped : ∀ r, (discarded r (latch s)).Headroom := fun r => same _ (by simp) (by simp)
  cases c with
  | powerOn band | pinReset band => cases ht; exact nofun
  | slotStart slot => exact of_ite_next h (raise_headroom slot (s.mapTimer (Timer.arrive slot)) h) ht
  | cycleBoundary =>
    refine of_ite_next h (h.of ok _ (.inr ?_) fun flies => ?_) ht
    · exact cycleBoundary_expo (s.mapTimer (Timer.arrive 0))
    · exact cycleBoundary_fired (s.mapTimer (Timer.arrive 0)) flies
  | heardEntryLapse n =>
    change execHeardEntryLapse n s = _ at ht
    unfold execHeardEntryLapse at ht
    (repeat' split at ht) <;> cases ht <;> exact same _ (by simp) (by simp)
  | suppressionEnd => exact of_ite_next (same (s.mapTimer fun t => { t with suppress := 0 }) rfl rfl) h ht
  | crossingPeerLapse j =>
    change execCrossingPeerLapse j s = _ at ht
    unfold execCrossingPeerLapse at ht
    (repeat' split at ht) <;> cases ht <;> exact h
  | noticeCountdownExpiry => exact of_ite_next (same _ (by simp) (by simp)) h ht
  | chargeTimeout => exact of_ite_next (h.of ok (s.mapLaser Laser.boundary) (.inl rfl) (boundary_fired _)) h ht
  | deadlineExpiry =>
    change execDeadlineExpiry s = _ at ht
    unfold execDeadlineExpiry at ht
    (repeat' split at ht) <;> cases ht <;> exact same _ (by simp) (by simp)
  | listenCountdownExpiry => exact of_ite_next (same _ (by simp) (by simp)) h ht
  | holdOffExpiry => exact of_ite_next (h.of ok _ (.inl (by simp)) (holdOffEnds_fired s)) h ht
  | quietEnd => exact of_ite_next (same (s.mapReq Request.boundary) rfl rfl) h ht
  | chargeDone => cases ht; exact h.of ok _ (.inl (by simp)) (charge_fired s)
  | bandChange band => cases ht; exact h.of ok _ (.inl (by simp)) (band_fired band s)
  | energyReading code => cases ht; exact fun flies => absurd flies (taking_fired code.toNat s)
  | shotWindowEnd => cases ht; exact h.of ok _ (.inl (by simp)) (window_fired s)
  | reductionComplete =>
    change execReductionComplete s = _ at ht
    unfold execReductionComplete at ht
    split at ht <;> cases ht <;> exact same _ (by simp) (by simp)
  | loadComplete record => exact absurd rfl (other record)
  | rangeCaptureComplete | lineIdle | attemptStart | arbitrationLoss | collisionError | frameTransmitted | startBit =>
    cases ht; exact same _ (by simp) (by simp)
  | frameDiscard bits delimiter => cases ht; exact hearFrame_headroom s ok h _
  | notice sender serial body =>
    change execNotice sender serial body s = _ at ht
    unfold execNotice at ht
    split at ht <;> cases ht
    · exact takeNotice_headroom s ok h _ _
    · exact dropped _
  | claim sender serial =>
    change execClaim sender serial s = _ at ht
    unfold execClaim at ht
    split at ht <;> cases ht
    · exact numberingTakes_headroom (dispatched s) ok (same _ (by simp) (by simp)) _ _
    · exact dropped _
  | report sender fields =>
    change execReport sender fields s = _ at ht
    unfold execReport at ht
    (repeat' split at ht) <;> cases ht
    · exact dropped _
    · exact numberingTakes_headroom _ (by simpa using ok) (same _ (by simp) (by simp)) _ _
    · exact dropped _
  | status sender payload =>
    change execStatus sender payload s = _ at ht
    unfold execStatus at ht
    (repeat' split at ht) <;> cases ht <;> exact same _ (by simp) (by simp)
  | query sender target item | quiet sender target seconds =>
    exact of_ite_next (same _ (by simp) (by simp)) (dropped _) ht
  | restartTracking sender target | restartFiring sender target | restartStation sender target =>
    exact of_ite_next (takeRestart_headroom s ok h _ _) (dropped _) ht

end

/-- Settles O55: a command that is no load and the microsecond leave the headroom, and a code is at most 255. -/
theorem noShotExceedsTheExposureLimit : Obligations.NoShotExceedsTheExposureLimit := by
  refine ⟨fun s t ok h other ht => ?_, fun code s h flies => ⟨_, rfl, ?_⟩⟩
  · rcases step_cases s t ht with rfl | ⟨c, rest, front, hc⟩
    · exact tick_headroom s h ok
    · exact exec_headroom { s with pending := rest } ok h c t (fun record is => other record rest (is ▸ front)) hc
  · have bound := h flies
    have greatest := code.isLt
    rw [takeReading_expo]
    simp only [Exposure.add]
    omega

end Sys2Proof.Machine
end

section
/-! SUPPORT. The shot decision, the exposure ring, charge done and band changes (R43..R49, R58). -/

namespace Sys2Proof.Machine

/-! ## The shot decision (R48, R49) -/

/-- A slot start at an own-settled slot takes the decision, then fixes the next adjustment at slot 31. -/
theorem raiseSlotStart_of_ownSettled (slot : Slot) (s : State) (h : ownSettled slot s.calendar.claims = true) :
    raiseSlotStart slot s = (shotDecision s).mapTimer fun t =>
      { t with
        nextAdj := if slot = 31 then -t.slew.sign else t.nextAdj
        slew := if slot = 31 then t.slew - t.slew.sign else t.slew } := by
  simp only [raiseSlotStart, h, if_true, State.mapTimer, fixNext_eq]
  split <;> rfl

/-- The first and the sixth test leave CHARGED alone of the driver states. -/
theorem charged_of_tests (s : State) (fault : ¬s.TestFails .fault) (ready : ¬s.TestFails .notCharged) :
    s.laser.driver = .charged := by
  revert fault ready
  simp only [State.TestFails]
  cases s.laser.driver <;> simp

theorem not_charged_of_test (s : State) (h : s.TestFails .notCharged) : s.laser.driver ≠ .charged := by
  rcases h with h | h | h <;> rw [h] <;> nofun

/-- Where no test fails, no reason withholds the shot. -/
theorem withholdReason_of_none (s : State) (h : ∀ r, ¬s.TestFails r) : withholdReason s = none := by
  have charged := charged_of_tests s (h .fault) (h .notCharged)
  simp only [withholdReason_eq, h, charged, if_false, ne_eq, not_true_eq_false]

/-- The reason is that of the first test that fails. -/
theorem withholdReason_of_first (s : State) (r : Reason) (h : s.TestFails r)
    (first : ∀ q, q.order < r.order → ¬s.TestFails q) : withholdReason s = some r := by
  rw [withholdReason_eq]
  cases r with
  | fault => rw [if_pos h]
  | quiet => rw [if_neg (first .fault (by decide)), if_pos h]
  | suppressed => rw [if_neg (first .fault (by decide)), if_neg (first .quiet (by decide)), if_pos h]
  | noBank =>
    rw [if_neg (first .fault (by decide)), if_neg (first .quiet (by decide)), if_neg (first .suppressed (by decide)),
      if_pos h]
  | supplyInhibit =>
    rw [if_neg (first .fault (by decide)), if_neg (first .quiet (by decide)), if_neg (first .suppressed (by decide)),
      if_neg (first .noBank (by decide)), if_pos h]
  | notCharged =>
    rw [if_neg (first .fault (by decide)), if_neg (first .quiet (by decide)), if_neg (first .suppressed (by decide)),
      if_neg (first .noBank (by decide)), if_neg (first .supplyInhibit (by decide)), if_pos (not_charged_of_test s h)]
  | budget =>
    have charged := charged_of_tests s (first .fault (by decide)) (first .notCharged (by decide))
    rw [if_neg (first .fault (by decide)), if_neg (first .quiet (by decide)), if_neg (first .suppressed (by decide)),
      if_neg (first .noBank (by decide)), if_neg (first .supplyInhibit (by decide)), if_neg (not_not_intro charged),
      if_pos h]

/-- The tests read nothing that the arrival at a slot changes. -/
theorem testFails_arrive (slot : Slot) (s : State) (r : Reason) :
    (s.mapTimer (Timer.arrive slot)).TestFails r ↔ s.TestFails r :=
  testFails_map s _ rfl r

/-- A fourth test that does not fail has found the ACCEPTING bank. -/
theorem accepting_of_test (s : State) (h : ¬s.TestFails .noBank) : ∃ i, s.banks.accepting = some i := by
  cases found : s.banks.accepting with
  | some i => exact ⟨i, rfl⟩
  | none => exact absurd (.inl ⟨accepting_none _ found .a, accepting_none _ found .b⟩) h

/-- A slot start due at an own-settled slot takes the shot decision at phase 0 of the slot. -/
theorem exec_slotStart_decides (slot : Slot) (s : State) (c : Claim) (claim : some c ∈ s.calendar.claims)
    (at_slot : c.slot = slot) (settled : c.state = .settled)
    (due : s.timer.stepped = true → slot.val = s.timer.pos.slot.val + 1) :
    exec (.slotStart slot) s = .next ((shotDecision (s.mapTimer (Timer.arrive slot))).mapTimer fun t =>
      { t with
        nextAdj := if slot = 31 then -t.slew.sign else t.nextAdj
        slew := if slot = 31 then t.slew - t.slew.sign else t.slew }) := by
  rw [exec_slotStart_due slot s due, raiseSlotStart_of_ownSettled]
  exact (ownSettled_iff _ _).2 ⟨c, claim, at_slot, settled⟩

/-- Settles O6: no reason is found, and the shot is triggered into the bank that the fourth test found. -/
theorem shotIsTriggeredWhenNoTestFails : Obligations.ShotIsTriggeredWhenNoTestFails := by
  intro slot s c claim at_slot settled due passes
  obtain ⟨i, found⟩ := accepting_of_test s (passes .noBank)
  refine ⟨i, accepting_spec _ _ found, ?_⟩
  have free : withholdReason (s.mapTimer (Timer.arrive slot)) = none :=
    withholdReason_of_none _ fun r fails => passes r ((testFails_arrive slot s r).1 fails)
  rw [exec_slotStart_decides slot s c claim at_slot settled due, shotDecision, free]
  simp only [trigger, State.banks_mapTimer, found]
  rfl

/-- Settles O7: the reason found is that of the first test that fails, and its counter alone takes it. -/
theorem firstFailingTestWithholdsTheShot : Obligations.FirstFailingTestWithholdsTheShot := by
  intro slot s c r claim at_slot settled due fails first
  have reason : withholdReason (s.mapTimer (Timer.arrive slot)) = some r :=
    withholdReason_of_first _ r ((testFails_arrive slot s r).2 fails)
      fun q earlier failed => first q earlier ((testFails_arrive slot s q).1 failed)
  rw [exec_slotStart_decides slot s c claim at_slot settled due, shotDecision, reason]
  rfl

/-! ## The exposure monitor at a cycle boundary and at a reading (R57, R58) -/

/-- Settles O9: the boundary reaches the exposure monitor as its rotation. -/
theorem cycleBoundaryRotatesTheExposureRing : Obligations.CycleBoundaryRotatesTheExposureRing := by
  intro s oldest rest due ok ring
  refine ⟨_, exec_cycleBoundary_due s due, ?_⟩
  have total : s.expo.total = oldest + rest.sum := by rw [ok.window, ring, List.sum_cons]
  have rotated : (cycleBoundary (s.mapTimer (Timer.arrive 0))).expo = s.expo.rotate := cycleBoundary_expo _
  have leaves : s.expo.rotate.total = s.expo.total - oldest + s.expo.current := by rw [Exposure.rotate, ring]; rfl
  rw [rotated]
  refine ⟨by rw [Exposure.rotate, ring]; rfl, by omega, rfl, rfl, s.expo.rotate_total ok⟩

/-- Settles O18: a reading reaches the exposure monitor as an addition, whatever the driver makes of it. -/
theorem everyReadingIsCounted : Obligations.EveryReadingIsCounted :=
  fun code s => ⟨_, rfl, takeReading_expo code.toNat s⟩

/-! ## Charging (R45, R46) -/

section
variable (s : State)

/-- Where the station is RUNNING and the band allows it, charging begins at Lt; elsewhere the driver is bled. -/
theorem chargeOrIdle_eq : chargeOrIdle s =
    { s with laser :=
      if s.loader.station = .running ∧ s.laser.band ≠ .inhibit then
        { s.laser with driver := .charging, level := some s.laser.lt, timeout := 2 }
      else { s.laser with driver := .idle, level := none, timeout := 0 } } := by
  simp only [chargeOrIdle, State.running, beq_iff_eq]
  split <;> rfl

theorem chargeOrIdle_charges (running : s.loader.station = .running) (band : s.laser.band ≠ .inhibit) :
    chargeOrIdle s =
      { s with laser := { s.laser with driver := .charging, level := some s.laser.lt, timeout := 2 } } := by
  rw [chargeOrIdle_eq, if_pos ⟨running, band⟩]

/-- Settles O16: a CHARGING driver by the cap of its band, and every other one. -/
theorem chargeDoneInEveryDriverState : Obligations.ChargeDoneInEveryDriverState := by
  refine fun s => ⟨fun k charging level within => ?_, fun k charging level above running band => ?_, fun other => ?_⟩
  · have allowed : s.laser.level.getD 0 ≤ bandCap s.laser.band := by rw [level]; exact within
    exact congrArg _ ((if_pos charging).trans (if_pos allowed))
  · have barred : ¬s.laser.level.getD 0 ≤ bandCap s.laser.band := by rw [level]; exact Nat.not_le_of_lt above
    exact congrArg _ ((if_pos charging).trans ((if_neg barred).trans (chargeOrIdle_charges s running band)))
  · exact congrArg _ (if_neg other)

end

/-! ## Band changes (R43, R44) -/

/-- The state in which the driver acts at a band change: the band and Lt are taken, all else stays (R43). -/
def withBand (band : Band) (lt : Nat) (s : State) : State := { s with laser := { s.laser with band := band, lt := lt } }

/-- A report of the band already held is no change (R43). -/
theorem exec_bandChange_same (s : State) : exec (.bandChange s.laser.band) s = .next s := congrArg _ (if_pos rfl)

/-- Another band is taken with its Lt, which is min(L, cap), before the driver acts (R43). -/
theorem exec_bandChange_other (band : Band) (s : State) (h : band ≠ s.laser.band) :
    exec (.bandChange band) s =
      .next (driverAtBandChange (withBand band (min (s.cfgNat StationConfig.level) (bandCap band)) s)) :=
  congrArg _ (if_neg h)

section
variable (s : State)

theorem driverAtBandChange_idle (h : s.laser.driver = .idle) : driverAtBandChange s =
    if s.loader.station = .running ∧ s.laser.band ≠ .inhibit then s.mapLaser Laser.beginCharging else s := by
  simp only [driverAtBandChange, h, State.running, beq_iff_eq]

theorem driverAtBandChange_charging (h : s.laser.driver = .charging) :
    driverAtBandChange s = if s.laser.band = .inhibit then s.mapLaser Laser.bleed else s := by
  simp only [driverAtBandChange, h]

theorem driverAtBandChange_charged (h : s.laser.driver = .charged) : driverAtBandChange s =
    if s.laser.band = .inhibit then s.mapLaser Laser.bleed
    else if s.laser.level.getD 0 > bandCap s.laser.band then chargeOrIdle s else s := by
  simp only [driverAtBandChange, h]

theorem driverAtBandChange_of_fired_or_fault (h : s.laser.driver = .fired ∨ s.laser.driver = .fault) :
    driverAtBandChange s = s := by
  rcases h with h | h <;> simp only [driverAtBandChange, h]

end

/-- Settles O17: the band is taken with its Lt, then the driver acts by its state. -/
theorem bandChangeByDriverState : Obligations.BandChangeByDriverState := by
  intro s band lt hlt
  have target : lt = min (s.cfgNat StationConfig.level) (bandCap band) := hlt
  have change : band ≠ s.laser.band → exec (.bandChange band) s = .next (driverAtBandChange (withBand band lt s)) := by
    rw [target]; exact exec_bandChange_other band s
  refine ⟨fun same => ?_, fun other idle running allowed => ?_, fun other idle still => ?_,
    fun other charging allowed => ?_, fun other stored barred => ?_, fun k other charged level allowed => ?_,
    fun other spent => ?_⟩
  · rw [same]; exact exec_bandChange_same s
  · rw [change other, driverAtBandChange_idle (withBand band lt s) idle]
    exact congrArg _ (if_pos ⟨running, allowed⟩)
  · rw [change other, driverAtBandChange_idle (withBand band lt s) idle]
    exact congrArg _ (if_neg fun ⟨running, allowed⟩ => still.elim (absurd running) allowed)
  · rw [change other, driverAtBandChange_charging (withBand band lt s) charging]
    exact congrArg _ (if_neg allowed)
  · rcases stored with charging | charged
    · rw [change other, driverAtBandChange_charging (withBand band lt s) charging]
      exact congrArg _ (if_pos barred)
    · rw [change other, driverAtBandChange_charged (withBand band lt s) charged]
      exact congrArg _ (if_pos barred)
  · have held : (withBand band lt s).laser.level.getD 0 = k := congrArg (Option.getD · 0) level
    have judged : exec (.bandChange band) s =
        .next (if k > bandCap band then chargeOrIdle (withBand band lt s) else withBand band lt s) := by
      rw [change other, driverAtBandChange_charged (withBand band lt s) charged, held]
      exact congrArg _ (if_neg allowed)
    refine ⟨fun within => ?_, fun above running => ?_⟩
    · rw [judged, if_neg (Nat.not_lt_of_le within)]; rfl
    · rw [judged, if_pos above, chargeOrIdle_charges (withBand band lt s) running allowed]; rfl
  · rw [change other, driverAtBandChange_of_fired_or_fault (withBand band lt s) spent]; rfl

end Sys2Proof.Machine
end

section
/-! SUPPORT. Energy readings: the shot in flight, duds, stray emissions, and the closes they take (R51..R55, R65, R67,
R71, R73). -/

namespace Sys2Proof.Machine

/-! ## A bank that closes (R69, R73) -/

/-- A reduction does not read the in-flight count (R80). -/
theorem reduce_landed (cfg : Option StationConfig) (peers : List PeerEntry) (i : BankId) (b : Bank) (n : Nat) :
    reduce cfg peers i { b with inFlight := n } = reduce cfg peers i b := by
  cases cfg <;> rfl

/-- A bank that closes beside an EMPTY one in a live station is reduced at once, and the other one opens. -/
theorem closeBank_opens (i : BankId) (s : State) (h : (s.banks.get i.other).state = .empty) (live : s.live = true) :
    closeBank i s = openBank i.other
      { s with
        banks := s.banks.put i { s.banks.get i with state := .reducing, closePending := false }
        red := some (reduce s.loader.cfg s.calendar.peers i (s.banks.get i)) } := by
  rw [closeBank, if_pos h, if_pos live, startReduction]
  simp only [State.mapBanks, State.setRed, Banks.get_put, Banks.put_put, reduce_closed]

/-- What a close beside an EMPTY bank makes of the reduction unit and the banks, in a live station and in another. -/
theorem closeBank_begins (i : BankId) (s : State) (h : (s.banks.get i.other).state = .empty) :
    (closeBank i s).red = some (reduce s.loader.cfg s.calendar.peers i (s.banks.get i)) ∧
      (closeBank i s).banks.get i = { s.banks.get i with state := .reducing, closePending := false } ∧
      (s.live = true →
        ((closeBank i s).banks.get i.other).state = .accepting ∧ ((closeBank i s).banks.get i.other).seq = s.banks.seq ∧
          ((closeBank i s).banks.get i.other).m = 0) ∧
      (s.live = false → (closeBank i s).banks.get i.other = s.banks.get i.other) := by
  cases live : s.live with
  | true =>
    rw [closeBank_opens i s h live]
    simp [openBank, get_seq, Banks.put_seq, Bank.blank]
  | false =>
    rw [closeBank_reduces i s h live]
    simp

/-- A close leaves the record of the bank, its state and its pending close apart. -/
theorem closeBank_record (i : BankId) (s : State) : ∃ state,
    (closeBank i s).banks.get i = { s.banks.get i with state := state, closePending := false } := by
  by_cases h : (s.banks.get i.other).state = .empty
  · obtain ⟨_, record, _⟩ := closeBank_begins i s h
    exact ⟨_, record⟩
  · rw [closeBank_waits i s h]
    exact ⟨_, Banks.get_put _ _ _⟩

section
variable (s : State)

/-! ## Delivery of a shot (R67, R69, R71) -/

/-- The bank takes the shot and goes on, short of N shots and with no close pending. -/
theorem accumulateShot_goes_on (sh : Shot) (accepts : (s.banks.get sh.bank).state = .accepting)
    (short : (s.banks.get sh.bank).m + 1 ≠ s.profileShots) (free : (s.banks.get sh.bank).closePending = false) :
    accumulateShot sh s = { s with banks := s.banks.put sh.bank ((s.banks.get sh.bank).addShot sh) } := by
  have still : ¬((s.banks.get sh.bank).m + 1 = s.profileShots ∨ (s.banks.get sh.bank).closePending = true) := by
    rw [free]; exact fun last => last.elim short Bool.false_ne_true
  exact (if_pos accepts).trans (if_neg still)

/-- The N-th shot, and one that a pending close waited for, closes the bank that takes it. -/
theorem accumulateShot_closes (sh : Shot) (accepts : (s.banks.get sh.bank).state = .accepting)
    (last : (s.banks.get sh.bank).m + 1 = s.profileShots ∨ (s.banks.get sh.bank).closePending = true) :
    accumulateShot sh s =
      closeBank sh.bank { s with banks := s.banks.put sh.bank ((s.banks.get sh.bank).addShot sh) } :=
  (if_pos accepts).trans (if_pos last)

/-! ## Completion of a shot (R65) -/

/-- While samples are still to come a shot is not complete. -/
theorem completeShot_of_not_holding (h : s.front.window ≠ .holding) : completeShot s = s := by
  unfold completeShot
  split
  · rfl
  · exact if_neg fun ⟨holding, _⟩ => h holding

/-- The state in which a shot's record has been removed (R65). -/
def shotRemoved (s : State) : State := { s with front := { s.front with window := .idle, shot := none } }

/-- The samples and the reading of a shot have come: its record is removed, and a shot to be accumulated delivered. -/
theorem completeShot_of_taken (sh : Shot) (shot : s.front.shot = some sh) (holding : s.front.window = .holding)
    (taken : sh.readingTaken s.laser.driver = true) : completeShot s =
      if sh.disposition = .accumulate then accumulateShot sh (shotRemoved s) else shotRemoved s := by
  simp only [completeShot, shot, holding, taken, and_self, if_true]
  rfl

/-- A dud is complete with its samples, and delivers nothing. -/
theorem completeShot_of_dud (sh : Shot) (shot : s.front.shot = some sh) (dud : sh.disposition = .dud) :
    completeShot s = if s.front.window = .holding then shotRemoved s else s := by
  split
  · rename_i holding
    have taken : sh.readingTaken s.laser.driver = true := by simp [Shot.readingTaken, dud]
    rw [completeShot_of_taken s sh shot holding taken, if_neg (by rw [dud]; nofun)]
  · exact completeShot_of_not_holding s ‹_›

/-! ## A reading of the shot in flight (R51) -/

/-- The driver after a reading of 1..255 for the shot in flight. -/
def laserAfterShot (s : State) : Laser :=
  if s.loader.station = .running ∧ s.laser.band ≠ .inhibit then
    { s.laser with dudRun := 0, driver := .charging, level := some s.laser.lt, timeout := 2 }
  else { s.laser with dudRun := 0, driver := .idle, level := none, timeout := 0 }

/-- The state in which a reading of 1..255 has been counted and taken, before the shot may be complete. -/
def readingHeld (code : Nat) (sh : Shot) (s : State) : State :=
  { s with
    expo := s.expo.add code
    front := { s.front with shot := some { sh with code := some code } }
    laser := laserAfterShot s }

theorem exec_energyReading_shot (code : Byte) (sh : Shot) (nonzero : code ≠ 0) (fired : s.laser.driver = .fired)
    (shot : s.front.shot = some sh) :
    exec (.energyReading code) s = .next (completeShot (readingHeld code.toNat sh s)) := by
  have counts : code.toNat ≠ 0 := fun zero => nonzero (BitVec.eq_of_toNat_eq zero)
  refine congrArg _ ((if_pos fired).trans ((if_neg counts).trans (congrArg completeShot ?_)))
  rw [chargeOrIdle_eq]
  simp only [readingHeld, State.mapLaser, State.mapFront, State.mapExpo, shot]
  rfl

/-- In HOLDING the reading completes the shot, which is delivered if it is to be accumulated. -/
theorem exec_energyReading_completes (code : Byte) (sh : Shot) (nonzero : code ≠ 0) (fired : s.laser.driver = .fired)
    (shot : s.front.shot = some sh) (holding : s.front.window = .holding) :
    exec (.energyReading code) s = .next
      (if sh.disposition = .accumulate then
        accumulateShot { sh with code := some code.toNat } (shotRemoved (readingHeld code.toNat sh s))
      else shotRemoved (readingHeld code.toNat sh s)) := by
  rw [exec_energyReading_shot s code sh nonzero fired shot]
  exact congrArg _ (completeShot_of_taken (readingHeld code.toNat sh s) _ rfl holding rfl)

/-- The state in which the ACCEPTING bank has taken the completed shot, before it may close (R67). -/
def shotDelivered (code : Nat) (sh : Shot) (s : State) : State :=
  { shotRemoved (readingHeld code sh s) with
    banks := s.banks.put sh.bank ((s.banks.get sh.bank).addShot { sh with code := some code }) }

theorem shotDelivered_bank (code : Nat) (sh : Shot) : (shotDelivered code sh s).banks.get sh.bank =
    (s.banks.get sh.bank).addShot { sh with code := some code } := Banks.get_put _ _ _

theorem shotDelivered_other (code : Nat) (sh : Shot) :
    (shotDelivered code sh s).banks.get sh.bank.other = s.banks.get sh.bank.other := Banks.get_put_other _ _ _

section
variable (code : Byte) (sh : Shot) (nonzero : code ≠ 0) (fired : s.laser.driver = .fired)
  (shot : s.front.shot = some sh) (holding : s.front.window = .holding)
include nonzero fired shot holding

/-- A reading that completes a shot to be accumulated delivers it. -/
theorem exec_energyReading_delivers (accumulate : sh.disposition = .accumulate) :
    exec (.energyReading code) s = .next
      (accumulateShot { sh with code := some code.toNat } (shotRemoved (readingHeld code.toNat sh s))) := by
  rw [exec_energyReading_completes s code sh nonzero fired shot holding, if_pos accumulate]

/-- The reading of the last shot of a bank closes it with the shot delivered. -/
theorem exec_energyReading_closes (accumulate : sh.disposition = .accumulate)
    (accepts : (s.banks.get sh.bank).state = .accepting)
    (last : (s.banks.get sh.bank).m + 1 = s.profileShots ∨ (s.banks.get sh.bank).closePending = true) :
    exec (.energyReading code) s = .next (closeBank sh.bank (shotDelivered code.toNat sh s)) := by
  rw [exec_energyReading_delivers s code sh nonzero fired shot holding accumulate]
  exact congrArg _ (accumulateShot_closes (shotRemoved (readingHeld code.toNat sh s)) _ accepts last)

end

/-! ## Duds (R52, R53, R55) -/

theorem clearInFlight_other (i : BankId) (h : (s.banks.get i).state ≠ .accepting) : clearInFlight i s = s := if_neg h

theorem clearInFlight_lands (i : BankId) (accepts : (s.banks.get i).state = .accepting)
    (free : (s.banks.get i).closePending = false) :
    clearInFlight i s = { s with banks := s.banks.put i { s.banks.get i with inFlight := 0 } } :=
  (if_pos accepts).trans (if_neg (by rw [free]; nofun))

theorem clearInFlight_closes (i : BankId) (accepts : (s.banks.get i).state = .accepting)
    (pending : (s.banks.get i).closePending = true) :
    clearInFlight i s = closeBank i { s with banks := s.banks.put i { s.banks.get i with inFlight := 0 } } :=
  (if_pos accepts).trans (if_pos pending)

/-- A dud clears the in-flight count of an ACCEPTING bank and may close it, and leaves the rest of its record. -/
theorem clearInFlight_record (i : BankId) (accepts : (s.banks.get i).state = .accepting) : ∃ state pending,
    (clearInFlight i s).banks.get i =
      { s.banks.get i with inFlight := 0, state := state, closePending := pending } := by
  cases pending : (s.banks.get i).closePending with
  | false => rw [clearInFlight_lands s i accepts pending]; exact ⟨_, _, Banks.get_put _ _ _⟩
  | true =>
    rw [clearInFlight_closes s i accepts pending]
    obtain ⟨state, record⟩ := closeBank_record i { s with banks := s.banks.put i { s.banks.get i with inFlight := 0 } }
    rw [record, Banks.get_put]
    exact ⟨_, _, rfl⟩

/-- The third dud in a row latches the fault; before it the driver charges again or becomes IDLE. -/
theorem driverAfterDud_eq : driverAfterDud s =
    { s with laser :=
      if 2 ≤ s.laser.dudRun then
        { s.laser with dudRun := 3, driver := .fault, level := none, timeout := 0, cause := .dud }
      else if s.loader.station = .running ∧ s.laser.band ≠ .inhibit then
        { s.laser with dudRun := s.laser.dudRun + 1, driver := .charging, level := some s.laser.lt, timeout := 2 }
      else { s.laser with dudRun := s.laser.dudRun + 1, driver := .idle, level := none, timeout := 0 } } := by
  unfold driverAfterDud
  by_cases third : 2 ≤ s.laser.dudRun
  · rw [if_pos third, if_pos (Nat.succ_le_succ third)]; rfl
  · rw [if_neg third, if_neg fun h => third (Nat.le_of_succ_le_succ h), chargeOrIdle_eq]; rfl

/-- The state in which the shot of a dud has been told so. -/
def dudTold (sh : Shot) (s : State) : State :=
  { s with front := { s.front with shot := some { sh with disposition := .dud } } }

/-- A dud is taken by the bank and the driver, and its shot is removed if its samples are complete. -/
theorem dudReading_eq (sh : Shot) (shot : s.front.shot = some sh) : dudReading s =
    if s.front.window = .holding then shotRemoved (driverAfterDud (clearInFlight sh.bank (dudTold sh s)))
    else driverAfterDud (clearInFlight sh.bank (dudTold sh s)) := by
  have taken : dudReading s = completeShot (driverAfterDud (clearInFlight sh.bank (dudTold sh s))) := by
    simp only [dudReading, State.mapFront, shot]
    rfl
  have front : (driverAfterDud (clearInFlight sh.bank (dudTold sh s))).front = (dudTold sh s).front := by simp
  rw [taken, completeShot_of_dud _ { sh with disposition := .dud } (by rw [front]; rfl) rfl, front]
  rfl

theorem dudReading_banks (sh : Shot) (shot : s.front.shot = some sh) :
    (dudReading s).banks = (clearInFlight sh.bank (dudTold sh s)).banks ∧
      (dudReading s).red = (clearInFlight sh.bank (dudTold sh s)).red := by
  rw [dudReading_eq s sh shot]
  split <;> simp [shotRemoved]

/-- The state in which the bank of a dud has been told so, before it may close (R52). -/
def dudLanded (sh : Shot) (s : State) : State :=
  { dudTold sh s with banks := s.banks.put sh.bank { s.banks.get sh.bank with inFlight := 0 } }

theorem dudLanded_bank (sh : Shot) :
    (dudLanded sh s).banks.get sh.bank = { s.banks.get sh.bank with inFlight := 0 } := Banks.get_put _ _ _

theorem dudLanded_other (sh : Shot) : (dudLanded sh s).banks.get sh.bank.other = s.banks.get sh.bank.other :=
  Banks.get_put_other _ _ _

/-- A dud that a pending close waited for closes its bank. -/
theorem dudReading_closes (sh : Shot) (shot : s.front.shot = some sh)
    (accepts : (s.banks.get sh.bank).state = .accepting) (pending : (s.banks.get sh.bank).closePending = true) :
    (dudReading s).banks = (closeBank sh.bank (dudLanded sh s)).banks ∧
      (dudReading s).red = (closeBank sh.bank (dudLanded sh s)).red := by
  have closes : clearInFlight sh.bank (dudTold sh s) = closeBank sh.bank (dudLanded sh s) :=
    clearInFlight_closes (dudTold sh s) sh.bank accepts pending
  rw [← closes]
  exact dudReading_banks s sh shot

theorem exec_energyReading_dud (fired : s.laser.driver = .fired) :
    exec (.energyReading 0) s = .next (dudReading (s.mapExpo (Exposure.add 0))) :=
  congrArg _ (if_pos fired)

/-- A code of 0 leaves the exposure monitor as it is. -/
theorem exec_energyReading_dud_uncounted (fired : s.laser.driver = .fired) (bound : s.expo.current ≤ 65535) :
    exec (.energyReading 0) s = .next (dudReading s) := by
  have same : s.expo.add 0 = s.expo := by
    rw [Exposure.add, Nat.add_zero, Nat.min_eq_left bound]
  rw [exec_energyReading_dud s fired, State.mapExpo, same]

end

/-! ## The statements -/

/-- Settles O20: the reading is counted, and the driver latches the fault if it has not yet. -/
theorem strayEmissionLatchesTheFault : Obligations.StrayEmissionLatchesTheFault := by
  intro code s other
  have stray : exec (.energyReading code) s = .next (strayReading (s.mapExpo (Exposure.add code.toNat))) :=
    congrArg _ (if_neg other)
  rw [stray]
  by_cases latched : s.laser.driver = .fault
  · rw [if_pos latched]
    exact congrArg _ (if_pos latched)
  · rw [if_neg latched]
    exact congrArg _ (if_neg latched)

/-- Settles O21: the window's end is the dud that a code of 0 is, and it reaches the bank as its in-flight count. -/
theorem windowEndIsAReadingOfZero : Obligations.WindowEndIsAReadingOfZero := by
  intro s sh shot bound
  have some_shot : s.front.shot.isSome = true := by rw [shot]; rfl
  refine ⟨fun fired => ⟨dudReading s, congrArg _ (if_pos ⟨some_shot, fired⟩),
    exec_energyReading_dud_uncounted s fired bound, fun holding => ?_, by simp, ?_⟩,
    fun other => congrArg _ (if_neg fun ⟨_, fired⟩ => other fired)⟩
  · rw [dudReading_eq s sh shot, if_pos holding]
    simp [shotRemoved, dudTold]
  · obtain ⟨banks, red⟩ := dudReading_banks s sh shot
    rw [banks, red]
    by_cases accepts : (s.banks.get sh.bank).state = .accepting
    · obtain ⟨state, pending, record⟩ := clearInFlight_record (dudTold sh s) sh.bank accepts
      rw [record]
      refine ⟨rfl, rfl, rfl, rfl, rfl, fun _ => rfl, fun _ free => ?_, absurd accepts⟩
      rw [clearInFlight_lands (dudTold sh s) sh.bank accepts free]
      exact ⟨rfl, rfl⟩
    · rw [clearInFlight_other (dudTold sh s) sh.bank accepts]
      exact ⟨rfl, rfl, rfl, rfl, rfl, fun h => absurd h accepts, fun h => absurd h accepts, fun _ => ⟨rfl, rfl⟩⟩

/-- Settles O19: a reading and a dud during the capture, the reading that completes a shot by what its bank makes of it,
and the dud that a pending close waited for. -/
theorem readingsOfTheShotInFlight : Obligations.ReadingsOfTheShotInFlight := by
  refine ⟨fun code s sh nonzero fired shot capturing => ?_, fun s sh fired shot capturing accepts free bound => ?_,
    fun code s sh b nonzero fired shot holding hb => ?_, fun s sh b fired shot hb accepts pending => ?_⟩
  · have open_window : s.front.window ≠ .holding := by rw [capturing]; nofun
    rw [exec_energyReading_shot s code sh nonzero fired shot,
      completeShot_of_not_holding (readingHeld code.toNat sh s) open_window]
    rfl
  · rw [exec_energyReading_dud_uncounted s fired bound, dudReading_eq s sh shot,
      if_neg (by rw [capturing]; nofun), clearInFlight_lands (dudTold sh s) sh.bank accepts free, driverAfterDud_eq]
    rfl
  · subst hb
    have closes := exec_energyReading_closes s code sh nonzero fired shot holding
    refine ⟨fun accumulate accepts short free => ?_, fun accumulate accepts last behind => ?_,
      fun accumulate accepts last before => ?_, fun other => ?_⟩
    · rw [exec_energyReading_delivers s code sh nonzero fired shot holding accumulate]
      exact congrArg _ (accumulateShot_goes_on (shotRemoved (readingHeld code.toNat sh s)) _ accepts short free)
    · refine ⟨_, closes accumulate accepts last, ?_⟩
      rw [closeBank_waits sh.bank (shotDelivered code.toNat sh s) (by rw [shotDelivered_other, behind]; nofun),
        shotDelivered_bank]
      exact ⟨rfl, rfl, rfl, rfl, Banks.put_put _ _ _ _⟩
    · have empty : ((shotDelivered code.toNat sh s).banks.get sh.bank.other).state = .empty := by
        rw [shotDelivered_other, before]
      obtain ⟨red, bank, live, still⟩ := closeBank_begins sh.bank (shotDelivered code.toNat sh s) empty
      rw [shotDelivered_bank] at red bank
      rw [shotDelivered_other] at still
      obtain ⟨_, _, laser, expo, front, _⟩ := closeBank_frame (shotDelivered code.toNat sh s) sh.bank
      refine ⟨_, closes accumulate accepts last, red, front, expo, laser, bank, fun h => ?_, still⟩
      obtain ⟨state, seq, m⟩ := live h
      exact ⟨state, seq.trans (Banks.put_seq _ _ _), m⟩
    · rw [exec_energyReading_completes s code sh nonzero fired shot holding, if_neg other]
      rfl
  · subst hb
    obtain ⟨banks, red⟩ := dudReading_closes (s.mapExpo (Exposure.add 0)) sh shot accepts pending
    have other := dudLanded_other (s.mapExpo (Exposure.add 0)) sh
    have bank := dudLanded_bank (s.mapExpo (Exposure.add 0)) sh
    refine ⟨fun behind => ?_, fun before => ?_⟩
    · have waits := closeBank_waits sh.bank (dudLanded sh (s.mapExpo (Exposure.add 0)))
        (by rw [other]; exact fun empty => nomatch behind.symm.trans empty)
      rw [waits, bank] at banks
      rw [waits] at red
      exact ⟨_, exec_energyReading_dud s fired, red, banks.trans (Banks.put_put _ _ _ _)⟩
    · obtain ⟨begins, record, live, still⟩ :=
        closeBank_begins sh.bank (dudLanded sh (s.mapExpo (Exposure.add 0))) ((congrArg Bank.state other).trans before)
      rw [← banks, bank] at record
      rw [← banks] at live still
      rw [← red, bank] at begins
      refine ⟨_, _, exec_energyReading_dud s fired, begins, reduce_bank _ _ _ _, reduce_landed _ _ _ _ _, record,
        fun h => ?_, fun h => (still h).trans other⟩
      obtain ⟨state, seq, _⟩ := live h
      exact ⟨state, seq.trans (Banks.put_seq _ _ _)⟩

end Sys2Proof.Machine
end

section
/-! SUPPORT. Every step keeps the banks, the reduction unit and the shot counts (R67, R69, R71, R73, R79). -/

namespace Sys2Proof.Machine

theorem resetAll_banksSafe (band : Band) (s : State) : BanksSafe (resetAll band s) := Banks.reset_ok

theorem resetAll_counts (band : Band) (s : State) : (resetAll band s).CountsOk :=
  State.reset_countsOk.same rfl rfl

theorem captureRest_banksSafe (samples : List Sample) (s : State) (h : BanksSafe s) :
    BanksSafe (captureRest samples s) := by
  unfold captureRest
  split
  · exact convert_banksSafe _ s h
  · exact h

/-! ## Every command -/

theorem CommandStep.keepsBanks {s t : State} (step : CommandStep s t) (h : BanksSafe s) : BanksSafe t := by
  have kept : ∀ u : State, u.banks = s.banks → u.red = s.red → BanksSafe u := fun u => BanksSafe.of s u h
  cases step with
  | reset band => exact resetAll_banksSafe band s
  | slotStart slot => exact raise_banksSafe slot _ h
  | boundary => exact cb_banksSafe _ h
  | deadline => exact banksBoundary_banksSafe s h
  | holdOffEnd => exact hold_banksSafe s h
  | reading code => exact taking_banksSafe code.toNat s h
  | windowEnd => exact window_banksSafe s h
  | capture samples => exact captureRest_banksSafe samples s h
  | reduced r _ busy =>
    exact endReduction_banksSafe r _ (kept (ownUpdate r.result s) (by simp) (by simp)) (by simpa using busy)
  | load record => exact load_banksSafe record s h
  | frame f rx => exact frame_banksSafe f _ (kept _ (by simp) (by simp))
  | nothing | heardLapse | suppressionEnd | peerLapse | countdown | chargeTimeout | listenEnd | quietEnd | chargeDone
    | bandChange | lineIdle | attempt | loss | collision | transmitted | startBit | discard =>
    exact kept _ (by simp) (by simp)

/-- The bank the reduction unit holds is REDUCING (R79). -/
theorem BanksSafe.reducing {s : State} (h : BanksSafe s) (r : Reduction) (busy : s.red = some r) :
    (s.banks.get r.bank).state = .reducing := by
  obtain ⟨_, _, _, reducing, _⟩ := (banksOk_iff r.bank _ _).1 h
  exact reducing.2 (by rw [busy]; rfl)

theorem CommandStep.keepsCounts {s t : State} (step : CommandStep s t) (banks : BanksSafe s) (h : s.CountsOk) :
    t.CountsOk := by
  have kept : ∀ u : State, u.banks = s.banks → u.loader = s.loader → u.CountsOk := fun u => h.same
  cases step with
  | reset band => exact resetAll_counts band s
  | slotStart slot => exact raiseSlotStart_counts slot _ (kept _ rfl rfl)
  | boundary => exact cycleBoundary_counts _ (kept _ rfl rfl)
  | deadline => exact banksBoundary_counts s h
  | holdOffEnd => exact holdOffEnds_counts s h
  | reading code => exact takeReading_counts code.toNat s h
  | windowEnd => exact windowEnd_counts s h
  | capture samples => exact captureRest_counts samples s h
  | reduced r _ busy =>
    exact endReduction_counts r.bank _ (kept (ownUpdate r.result s) (by simp) (by simp))
      (by simp [banks.reducing r busy])
  | load record _ loading => exact loadDone_counts record s h loading
  | frame f rx => exact takeFrame_counts f _ (kept _ (by simp) (by simp))
  | nothing | heardLapse | suppressionEnd | peerLapse | countdown | chargeTimeout | listenEnd | quietEnd | chargeDone
    | bandChange | lineIdle | attempt | loss | collision | transmitted | startBit | discard =>
    exact kept _ (by simp) (by simp)

/-! ## Every microsecond -/

theorem convertTick_banksSafe (s : State) (h : BanksSafe s) : BanksSafe (convertTick s) := convert_banksSafe _ s h

theorem windowTick_banksSafe (s : State) (h : BanksSafe s) : BanksSafe (windowTick s) := by
  unfold windowTick
  split
  · exact h
  · dsimp only
    split
    · exact window_banksSafe _ h
    · exact h

theorem advance_banksSafe (s : State) (h : BanksSafe s) : BanksSafe (advance s) := by
  simp only [advance]
  split
  · exact raise_banksSafe 0 _ (cb_banksSafe _ h)
  · split
    · exact raise_banksSafe _ _ h
    · exact h

theorem tick_banksSafe (s : State) (h : BanksSafe s) : BanksSafe (tick s) :=
  BanksSafe.of _ _ (advance_banksSafe _ (windowTick_banksSafe _ (convertTick_banksSafe s h))) (by simp [tick])
    (by simp [tick])

/-- Settles O56: the microsecond and the operations behind the commands keep the banks with the reduction unit, and with
them the shot counts. -/
theorem everyStepKeepsTheBanks : Obligations.EveryStepKeepsTheBanks :=
  keeps_of_commandStep_of_tick (P := fun s => BanksSafe s ∧ s.CountsOk)
    (fun _ _ ⟨banks, counts⟩ => ⟨banks, counts.same rfl rfl⟩)
    (fun _ _ step ⟨banks, counts⟩ => ⟨step.keepsBanks banks, step.keepsCounts banks counts⟩)
    fun s ⟨banks, counts⟩ => ⟨tick_banksSafe s banks, tick_counts s counts⟩

end Sys2Proof.Machine
end

section
/-! SUPPORT. A bank that opens, a bank that closes, and the expiry of the deadline (R66, R69..R71, R73, R80). -/

namespace Sys2Proof.Machine

/-! ## A bank that opens (R66) -/

/-- The record of a bank that opens under a sequence number, with the deadline of the profile period in seconds. -/
def Bank.opened (seq : BitVec 16) (period : Nat) : Bank :=
  { state := .accepting, seq := seq, sums := List.replicate 800 0, bg := 0, esum := 0, m := 0, inFlight := 0,
    deadline := period * 125, closePending := false, lowSat := none, slip := false, suspects := 0 }

section
variable (i : BankId) (s : State)

theorem openBank_record : (openBank i s).banks.get i = Bank.opened s.banks.seq (s.cfgNat StationConfig.period) := by
  simp only [openBank, State.banks_mapBanks, get_seq, Banks.get_put]
  rfl

theorem openBank_other : (openBank i s).banks.get i.other = s.banks.get i.other := by
  simp only [openBank, State.banks_mapBanks, get_seq, Banks.get_put_other]

theorem openBank_seq : (openBank i s).banks.seq = s.banks.seq + 1 := rfl

end

/-! ## A bank that closes beside an EMPTY one (R69, R73, R80) -/

/-- A reduction does not read the deadline countdown (R80). -/
theorem reduce_expired (cfg : Option StationConfig) (peers : List PeerEntry) (i : BankId) (b : Bank) (n : Nat) :
    reduce cfg peers i { b with deadline := n } = reduce cfg peers i b := by
  cases cfg <;> rfl

/-- The result of a reduction carries the sequence number of its bank (R86). -/
theorem reduce_seq (cfg : Option StationConfig) (peers : List PeerEntry) (i : BankId) (b : Bank) :
    (reduce cfg peers i b).result.seq = b.seq := by
  unfold reduce
  split
  · rfl
  · split <;> rfl

/-- A close changes the banks and the reduction unit alone. -/
theorem closeBank_rest (i : BankId) (s : State) : { closeBank i s with banks := s.banks, red := s.red } = s := by
  simp only [closeBank_frame]

section
variable (i : BankId) (s : State) (empty : (s.banks.get i.other).state = .empty)
include empty

/-- In a station that is not live no bank opens, so no sequence number is taken. -/
theorem closeBank_stays (live : s.live = false) :
    (closeBank i s).banks.get i.other = s.banks.get i.other ∧ (closeBank i s).banks.seq = s.banks.seq := by
  rw [closeBank_reduces i s empty live]
  exact ⟨Banks.get_put_other _ _ _, Banks.put_seq _ _ _⟩

/-- In a live station the other bank opens under the next sequence number (R66, R73). -/
theorem closeBank_opened (live : s.live = true) :
    (closeBank i s).banks.get i.other = Bank.opened s.banks.seq (s.cfgNat StationConfig.period) ∧
      (closeBank i s).banks.seq = s.banks.seq + 1 := by
  rw [closeBank_opens i s empty live, openBank_record, openBank_seq, Banks.put_seq]
  exact ⟨rfl, rfl⟩

end

/-! ## The expiry of the deadline (R70, R71) -/

section
variable (i : BankId) (s : State)

/-- The state in which the deadline of a bank has run out, before the bank may close. -/
def deadlineOut : State := { s with banks := s.banks.put i { s.banks.get i with deadline := 0 } }

theorem deadlineOut_bank : (deadlineOut i s).banks.get i = { s.banks.get i with deadline := 0 } := Banks.get_put _ _ _

theorem deadlineOut_other : (deadlineOut i s).banks.get i.other = s.banks.get i.other := Banks.get_put_other _ _ _

theorem deadlineOut_seq : (deadlineOut i s).banks.seq = s.banks.seq := Banks.put_seq _ _ _

variable (accepts : (s.banks.get i).state = .accepting) (other : (s.banks.get i.other).state ≠ .accepting)
  (last : (s.banks.get i).deadline = 1)
include accepts other last

/-- The deadline of the ACCEPTING bank is at its last count, and the command is the banks' share of the boundary. -/
theorem exec_deadlineExpiry_last : exec .deadlineExpiry s = .next
    (if (s.banks.get i).inFlight = 0 then closeBank i (deadlineOut i s)
    else { s with banks := s.banks.put i { s.banks.get i with deadline := 0, closePending := true } }) := by
  have accepting := s.banks.accepting_eq i accepts other
  have runs : (s.banks.get i).deadline ≠ 0 := by rw [last]; exact one_ne_zero
  change execDeadlineExpiry s = _
  simp only [execDeadlineExpiry, banksBoundary, accepting, if_pos last, if_neg runs]
  rfl

/-- Without a shot in flight the bank closes. -/
theorem exec_deadlineExpiry_closes (lands : (s.banks.get i).inFlight = 0) :
    exec .deadlineExpiry s = .next (closeBank i (deadlineOut i s)) := by
  rw [exec_deadlineExpiry_last i s accepts other last, if_pos lands]

end

/-- Settles O13: with a shot in flight the close is pending, and without one it is that of the bank whose deadline has
run out. -/
theorem deadlineExpiryClosesTheBank : Obligations.DeadlineExpiryClosesTheBank := by
  intro s i accepts other last
  have bank := deadlineOut_bank i s
  have still := deadlineOut_other i s
  refine ⟨fun flies => ?_, fun lands reduces => ?_, fun lands before => ?_⟩
  · rw [exec_deadlineExpiry_last i s accepts other last, if_neg (by rw [flies]; exact one_ne_zero)]
  · rw [exec_deadlineExpiry_closes i s accepts other last lands,
      closeBank_waits i (deadlineOut i s) (by rw [still, reduces]; nofun), bank, deadlineOut, Banks.put_put]
  · have empty : ((deadlineOut i s).banks.get i.other).state = .empty := by rw [still, before]
    obtain ⟨red, record, _⟩ := closeBank_begins i (deadlineOut i s) empty
    rw [bank, reduce_expired] at red
    rw [bank] at record
    refine ⟨_, _, exec_deadlineExpiry_closes i s accepts other last lands, red, reduce_bank _ _ _ _,
      reduce_seq _ _ _ _, rfl, record, fun live => ?_, fun live => ?_, ?_⟩
    · obtain ⟨stays, seq⟩ := closeBank_stays i (deadlineOut i s) empty live
      exact ⟨stays.trans still, seq.trans (deadlineOut_seq i s)⟩
    · have opened := closeBank_opened i (deadlineOut i s) empty live
      rw [deadlineOut_seq] at opened
      exact opened
    · exact congrArg (fun t : State => { t with banks := s.banks }) (closeBank_rest i (deadlineOut i s))

end Sys2Proof.Machine
end

section
/-! SUPPORT. The completion of a capture: the shot held, delivered or dropped, and what a bank makes of a delivered shot
(R62..R65, R67, R69, R71, R73, R77). -/

namespace Sys2Proof.Machine

/-! ## A bank's record with a shot added (R67) -/

/-- The lower of two optional bins is one of them, and not above either. -/
theorem lowerBin_eq_some (x y : Option Nat) (n : Nat) (h : lowerBin x y = some n) :
    (x = some n ∨ y = some n) ∧ (∀ k, x = some k → n ≤ k) ∧ ∀ k, y = some k → n ≤ k := by
  match x, y with
  | none, y =>
    have only : y = some n := h
    exact ⟨.inr only, nofun, fun k hk => (Option.some.inj (only.symm.trans hk)).le⟩
  | some i, none =>
    have only : some i = some n := h
    exact ⟨.inl only, fun k hk => (Option.some.inj (only.symm.trans hk)).le, nofun⟩
  | some i, some j =>
    obtain rfl : min i j = n := Option.some.inj h
    simp only [Option.some.injEq, forall_eq']
    omega

theorem lowerBin_eq_none (x y : Option Nat) : lowerBin x y = none ↔ x = none ∧ y = none := by
  cases x <;> cases y <;> simp [lowerBin]

section
variable (range : List Sample)

/-- The lowest bin with a saturated sample of a shot (R67). -/
def saturatedBin : Option Nat := range.findIdx? (· == 4095#12)

theorem saturatedBin_saturated (n : Nat) (h : saturatedBin range = some n) : range[n]? = some 4095 := by
  obtain ⟨bound, saturated, _⟩ := List.findIdx?_eq_some_iff_getElem.1 h
  exact (List.getElem?_eq_getElem bound).trans (congrArg some (eq_of_beq saturated))

theorem saturatedBin_le (n k : Nat) (h : saturatedBin range = some n) (hk : range[k]? = some 4095) : n ≤ k := by
  obtain ⟨_, _, lowest⟩ := List.findIdx?_eq_some_iff_getElem.1 h
  obtain ⟨bound, saturated⟩ := List.getElem?_eq_some_iff.1 hk
  exact Nat.le_of_not_lt fun below => lowest k below (by rw [saturated]; rfl)

theorem saturatedBin_eq_none : saturatedBin range = none ↔ ∀ k : Nat, range[k]? ≠ some 4095 := by
  rw [saturatedBin, List.findIdx?_eq_none_iff]
  refine ⟨fun clear k hk => ?_, fun clear x hx => ?_⟩
  · exact absurd (clear _ (List.mem_of_getElem? hk)) (by decide)
  · obtain ⟨k, hk⟩ := List.getElem?_of_mem hx
    exact beq_eq_false_iff_ne.2 fun saturated => clear k (hk.trans (congrArg some saturated))

end

section
variable (b : Bank) (sh : Shot)

theorem Bank.addShot_lowSat : (b.addShot sh).lowSat = lowerBin b.lowSat (saturatedBin sh.range) := rfl

/-- Step 5 of R67: the lowest saturated bin is that of the bank so far and of the shot. -/
theorem Bank.addShot_lowSat_some (n : Nat) (h : (b.addShot sh).lowSat = some n) :
    (b.lowSat = some n ∨ sh.range[n]? = some 4095) ∧ (∀ k, b.lowSat = some k → n ≤ k) ∧
      ∀ k : Nat, sh.range[k]? = some 4095 → n ≤ k := by
  rw [addShot_lowSat] at h
  obtain ⟨one, bank, shot⟩ := lowerBin_eq_some _ _ n h
  refine ⟨one.imp_right (saturatedBin_saturated _ n), bank, fun k hk => ?_⟩
  cases found : saturatedBin sh.range with
  | none => exact absurd hk ((saturatedBin_eq_none _).1 found k)
  | some j => exact (shot j found).trans (saturatedBin_le _ j k found hk)

theorem Bank.addShot_lowSat_none :
    (b.addShot sh).lowSat = none ↔ b.lowSat = none ∧ ∀ k : Nat, sh.range[k]? ≠ some 4095 := by
  rw [addShot_lowSat, lowerBin_eq_none, saturatedBin_eq_none]

variable (bank : b.sums.length = 800) (range : sh.range.length = 800)
include bank range

theorem Bank.addShot_length : (b.addShot sh).sums.length = 800 := by
  simp [Bank.addShot, bank, range]

/-- Step 1 of R67: every bin's sum grows by the shot's sample of that bin. -/
theorem Bank.addShot_sum (n : Nat) (h : n < 800) :
    (b.addShot sh).sums[n]? = some (b.sums.getD n 0 + (sh.range.getD n 0).toNat) := by
  simp [Bank.addShot, bank, range, h]

theorem Bank.addShot_sums :
    (b.addShot sh).sums.length = 800 ∧
      ∀ n : Nat, n < 800 → (b.addShot sh).sums[n]? = some (b.sums.getD n 0 + (sh.range.getD n 0).toNat) :=
  ⟨b.addShot_length sh bank range, b.addShot_sum sh bank range⟩

end

theorem Bank.addShot_esum (b : Bank) (sh : Shot) (code : Nat) (h : sh.code = some code) :
    (b.addShot sh).esum = b.esum + code := by
  simp [Bank.addShot, h]

/-! ## The capture completed (R62, R63) -/

section
variable (samples : List Sample) (sh : Shot) (s : State)

/-- The shot with the samples that were still missing. -/
def Shot.filled : Shot := { sh with range := sh.range ++ samples }

/-- The state in which the last sample has been converted, before the shot may be complete. -/
def shotCaptured : State :=
  { s with
    front :=
      { s.front with
        pre := (s.front.pre ++ samples).drop ((s.front.pre ++ samples).length - 32)
        window := .holding
        shot := some (sh.filled samples)
        conversions := s.front.conversions + samples.length } }

/-- The state in which the ACCEPTING bank has taken the captured shot, before it may close (R67). -/
def captureDelivered : State :=
  { shotRemoved (shotCaptured samples sh s) with
    banks := s.banks.put sh.bank ((s.banks.get sh.bank).addShot (sh.filled samples)) }

theorem captureDelivered_bank : (captureDelivered samples sh s).banks.get sh.bank =
    (s.banks.get sh.bank).addShot (sh.filled samples) := Banks.get_put _ _ _

theorem captureDelivered_other :
    (captureDelivered samples sh s).banks.get sh.bank.other = s.banks.get sh.bank.other := Banks.get_put_other _ _ _

theorem captureDelivered_seq : (captureDelivered samples sh s).banks.seq = s.banks.seq := Banks.put_seq _ _ _

theorem completeShot_of_not_taken (shot : s.front.shot = some sh) (still : sh.readingTaken s.laser.driver = false) :
    completeShot s = s := by
  rw [completeShot, shot]
  exact if_neg fun ⟨_, taken⟩ => Bool.false_ne_true (still.symm.trans taken)

variable (shot : s.front.shot = some sh) (capturing : s.front.window = .capturing)
  (fills : sh.range.length + samples.length = 800)
include shot capturing fills

/-- A command that carries the samples still missing brings no free ones (log 4). -/
theorem captureRest_of_missing : captureRest samples s = convert samples s := by
  have missing : Config.bins - sh.range.length = samples.length := by simp only [Config.bins]; omega
  simp only [captureRest, shot, capturing, missing, List.take_length, Nat.sub_self, freeSamples, List.append_nil]

/-- The conversions up to bin 799 bring the capture to its end, which may complete the shot. -/
theorem convert_of_missing : convert samples s = completeShot (shotCaptured samples sh s) := by
  have whole : (sh.range ++ samples).length = Config.bins := List.length_append.trans fills
  have all : (sh.range ++ samples).take Config.bins = sh.range ++ samples := List.take_of_length_le whole.le
  simp only [convert, shot, capturing, all, whole, if_true]
  rfl

theorem exec_capture_fills :
    exec (.rangeCaptureComplete samples) s = .next (completeShot (shotCaptured samples sh s)) := by
  change Host.Outcome.next (captureRest samples s) = _
  rw [captureRest_of_missing samples sh s shot capturing fills, convert_of_missing samples sh s shot capturing fills]

/-- After the reading the shot's record is removed, and a shot to be accumulated delivered. -/
theorem exec_capture_completes (taken : sh.readingTaken s.laser.driver = true) :
    exec (.rangeCaptureComplete samples) s = .next
      (if sh.disposition = .accumulate then
        accumulateShot (sh.filled samples) (shotRemoved (shotCaptured samples sh s))
      else shotRemoved (shotCaptured samples sh s)) := by
  rw [exec_capture_fills samples sh s shot capturing fills]
  exact congrArg _ (completeShot_of_taken (shotCaptured samples sh s) (sh.filled samples) rfl rfl taken)

section
variable (read : sh.code ≠ none) (accumulate : sh.disposition = .accumulate)
include read accumulate

theorem exec_capture_delivers : exec (.rangeCaptureComplete samples) s = .next
    (accumulateShot (sh.filled samples) (shotRemoved (shotCaptured samples sh s))) := by
  have taken : sh.readingTaken s.laser.driver = true := by
    rw [Shot.readingTaken, Option.isSome_iff_ne_none.2 read]; rfl
  rw [exec_capture_completes samples sh s shot capturing fills taken, if_pos accumulate]

variable (accepts : (s.banks.get sh.bank).state = .accepting)
include accepts

/-- The bank takes the captured shot and goes on, short of N shots and with no close pending. -/
theorem exec_capture_goes_on (short : (s.banks.get sh.bank).m + 1 ≠ s.profileShots)
    (free : (s.banks.get sh.bank).closePending = false) :
    exec (.rangeCaptureComplete samples) s = .next (captureDelivered samples sh s) := by
  rw [exec_capture_delivers samples sh s shot capturing fills read accumulate]
  exact congrArg _ (accumulateShot_goes_on (shotRemoved (shotCaptured samples sh s)) _ accepts short free)

/-- The last shot of a bank closes it with the shot delivered. -/
theorem exec_capture_closes
    (last : (s.banks.get sh.bank).m + 1 = s.profileShots ∨ (s.banks.get sh.bank).closePending = true) :
    exec (.rangeCaptureComplete samples) s = .next (closeBank sh.bank (captureDelivered samples sh s)) := by
  rw [exec_capture_delivers samples sh s shot capturing fills read accumulate]
  exact congrArg _ (accumulateShot_closes (shotRemoved (shotCaptured samples sh s)) _ accepts last)

end

end

/-! ## The statements -/

/-- Settles O22: no reading has come, so the captured shot is held. -/
theorem captureCompleteHoldsTheShot : Obligations.CaptureCompleteHoldsTheShot := by
  intro samples s sh shot capturing unread no_dud flies fills
  have still : (sh.filled samples).readingTaken s.laser.driver = false := by
    cases disposition : sh.disposition with
    | accumulate => simp [Shot.readingTaken, Shot.filled, unread, disposition]
    | dud => exact absurd disposition no_dud
    | discard => simp [Shot.readingTaken, Shot.filled, unread, disposition, flies disposition]
  rw [exec_capture_fills samples sh s shot capturing fills,
    completeShot_of_not_taken (sh.filled samples) (shotCaptured samples sh s) rfl still]
  rfl

/-- Settles O23: the bank goes on, waits CLOSED or begins REDUCING with the shot delivered; a dud or discarded shot is
removed; and what a shot adds to a record, item by item. -/
theorem captureCompleteAccumulatesTheShot : Obligations.CaptureCompleteAccumulatesTheShot := by
  refine ⟨fun samples s sh b code shot capturing read accumulate fills hb accepts sums short free => ?_,
    fun samples s sh b code shot capturing read accumulate fills hb accepts last => ?_,
    fun samples s sh shot capturing fills dropped => ?_, fun b sh => ?_⟩
  · subst hb
    have whole : (sh.filled samples).range.length = 800 := List.length_append.trans fills
    obtain ⟨length, sum⟩ := (s.banks.get sh.bank).addShot_sums (sh.filled samples) sums whole
    refine ⟨_, _, exec_capture_goes_on samples sh s shot capturing fills (by rw [read]; nofun) accumulate accepts
      short free, rfl, rfl, rfl, sum, rfl, rfl, rfl, length, rfl, ?_, rfl, rfl, accepts, rfl, rfl, rfl⟩
    exact (s.banks.get sh.bank).addShot_esum (sh.filled samples) code read
  · subst hb
    have closes := exec_capture_closes samples sh s shot capturing fills (by rw [read]; nofun) accumulate accepts last
    have bank := captureDelivered_bank samples sh s
    have other := captureDelivered_other samples sh s
    refine ⟨fun behind => ⟨_, closes, ?_⟩, fun before => ?_⟩
    · rw [closeBank_waits sh.bank (captureDelivered samples sh s) (by rw [other, behind]; nofun), bank]
      rw [Banks.get_put, Banks.get_put_other, other]
      exact ⟨rfl, rfl, rfl, rfl, rfl, rfl⟩
    · obtain ⟨red, record, live, still⟩ :=
        closeBank_begins sh.bank (captureDelivered samples sh s) (by rw [other, before])
      rw [bank] at red record
      rw [captureDelivered_seq] at live
      rw [other] at still
      refine ⟨_, _, closes, red, reduce_bank _ _ _ _, rfl, ?_, ?_, ?_, ?_, live, still⟩ <;> rw [record] <;> rfl
  · have accumulates : sh.disposition ≠ .accumulate := by
      rcases dropped with dud | ⟨discard, _⟩
      · rw [dud]; nofun
      · rw [discard]; nofun
    have taken : sh.readingTaken s.laser.driver = true := by
      rcases dropped with dud | ⟨discard, read | left⟩
      · simp [Shot.readingTaken, dud]
      · simp [Shot.readingTaken, Option.isSome_iff_ne_none.2 read]
      · simp [Shot.readingTaken, discard, left]
    rw [exec_capture_completes samples sh s shot capturing fills taken, if_neg accumulates]
    rfl
  · exact ⟨b.addShot_sums sh, rfl, b.addShot_esum sh, rfl, rfl, rfl, rfl, rfl, rfl, b.addShot_lowSat_some sh,
      b.addShot_lowSat_none sh⟩

end Sys2Proof.Machine
end

section
/-! SUPPORT. The end of a reduction: the tracker's own update, its REPORT, and the handoff of the banks (R66, R74, R80,
R81, R118, R133, R134). -/

namespace Sys2Proof.Machine

/-! ## The REPORT (R133) -/

theorem heightWord_eq (h : Option Nat) : heightWord h = (h.map (BitVec.ofNat 16)).getD 0xFFFF := by cases h <;> rfl

/-- The layer of a track, with its heights as the words of the line and its peers counted. -/
theorem layerOf_eq (x : Track) : layerOf x =
    { id := x.id, base := BitVec.ofNat 16 x.base, top := (x.top.map (BitVec.ofNat 16)).getD 0xFFFF,
      cover := BitVec.ofNat 4 x.cover, peerOnly := decide (x.origin = .peerOnly), spare := 0,
      peers := BitVec.ofNat 8 ((List.range 16).countP (fun n => x.peers.getLsbD n)) } := by
  rw [layerOf, heightWord_eq]
  rfl

/-- A REPORT holds one layer for each track, in the order of the table. -/
theorem composeReport_layer (r : ResultRecord) (k : Tracker) (halted : Bool) (j : Nat) (x : Track)
    (h : k.tracks[j]? = some x) : (composeReport r k halted).layers[j]? = some (layerOf x) :=
  (List.getElem?_map ..).trans (congrArg (Option.map layerOf) h)

/-! ## The own update (R118, R134) -/

section
variable (r : ResultRecord) (s : State)

/-- The table of the tracker after the own update, before a REPORT empties the peer sets. -/
def updatedTracker : Tracker := s.tracker.ownUpdate (s.cfgNat StationConfig.mMin) r

/-- In a live station the REPORT is queued, and the peer sets are then emptied and the overflow flag cleared. -/
theorem ownUpdate_of_live (live : s.live = true) : ownUpdate r s =
    { s with
      tracker := (updatedTracker r s).afterReport
      line := s.line.queueReport (composeReport r (updatedTracker r s) (s.loader.station == .haltedDuplicate)) } :=
  if_pos live

theorem ownUpdate_of_not_live (live : s.live = false) :
    ownUpdate r s = { s with tracker := updatedTracker r s } :=
  if_neg (Bool.eq_false_iff.1 live)

theorem ownUpdate_live : (ownUpdate r s).live = s.live := by simp [State.live]

end

theorem BankId.eq_or_eq_other (i j : BankId) : j = i ∨ j = i.other := by cases i <;> cases j <;> simp [BankId.other]

/-! ## The handoff of reduction complete (R66, R74, R80, R81) -/

section
variable (i : BankId) (s : State)

/-- The state in which the reduced bank is EMPTY and the reduction unit IDLE, before the handoff. -/
def bankEmptied : State := { s with banks := s.banks.put i Bank.blank, red := none }

theorem bankEmptied_bank : (bankEmptied i s).banks.get i = Bank.blank := Banks.get_put _ _ _

theorem bankEmptied_other : (bankEmptied i s).banks.get i.other = s.banks.get i.other := Banks.get_put_other _ _ _

theorem bankEmptied_seq : (bankEmptied i s).banks.seq = s.banks.seq := Banks.put_seq _ _ _

theorem endReduction_beside_accepting (h : (s.banks.get i.other).state = .accepting) :
    endReduction i s = bankEmptied i s := by
  simp only [endReduction, h]
  rfl

theorem endReduction_beside_closed (h : (s.banks.get i.other).state = .closed) : endReduction i s =
    if s.live then openBank i (startReduction i.other (bankEmptied i s))
    else startReduction i.other (bankEmptied i s) := by
  simp only [endReduction, h]
  rfl

theorem endReduction_beside_empty (h : (s.banks.get i.other).state = .empty) : endReduction i s =
    if s.live then openBank .a (bankEmptied i s) else bankEmptied i s := by
  simp only [endReduction, h]
  rfl

/-- The end of a reduction changes the banks and the reduction unit alone. -/
theorem endReduction_rest : { endReduction i s with banks := s.banks, red := s.red } = s := by
  simp only [endReduction_frame]

/-- As the next reduction starts, the CLOSED bank is REDUCING as it closed and the emptied one still EMPTY (R80). -/
theorem startReduction_next :
    (startReduction i.other (bankEmptied i s)).red =
        some (reduce s.loader.cfg s.calendar.peers i.other (s.banks.get i.other)) ∧
      (startReduction i.other (bankEmptied i s)).banks.get i.other =
        { s.banks.get i.other with state := .reducing } ∧
      (startReduction i.other (bankEmptied i s)).banks.get i = Bank.blank ∧
      (startReduction i.other (bankEmptied i s)).banks.seq = s.banks.seq := by
  simp only [startReduction, State.banks_setRed, State.banks_mapBanks, State.red_setRed, Banks.get_put,
    Banks.get_put_other', bankEmptied_other, bankEmptied_bank, Banks.put_seq, bankEmptied_seq]
  exact ⟨rfl, trivial, trivial, trivial⟩

/-- A CLOSED other bank begins REDUCING, to be reduced as it closed, and in a live station the emptied one opens. -/
theorem endReduction_begins (h : (s.banks.get i.other).state = .closed) :
    (endReduction i s).red = some (reduce s.loader.cfg s.calendar.peers i.other (s.banks.get i.other)) ∧
      ((endReduction i s).banks.get i.other).state = .reducing ∧
      (s.live = true →
        (endReduction i s).banks.get i = Bank.opened s.banks.seq (s.cfgNat StationConfig.period)) ∧
      (s.live = false → (endReduction i s).banks.get i = Bank.blank) := by
  obtain ⟨red, other, bank, seq⟩ := startReduction_next i s
  rw [endReduction_beside_closed i s h]
  cases live : s.live with
  | true =>
    refine ⟨red, ?_, fun _ => ?_, nofun⟩
    · rw [if_pos rfl, openBank_other, other]
    · rw [if_pos rfl, openBank_record, seq]
      rfl
  | false => exact ⟨red, congrArg Bank.state other, nofun, fun _ => bank⟩

/-- Beside an EMPTY bank the emptied one leaves both EMPTY, and in a live station bank A opens. -/
theorem endReduction_leaves_empty (h : (s.banks.get i.other).state = .empty) :
    (endReduction i s).banks.a.state = (if s.live then .accepting else .empty) ∧
      (endReduction i s).banks.b.state = .empty ∧ (endReduction i s).red = none := by
  have bank : ((bankEmptied i s).banks.get i).state = .empty := by rw [bankEmptied_bank]; rfl
  have other : ((bankEmptied i s).banks.get i.other).state = .empty := by rw [bankEmptied_other, h]
  have both : ∀ j, ((bankEmptied i s).banks.get j).state = .empty := by
    intro j
    rcases i.eq_or_eq_other j with rfl | rfl
    · exact bank
    · exact other
  rw [endReduction_beside_empty i s h]
  cases s.live with
  | true => exact ⟨rfl, both .b, rfl⟩
  | false => exact ⟨both .a, both .b, rfl⟩

end

/-- Settles O29: the own update with its REPORT, and the handoff by the state of the other bank. -/
theorem reductionCompleteUpdatesAndHandsOff : Obligations.ReductionCompleteUpdatesAndHandsOff := by
  intro s r busy
  have done : exec .reductionComplete s = .next (endReduction r.bank (ownUpdate r.result s)) := by
    change execReductionComplete s = _
    rw [execReductionComplete, busy]
  obtain ⟨_, calendar, _, _, _, banks, _, loader, _⟩ := ownUpdate_frame s r.result
  obtain ⟨_, _, _, _, _, tracker, line, _⟩ := endReduction_frame (ownUpdate r.result s) r.bank
  have begins := endReduction_begins r.bank (ownUpdate r.result s)
  have empties := endReduction_leaves_empty r.bank (ownUpdate r.result s)
  rw [ownUpdate_live, banks] at begins empties
  rw [calendar, loader] at begins
  refine ⟨_, updatedTracker r.result s, done, rfl, fun live => ?_, fun live => ?_, fun accepts => ?_,
    fun closed => (begins closed).1, fun closed live => ?_, fun closed live => ?_, fun empty live => ?_,
    fun empty live => ?_, ?_⟩
  · rw [tracker, line, ownUpdate_of_live r.result s live]
    refine ⟨rfl, rfl, _, rfl, rfl, rfl, heightWord_eq _, heightWord_eq _, heightWord_eq _, List.length_map _,
      fun j x hx => ?_⟩
    rw [composeReport_layer _ _ _ j x hx, layerOf_eq]
  · rw [tracker, line, ownUpdate_of_not_live r.result s live]
    exact ⟨rfl, rfl⟩
  · rw [endReduction_beside_accepting r.bank (ownUpdate r.result s) (by rw [banks, accepts]), bankEmptied_bank,
      bankEmptied_other, banks]
    exact ⟨rfl, rfl, rfl⟩
  · obtain ⟨red, other, opens, _⟩ := begins closed
    rw [opens live, red]
    exact ⟨other, rfl, rfl, congrArg some (reduce_bank _ _ _ _)⟩
  · obtain ⟨_, other, _, blank⟩ := begins closed
    rw [blank live]
    exact ⟨other, rfl⟩
  · simpa only [live, if_true] using empties empty
  · simpa only [live, Bool.false_eq_true, if_false] using empties empty
  · simp only [endReduction_frame, ownUpdate_frame]

end Sys2Proof.Machine
end

section
/-! SUPPORT. Profile reduction: the arithmetic of the profile, the limit of six candidates, the suspect marks, and the
result of a closed bank (R80, R82, R86..R95, R102, R103, R105..R111). -/

namespace Sys2Proof.Machine

/-! ## The rounded quotient (R90, R91) -/

/-- The magnitude of a rounded quotient: to the nearest integer, halves up. -/
def nearestQuotient (a q : Nat) : Nat := if 2 * (a % q) < q then a / q else a / q + 1

/-- The magnitude of a numerator is rounded, and its sign taken again. -/
theorem roundAway_eq (x : Int) (q : Nat) :
    roundAway x q = if x < 0 then -(nearestQuotient x.natAbs q : Int) else nearestQuotient x.natAbs q := by
  rw [nearestQuotient, Nat.cast_ite]
  rfl

theorem roundAway_natCast (a q : Nat) : roundAway a q = nearestQuotient a q := by
  rw [roundAway_eq, if_neg (Int.not_lt.2 (Int.natCast_nonneg a)), Int.natAbs_natCast]

/-- `a` lies at most half a divisor below the multiple of its nearest quotient, and less than half a divisor above it:
an exact half goes up. -/
theorem nearestQuotient_bounds (a q : Nat) (hq : 0 < q) :
    2 * (nearestQuotient a q * q) ≤ 2 * a + q ∧ 2 * a < 2 * (nearestQuotient a q * q) + q := by
  have division : a / q * q + a % q = a := Nat.div_add_mod' a q
  have remainder : a % q < q := Nat.mod_lt a hq
  unfold nearestQuotient
  split
  · omega
  · rw [Nat.add_mul, Nat.one_mul]
    omega

/-- A numerator and its negation are rounded to opposite values. -/
theorem roundAway_neg (x : Int) (q : Nat) (hq : 0 < q) : roundAway (-x) q = -roundAway x q := by
  rcases Int.lt_trichotomy x 0 with negative | rfl | positive
  · rw [roundAway_eq, roundAway_eq, if_neg (by omega), if_pos negative, Int.natAbs_neg, Int.neg_neg]
  · have zero : roundAway 0 q = 0 := by simp [roundAway, hq]
    rw [Int.neg_zero, zero, Int.neg_zero]
  · rw [roundAway_eq, roundAway_eq, if_pos (by omega), if_neg (by omega), Int.natAbs_neg]

/-- `i` is `x / q` to the nearest integer, and an exact half goes to the greater magnitude. -/
def NearestAway (x i q : Int) : Prop :=
  2 * |i * q - x| ≤ q ∧ (2 * |i * q - x| = q → |x| < |i| * q)

theorem NearestAway.neg {x i q : Int} (h : NearestAway x i q) : NearestAway (-x) (-i) q := by
  have distance : |-i * q - -x| = |i * q - x| := by rw [Int.neg_mul, ← neg_sub', abs_neg]
  unfold NearestAway
  rwa [distance, abs_neg, abs_neg]

theorem nearestAway_roundAway_natCast (a q : Nat) (hq : 0 < q) : NearestAway a (roundAway a q) q := by
  obtain ⟨above, below⟩ := nearestQuotient_bounds a q hq
  rw [roundAway_natCast, NearestAway, Nat.abs_cast, Nat.abs_cast, ← Int.natCast_mul, Int.abs_eq_natAbs]
  omega

theorem nearestAway_roundAway (x : Int) (q : Nat) (hq : 0 < q) : NearestAway x (roundAway x q) q := by
  obtain ⟨a, rfl | rfl⟩ := x.eq_nat_or_neg
  · exact nearestAway_roundAway_natCast a q hq
  · rw [roundAway_neg _ q hq]
    exact (nearestAway_roundAway_natCast a q hq).neg

theorem clampIntensity_eq (i : Int) : clampIntensity i = max (-4194304) (min 4194303 i) := by
  unfold clampIntensity
  split
  · omega
  · split <;> omega

/-- Settles O24: a quotient is rounded by its magnitude, and a negative one as the negation of a positive one. -/
theorem normalizedIntensityIsRoundedAndClamped : Obligations.NormalizedIntensityIsRoundedAndClamped := by
  intro esum n net numerator pos hnum
  have divisor : 0 < esum * 16 := by omega
  obtain ⟨near, half⟩ := nearestAway_roundAway numerator (esum * 16) divisor
  refine ⟨roundAway numerator (esum * 16), ?_, ?_, rfl, roundAway_neg numerator _ divisor, ?_⟩
  · exact_mod_cast near
  · exact_mod_cast half
  · rw [intensityOf, clampIntensity_eq, hnum]

/-! ## Background, noise floor and classes (R87, R92, R93, R94) -/

theorem background_bounds (bg : Nat) : 32 * background bg ≤ bg + 16 ∧ bg + 16 < 32 * background bg + 32 := by
  unfold background
  omega

theorem one_le_noiseFloor (net : List Int) : 1 ≤ noiseFloor net := Nat.le_max_left ..

/-- The bins above 735 of a profile are its bins 736..799. -/
theorem drop_736_eq_map_range (net : List Int) (h : net.length = 800) :
    net.drop 736 = (List.range 64).map fun j => net.getD (736 + j) 0 := by
  apply List.ext_getElem
  · simp [h]
  · intro j _ hj
    have bound : 736 + j < net.length := by
      rw [List.length_map, List.length_range] at hj
      omega
    simp [List.getElem?_eq_getElem bound]

theorem noiseFloor_eq (net : List Int) (h : net.length = 800) : noiseFloor net =
    max 1 ((((List.range 64).map fun j => (net.getD (736 + j) 0).natAbs).sum + 32) / 64) := by
  rw [noiseFloor, drop_736_eq_map_range net h, List.map_map]
  rfl

theorem classOf_eq_strong_iff (tMin fraw : Nat) (net i : Int) :
    classOf tMin fraw net i = .strong ↔ 4 * (fraw : Int) ≤ net ∧ (tMin : Int) ≤ i := by
  unfold classOf
  split
  case isTrue strong => exact iff_of_true rfl strong
  case isFalse notStrong => exact iff_of_false (by split <;> simp) notStrong

/-- A bin under either threshold of R94 is weak: with thresholds above 0 it misses one of R93 too. -/
theorem classOf_eq_weak_iff (tMin fraw : Nat) (net i : Int) (hf : 1 ≤ fraw) (ht : 1 ≤ tMin) :
    classOf tMin fraw net i = .weak ↔ net < 2 * (fraw : Int) ∨ i < (((tMin + 1) / 2 : Nat) : Int) := by
  unfold classOf
  split
  case isTrue strong => exact iff_of_false (by simp) (by omega)
  case isFalse =>
    split
    case isTrue weak => exact iff_of_true rfl weak
    case isFalse notWeak => exact iff_of_false (by simp) notWeak

/-- Settles O25: the rounding of R87, the 64 bins of R92, and the two thresholds of each class. -/
theorem backgroundFloorAndClasses : Obligations.BackgroundFloorAndClasses :=
  ⟨background_bounds, noiseFloor_eq, fun tMin fraw net i hf ht =>
    ⟨classOf_eq_strong_iff tMin fraw net i, classOf_eq_weak_iff tMin fraw net i hf ht⟩⟩

/-! ## The limit of six candidates (R102, R103) -/

/-- A scan within the limit: at most six candidates, and an open run that would be a further one has its place. -/
def Scan.WithinLimit (n0 : Nat) (k : Scan) : Prop :=
  k.candidates.length ≤ 6 ∧
    (k.mode = .inRun → ∀ r, k.openRun = some r → r.base = n0 ∨ k.candidates.length < 6)

section
variable (n0 b : Nat) (c : BinClass) (i : Int) (rest : List (BinClass × Int)) (k : Scan)

/-- A scan outside a run is within the limit by its candidates alone. -/
theorem Scan.withinLimit_of_not_inRun {n0 : Nat} {k : Scan} (few : k.candidates.length ≤ 6) (h : k.mode ≠ .inRun) :
    k.WithinLimit n0 :=
  ⟨few, fun inRun => absurd inRun h⟩

@[simp] theorem Run.addBin_base (r : Run) : (r.addBin b i).base = r.base := by
  unfold Run.addBin
  split <;> rfl

@[simp] theorem Run.addBins_base (bins : List (BinClass × Int)) (b : Nat) (r : Run) :
    (Run.addBins b bins r).base = r.base := by
  induction bins generalizing b r with
  | nil => rfl
  | cons bin rest ih => rw [Run.addBins, ih, Run.addBin_base]

theorem Scan.record_candidates_length_le (r : Run) (few : k.candidates.length ≤ 6)
    (place : r.base = n0 ∨ k.candidates.length < 6) : (k.record n0 r).candidates.length ≤ 6 := by
  unfold Scan.record
  split
  case isTrue => exact few
  case isFalse candidate =>
    have room := place.resolve_left candidate
    rw [List.length_append]
    exact room

theorem Scan.atBin_withinLimit (h : k.WithinLimit n0) : (k.atBin n0 b c i rest).WithinLimit n0 := by
  obtain ⟨few, place⟩ := h
  unfold Scan.atBin
  split
  case h_1 => exact ⟨few, place⟩
  case h_2 =>
    split
    · exact withinLimit_of_not_inRun few nofun
    · exact withinLimit_of_not_inRun few nofun
  case h_3 mode =>
    split
    · exact withinLimit_of_not_inRun few nofun
    split
    · split
      case isTrue => exact withinLimit_of_not_inRun few nofun
      case isFalse starts =>
        refine ⟨few, fun _ r hr => ?_⟩
        obtain rfl := Option.some.inj hr
        exact (Decidable.not_and_iff_or_not.1 starts).imp Decidable.not_not.1 Nat.lt_of_not_le
    · exact withinLimit_of_not_inRun few (by rw [mode]; nofun)
  case h_4 inRun =>
    split
    · exact withinLimit_of_not_inRun few nofun
    next r hr =>
      have place := place inRun r hr
      split
      · refine withinLimit_of_not_inRun (record_candidates_length_le n0 k _ few ?_) nofun
        rwa [Run.addBins_base]
      split
      · exact withinLimit_of_not_inRun (record_candidates_length_le n0 k _ few place) nofun
      · refine ⟨few, fun _ x hx => ?_⟩
        obtain rfl := Option.some.inj hx
        rwa [Run.addBin_base]

theorem Scan.bins_withinLimit (bins : List (BinClass × Int)) (b : Nat) (k : Scan) (h : k.WithinLimit n0) :
    (Scan.bins n0 b bins k).WithinLimit n0 := by
  induction bins generalizing b k with
  | nil =>
    rw [Scan.bins]
    split
    · exact h
    · exact withinLimit_of_not_inRun h.1 nofun
  | cons bin rest ih => exact ih _ _ (atBin_withinLimit n0 b bin.1 bin.2 rest k h)

end

/-- A scan records at most six candidates, whatever the classes. -/
theorem scanProfile_candidates_length_le (n0 : Nat) (classes : List BinClass) (intensity : List Int) :
    (scanProfile n0 classes intensity).candidates.length ≤ 6 :=
  have start : (Scan.start n0).WithinLimit n0 := Scan.withinLimit_of_not_inRun (Nat.zero_le 6) nofun
  (Scan.bins_withinLimit n0 _ n0 _ start).1

/-! ## The suspect mark and the crossing bins (R82, R109) -/

/-- The crossing bins of the entries, all that a reduction takes from the crossing peer table. -/
def crossingBins (peers : List PeerEntry) : List (Nat × Nat) := peers.map fun e => (e.lo, e.hi)

section
variable (suspects : IndexSet) (r : Run)

/-- A run is suspect by the entries from index `j` on when it meets the crossing bins of one in the suspect set. -/
theorem suspectFrom_iff (j : Nat) (peers : List PeerEntry) : suspectFrom suspects r j peers = true ↔
    ∃ (k : Nat) (e : PeerEntry), suspects.getLsbD (j + k) = true ∧ peers[k]? = some e ∧ r.base ≤ e.hi ∧
      e.lo ≤ r.top.getD 799 := by
  induction peers generalizing j with
  | nil => exact iff_of_false nofun (by simp)
  | cons e rest ih =>
    rw [suspectFrom, Bool.or_eq_true, Bool.and_eq_true, Run.meets, decide_eq_true_eq, ih]
    constructor
    · rintro (⟨suspect, base, top⟩ | ⟨k, x, suspect, entry, base, top⟩)
      · exact ⟨0, e, suspect, rfl, base, top⟩
      · exact ⟨k + 1, x, by rwa [Nat.add_comm k, ← Nat.add_assoc], entry, base, top⟩
    · rintro ⟨_ | k, x, suspect, entry, base, top⟩
      · obtain rfl := Option.some.inj entry
        exact .inl ⟨suspect, base, top⟩
      · exact .inr ⟨k, x, by rwa [Nat.add_assoc, Nat.add_comm 1], entry, base, top⟩

theorem suspectFrom_congr (j : Nat) (peers others : List PeerEntry)
    (same : crossingBins others = crossingBins peers) :
    suspectFrom suspects r j others = suspectFrom suspects r j peers := by
  induction peers generalizing j others with
  | nil => rw [List.map_eq_nil_iff.1 same]
  | cons e rest ih =>
    obtain ⟨x, tail, rfl, bins, sameTail⟩ := List.map_eq_cons_iff.1 same
    obtain ⟨lo, hi⟩ := Prod.mk.inj bins
    rw [suspectFrom, suspectFrom, lo, hi, ih (j + 1) tail sameTail]

end

/-- A candidate is suspect when its run meets the crossing bins of an entry in the suspect peer set. -/
theorem candidateOf_suspect_iff (elevation tilt : Nat) (suspects : IndexSet) (peers : List PeerEntry) (r : Run) :
    (candidateOf elevation tilt suspects peers r).suspect = true ↔
      ∃ (k : Nat) (e : PeerEntry), suspects.getLsbD k = true ∧ peers[k]? = some e ∧ r.base ≤ e.hi ∧
        e.lo ≤ r.top.getD 799 :=
  (suspectFrom_iff suspects r 0 peers).trans (by simp only [Nat.zero_add])

theorem candidateOf_congr (elevation tilt : Nat) (suspects : IndexSet) (peers others : List PeerEntry)
    (same : crossingBins others = crossingBins peers) :
    candidateOf elevation tilt suspects others = candidateOf elevation tilt suspects peers := by
  funext r
  rw [candidateOf, candidateOf, suspectFrom_congr suspects r 0 peers others same]

/-! ## The working profile (R87, R88, R89, R93, R94) -/

@[simp] theorem intensitiesFrom_length (esum : Nat) (net : List Int) (n : Nat) :
    (intensitiesFrom esum n net).length = net.length := by
  induction net generalizing n with
  | nil => rfl
  | cons x rest ih => exact congrArg Nat.succ (ih (n + 1))

/-- The intensity of the bin at index `j` of the bins from `n` on is that of its net signal at bin n + j. -/
theorem intensitiesFrom_getElem? (esum : Nat) (net : List Int) (n j : Nat) :
    (intensitiesFrom esum n net)[j]? = net[j]?.map (intensityOf esum (n + j)) := by
  induction net generalizing n j with
  | nil => rfl
  | cons x rest ih =>
    cases j with
    | zero => rfl
    | succ j => exact (ih (n + 1) j).trans (by rw [Nat.add_assoc, Nat.add_comm 1]; rfl)

section
variable (c : StationConfig) (b : Bank)

@[simp] theorem workOf_net_length : (workOf c b).net.length = b.sums.length := List.length_map ..

@[simp] theorem workOf_intensity_length : (workOf c b).intensity.length = b.sums.length :=
  (intensitiesFrom_length ..).trans (workOf_net_length c b)

@[simp] theorem workOf_classes_length : (workOf c b).classes.length = b.sums.length := by
  change (((workOf c b).net.zip (workOf c b).intensity).map _).length = _
  simp

variable (n x : Nat) (h : b.sums[n]? = some x)
include h

theorem workOf_net_getElem? : (workOf c b).net[n]? = some ((x : Int) - (workOf c b).background) :=
  (List.getElem?_map ..).trans (congrArg _ h)

theorem workOf_intensity_getElem? :
    (workOf c b).intensity[n]? = some (intensityOf b.esum n ((x : Int) - (workOf c b).background)) := by
  change (intensitiesFrom b.esum 0 (workOf c b).net)[n]? = _
  rw [intensitiesFrom_getElem?, workOf_net_getElem? c b n x h, Nat.zero_add]
  rfl

theorem workOf_classes_getElem? : (workOf c b).classes[n]? =
    some (classOf c.tMin (workOf c b).fraw ((x : Int) - (workOf c b).background)
      (intensityOf b.esum n ((x : Int) - (workOf c b).background))) := by
  change (((workOf c b).net.zip (workOf c b).intensity).map _)[n]? = _
  rw [List.getElem?_map, List.getElem?_zip_eq_some (z := (_, _)) |>.2
    ⟨workOf_net_getElem? c b n x h, workOf_intensity_getElem? c b n x h⟩]
  rfl

end

/-! ## The result record (R86, R102, R105, R108) -/

section
variable (c : StationConfig) (peers : List PeerEntry) (i : BankId) (b : Bank) (w : Work)

theorem fullResult_congr (others : List PeerEntry) (same : crossingBins others = crossingBins peers) :
    fullResult c others b w = fullResult c peers b w := by
  rw [fullResult, fullResult, candidateOf_congr c.elevation c.tilt b.suspects peers others same]

theorem fullResult_of_not_obscured (h : w.scan.obscuring = none) :
    (fullResult c peers b w).obscured = false ∧ (fullResult c peers b w).fullyObscured = false ∧
      (fullResult c peers b w).visibility = none := by
  simp [fullResult, h]

theorem fullResult_of_obscured (x : Run) (h : w.scan.obscuring = some x) :
    (fullResult c peers b w).obscured = true ∧ (fullResult c peers b w).fullyObscured = x.top.isNone ∧
      (fullResult c peers b w).visibility = x.top.map (datumHeight c.elevation c.tilt) := by
  simp [fullResult, h]

/-- A fully obscured profile is obscured and has no visibility: its obscuring run has no top (R105). -/
theorem fullResult_fullyObscured (h : (fullResult c peers b w).fullyObscured = true) :
    (fullResult c peers b w).obscured = true ∧ (fullResult c peers b w).visibility = none := by
  cases run : w.scan.obscuring with
  | none => simp [fullResult_of_not_obscured c peers b w run] at h
  | some x =>
    obtain ⟨obscured, fully, visibility⟩ := fullResult_of_obscured c peers b w x run
    rw [fully, Option.isNone_iff_eq_none] at h
    exact ⟨obscured, by rw [visibility, h]; rfl⟩

theorem fullResult_more_iff : (fullResult c peers b w).more = true ↔ w.scan.cause = some .limit := beq_iff_eq

@[simp] theorem fullResult_candidates_length :
    (fullResult c peers b w).candidates.length = w.scan.candidates.length := List.length_map ..

/-- The candidate of a run stands at the place of the run, with its heights, its peak and its suspect mark. -/
theorem fullResult_candidate (j : Nat) (x : Run) (h : w.scan.candidates[j]? = some x) :
    (fullResult c peers b w).candidates[j]? = some (candidateOf c.elevation c.tilt b.suspects peers x) :=
  (List.getElem?_map ..).trans (congrArg _ h)

/-! ## The reduction (R80, R82, R86) -/

theorem reduce_of_thin (h : b.m < 2 ^ c.exponent / 4) :
    reduce (some c) peers i b = { bank := i, work := none, result := thinResult b } :=
  if_pos (decide_eq_true h)

theorem reduce_of_not_thin (h : 2 ^ c.exponent / 4 ≤ b.m) :
    reduce (some c) peers i b =
      { bank := i, work := some (workOf c b), result := fullResult c peers b (workOf c b) } :=
  if_neg fun thin => Nat.not_lt.2 h (of_decide_eq_true thin)

/-- A reduction takes nothing but the crossing bins from the crossing peer table (R82). -/
theorem reduce_congr (others : List PeerEntry) (same : crossingBins others = crossingBins peers) :
    reduce (some c) others i b = reduce (some c) peers i b := by
  rcases Nat.lt_or_ge b.m (2 ^ c.exponent / 4) with thin | full
  · rw [reduce_of_thin c others i b thin, reduce_of_thin c peers i b thin]
  · rw [reduce_of_not_thin c others i b full, reduce_of_not_thin c peers i b full,
      fullResult_congr c peers b _ others same]

end

/-- Settles O28: the thin and the full result, field by field, from the working profile and its scan. -/
theorem reductionOfAClosedBank : Obligations.ReductionOfAClosedBank := by
  rintro c peers i b _ rfl
  have frame := reduce_congr c peers i b
  rcases Nat.lt_or_ge b.m (2 ^ c.exponent / 4) with thin | full
  · rw [reduce_of_thin c peers i b thin] at frame ⊢
    exact ⟨rfl, rfl, rfl, rfl, rfl, iff_of_true rfl thin, frame, fun _ => ⟨rfl, rfl, rfl, rfl, rfl, rfl, rfl, rfl⟩,
      fun full => absurd thin (Nat.not_lt.2 full)⟩
  · rw [reduce_of_not_thin c peers i b full] at frame ⊢
    have notThin := Nat.not_lt.2 full
    refine ⟨rfl, rfl, rfl, rfl, rfl, iff_of_false nofun notThin, frame, fun thin => absurd thin notThin, fun _ => ?_⟩
    refine ⟨?_, fullResult_fullyObscured c peers b _, workOf c b, rfl, rfl, workOf_net_length c b,
      workOf_intensity_length c b, workOf_classes_length c b, fun n x hx => ?_, rfl, one_le_noiseFloor _, rfl, rfl, rfl,
      fullResult_more_iff c peers b _, fullResult_of_not_obscured c peers b _, fullResult_of_obscured c peers b _,
      fullResult_candidates_length c peers b _, fun j x hx => ?_⟩
    · rw [fullResult_candidates_length]
      exact scanProfile_candidates_length_le ..
    · exact ⟨_, _, workOf_net_getElem? c b n x hx, rfl, workOf_intensity_getElem? c b n x hx, rfl,
        workOf_classes_getElem? c b n x hx⟩
    · exact ⟨_, fullResult_candidate c peers b _ j x hx, rfl, rfl, rfl, rfl, candidateOf_suspect_iff ..⟩

end Sys2Proof.Machine
end

section
/-! SUPPORT. Layer extraction: the datum heights, and the runs that the scan of a classed profile finds
(R97..R104, R106, R107). -/

namespace Sys2Proof.Machine

/-! ## Datum heights (R107) -/

/-- A bin adds ten tilt cosines to the scaled projection, before it is rounded. -/
theorem datumHeight_succ (elevation c n : Nat) :
    datumHeight elevation c (n + 1) = elevation + ((10 * n + 5) * c + 10 * c + 512) / 1024 := by
  have step : (10 * (n + 1) + 5) * c = (10 * n + 5) * c + 10 * c := by ring
  rw [datumHeight, step]

/-- Settles O26: the scaled projection lies between its values at the corners of the ranges of c and n, and rises by
10c, which is between 5 × 1024 and 10 × 1024. -/
theorem datumHeightRisesStrictly : Obligations.DatumHeightRisesStrictly := by
  intro elevation c n he hlo hhi hn
  have low : 5 * 512 ≤ (10 * n + 5) * c := Nat.mul_le_mul (by omega) hlo
  have high : (10 * n + 5) * c ≤ 7995 * 1024 := Nat.mul_le_mul (by omega) hhi
  have height : datumHeight elevation c n = elevation + ((10 * n + 5) * c + 512) / 1024 := rfl
  refine ⟨height, ?_⟩
  rw [datumHeight_succ, height]
  omega

/-! ## The bins of a classed profile (R98, R100, R101) -/

section
variable {classes : List BinClass} {intensity : List Int} {b : Nat} {c : BinClass} {i : Int}
  {rest : List (BinClass × Int)}

/-- The first of the bins from `b` up is bin `b`, and those behind it are the bins from `b + 1` up. -/
theorem bin_of_drop_eq_cons (h : (classes.zip intensity).drop b = (c, i) :: rest) :
    classes[b]? = some c ∧ intensity[b]? = some i ∧ (classes.zip intensity).drop (b + 1) = rest := by
  have here : (classes.zip intensity)[b]? = some (c, i) := by
    rw [← List.head?_drop, h, List.head?_cons]
  obtain ⟨hc, hi⟩ := List.getElem?_zip_eq_some.1 here
  refine ⟨hc, hi, ?_⟩
  rw [← List.tail_drop, h, List.tail_cons]

/-- The length of the bins from `b` up, in a profile of 800 bins. -/
theorem length_of_drop_eq (hc : classes.length = 800) (hi : intensity.length = 800)
    (h : (classes.zip intensity).drop b = rest) : rest.length = 800 - b := by
  rw [← h, List.length_drop, List.length_zip, hc, hi, Nat.min_self]

/-- Three bins of a class stand together: none of them lies above bin 799. -/
theorem le_of_three {x : BinClass} (hc : classes.length = 800) (h : ∀ j : Nat, j < 3 → classes[b + j]? = some x) :
    b + 2 < 800 := by
  obtain ⟨bound, _⟩ := List.getElem?_eq_some_iff.1 (h 2 (by decide))
  omega

/-- The look at a bin and the two above it, in terms of the classes of the profile (R98, R100). -/
theorem threeOf_iff (hc : classes.length = 800) (hi : intensity.length = 800)
    (h : (classes.zip intensity).drop b = (c, i) :: rest) (x : BinClass) :
    threeOf x c rest = true ↔ ∀ j : Nat, j < 3 → classes[b + j]? = some x := by
  obtain ⟨h0, _, above⟩ := bin_of_drop_eq_cons h
  have length := length_of_drop_eq hc hi above
  match rest with
  | [] | [_] =>
    refine iff_of_false (by simp [threeOf]) fun three => ?_
    have := le_of_three hc three
    simp only [List.length_cons, List.length_nil] at length
    omega
  | (c1, i1) :: (c2, i2) :: _ =>
    obtain ⟨h1, _, above1⟩ := bin_of_drop_eq_cons above
    obtain ⟨h2, _, _⟩ := bin_of_drop_eq_cons above1
    simp only [Nat.forall_lt_succ_right, Nat.not_lt_zero, false_imp_iff, forall_const, true_and, Nat.add_zero,
      h0, h1, show b + 2 = b + 1 + 1 from rfl, h2, Option.some.injEq, threeOf, Bool.and_eq_true, beq_iff_eq]

@[simp] theorem Run.addBin_top (r : Run) : (r.addBin b i).top = r.top := by
  unfold Run.addBin
  split <;> rfl

@[simp] theorem Run.addBins_top (bins : List (BinClass × Int)) (b : Nat) (r : Run) :
    (Run.addBins b bins r).top = r.top := by
  induction bins generalizing b r with
  | nil => rfl
  | cons bin rest ih => rw [Run.addBins, ih, Run.addBin_top]

/-- A run of one bin has its peak there (R98). -/
theorem Run.peakUpTo_base (top : Option Nat) (hi : intensity[b]? = some i) :
    (Run.mk b top b i).PeakUpTo intensity b := by
  refine ⟨le_refl b, le_refl b, hi, fun n x above below hx => ?_⟩
  obtain rfl : n = b := le_antisymm below above
  obtain rfl := Option.some.inj (hx.symm.trans hi)
  exact ⟨le_refl x, fun h => absurd h (lt_irrefl n)⟩

/-- The peak is followed bin by bin: a greater intensity takes it, an equal one does not (R101). -/
theorem Run.PeakUpTo.addBin {last : Nat} {r : Run} (h : r.PeakUpTo intensity last)
    (hi : intensity[last + 1]? = some i) : (r.addBin (last + 1) i).PeakUpTo intensity (last + 1) := by
  obtain ⟨above, below, value, greatest⟩ := h
  unfold Run.addBin
  split
  case isTrue greater =>
    refine ⟨by dsimp only; omega, le_refl _, hi, fun n x hn hl hx => ?_⟩
    rcases Nat.lt_or_eq_of_le hl with earlier | rfl
    · have := (greatest n x hn (by omega) hx).1
      exact ⟨by dsimp only; omega, fun _ => by dsimp only; omega⟩
    · obtain rfl := Option.some.inj (hx.symm.trans hi)
      exact ⟨le_refl x, fun h => absurd h (lt_irrefl _)⟩
  case isFalse notGreater =>
    refine ⟨above, by omega, value, fun n x hn hl hx => ?_⟩
    rcases Nat.lt_or_eq_of_le hl with earlier | rfl
    · exact greatest n x hn (by omega) hx
    · obtain rfl := Option.some.inj (hx.symm.trans hi)
      exact ⟨by omega, fun h => by omega⟩

/-- The rest of the bins of a profile, added to an open run at the end of the scan (R104). -/
theorem Run.PeakUpTo.addBins (bins : List (BinClass × Int)) {last : Nat} {r : Run} (h : r.PeakUpTo intensity last)
    (hb : (classes.zip intensity).drop (last + 1) = bins) :
    (Run.addBins (last + 1) bins r).PeakUpTo intensity (last + bins.length) := by
  induction bins generalizing last r with
  | nil => exact h
  | cons bin rest ih =>
    obtain ⟨_, value, above⟩ := bin_of_drop_eq_cons hb
    rw [List.length_cons, Nat.add_comm rest.length, ← Nat.add_assoc]
    exact ih (h.addBin value) above

end

/-! ## The runs found from a bin up (R98, R100, R102, R104) -/

section
variable {classes : List BinClass} {intensity : List Int} {lo n0 : Nat} {r : Run} {runs rest : List Run}

/-- The first run is found by itself; the search goes on above its top, and ends with it where it has none. -/
theorem runsFrom_cons_iff : RunsFrom classes intensity lo (r :: rest) ↔
    RunsFrom classes intensity lo [r] ∧ (∀ top, r.top = some top → RunsFrom classes intensity (top + 4) rest) ∧
      (r.top = none → rest = []) := by
  cases h : r.top with
  | none => simp [RunsFrom, h, and_assoc]
  | some top => simp [RunsFrom, h, and_assoc]

/-- A run that the search finds: its base is not below the search, three strong bins stand there, its top stands at
least two bins above its base, before three weak bins, and its peak lies within it. -/
structure Run.Found (classes : List BinClass) (intensity : List Int) (lo : Nat) (r : Run) : Prop where
  base : lo ≤ r.base
  starts : StartsAt classes r.base
  top : ∀ top, r.top = some top → r.base + 2 ≤ top ∧ EndsAt classes (top + 1)
  peak : r.PeakUpTo intensity (r.top.getD 799)

/-- A strong bin is not weak, so no end lies among the three strong bins of a start (R100). -/
theorem StartsAt.lt_of_endsAt {b e : Nat} (start : StartsAt classes b) (finish : EndsAt classes e) (above : b ≤ e) :
    b + 3 ≤ e := by
  by_contra near
  have strong := start (e - b) (by omega)
  have weak := finish 0 (by decide)
  rw [Nat.add_sub_cancel' above] at strong
  rw [Nat.add_zero, strong] at weak
  cases weak

theorem RunsFrom.found (h : RunsFrom classes intensity lo [r]) : r.Found classes intensity lo := by
  cases htop : r.top with
  | none =>
    simp only [RunsFrom, htop] at h
    obtain ⟨above, start, _, _, peak, _⟩ := h
    exact ⟨above, start, by simp [htop], by rwa [htop]⟩
  | some top =>
    simp only [RunsFrom, htop] at h
    obtain ⟨above, start, _, below, finish, _, peak, _⟩ := h
    refine ⟨above, start, fun x hx => ?_, by rwa [htop]⟩
    obtain rfl := Option.some.inj (htop.symm.trans hx)
    have := start.lt_of_endsAt finish (by omega)
    exact ⟨by omega, finish⟩

/-- Every run of the search is found by it. -/
theorem RunsFrom.found_of_mem (h : RunsFrom classes intensity lo runs) (hr : r ∈ runs) :
    r.Found classes intensity lo := by
  induction runs generalizing lo with
  | nil => cases hr
  | cons x rest ih =>
    obtain ⟨first, next, last⟩ := runsFrom_cons_iff.1 h
    have found := first.found
    rcases List.mem_cons.1 hr with rfl | later
    · exact found
    · cases htop : x.top with
      | none =>
        rw [last htop] at later
        cases later
      | some top =>
        obtain ⟨base, starts, tops, peak⟩ := ih (next top htop) later
        have above := (found.top top htop).1
        have := found.base
        exact ⟨by omega, starts, tops, peak⟩

/-- A run begins at least three bins above the top of every run before it. -/
theorem RunsFrom.pairwise (h : RunsFrom classes intensity lo runs) :
    runs.Pairwise fun x y => ∃ top, x.top = some top ∧ top + 3 < y.base := by
  induction runs generalizing lo with
  | nil => exact List.Pairwise.nil
  | cons x rest ih =>
    obtain ⟨_, next, last⟩ := runsFrom_cons_iff.1 h
    cases htop : x.top with
    | none =>
      rw [last htop]
      exact List.pairwise_singleton _ _
    | some top =>
      refine List.pairwise_cons.2 ⟨fun y hy => ⟨top, htop, ?_⟩, ih (next top htop)⟩
      have := ((next top htop).found_of_mem hy).base
      omega

/-- Behind a first run with a top the search goes on as it does behind that top. -/
theorem searchOn_cons {top : Nat} (h : r.top = some top) (rest : List Run) :
    searchOn lo (r :: rest) = searchOn (top + 4) rest := by
  cases rest with
  | nil => simp [searchOn, h]
  | cons x xs => rw [searchOn, List.getLast?_cons_cons, searchOn, List.getLast?_cons]

/-- Behind runs that all have a top, the next run is the one found from where the search goes on. -/
theorem RunsFrom.append (h : RunsFrom classes intensity lo runs) (closed : ∀ x ∈ runs, x.top ≠ none)
    (next : RunsFrom classes intensity (searchOn lo runs) [r]) : RunsFrom classes intensity lo (runs ++ [r]) := by
  induction runs generalizing lo with
  | nil => exact next
  | cons x rest ih =>
    obtain ⟨hx, later⟩ := List.forall_mem_cons.1 closed
    obtain ⟨top, htop⟩ := Option.ne_none_iff_exists'.1 hx
    obtain ⟨first, behind, _⟩ := runsFrom_cons_iff.1 h
    rw [searchOn_cons htop] at next
    refine runsFrom_cons_iff.2 ⟨first, fun t ht => ?_, fun noTop => absurd noTop hx⟩
    obtain rfl := Option.some.inj (htop.symm.trans ht)
    exact ih (behind top htop) later next

theorem searchOn_append (n0 : Nat) (runs : List Run) (r : Run) :
    searchOn n0 (runs ++ [r]) = r.top.getD 796 + 4 := by
  simp [searchOn]

/-- Once a run with a top stands, the search goes on above the bin where it began. -/
theorem RunsFrom.lt_searchOn (h : RunsFrom classes intensity n0 runs) (closed : ∀ x ∈ runs, x.top ≠ none)
    (nonempty : runs ≠ []) : n0 < searchOn n0 runs := by
  obtain ⟨before, r, rfl⟩ := (List.eq_nil_or_concat' runs).resolve_left nonempty
  have mem : r ∈ before ++ [r] := List.mem_append_right _ (List.mem_singleton_self r)
  obtain ⟨top, htop⟩ := Option.ne_none_iff_exists'.1 (closed r mem)
  have found := h.found_of_mem mem
  have base := found.base
  have above := (found.top top htop).1
  rw [searchOn_append, htop, Option.getD_some]
  omega

end

/-! ## The record of the runs (R102, R106) -/

/-- The last recorded run is the last of the runs in order. -/
theorem Scan.lastRun_eq (k : Scan) : k.lastRun = k.runs.getLast? := by
  unfold Scan.lastRun Scan.runs
  rw [List.getLast?_append]
  cases k.candidates.getLast? with
  | some r => rfl
  | none => cases k.obscuring <;> rfl

theorem Scan.reachBin_of_openRun {k : Scan} {r : Run} (cause : k.cause = some .openRun)
    (last : k.runs.getLast? = some r) : k.reachBin = r.base := by
  rw [Scan.reachBin, cause, Scan.lastRun_eq, last]

theorem Scan.reachBin_of_ne_openRun {k : Scan} (cause : k.cause ≠ some .openRun) : k.reachBin = 799 := by
  unfold Scan.reachBin
  split
  case h_1 h _ => exact absurd h cause
  case h_2 => rfl

section
variable (classes : List BinClass) (intensity : List Int) (n0 : Nat)

/-- The recorded runs are those of the profile from n0 up, the one with base n0 apart from the candidates (R102). -/
structure Scan.Recorded (k : Scan) : Prop where
  runs : RunsFrom classes intensity n0 k.runs
  obscuring : ∀ r, k.obscuring = some r → r.base = n0
  candidates : ∀ r ∈ k.candidates, n0 < r.base

/-- Every recorded run has a top. -/
def Scan.Closed (k : Scan) : Prop := ∀ r ∈ k.runs, r.top ≠ none

/-- The scan has come to bin `b` without a run start since the search went on (R98). -/
def Scan.Searched (b : Nat) (k : Scan) : Prop :=
  searchOn n0 k.runs ≤ b ∧ ∀ x : Nat, searchOn n0 k.runs ≤ x → x < b → ¬StartsAt classes x

/-- The run `r`, begun at the first start not below `lo`, is open when the scan comes to bin `b` (R100, R101). -/
structure Run.OpenAt (lo b : Nat) (r : Run) : Prop where
  noTop : r.top = none
  base : lo ≤ r.base ∧ r.base < b
  starts : StartsAt classes r.base
  first : ∀ x : Nat, lo ≤ x → x < r.base → ¬StartsAt classes x
  noEnd : ∀ e : Nat, r.base < e → e < b → ¬EndsAt classes e
  peak : r.PeakUpTo intensity (b - 1)

/-- What holds when the scan comes to bin `b`, by the state of the scan (R97..R104). -/
def Scan.Progress (b : Nat) (k : Scan) : Prop :=
  match k.mode with
  | .searching => k.Closed ∧ k.Searched classes n0 b
  | .passing left => k.Closed ∧ 1 ≤ left ∧ searchOn n0 k.runs = b + left
  | .inRun => k.Closed ∧ b < 799 ∧ ∃ r, k.openRun = some r ∧ r.OpenAt classes intensity (searchOn n0 k.runs) b
  | .ended => k.EndOk classes n0

/-- The invariant of the scan: its limit, its records and its progress. -/
structure Scan.Traced (b : Nat) (k : Scan) : Prop where
  limit : k.WithinLimit n0
  recorded : k.Recorded classes intensity n0
  progress : k.Progress classes intensity n0 b

end

section
variable {classes : List BinClass} {intensity : List Int} {n0 b : Nat} {c : BinClass} {i : Int}
  {rest : List (BinClass × Int)} {k : Scan} {r : Run}

theorem Scan.progress_iff_of_searching (mode : k.mode = .searching) :
    k.Progress classes intensity n0 b ↔ k.Closed ∧ k.Searched classes n0 b := by
  rw [Scan.Progress, mode]

theorem Scan.progress_iff_of_passing {left : Nat} (mode : k.mode = .passing left) :
    k.Progress classes intensity n0 b ↔ k.Closed ∧ 1 ≤ left ∧ searchOn n0 k.runs = b + left := by
  rw [Scan.Progress, mode]

theorem Scan.progress_iff_of_inRun (mode : k.mode = .inRun) :
    k.Progress classes intensity n0 b ↔ k.Closed ∧ b < 799 ∧
      ∃ r, k.openRun = some r ∧ r.OpenAt classes intensity (searchOn n0 k.runs) b := by
  rw [Scan.Progress, mode]

theorem Scan.progress_iff_of_ended (mode : k.mode = .ended) :
    k.Progress classes intensity n0 b ↔ k.EndOk classes n0 := by
  rw [Scan.Progress, mode]

/-- A recorded run with a top leaves every recorded run with one. -/
theorem Scan.Closed.of_runs_eq_append {l : Scan} (closed : k.Closed) (runs : l.runs = k.runs ++ [r])
    (top : r.top ≠ none) : l.Closed := by
  intro x hx
  rw [runs, List.mem_append, List.mem_singleton] at hx
  rcases hx with earlier | rfl
  · exact closed x earlier
  · exact top

theorem Scan.record_of_base_eq (h : r.base = n0) :
    k.record n0 r = { k with obscuring := some r, openRun := none } := if_pos h

theorem Scan.record_of_base_ne (h : r.base ≠ n0) :
    k.record n0 r = { k with candidates := k.candidates ++ [r], openRun := none } := if_neg h

/-- The next run takes its place behind those recorded: only the first can have base n0. -/
theorem Scan.Recorded.record_runs (h : k.Recorded classes intensity n0) (closed : k.Closed)
    (next : searchOn n0 k.runs ≤ r.base) : (k.record n0 r).runs = k.runs ++ [r] := by
  by_cases base : r.base = n0
  · have empty : k.runs = [] := by
      by_contra nonempty
      have := h.runs.lt_searchOn closed nonempty
      omega
    obtain ⟨_, noCandidates⟩ := List.append_eq_nil_iff.1 empty
    rw [record_of_base_eq base, empty]
    simp [Scan.runs, noCandidates]
  · rw [record_of_base_ne base]
    exact (List.append_assoc ..).symm

/-- A run found where the search went on is recorded in its place. -/
theorem Scan.Recorded.record (h : k.Recorded classes intensity n0) (closed : k.Closed)
    (next : RunsFrom classes intensity (searchOn n0 k.runs) [r]) : (k.record n0 r).Recorded classes intensity n0 := by
  have runs : RunsFrom classes intensity n0 (k.record n0 r).runs := by
    rw [h.record_runs closed next.found.base]
    exact h.runs.append closed next
  have above : n0 ≤ r.base := by
    refine (runs.found_of_mem ?_).base
    rw [h.record_runs closed next.found.base]
    exact List.mem_append_right _ (List.mem_singleton_self r)
  by_cases base : r.base = n0
  · rw [record_of_base_eq base] at runs ⊢
    exact ⟨runs, fun x hx => Option.some.inj hx ▸ base, h.candidates⟩
  · rw [record_of_base_ne base] at runs ⊢
    refine ⟨runs, h.obscuring, fun x hx => ?_⟩
    rcases List.mem_append.1 hx with earlier | last
    · exact h.candidates x earlier
    · rw [List.mem_singleton.1 last]
      omega

/-- Where no start follows, the scan ends with cause "exhausted" (R99). -/
theorem Scan.endOk_exhausted (cause : k.cause = some .exhausted) (closed : k.Closed)
    (noStart : ∀ x : Nat, searchOn n0 k.runs ≤ x → ¬StartsAt classes x) : k.EndOk classes n0 := by
  rw [Scan.EndOk, cause]
  exact ⟨closed, reachBin_of_ne_openRun (by rw [cause]; nofun), noStart⟩

/-- A start found beside six candidates ends the scan with cause "limit" (R103). -/
theorem Scan.endOk_limit (cause : k.cause = some .limit) (closed : k.Closed) (full : k.candidates.length = 6)
    (above : searchOn n0 k.runs ≤ b) (start : StartsAt classes b) : k.EndOk classes n0 := by
  rw [Scan.EndOk, cause]
  exact ⟨full, closed, reachBin_of_ne_openRun (by rw [cause]; nofun), b, above, start⟩

/-- A run without a top ends the scan with cause "open run" (R104). -/
theorem Scan.endOk_openRun (cause : k.cause = some .openRun) (last : k.runs.getLast? = some r) (noTop : r.top = none) :
    k.EndOk classes n0 := by
  rw [Scan.EndOk, cause]
  exact ⟨r, last, noTop, reachBin_of_openRun cause last⟩

/-! ## One bin of the scan (R98..R104) -/

/-- A run begins at the bin of a start (R98). -/
theorem Run.openAt_start {lo : Nat} (hi : intensity[b]? = some i) (above : lo ≤ b) (start : StartsAt classes b)
    (first : ∀ x : Nat, lo ≤ x → x < b → ¬StartsAt classes x) :
    (Run.mk b none b i).OpenAt classes intensity lo (b + 1) where
  noTop := rfl
  base := ⟨above, Nat.lt_succ_self b⟩
  starts := start
  first := first
  noEnd e hb he := by
    dsimp only at hb
    omega
  peak := Run.peakUpTo_base none hi

/-- A bin that does not end the run is added to it (R100, R101). -/
theorem Run.OpenAt.addBin {lo : Nat} (h : r.OpenAt classes intensity lo b) (hi : intensity[b]? = some i)
    (noEnd : ¬EndsAt classes b) : (r.addBin b i).OpenAt classes intensity lo (b + 1) where
  noTop := by rw [Run.addBin_top, h.noTop]
  base := by
    have := h.base
    rw [Run.addBin_base]
    omega
  starts := by simpa only [Run.addBin_base] using h.starts
  first := by simpa only [Run.addBin_base] using h.first
  noEnd e hb he := by
    rw [Run.addBin_base] at hb
    rcases Nat.lt_succ_iff_lt_or_eq.1 he with earlier | rfl
    · exact h.noEnd e hb earlier
    · exact noEnd
  peak := by
    have eq : b - 1 + 1 = b := by
      have := h.base
      omega
    rw [← eq] at hi
    simpa only [eq, Nat.add_sub_cancel] using h.peak.addBin hi

/-- Three weak bins end the open run, whose top is the bin before them (R100). -/
theorem Run.OpenAt.close {lo : Nat} (h : r.OpenAt classes intensity lo b) (finish : EndsAt classes b) :
    RunsFrom classes intensity lo [{ r with top := some (b - 1) }] := by
  obtain ⟨above, below⟩ := h.base
  have eq : b - 1 + 1 = b := by omega
  refine ⟨above, h.starts, h.first, ?_⟩
  dsimp only
  rw [eq]
  exact ⟨by omega, finish, fun e hb he => h.noEnd e hb (by omega), h.peak, trivial⟩

/-- An open run that comes within two bins of 799 takes in the bins to 799 and has no top (R104). -/
theorem Run.OpenAt.exhaust {lo : Nat} (h : r.OpenAt classes intensity lo b) (hc : classes.length = 800)
    (hi : intensity.length = 800) (bound : b ≤ 800) (high : 800 < b + 3)
    (hb : (classes.zip intensity).drop b = rest) :
    RunsFrom classes intensity lo [Run.addBins b rest r] := by
  obtain ⟨above, below⟩ := h.base
  have eq : b - 1 + 1 = b := by omega
  have last : b - 1 + rest.length = 799 := by
    rw [length_of_drop_eq hc hi hb]
    omega
  have peak : (Run.addBins b rest r).PeakUpTo intensity 799 := by
    have := h.peak.addBins (classes := classes) rest (by rw [eq, hb])
    rwa [eq, last] at this
  have noEnd (e : Nat) (he : r.base < e) : ¬EndsAt classes e := by
    intro finish
    have := le_of_three hc finish
    exact h.noEnd e he (by omega) finish
  have noTop : (Run.addBins b rest r).top = none := by rw [Run.addBins_top, h.noTop]
  simp only [RunsFrom, noTop, Run.addBins_base]
  exact ⟨above, h.starts, h.first, noEnd, peak, trivial⟩

/-- A bin of the three weak bins that ended a run is passed over (R100). -/
theorem Scan.Traced.atBin_passing (h : k.Traced classes intensity n0 b) {left : Nat} (mode : k.mode = .passing left) :
    (k.atBin n0 b c i rest).Recorded classes intensity n0 ∧
      (k.atBin n0 b c i rest).Progress classes intensity n0 (b + 1) := by
  obtain ⟨_, ⟨runs, obscuring, candidates⟩, progress⟩ := h
  obtain ⟨closed, one, search⟩ := (progress_iff_of_passing mode).1 progress
  simp only [Scan.atBin, mode]
  split
  case isTrue last =>
    have here : searchOn n0 k.runs = b + 1 := by omega
    exact ⟨⟨runs, obscuring, candidates⟩, (progress_iff_of_searching rfl).2
      ⟨closed, le_of_eq here, fun x above below => absurd below (Nat.not_lt.2 (here ▸ above))⟩⟩
  case isFalse more =>
    have there : searchOn n0 k.runs = b + 1 + (left - 1) := by omega
    exact ⟨⟨runs, obscuring, candidates⟩, (progress_iff_of_passing rfl).2 ⟨closed, by omega, there⟩⟩

section
variable (hc : classes.length = 800) (hi : intensity.length = 800)
  (hb : (classes.zip intensity).drop b = (c, i) :: rest)
include hc hi hb

/-- Fewer than two bins stand above bin `b` exactly where `b + 2` is above 799 (R99, R104). -/
theorem length_lt_two_iff : rest.length < 2 ↔ 798 ≤ b ∧ b < 800 := by
  have := length_of_drop_eq hc hi hb
  rw [List.length_cons] at this
  omega

/-- A bin examined in SEARCHING (R98, R99, R103). -/
theorem Scan.Traced.atBin_searching (h : k.Traced classes intensity n0 b) (mode : k.mode = .searching) :
    (k.atBin n0 b c i rest).Recorded classes intensity n0 ∧
      (k.atBin n0 b c i rest).Progress classes intensity n0 (b + 1) := by
  obtain ⟨⟨few, _⟩, ⟨runs, obscuring, candidates⟩, progress⟩ := h
  obtain ⟨closed, reached, noStart⟩ := (progress_iff_of_searching mode).1 progress
  have short := length_lt_two_iff hc hi hb
  have starts := threeOf_iff hc hi hb .strong
  simp only [Scan.atBin, mode]
  split
  case isTrue ends =>
    refine ⟨⟨runs, obscuring, candidates⟩, (progress_iff_of_ended rfl).2 (endOk_exhausted rfl closed ?_)⟩
    intro x above start
    have := le_of_three hc start
    have := (short.1 ends).1
    exact noStart x above (by omega) start
  case isFalse =>
    split
    case isTrue three =>
      have start := starts.1 three
      split
      case isTrue full =>
        exact ⟨⟨runs, obscuring, candidates⟩, (progress_iff_of_ended rfl).2
          (endOk_limit rfl closed (le_antisymm few full.2) reached start)⟩
      case isFalse =>
        have := le_of_three hc start
        exact ⟨⟨runs, obscuring, candidates⟩, (progress_iff_of_inRun rfl).2 ⟨closed, by omega, _, rfl,
          Run.openAt_start (bin_of_drop_eq_cons hb).2.1 reached start noStart⟩⟩
    case isFalse noThree =>
      refine ⟨⟨runs, obscuring, candidates⟩, (progress_iff_of_searching rfl).2
        ⟨closed, Nat.le_succ_of_le reached, fun x above below start => ?_⟩⟩
      rcases Nat.lt_succ_iff_lt_or_eq.1 below with earlier | rfl
      · exact noStart x above earlier start
      · exact noThree (starts.2 start)

/-- A bin examined in IN RUN (R100, R101, R104). -/
theorem Scan.Traced.atBin_inRun (h : k.Traced classes intensity n0 b) (mode : k.mode = .inRun) :
    (k.atBin n0 b c i rest).Recorded classes intensity n0 ∧
      (k.atBin n0 b c i rest).Progress classes intensity n0 (b + 1) := by
  obtain ⟨_, recorded, progress⟩ := h
  obtain ⟨closed, bound, r, run, isOpen⟩ := (progress_iff_of_inRun mode).1 progress
  have short := length_lt_two_iff hc hi hb
  have ends := threeOf_iff hc hi hb .weak
  simp only [Scan.atBin, mode, run]
  split
  case isTrue few =>
    have near := short.1 few
    have next := isOpen.exhaust hc hi (by omega) (by omega) hb
    have order := recorded.record_runs closed next.found.base
    have noTop : (Run.addBins b ((c, i) :: rest) r).top = none := by rw [Run.addBins_top, isOpen.noTop]
    obtain ⟨runs, obscuring, candidates⟩ := recorded.record closed next
    exact ⟨⟨runs, obscuring, candidates⟩, (progress_iff_of_ended rfl).2
      (endOk_openRun rfl ((congrArg List.getLast? order).trans List.getLast?_concat) noTop)⟩
  case isFalse =>
    split
    case isTrue three =>
      have next := isOpen.close (ends.1 three)
      have order := recorded.record_runs closed next.found.base
      have search : searchOn n0 (k.record n0 { r with top := some (b - 1) }).runs = b + 1 + 2 := by
        have := isOpen.base
        rw [order, searchOn_append, Option.getD_some]
        omega
      obtain ⟨runs, obscuring, candidates⟩ := recorded.record closed next
      exact ⟨⟨runs, obscuring, candidates⟩, (progress_iff_of_passing rfl).2
        ⟨closed.of_runs_eq_append order nofun, by decide, search⟩⟩
    case isFalse noThree =>
      obtain ⟨runs, obscuring, candidates⟩ := recorded
      have noEnd : ¬EndsAt classes b := fun finish => noThree (ends.2 finish)
      exact ⟨⟨runs, obscuring, candidates⟩, (progress_iff_of_inRun rfl).2
        ⟨closed, by omega, _, rfl, isOpen.addBin (bin_of_drop_eq_cons hb).2.1 noEnd⟩⟩

/-- Every bin keeps what is known of the scan. -/
theorem Scan.Traced.atBin (h : k.Traced classes intensity n0 b) :
    (k.atBin n0 b c i rest).Traced classes intensity n0 (b + 1) := by
  have kept : (k.atBin n0 b c i rest).Recorded classes intensity n0 ∧
      (k.atBin n0 b c i rest).Progress classes intensity n0 (b + 1) := by
    cases mode : k.mode with
    | searching => exact h.atBin_searching hc hi hb mode
    | inRun => exact h.atBin_inRun hc hi hb mode
    | passing left => exact h.atBin_passing mode
    | ended =>
      have same : k.atBin n0 b c i rest = k := by simp only [Scan.atBin, mode]
      rw [same]
      exact ⟨h.recorded, (progress_iff_of_ended mode).2 ((progress_iff_of_ended mode).1 h.progress)⟩
  exact ⟨atBin_withinLimit n0 b c i rest k h.limit, kept.1, kept.2⟩

end

/-! ## The whole scan (R97, R99) -/

/-- With no bin left no run is open, and what was searched held no further start. -/
theorem Scan.Traced.noStart_of_no_bin (h : k.Traced classes intensity n0 b) (hc : classes.length = 800)
    (above : 800 ≤ b) (mode : k.mode ≠ .ended) :
    k.Closed ∧ ∀ x : Nat, searchOn n0 k.runs ≤ x → ¬StartsAt classes x := by
  cases state : k.mode with
  | ended => exact absurd state mode
  | inRun =>
    obtain ⟨_, below, _⟩ := (progress_iff_of_inRun state).1 h.progress
    omega
  | searching =>
    obtain ⟨closed, _, noStart⟩ := (progress_iff_of_searching state).1 h.progress
    refine ⟨closed, fun x hx start => noStart x hx ?_ start⟩
    have := le_of_three hc start
    omega
  | passing left =>
    obtain ⟨closed, _, search⟩ := (progress_iff_of_passing state).1 h.progress
    refine ⟨closed, fun x hx start => ?_⟩
    have := le_of_three hc start
    omega

theorem Scan.bins_ended (hc : classes.length = 800) (hi : intensity.length = 800) (bins : List (BinClass × Int))
    (hb : (classes.zip intensity).drop b = bins) (h : k.Traced classes intensity n0 b) :
    (Scan.bins n0 b bins k).mode = .ended ∧ (Scan.bins n0 b bins k).Recorded classes intensity n0 ∧
      (Scan.bins n0 b bins k).EndOk classes n0 := by
  induction bins generalizing b k with
  | nil =>
    rw [Scan.bins]
    split
    case isTrue mode =>
      exact ⟨mode, h.recorded, (progress_iff_of_ended mode).1 h.progress⟩
    case isFalse mode =>
      have above := length_of_drop_eq hc hi hb
      rw [List.length_nil] at above
      obtain ⟨closed, noStart⟩ := h.noStart_of_no_bin hc (by omega) mode
      obtain ⟨runs, obscuring, candidates⟩ := h.recorded
      exact ⟨rfl, ⟨runs, obscuring, candidates⟩, endOk_exhausted rfl closed noStart⟩
  | cons bin rest ih => exact ih (bin_of_drop_eq_cons hb).2.2 (h.atBin hc hi hb)

/-- The scan begins at n0 with nothing recorded (R97). -/
theorem Scan.start_traced : (Scan.start n0).Traced classes intensity n0 n0 where
  limit := withinLimit_of_not_inRun (Nat.zero_le 6) nofun
  recorded := ⟨trivial, nofun, nofun⟩
  progress := ⟨nofun, le_refl n0, fun _ above below => absurd below (Nat.not_lt.2 above)⟩

/-- The scan of a profile ends, with its runs recorded (R97..R104, R106). -/
theorem scanProfile_ended (n0 : Nat) (hc : classes.length = 800) (hi : intensity.length = 800) :
    (scanProfile n0 classes intensity).mode = .ended ∧
      (scanProfile n0 classes intensity).Recorded classes intensity n0 ∧
      (scanProfile n0 classes intensity).EndOk classes n0 :=
  Scan.bins_ended hc hi _ rfl Scan.start_traced

theorem Scan.mem_runs_iff : r ∈ k.runs ↔ k.obscuring = some r ∨ r ∈ k.candidates := by
  rw [Scan.runs, List.mem_append, Option.mem_toList]

end

/-- Settles O27: what holds of each run and of their order follows from the search that found them. -/
theorem scanFindsAscendingRuns : Obligations.ScanFindsAscendingRuns := by
  intro n0 classes intensity _ hc hi
  obtain ⟨ended, ⟨runs, obscuring, candidates⟩, endOk⟩ := scanProfile_ended n0 hc hi
  have order := runs.pairwise
  rw [Scan.runs, List.pairwise_append] at order
  obtain ⟨_, ascending, across⟩ := order
  have behind (r x) (hr : (scanProfile n0 classes intensity).obscuring = some r)
      (hx : x ∈ (scanProfile n0 classes intensity).candidates) := across r (Option.mem_toList.2 hr) x hx
  refine ⟨_, rfl, ended, scanProfile_candidates_length_le n0 classes intensity, runs, endOk, obscuring, candidates,
    fun r hr => ?_, ascending, fun r hr noTop => ?_, behind⟩
  · obtain ⟨base, starts, top, above, below, value, _⟩ := runs.found_of_mem (Scan.mem_runs_iff.2 hr)
    refine ⟨base, starts, fun t ht => ⟨(top t ht).1, fun j low high => ?_⟩, above, below, value⟩
    have weak := (top t ht).2 (j - 1) (by omega)
    rwa [Nat.add_assoc, Nat.add_sub_cancel' low] at weak
  · refine List.eq_nil_iff_forall_not_mem.2 fun x hx => ?_
    obtain ⟨top, htop, _⟩ := behind r x hr hx
    rw [noTop] at htop
    cases htop

end Sys2Proof.Machine
end

section
/-! SUPPORT. The ordering pass of the layer table: the sort, the merges one by one, and the pass that they make up
(R129, R130). -/

namespace Sys2Proof.Machine

/-! ## The sort (R129) -/

/-- What the order of the table reads of a track. -/
def Track.key (t : Track) : Nat × Byte := (t.base, t.id)

theorem Track.below_iff (t u : Track) :
    t.below u = true ↔ t.base < u.base ∨ (t.base = u.base ∧ t.id.toNat ≤ u.id.toNat) := decide_eq_true_iff

theorem Track.Under.below {t u : Track} (h : t.Under u) : t.below u = true :=
  (t.below_iff u).2 (h.imp_right (And.imp_right Nat.le_of_lt))

theorem Track.Under.key_ne {t u : Track} (h : t.Under u) : t.key ≠ u.key := by
  intro same
  obtain ⟨base, id⟩ := Prod.mk.inj same
  rcases h with lower | ⟨-, lower⟩
  · exact lower.ne base
  · exact lower.ne (congrArg BitVec.toNat id)

theorem Track.key_eq_of_below {t u : Track} (up : t.below u = true) (down : u.below t = true) : t.key = u.key := by
  rw [Track.below_iff] at up down
  exact Prod.ext (by simp only [key]; omega) (BitVec.eq_of_toNat_eq (by simp only [key]; omega))

theorem nodup_keys_of_ids {l : List Track} (ids : l.Pairwise (fun t u => t.id ≠ u.id)) : (l.map Track.key).Nodup :=
  List.pairwise_map.2 (ids.imp fun differ same => differ (Prod.mk.inj same).2)

/-- The order leaves no choice where no two tracks share base and id. -/
theorem sortBelow_eq {l m : List Track} (perm : m.Perm l) (sorted : m.Pairwise (fun t u => t.below u = true))
    (keys : (l.map Track.key).Nodup) : sortBy Track.below l = m := by
  have sort := sortBy_perm Track.below l
  refine List.Perm.eq_of_pairwise (fun t u ht hu up down => ?_)
    (sortBy_pairwise Track.below below_total below_trans l) sorted (sort.trans perm.symm)
  exact List.inj_on_of_nodup_map keys (sort.mem_iff.1 ht) (perm.mem_iff.1 hu) (Track.key_eq_of_below up down)

theorem sortBelow_eq_of_under {l m : List Track} (perm : m.Perm l) (sorted : m.Pairwise Track.Under) :
    sortBy Track.below l = m :=
  sortBelow_eq perm (sorted.imp Track.Under.below)
    ((perm.map Track.key).nodup_iff.1 (List.pairwise_map.2 (sorted.imp Track.Under.key_ne)))

/-! ## One merge (R129, R130) -/

section
variable (mMin : Nat)

/-- Each track stands further above the ones below it than their tolerance. -/
def Separated (l : List Track) : Prop := l.Pairwise (fun t u => t.base + t.tol mMin < u.base)

theorem Separated.under {mMin : Nat} {l : List Track} (h : Separated mMin l) : l.Pairwise Track.Under :=
  h.imp fun apart => .inl (Nat.lt_of_le_of_lt (Nat.le_add_right _ _) apart)

theorem mergeFirst_eq_none (l : List Track) (h : Separated mMin l) : mergeFirst mMin l = none := by
  induction l with
  | nil => rfl
  | cons t rest ih =>
    cases rest with
    | nil => rfl
    | cons u rest =>
      obtain ⟨apart, tail⟩ := List.pairwise_cons.1 h
      have far := apart u List.mem_cons_self
      rw [mergeFirst, if_neg (by omega), ih tail, Option.map_none]

/-- The first pair within the lower track's tolerance is merged, above tracks that stand apart. -/
theorem mergeFirst_append (lower above : List Track) (t u : Track) (apart : Separated mMin (lower ++ [t]))
    (near : u.base ≤ t.base + t.tol mMin) :
    mergeFirst mMin (lower ++ t :: u :: above) = some (lower ++ mergeTracks t u :: above) := by
  have skip (x y : Track) (rest : List Track) (far : x.base + x.tol mMin < y.base) :
      mergeFirst mMin (x :: y :: rest) = (mergeFirst mMin (y :: rest)).map (x :: ·) := by
    rw [mergeFirst, if_neg (by omega)]
  induction lower with
  | nil => rw [List.nil_append, mergeFirst, if_pos (by omega), List.nil_append]
  | cons x lower ih =>
    obtain ⟨far, tail⟩ := List.pairwise_cons.1 apart
    have rest := ih tail
    cases lower with
    | nil => exact (skip x t _ (far t List.mem_cons_self)).trans (congrArg (Option.map (x :: ·)) rest)
    | cons y lower => exact (skip x y _ (far y List.mem_cons_self)).trans (congrArg (Option.map (x :: ·)) rest)

/-! ## The merges until none is left (R129) -/

variable {mMin}

theorem mergeAll_of_some {l m : List Track} (h : mergeFirst mMin l = some m) (n : Nat) :
    mergeAll mMin (n + 1) l = mergeAll mMin n m := by
  rw [mergeAll, h]

theorem mergeAll_of_none {l : List Track} (h : mergeFirst mMin l = none) (n : Nat) : mergeAll mMin n l = l := by
  cases n with
  | zero => rfl
  | succ n => rw [mergeAll, h]

/-- What each merge keeps, they all keep. -/
theorem mergeAll_keeps {P : List Track → Prop} (step : ∀ l m, mergeFirst mMin l = some m → P l → P m) (n : Nat)
    (l : List Track) (h : P l) : P (mergeAll mMin n l) := by
  induction n generalizing l with
  | zero => exact h
  | succ n ih =>
    cases merge : mergeFirst mMin l with
    | none => rwa [mergeAll_of_none merge]
    | some m => rw [mergeAll_of_some merge]; exact ih m (step l m merge h)

/-- As many merges as there are tracks are enough, since each removes one. -/
theorem mergeFirst_mergeAll (n : Nat) (l : List Track) (few : l.length ≤ n) :
    mergeFirst mMin (mergeAll mMin n l) = none := by
  induction n generalizing l with
  | zero => rw [List.length_eq_zero_iff.1 (Nat.le_zero.1 few)]; rfl
  | succ n ih =>
    cases merge : mergeFirst mMin l with
    | none => rwa [mergeAll_of_none merge]
    | some m =>
      obtain ⟨fewer, -⟩ := mergeFirst_some mMin l m merge
      rw [mergeAll_of_some merge]
      exact ih m (by omega)

/-! ## The pass -/

variable (mMin) (tracks : List Track)

theorem length_sortBelow : (sortBy Track.below tracks).length = tracks.length := (sortBy_perm _ _).length_eq

/-- What the sort gives and each merge keeps holds after the pass. -/
theorem orderingPass_keeps {P : List Track → Prop} (sorted : P (sortBy Track.below tracks))
    (step : ∀ l m, mergeFirst mMin l = some m → P l → P m) : P (orderingPass mMin tracks) :=
  mergeAll_keeps step _ _ sorted

theorem orderingPass_separated : Separated mMin (orderingPass mMin tracks) := by
  refine mergeFirst_none mMin _ (mergeFirst_mergeAll _ _ (length_sortBelow tracks).le) ?_
  refine orderingPass_keeps mMin tracks (P := List.Pairwise (fun t u => t.base ≤ u.base)) (sorted_base tracks)
    fun l m merge ascending => ?_
  obtain ⟨-, kept, -⟩ := mergeFirst_some mMin l m merge
  exact kept ascending

theorem orderingPass_length_le : (orderingPass mMin tracks).length ≤ tracks.length := by
  refine orderingPass_keeps mMin tracks (P := fun l => l.length ≤ tracks.length) (length_sortBelow tracks).le
    fun l m merge few => ?_
  obtain ⟨fewer, -⟩ := mergeFirst_some mMin l m merge
  omega

theorem orderingPass_from : ∀ t ∈ orderingPass mMin tracks, ∃ u ∈ tracks,
    u.id = t.id ∧ u.base = t.base ∧ u.origin = t.origin := by
  refine orderingPass_keeps mMin tracks
    (P := fun l => ∀ t ∈ l, ∃ u ∈ tracks, u.id = t.id ∧ u.base = t.base ∧ u.origin = t.origin)
    (fun t ht => ⟨t, (sortBy_perm _ _).mem_iff.1 ht, rfl, rfl, rfl⟩) fun l m merge kept t ht => ?_
  obtain ⟨-, -, source, -⟩ := mergeFirst_some mMin l m merge
  obtain ⟨v, hv, id, base, origin⟩ := source t ht
  obtain ⟨u, hu, id', base', origin'⟩ := kept v hv
  exact ⟨u, hu, id'.trans id, base'.trans base, origin'.trans origin⟩

theorem orderingPass_tableOk (h : TableOk tracks) : TableOk (orderingPass mMin tracks) := by
  refine orderingPass_keeps mMin tracks (P := TableOk) ?_ fun l m merge ⟨few, distinct, records⟩ => ?_
  · have sort := sortBy_perm Track.below tracks
    exact ⟨sort.length_eq.trans_le h.few, h.ids.perm sort.symm Ne.symm, fun t ht => h.records t (sort.mem_iff.1 ht)⟩
  · obtain ⟨fewer, -, -, ids, ok⟩ := mergeFirst_some mMin l m merge
    exact ⟨by omega, ids distinct, ok records⟩

/-- A sorted table in which a pair is merged goes through the pass as the table after the merge. -/
theorem orderingPass_of_merge {l m : List Track} (sorted : l.Pairwise Track.Under) (after : m.Pairwise Track.Under)
    (merge : mergeFirst mMin l = some m) : orderingPass mMin l = orderingPass mMin m := by
  obtain ⟨fewer, -⟩ := mergeFirst_some mMin l m merge
  rw [orderingPass, sortBelow_eq_of_under (.refl l) sorted, ← fewer, mergeAll_of_some merge, orderingPass,
    sortBelow_eq_of_under (.refl m) after]

end

/-! ## The survivor of a merge (R130) -/

theorem combine_hit_iff (x y : List HistoryMark) (i : Nat) :
    (combineHistory x y)[i]? = some .hit ↔ x[i]? = some .hit ∨ y[i]? = some .hit := by
  refine ⟨fun h => ?_, Or.rec (combine_left x y i) (combine_right x y i)⟩
  induction x generalizing y i with
  | nil => exact .inr (by simpa [combineHistory] using h)
  | cons a x ih =>
    cases y with
    | nil => exact .inl (by simpa [combineHistory] using h)
    | cons b y =>
      cases i with
      | zero => simpa [combineHistory, or_iff_not_imp_left] using h
      | succ i => exact ih y i (by simpa [combineHistory] using h)

theorem Track.survives_iff (t u : Track) : t.survives u = true ↔ t.SurvivesOver u := decide_eq_true_iff

/-- A merge gives the survivor what R130 says. -/
theorem Track.absorb_merged (t u : Track) : t.Merged u (u.absorb t) where
  kept := ⟨rfl, rfl, rfl, rfl, rfl⟩
  length := combine_length t.history u.history
  hit := combine_hit_iff t.history u.history
  peers := rfl
  own ht hu := by simp [absorb, ht, hu]
  ownOnly ht hu := by simp [absorb, ht, hu]
  neither ht _ := by simp [absorb, ht]
  lapse := ⟨fun ht => by simp [absorb, ht], fun x y ht hx hy => by simp [absorb, ht, hx, hy, laterLapse]⟩

theorem mergeTracks_merged (t u : Track) : (t.SurvivesOver u → t.Merged u (mergeTracks t u)) ∧
    (¬t.SurvivesOver u → u.Merged t (mergeTracks t u)) := by
  rw [← Track.survives_iff]
  refine ⟨fun survives => ?_, fun absorbed => ?_⟩
  · rw [mergeTracks, if_pos survives]; exact t.absorb_merged u
  · rw [mergeTracks, if_neg absorbed]; exact u.absorb_merged t

/-- The survivor stands in the order where the merged pair stood. -/
theorem under_merge {lower above : List Track} {t u : Track} (h : (lower ++ t :: u :: above).Pairwise Track.Under) :
    (lower ++ mergeTracks t u :: above).Pairwise Track.Under := by
  obtain ⟨v, kept, id, base, -⟩ := merge_keys t u
  have sub : (lower ++ v :: above).Sublist (lower ++ t :: u :: above) := by
    refine (List.Sublist.refl lower).append ?_
    rcases kept with rfl | rfl
    · exact ((List.sublist_cons_self u above).cons_cons v)
    · exact List.sublist_cons_self t (v :: above)
  have order := h.sublist sub
  simp only [List.pairwise_append, List.pairwise_cons, List.mem_cons, forall_eq_or_imp, Track.Under, id,
    base] at order ⊢
  exact order

/-- Settles O33: the sort is the only ordered arrangement, and the pass is its first merge with the pass over the
rest. -/
theorem orderingPassSeparatesTracks : Obligations.OrderingPassSeparatesTracks := by
  refine ⟨fun mMin tracks => ⟨orderingPass_separated mMin tracks, orderingPass_length_le mMin tracks,
    orderingPass_from mMin tracks⟩, fun mMin tracks sorted perm apart => ?_, fun mMin tracks other perm ids => ?_,
    fun mMin lower above t u sorted apart near => ?_⟩
  · rw [orderingPass, sortBelow_eq_of_under perm (Separated.under apart),
      mergeAll_of_none (mergeFirst_eq_none mMin _ apart)]
  · have sort : sortBy Track.below other = sortBy Track.below tracks :=
      sortBelow_eq ((sortBy_perm _ _).trans perm.symm) (sortBy_pairwise _ below_total below_trans _)
        (nodup_keys_of_ids (ids.perm perm.symm Ne.symm))
    rw [orderingPass, orderingPass, sort, perm.length_eq]
  · exact ⟨mergeTracks t u, orderingPass_of_merge mMin sorted (under_merge sorted)
      (mergeFirst_append mMin lower above t u apart near), mergeTracks_merged t u⟩

end Sys2Proof.Machine
end

section
/-! SUPPORT. Every step keeps the layer table: the own update, the peer report and the number taken change it, and a
reset or a restart empties it (R113..R116, R125, R126, R136, R146). -/

namespace Sys2Proof.Machine

/-! ## The tracker's own operations -/

section
variable (k : Tracker)

/-- A table is the layer table of R113 by its parts and its order. -/
theorem TableOk.tracker {k : Tracker} (h : TableOk k.tracks)
    (ascending : k.tracks.Pairwise (fun t u => t.base < u.base)) :
    k.Ok :=
  ⟨h.few, ascending, h.ids, h.records⟩

theorem Separated.ascending {mMin : Nat} {l : List Track} (h : Separated mMin l) :
    l.Pairwise (fun t u => t.base < u.base) :=
  h.imp fun apart => Nat.lt_of_le_of_lt (Nat.le_add_right _ _) apart

/-- A table that comes out of the ordering pass. -/
theorem Tracker.Ok.of_orderingPass {mMin : Nat} {l : List Track} (h : TableOk l)
    (passed : k.tracks = orderingPass mMin l) : k.Ok := by
  refine TableOk.tracker ?_ ?_ <;> rw [passed]
  · exact orderingPass_tableOk mMin l h
  · exact (orderingPass_separated mMin l).ascending

theorem Tracker.Ok.of_empty (empty : k.tracks = []) : k.Ok := by
  refine ⟨?_, ?_, ?_, ?_⟩ <;> simp [empty]

/-- The peer sets are no part of a track's bounds. -/
theorem Tracker.forget_ok (n : StationNo) (h : k.Ok) : (k.forget n).Ok :=
  h.of_map k (fun t => { t with peers := setErase n.val t.peers }) (fun _ => ⟨rfl, rfl⟩) (fun _ ok => ok) _ rfl

theorem Tracker.afterReport_ok (h : k.Ok) : k.afterReport.Ok :=
  h.of_map k (fun t => { t with peers := 0 }) (fun _ => ⟨rfl, rfl⟩) (fun _ ok => ok) _ rfl

/-- What a thin result leaves of a track (R119, R126). -/
def Track.afterThin (t : Track) : Option Track :=
  match t.origin with
  | .own => some t
  | .peerOnly => t.lapsed

theorem Track.afterThin_ok (t u : Track) (h : t.Ok) (left : t.afterThin = some u) :
    u.Ok ∧ u.id = t.id ∧ u.base = t.base := by
  cases origin : t.origin with
  | own =>
    simp only [afterThin, origin, Option.some.injEq] at left
    exact left ▸ ⟨h, rfl, rfl⟩
  | peerOnly =>
    simp only [afterThin, origin] at left
    have judged : t.judge 0 none = some u := by simp only [judge, origin, left]
    obtain ⟨ok, id⟩ := Track.judge_ok 0 none t u h judged
    refine ⟨ok, id, ?_⟩
    unfold lapsed at left
    split at left
    · split at left <;> cases left
      rfl
    · cases left
      rfl

theorem Tracker.thinUpdate_ok (h : k.Ok) (l : Tracker) (thin : l.tracks = k.tracks.filterMap Track.afterThin) :
    l.Ok := by
  have left (t : Track) (ht : t ∈ k.tracks) (u : Track) := Track.afterThin_ok t u (h.records t ht)
  refine ⟨?_, ?_, ?_, fun u hu => ?_⟩
  · rw [thin]
    exact (List.length_filterMap_le _ _).trans h.few
  · rw [thin]
    refine List.pairwise_filterMap.2 (h.ascending.imp_of_mem fun {a b} ha hb order x hx y hy => ?_)
    obtain ⟨-, -, base⟩ := left a ha x hx
    obtain ⟨-, -, base'⟩ := left b hb y hy
    rwa [base, base']
  · rw [thin]
    refine List.pairwise_filterMap.2 (h.ids.imp_of_mem fun {a b} ha hb differ x hx y hy => ?_)
    obtain ⟨-, id, -⟩ := left a ha x hx
    obtain ⟨-, id', -⟩ := left b hb y hy
    rwa [id, id']
  · rw [thin] at hu
    obtain ⟨t, ht, hu⟩ := List.mem_filterMap.1 hu
    exact (left t ht u hu).1

/-- The tracker before the ordering pass of an own update that is not thin (R121..R128). -/
def Tracker.beforePass (mMin : Nat) (r : ResultRecord) (k : Tracker) : Tracker :=
  (freshCandidates mMin r.candidates k.tracks).foldl Tracker.takeFresh
    { k with reach := r.reach, tracks := judgeTracks mMin (r.reach.getD 0) r.candidates k.tracks }

theorem Tracker.ownUpdate_of_thin (mMin : Nat) (r : ResultRecord) (thin : r.thin = true) :
    k.ownUpdate mMin r =
      { k with
        tracks := k.tracks.filterMap Track.afterThin
        ceiling := ceilingOf (k.tracks.filterMap Track.afterThin) } := by
  simp only [ownUpdate, thin, if_true]
  rfl

theorem Tracker.ownUpdate_of_not_thin (mMin : Nat) (r : ResultRecord) (full : r.thin = false) :
    k.ownUpdate mMin r =
      { k.beforePass mMin r with
        tracks := orderingPass mMin (k.beforePass mMin r).tracks
        ceiling := ceilingOf (orderingPass mMin (k.beforePass mMin r).tracks) } := by
  simp only [ownUpdate, full, Bool.false_eq_true, if_false]
  rfl

theorem Tracker.ownUpdate_ok (mMin : Nat) (r : ResultRecord) (h : k.Ok) : (k.ownUpdate mMin r).Ok := by
  cases thin : r.thin with
  | true => rw [ownUpdate_of_thin k mMin r thin]; exact thinUpdate_ok k h _ rfl
  | false =>
    rw [ownUpdate_of_not_thin k mMin r thin]
    exact .of_orderingPass _ (foldFresh_ok _ _ (judgeTracks_ok mMin _ _ _ h.table)) rfl

theorem Tracker.peerReport_ok (mMin : Nat) (sender : StationNo) (layers : List LayerFields) (h : k.Ok) :
    (k.peerReport mMin sender layers).Ok := by
  have start : PassOk ⟨k.tracks.map (fun t => (t, false)), k.nextId, false⟩ :=
    ⟨by simpa using h.few, List.pairwise_map.2 h.ids, by simpa using h.records,
      fun _ => List.pairwise_map.2 h.ascending⟩
  have pass := PeerPass.fold_ok mMin k.reach sender (layers.filter LayerFields.usable) _ start
  unfold peerReport
  generalize (layers.filter LayerFields.usable).foldl _ _ = p at pass
  have parts : TableOk (p.tracks.map Prod.fst) :=
    ⟨by simpa using pass.few, List.pairwise_map.2 pass.ids, List.forall_mem_map.2 pass.records⟩
  cases changed : p.changed with
  | true => exact .of_orderingPass _ parts (if_pos changed)
  | false =>
    simp only [changed, Bool.false_eq_true, if_false]
    exact TableOk.tracker parts (List.pairwise_map.2 (pass.ascending changed))

end

/-! ## The operations of the other blocks that reach the tracker -/

section
variable (s : State) (h : s.tracker.Ok)
include h

theorem setOwnNumber_trackerOk (own : Option StationNo) : (setOwnNumber own s).tracker.Ok := by
  cases own with
  | none => simpa [setOwnNumber] using h
  | some n => simpa [setOwnNumber] using s.tracker.forget_ok n h

theorem holdOffEnds_trackerOk : (holdOffEnds s).tracker.Ok := by
  unfold holdOffEnds
  split
  · exact h
  · rename_i w _
    have numbered := setOwnNumber_trackerOk
      ((s.mapNum fun u => { u with holdOff := none }).mapNum fun u => { u with state := .numbered }) h (some w)
    dsimp only
    split
    · simpa using numbered
    · exact numbered

theorem numberingBoundary_trackerOk : (numberingBoundary s).tracker.Ok := by
  unfold numberingBoundary
  split
  · split
    · simpa using h
    · exact h
  · split
    · split
      · exact holdOffEnds_trackerOk s h
      · exact h
    · exact h

theorem cycleBoundary_trackerOk : (cycleBoundary s).tracker.Ok :=
  numberingBoundary_trackerOk _ (by simpa using h)

theorem yieldNumber_trackerOk (n : StationNo) : (yieldNumber n s).tracker.Ok := by
  unfold yieldNumber
  split
  · simpa using setOwnNumber_trackerOk (s.mapNum fun u =>
      { u with
        state := .claiming
        taken := setInsert n.val 0
        wanted := none
        listen := some Config.listenPeriod
        holdOff := none }) h none
  · split
    · exact h
    · split
      · exact h
      · simpa using h

theorem numberingTakes_trackerOk (n : StationNo) (serial : Option Serial) : (numberingTakes n serial s).tracker.Ok := by
  unfold numberingTakes
  split
  · exact h
  · (repeat' split) <;> simpa using h
  · split
    · exact h
    · split
      · split
        · simpa using h
        · split
          · exact yieldNumber_trackerOk s h n
          · exact h
      · exact h

theorem stepTimer_trackerOk (sender : Nat) (d : Int) : (stepTimer sender d s).tracker.Ok := by
  unfold stepTimer
  dsimp only
  split
  · simp only [slip_frame]
    exact cycleBoundary_trackerOk _ h
  · simpa using h

theorem measure_trackerOk (n : StationNo) (f : NoticeFields) : (measure n f s).tracker.Ok := by
  unfold measure
  split
  · dsimp only
    split
    · exact h
    · exact stepTimer_trackerOk s h _ _
  · exact h

theorem takeNotice_trackerOk (n : StationNo) (f : NoticeFields) : (takeNotice n f s).tracker.Ok :=
  numberingTakes_trackerOk _ (measure_trackerOk _ (by simpa using h) n f) n _

theorem takeReport_trackerOk (n : StationNo) (f : ReportFields) : (takeReport n f s).tracker.Ok := by
  refine numberingTakes_trackerOk _ ?_ n none
  unfold trackerTakesReport
  split
  · exact s.tracker.peerReport_ok _ n f.layers h
  · exact h

theorem takeRestart_trackerOk (target scope : Byte) : (takeRestart target scope s).tracker.Ok := by
  unfold takeRestart
  split
  · split
    · exact .of_empty _ rfl
    · split
      · simpa using h
      · exact h
    · exact .of_empty _ rfl
    · exact h
  · exact h

theorem takeFrame_trackerOk (f : Frame) : (takeFrame f s).tracker.Ok := by
  cases f with
  | claim n serial =>
    simp only [takeFrame]
    split
    · exact numberingTakes_trackerOk s h _ _
    · exact h
  | notice n fields =>
    simp only [takeFrame]
    split
    · exact takeNotice_trackerOk s h _ _
    · exact h
  | report n fields =>
    simp only [takeFrame]
    split
    · exact takeReport_trackerOk s h _ _
    · exact h
  | query n target item => simpa [takeFrame] using h
  | status n payload => exact h
  | quiet n target seconds => simpa [takeFrame] using h
  | restart n target scope => exact takeRestart_trackerOk s h target scope

theorem loadDone_trackerOk (record : List Byte) : (loadDone record s).tracker.Ok := by
  unfold loadDone
  dsimp only
  split
  · split
    · exact setOwnNumber_trackerOk _ (by simpa using h) none
    · unfold loadFixed
      dsimp only
      split <;> simpa using setOwnNumber_trackerOk _ (by simpa using h) _
  · exact setOwnNumber_trackerOk _ (by simpa using h) none

theorem ownUpdate_trackerOk (r : ResultRecord) : (ownUpdate r s).tracker.Ok := by
  have updated := s.tracker.ownUpdate_ok (s.cfgNat StationConfig.mMin) r h
  cases live : s.live with
  | true => rw [ownUpdate_of_live r s live]; exact Tracker.afterReport_ok _ updated
  | false => rw [ownUpdate_of_not_live r s live]; exact updated

theorem advance_trackerOk : (advance s).tracker.Ok := by
  unfold advance
  dsimp only
  split
  · simpa using cycleBoundary_trackerOk (s.mapTimer (Timer.arrive 0)) h
  · split
    · simpa using h
    · exact h

theorem tick_trackerOk : (tick s).tracker.Ok := by
  simpa [tick] using advance_trackerOk (windowTick (convertTick s)) (by simpa using h)

end

/-! ## Every command -/

theorem CommandStep.keepsTracker {s t : State} (step : CommandStep s t) (h : s.tracker.Ok) : t.tracker.Ok := by
  have kept : ∀ u : State, u.tracker = s.tracker → u.tracker.Ok := fun u same => same ▸ h
  cases step with
  | reset band => exact .of_empty _ rfl
  | boundary => exact cycleBoundary_trackerOk _ h
  | holdOffEnd => exact holdOffEnds_trackerOk s h
  | reduced r => simpa using ownUpdate_trackerOk s h r.result
  | load record => exact loadDone_trackerOk s h record
  | frame f rx => exact takeFrame_trackerOk _ (by simpa using h) f
  | nothing | slotStart | heardLapse | suppressionEnd | peerLapse | countdown | chargeTimeout | deadline | listenEnd
    | quietEnd | chargeDone | bandChange | reading | windowEnd | capture | lineIdle | attempt | loss | collision
    | transmitted | startBit | discard => exact kept _ (by simp)

/-- Settles O57: the microsecond and the operations behind the commands keep the layer table. -/
theorem everyStepKeepsTheLayerTable : Obligations.EveryStepKeepsTheLayerTable :=
  keeps_of_commandStep_of_tick (P := fun s => s.tracker.Ok) (fun _ _ h => h) (fun _ _ step h => step.keepsTracker h)
    tick_trackerOk

end Sys2Proof.Machine
end

section
/-! SUPPORT. The cover of a track and the ceiling of the table (R131, R132). -/

namespace Sys2Proof.Machine

/-! ## The cover (R131) -/

section
variable (t : Track)

theorem Track.hits_le : t.hits ≤ t.history.length := List.countP_le_length

theorem Track.cover_of_nil (h : t.history = []) : t.cover = 0 := if_pos (by rw [h]; rfl)

theorem Track.cover_of_ne_nil (h : t.history ≠ []) :
    t.cover = (t.hits * 16 + t.history.length) / (2 * t.history.length) :=
  if_neg (mt List.length_eq_zero_iff.1 h)

/-- The quotient of R131 lies in 0..8, is 0 below half an okta, and is 8 where every outcome is a hit. -/
theorem coverQuotient_bounds {hits length : Nat} (long : 0 < length) (le : hits ≤ length) :
    (hits * 16 + length) / (2 * length) ≤ 8 ∧
      ((hits * 16 + length) / (2 * length) = 0 ↔ hits * 16 < length) ∧
      (hits = length → (hits * 16 + length) / (2 * length) = 8) := by
  refine ⟨Nat.le_of_lt_succ ((Nat.div_lt_iff_lt_mul (by omega)).2 (by omega)), ?_, fun all => ?_⟩
  · rw [Nat.div_eq_zero_iff]
    omega
  · exact Nat.div_eq_of_lt_le (by omega) (by omega)

end

/-! ## The ceiling (R132) -/

/-- A track that can give the ceiling. -/
def Track.coversSky (t : Track) : Prop := t.origin = .own ∧ 5 ≤ t.cover

theorem coversSky_iff (t : Track) : (t.origin == .own && decide (t.cover ≥ 5)) = true ↔ t.coversSky := by
  simp [Track.coversSky]

theorem ceilingOf_eq_none {l : List Track} (h : ceilingOf l = none) : ∀ t ∈ l, ¬t.coversSky := by
  intro t ht sky
  exact List.find?_eq_none.1 (Option.map_eq_none_iff.1 h) t ht ((coversSky_iff t).2 sky)

/-- In an ascending table the first track that covers enough of the sky is the lowest one. -/
theorem ceilingOf_eq_some {l : List Track} {h : Nat} (ascending : l.Pairwise (fun t u => t.base < u.base))
    (ceiling : ceilingOf l = some h) : (∃ t ∈ l, t.base = h ∧ t.coversSky) ∧ ∀ t ∈ l, t.coversSky → h ≤ t.base := by
  obtain ⟨t, found, base⟩ := Option.map_eq_some_iff.1 ceiling
  obtain ⟨sky, lower, higher, rfl, before⟩ := List.find?_eq_some_iff_append.1 found
  refine ⟨⟨t, by simp, base, (coversSky_iff t).1 sky⟩, fun u hu skyU => ?_⟩
  obtain ⟨-, above, -⟩ := List.pairwise_append.1 ascending
  rcases List.mem_append.1 hu with below | rest
  · simpa [(coversSky_iff u).2 skyU] using before u below
  · rcases List.mem_cons.1 rest with rfl | higher
    · exact base.ge
    · exact base ▸ ((List.pairwise_cons.1 above).1 u higher).le

theorem Tracker.ownUpdate_ceiling (mMin : Nat) (r : ResultRecord) (k : Tracker) :
    (k.ownUpdate mMin r).ceiling = ceilingOf (k.ownUpdate mMin r).tracks := rfl

/-- Settles O30: the quotient of R131, and the first of an ascending table that covers 5 oktas. -/
theorem coverAndCeiling : Obligations.CoverAndCeiling := by
  refine ⟨fun t => ⟨t.cover_of_nil, t.cover_of_ne_nil, ?_⟩, ?_⟩
  · by_cases empty : t.history = []
    · have noHit : t.hits = 0 := by rw [Track.hits, empty]; rfl
      rw [t.cover_of_nil empty]
      exact ⟨Nat.zero_le 8, fun _ => by simp [noHit], fun long => absurd empty long⟩
    · have long := List.length_pos_iff.2 empty
      obtain ⟨le, zero, all⟩ := coverQuotient_bounds long t.hits_le
      rw [t.cover_of_ne_nil empty]
      exact ⟨le, fun few => zero.trans (by omega), fun _ => all⟩
  · rintro mMin r k u rfl ok
    have table := k.ownUpdate_ok mMin r ok
    rw [k.ownUpdate_ceiling]
    refine ⟨fun h ceiling => ?_, fun absent t ht own => ?_⟩
    · obtain ⟨⟨t, ht, base, own, cover⟩, lowest⟩ := ceilingOf_eq_some table.ascending ceiling
      exact ⟨⟨t, ht, base, own, cover⟩, fun u hu own cover => lowest u hu ⟨own, cover⟩⟩
    · exact Nat.lt_of_not_le fun cover => ceilingOf_eq_none absent t ht ⟨own, cover⟩

end Sys2Proof.Machine
end

section
/-! SUPPORT. The matching of candidates and tracks (R121). -/

namespace Sys2Proof.Machine

/-! ## The pairs (R121, step 1) -/

theorem placed_eq_zipIdx {α : Type} (n : Nat) (l : List α) : placed n l = (l.zipIdx n).map Prod.swap := by
  induction l generalizing n with
  | nil => rfl
  | cons x rest ih => rw [placed, List.zipIdx_cons, List.map_cons, ih, Prod.swap]

theorem mem_placed_iff {α : Type} {l : List α} {i : Nat} {x : α} : (i, x) ∈ placed 0 l ↔ l[i]? = some x := by
  simp [placed_eq_zipIdx, List.mk_mem_zipIdx_iff_getElem?]

section
variable (mMin : Nat) (candidates : List Candidate) (tracks : List Track)

/-- A pair stands for the candidate and the track at its places, the candidate within the track's tolerance. -/
theorem mem_pairsOf_iff (p : Pair) : p ∈ pairsOf mMin candidates tracks ↔
    ∃ c t, candidates[p.candidate]? = some c ∧ tracks[p.track]? = some t ∧ t.within mMin c.base = true ∧
      p.distance = distance c.base t.base ∧ p.trackBase = t.base ∧ p.candidateBase = c.base := by
  simp only [pairsOf, List.mem_flatMap, List.mem_filterMap, Prod.exists, mem_placed_iff, Option.ite_none_right_eq_some]
  constructor
  · rintro ⟨i, c, hc, j, t, ht, near, made⟩
    obtain rfl := Option.some.inj made
    exact ⟨c, t, hc, ht, near, rfl, rfl, rfl⟩
  · rintro ⟨c, t, hc, ht, near, distance, trackBase, candidateBase⟩
    refine ⟨p.candidate, c, hc, p.track, t, ht, near, ?_⟩
    rw [← distance, ← trackBase, ← candidateBase]

/-! ## The pairs taken (R121, steps 2 and 3) -/

/-- Two pairs with a member in common. -/
def Pair.Meets (p q : Pair) : Prop := p.candidate = q.candidate ∨ p.track = q.track

theorem Pair.before_iff (p q : Pair) : p.before q = true ↔ p.distance < q.distance ∨
    (p.distance = q.distance ∧
      (p.trackBase < q.trackBase ∨ (p.trackBase = q.trackBase ∧ p.candidateBase ≤ q.candidateBase))) :=
  decide_eq_true_iff

theorem Pair.before_total (p q : Pair) : p.before q = true ∨ q.before p = true := by
  simp only [before_iff]
  omega

theorem Pair.before_trans (p q r : Pair) : p.before q = true → q.before r = true → p.before r = true := by
  simp only [before_iff]
  omega

theorem any_meets_iff (taken : List Pair) (p : Pair) :
    taken.any (fun q => q.candidate == p.candidate || q.track == p.track) = true ↔ ∃ q ∈ taken, q.Meets p := by
  simp [Pair.Meets]

section
variable {taken : List Pair} {p : Pair} (rest : List Pair)

theorem takePairs_of_meets (h : ∃ q ∈ taken, q.Meets p) : takePairs taken (p :: rest) = takePairs taken rest :=
  if_pos ((any_meets_iff taken p).2 h)

theorem takePairs_of_free (h : ¬∃ q ∈ taken, q.Meets p) :
    takePairs taken (p :: rest) = takePairs (taken ++ [p]) rest :=
  if_neg (mt (any_meets_iff taken p).1 h)

end

/-- What is taken stays taken, and nothing is taken that is no pair. -/
theorem takePairs_between (rest taken : List Pair) :
    taken ⊆ takePairs taken rest ∧ takePairs taken rest ⊆ taken ++ rest := by
  induction rest generalizing taken with
  | nil => exact ⟨List.Subset.refl _, by simp [takePairs]⟩
  | cons p rest ih =>
    by_cases meets : ∃ q ∈ taken, q.Meets p
    · obtain ⟨kept, among⟩ := ih taken
      rw [takePairs_of_meets rest meets]
      exact ⟨kept, List.Subset.trans among ((List.sublist_cons_self p rest).append_left taken).subset⟩
    · obtain ⟨kept, among⟩ := ih (taken ++ [p])
      rw [takePairs_of_free rest meets]
      exact ⟨fun q hq => kept (List.mem_append_left _ hq), by simpa using among⟩

theorem takePairs_pairwise (rest taken : List Pair) (h : taken.Pairwise (fun p q => ¬p.Meets q)) :
    (takePairs taken rest).Pairwise (fun p q => ¬p.Meets q) := by
  induction rest generalizing taken with
  | nil => exact h
  | cons p rest ih =>
    by_cases meets : ∃ q ∈ taken, q.Meets p
    · rw [takePairs_of_meets rest meets]
      exact ih taken h
    · rw [takePairs_of_free rest meets]
      refine ih _ (List.pairwise_append.2 ⟨h, List.pairwise_singleton _ _, fun q hq r hr => ?_⟩)
      obtain rfl := List.mem_singleton.1 hr
      exact fun meet => meets ⟨q, hq, meet⟩

/-- A pair is passed over only for one that was taken before it. -/
theorem takePairs_covers (rest taken : List Pair)
    (order : (taken ++ rest).Pairwise (fun p q => p.before q = true)) :
    ∀ p ∈ rest, ∃ q ∈ takePairs taken rest, q.Meets p ∧ q.before p = true := by
  induction rest generalizing taken with
  | nil => nofun
  | cons r rest ih =>
    intro p hp
    by_cases meets : ∃ q ∈ taken, q.Meets r
    · rw [takePairs_of_meets rest meets]
      rcases List.mem_cons.1 hp with rfl | hp
      · obtain ⟨q, hq, meet⟩ := meets
        obtain ⟨-, -, across⟩ := List.pairwise_append.1 order
        exact ⟨q, (takePairs_between rest taken).1 hq, meet, across q hq p List.mem_cons_self⟩
      · exact ih taken (order.sublist ((List.sublist_cons_self r rest).append_left taken)) p hp
    · rw [takePairs_of_free rest meets]
      rcases List.mem_cons.1 hp with rfl | hp
      · exact ⟨p, (takePairs_between rest (taken ++ [p])).1 (by simp), .inl rfl, (p.before_total p).elim id id⟩
      · exact ih (taken ++ [r]) (by simpa using order) p hp

/-! ## The matches -/

theorem mem_pairsOf_of_mem_matchesOf {p : Pair} (h : p ∈ matchesOf mMin candidates tracks) :
    p ∈ pairsOf mMin candidates tracks :=
  (sortBy_perm _ _).mem_iff.1 ((takePairs_between _ []).2 h)

theorem matchesOf_pairwise : (matchesOf mMin candidates tracks).Pairwise (fun p q => ¬p.Meets q) :=
  takePairs_pairwise _ [] .nil

theorem matchesOf_covers : ∀ p ∈ pairsOf mMin candidates tracks,
    ∃ q ∈ matchesOf mMin candidates tracks, q.Meets p ∧ q.before p = true := by
  intro p hp
  exact takePairs_covers _ [] (sortBy_pairwise _ Pair.before_total Pair.before_trans _) p
    ((sortBy_perm _ _).mem_iff.2 hp)

end

/-- Settles O31: each match is a pair, none meets another, and each pair meets a match that comes before it. -/
theorem matchingUsesEachMemberOnce : Obligations.MatchingUsesEachMemberOnce := by
  intro mMin candidates tracks
  refine ⟨fun p hp => ?_, (matchesOf_pairwise mMin candidates tracks).imp not_or.1, fun i j c t hc ht near => ?_⟩
  · obtain ⟨c, t, hc, ht, near, -⟩ :=
      (mem_pairsOf_iff mMin candidates tracks p).1 (mem_pairsOf_of_mem_matchesOf mMin candidates tracks hp)
    exact ⟨c, t, hc, ht, near⟩
  · obtain ⟨p, hp, meets, before⟩ := matchesOf_covers mMin candidates tracks
      ⟨i, j, distance c.base t.base, t.base, c.base⟩
      ((mem_pairsOf_iff mMin candidates tracks _).2 ⟨c, t, hc, ht, near, rfl, rfl, rfl⟩)
    obtain ⟨x', y', hx', hy', -, distance, trackBase, candidateBase⟩ :=
      (mem_pairsOf_iff mMin candidates tracks p).1 (mem_pairsOf_of_mem_matchesOf mMin candidates tracks hp)
    refine ⟨p, hp, meets, fun x y hx hy => ?_⟩
    obtain rfl := Option.some.inj (hx.symm.trans hx')
    obtain rfl := Option.some.inj (hy.symm.trans hy')
    rw [← distance, ← trackBase, ← candidateBase]
    exact (p.before_iff _).1 before

end Sys2Proof.Machine
end

section
/-! SUPPORT. The outcomes of an own update: the judged tracks, the fresh candidates, the free ids, the victim, and the
update as a whole (R116, R119, R120, R122..R129). -/

namespace Sys2Proof.Machine

/-! ## The outcome of one track (R122..R126) -/

section
variable (reach : Nat) (c : Candidate) (t : Track)

theorem Track.judge_of_suspect (suspect : c.suspect = true) : t.judge reach (some c) = some t := by
  rw [judge, matched, if_pos suspect]

theorem Track.judge_hit (clear : c.suspect = false) (own : t.origin = .own) :
    t.judge reach (some c) = some (t.hit c) := by
  simp only [judge, matched, clear, own, Bool.false_eq_true, if_false]

theorem Track.judge_promote (clear : c.suspect = false) (peerOnly : t.origin = .peerOnly) :
    t.judge reach (some c) = some (t.promote c) := by
  simp only [judge, matched, clear, peerOnly, Bool.false_eq_true, if_false]

theorem Track.judge_unmatched_own (own : t.origin = .own) :
    t.judge reach none = if (t.missed reach).outlived = true then none else some (t.missed reach) := by
  simp only [judge, own]

/-- Above the reach an own-origin track is unseen once more, and removed at the sixteenth time. -/
theorem Track.judge_unseen (own : t.origin = .own) (above : reach < t.base) (young : t.age < 8) :
    t.judge reach none = if 15 ≤ t.unseen then none else some { t with unseen := t.unseen + 1 } := by
  rw [judge_unmatched_own reach t own, missed, if_pos above]
  refine if_congr ?_ rfl rfl
  rw [outlived, decide_eq_true_iff]
  simp only
  omega

/-- At or below the reach an own-origin track takes a miss, and is removed at an age of 8. -/
theorem Track.judge_missed (own : t.origin = .own) (below : t.base ≤ reach) (seen : t.unseen < 16) (young : t.age ≤ 7) :
    t.judge reach none =
      if t.age = 7 then none else some { t with history := appendOutcome .miss t.history, age := t.age + 1 } := by
  rw [judge_unmatched_own reach t own, missed, if_neg below.not_gt]
  refine if_congr ?_ rfl rfl
  rw [outlived, decide_eq_true_iff]
  simp only
  omega

theorem Track.judge_lapsed (peerOnly : t.origin = .peerOnly) (k : Nat) (lapse : t.lapse = some k) :
    t.judge reach none = if k ≤ 1 then none else some { t with lapse := some (k - 1) } := by
  simp only [judge, peerOnly, lapsed, lapse]

end

/-! ## The candidates a matching leaves, and those it gives (R121, R127) -/

section
variable (mMin : Nat) (candidates : List Candidate) (tracks : List Track)

/-- The fresh candidates are those of the list that no match uses and that are not suspect, in its order. -/
theorem freshCandidates_eq : freshCandidates mMin candidates tracks =
    ((placed 0 candidates).filter fun x =>
      !((matchesOf mMin candidates tracks).any (fun p => p.candidate == x.1) || x.2.suspect)).map Prod.snd := by
  rw [← List.filterMap_eq_map, List.filterMap_filter, freshCandidates]
  refine List.filterMap_congr fun x _ => ?_
  cases (matchesOf mMin candidates tracks).any (fun p => p.candidate == x.1) || x.2.suspect <;> rfl

theorem freshCandidates_sublist : (freshCandidates mMin candidates tracks).Sublist candidates := by
  rw [freshCandidates_eq]
  exact (List.filter_sublist.map Prod.snd).trans (by rw [placed_map])

theorem mem_freshCandidates_iff (c : Candidate) : c ∈ freshCandidates mMin candidates tracks ↔
    ∃ i : Nat, candidates[i]? = some c ∧ (∀ p ∈ matchesOf mMin candidates tracks, p.candidate ≠ i) ∧
      c.suspect = false := by
  simp [freshCandidates_eq, mem_placed_iff]

/-- With distinct bases a candidate stands at one place. -/
theorem place_unique (distinct : candidates.Pairwise (fun x y => x.base ≠ y.base)) {i j : Nat} {c : Candidate}
    (hi : candidates[i]? = some c) (hj : candidates[j]? = some c) : i = j := by
  obtain ⟨below, rfl⟩ := List.getElem?_eq_some_iff.1 hi
  have nodup : candidates.Nodup := distinct.imp fun differ same => differ (congrArg Candidate.base same)
  exact (List.getElem?_inj below nodup).1 (hi.trans hj.symm)

/-- The matching gives a track the candidate of its match. -/
theorem matchOf_of_mem {p : Pair} (hp : p ∈ matchesOf mMin candidates tracks) :
    matchOf (matchesOf mMin candidates tracks) candidates p.track = candidates[p.candidate]? := by
  have once : (matchesOf mMin candidates tracks).Pairwise (fun p q => p.track ≠ q.track) :=
    (matchesOf_pairwise mMin candidates tracks).imp fun apart => (not_or.1 apart).2
  have found : (matchesOf mMin candidates tracks).find? (fun q => q.track == p.track) = some p := by
    obtain ⟨before, after, split⟩ := List.append_of_mem hp
    rw [split] at once ⊢
    obtain ⟨-, -, across⟩ := List.pairwise_append.1 once
    exact List.find?_eq_some_iff_append.2 ⟨by simp, before, after, rfl, fun q hq => by
      simpa using across q hq p List.mem_cons_self⟩
  rw [matchOf, found]

theorem matchOf_of_unmatched {j : Nat} (h : ∀ p ∈ matchesOf mMin candidates tracks, p.track ≠ j) :
    matchOf (matchesOf mMin candidates tracks) candidates j = none := by
  have absent : (matchesOf mMin candidates tracks).find? (fun p => p.track == j) = none :=
    List.find?_eq_none.2 fun p hp same => h p hp (by simpa using same)
  rw [matchOf, absent]

/-- Each track is judged with the candidate the matching gives it, or with none. -/
theorem judgeTracks_eq (reach : Nat) (given : List (Option Candidate)) (length : given.length = tracks.length)
    (matched : ∀ p ∈ matchesOf mMin candidates tracks, given[p.track]? = some candidates[p.candidate]?)
    (unmatched : ∀ j : Nat, j < tracks.length → (∀ p ∈ matchesOf mMin candidates tracks, p.track ≠ j) →
      given[j]? = some none) :
    judgeTracks mMin reach candidates tracks = (tracks.zip given).filterMap (fun x => x.1.judge reach x.2) := by
  have places : given =
      (List.range' 0 tracks.length).map (matchOf (matchesOf mMin candidates tracks) candidates) := by
    refine List.ext_getElem (by simp [length]) fun j below _ => Option.some.inj ?_
    rw [← List.getElem?_eq_getElem below, List.getElem_map, List.getElem_range', Nat.zero_add, Nat.one_mul]
    by_cases used : ∃ p ∈ matchesOf mMin candidates tracks, p.track = j
    · obtain ⟨p, hp, rfl⟩ := used
      rw [matched p hp, matchOf_of_mem mMin candidates tracks hp]
    · have free : ∀ p ∈ matchesOf mMin candidates tracks, p.track ≠ j := fun p hp same => used ⟨p, hp, same⟩
      rw [unmatched j (length ▸ below) free, matchOf_of_unmatched mMin candidates tracks free]
  rw [judgeTracks, placed_eq_zipIdx, List.zipIdx_eq_zip_range', places, List.zip_map_right, List.filterMap_map,
    List.filterMap_map]
  rfl

end

/-! ## The next free id (R116) -/

/-- The search stops at an id that all those before it led past. -/
theorem freeIdFrom_reached (tracks : List Track) (n : Nat) (counter : Byte) :
    ∃ d : Nat, d ≤ n ∧ freeIdFrom tracks n counter = counter + BitVec.ofNat 8 d ∧
      ∀ e : Nat, e < d → ∃ t ∈ tracks, t.id = counter + BitVec.ofNat 8 e := by
  induction n generalizing counter with
  | zero => exact ⟨0, le_refl 0, (BitVec.add_zero counter).symm, nofun⟩
  | succ n ih =>
    have next (e : Nat) : counter + 1 + BitVec.ofNat 8 e = counter + BitVec.ofNat 8 (e + 1) := by bv_omega
    rw [freeIdFrom]
    split
    · rename_i held
      obtain ⟨t, ht, id⟩ := List.any_eq_true.1 held
      obtain ⟨d, le, reached, passed⟩ := ih (counter + 1)
      refine ⟨d + 1, Nat.succ_le_succ le, reached.trans (next d), fun e he => ?_⟩
      cases e with
      | zero => exact ⟨t, ht, (by simpa using id : t.id = counter).trans (BitVec.add_zero counter).symm⟩
      | succ e =>
        obtain ⟨u, hu, id⟩ := passed e (Nat.lt_of_succ_lt_succ he)
        exact ⟨u, hu, id.trans (next e)⟩
    · exact ⟨0, Nat.zero_le _, (BitVec.add_zero counter).symm, nofun⟩

/-- No more ids in a row are held than there are tracks. -/
theorem held_le_length (tracks : List Track) (counter : Byte) (d : Nat) (small : d ≤ 256)
    (held : ∀ e : Nat, e < d → ∃ t ∈ tracks, t.id = counter + BitVec.ofNat 8 e) : d ≤ tracks.length := by
  have distinct : ((List.range d).map fun e => counter + BitVec.ofNat 8 e).Nodup := by
    refine List.Nodup.map_on (fun x hx y hy same => ?_) List.nodup_range
    rw [List.mem_range] at hx hy
    have number := congrArg BitVec.toNat same
    simp only [BitVec.toNat_add, BitVec.toNat_ofNat] at number
    omega
  have among : ((List.range d).map fun e => counter + BitVec.ofNat 8 e) ⊆ tracks.map Track.id := by
    intro id hid
    obtain ⟨e, he, rfl⟩ := List.mem_map.1 hid
    obtain ⟨t, ht, id⟩ := held e (List.mem_range.1 he)
    exact List.mem_map.2 ⟨t, ht, id⟩
  simpa using (List.subperm_of_subset distinct among).length_le

theorem Tracker.freeId_nextFree (k : Tracker) (few : k.tracks.length ≤ 200) :
    NextFreeId k.tracks k.nextId k.freeId := by
  obtain ⟨d, le, reached, passed⟩ := freeIdFrom_reached k.tracks (k.tracks.length + 1) k.nextId
  exact ⟨freeIdFrom_free' k.tracks k.nextId few, d, held_le_length k.tracks k.nextId d (by omega) passed,
    reached, passed⟩

/-! ## The victim (R128) -/

/-- The place of an origin in the choice of a victim: peer-only tracks first. -/
def Track.rank (t : Track) : Nat :=
  match t.origin with
  | .peerOnly => 0
  | .own => 1

theorem Track.victimBefore_iff (t u : Track) : t.victimBefore u = true ↔ t.rank < u.rank ∨ (t.rank = u.rank ∧
    (t.hits < u.hits ∨ (t.hits = u.hits ∧ (u.base < t.base ∨ (t.base = u.base ∧ t.id.toNat ≤ u.id.toNat))))) :=
  decide_eq_true_iff

theorem Track.victimBefore_total (t u : Track) : t.victimBefore u = true ∨ u.victimBefore t = true := by
  simp only [victimBefore_iff]
  omega

theorem Track.victimBefore_trans (t u v : Track) :
    t.victimBefore u = true → u.victimBefore v = true → t.victimBefore v = true := by
  simp only [victimBefore_iff]
  omega

/-- The order of R128 is strict. -/
theorem Track.VictimOver.not_victimBefore {v u : Track} (h : v.VictimOver u) : ¬u.victimBefore v = true := by
  rw [victimBefore_iff]
  rcases h with ⟨first, second⟩ | ⟨same, rest⟩
  · simp only [rank, first, second]
    omega
  · have ranks : v.rank = u.rank := by rw [rank, rank, same]
    omega

theorem victimOf_eq {tracks : List Track} {v : Track} (hv : v ∈ tracks)
    (first : ∀ u ∈ tracks, u ≠ v → v.VictimOver u) : victimOf tracks = some v := by
  have sort := sortBy_perm Track.victimBefore tracks
  have order := sortBy_pairwise Track.victimBefore Track.victimBefore_total Track.victimBefore_trans tracks
  have place := sort.mem_iff.2 hv
  rw [victimOf]
  cases sorted : sortBy Track.victimBefore tracks with
  | nil => rw [sorted] at place; cases place
  | cons w rest =>
    rw [sorted] at sort order place
    refine congrArg some (by_contra fun other : w ≠ v => ?_)
    have later := (List.mem_cons.1 place).resolve_left (Ne.symm other)
    exact (first w (sort.mem_iff.1 List.mem_cons_self) other).not_victimBefore ((List.pairwise_cons.1 order).1 v later)

/-! ## A fresh candidate (R127, R128) -/

section
variable (k : Tracker) (c : Candidate)

theorem Tracker.takeFresh_of_room (room : k.tracks.length < 5) : k.takeFresh c = k.addTrack c := if_pos room

theorem Tracker.takeFresh_of_full {v : Track} (full : k.tracks.length = 5) (victim : victimOf k.tracks = some v) :
    k.takeFresh c =
      if v.origin = .peerOnly ∨ v.hits < 2 then ({ k with tracks := k.tracks.erase v }).addTrack c
      else { k with overflow := true } := by
  rw [takeFresh, if_neg (by rw [full]; decide), victim]

theorem Tracker.takeFresh_reach : (k.takeFresh c).reach = k.reach := by
  unfold takeFresh
  split
  · rfl
  · split
    · rfl
    · split <;> rfl

theorem Tracker.foldFresh_reach (fresh : List Candidate) (k : Tracker) :
    (fresh.foldl Tracker.takeFresh k).reach = k.reach := by
  induction fresh generalizing k with
  | nil => rfl
  | cons c rest ih => exact (ih _).trans (k.takeFresh_reach c)

/-- A track is added under the next free id, and the counter goes on behind it. -/
theorem Tracker.addTrack_eq (few : k.tracks.length ≤ 200) : ∃ id, NextFreeId k.tracks k.nextId id ∧
    k.addTrack c = { k with nextId := id + 1, tracks := k.tracks ++ [newTrack id c] } :=
  ⟨k.freeId, k.freeId_nextFree few, rfl⟩

theorem Tracker.takeFresh_displaces {v : Track} (full : k.tracks.length = 5) (hv : v ∈ k.tracks)
    (first : ∀ u ∈ k.tracks, u ≠ v → v.VictimOver u) (weak : v.origin = .peerOnly ∨ v.hits < 2) :
    ∃ id, NextFreeId (k.tracks.erase v) k.nextId id ∧
      k.takeFresh c = { k with nextId := id + 1, tracks := k.tracks.erase v ++ [newTrack id c] } := by
  rw [k.takeFresh_of_full c full (victimOf_eq hv first), if_pos weak]
  refine ({ k with tracks := k.tracks.erase v } : Tracker).addTrack_eq c ?_
  have shorter := List.length_erase_of_mem hv
  dsimp only
  omega

theorem Tracker.takeFresh_drops {v : Track} (full : k.tracks.length = 5) (hv : v ∈ k.tracks)
    (first : ∀ u ∈ k.tracks, u ≠ v → v.VictimOver u) (own : v.origin = .own) (strong : 2 ≤ v.hits) :
    k.takeFresh c = { k with overflow := true } := by
  rw [k.takeFresh_of_full c full (victimOf_eq hv first), if_neg]
  rintro (peerOnly | weak)
  · rw [own] at peerOnly
    cases peerOnly
  · exact strong.not_gt weak

end

/-! ## The statement -/

/-- Settles O32: the outcome of each track, the fresh candidates one by one, and the update as their sequence. -/
theorem outcomesOfATrack : Obligations.OutcomesOfATrack := by
  refine ⟨fun reach c t => ⟨t.judge_of_suspect reach c, t.judge_hit reach c, t.judge_promote reach c,
      t.judge_unseen reach, t.judge_missed reach, fun k peerOnly => t.judge_lapsed reach peerOnly k⟩,
    fun mMin candidates tracks => ⟨freshCandidates_sublist mMin candidates tracks, fun i c hc => ?_⟩,
    fun mMin reach candidates tracks given => judgeTracks_eq mMin candidates tracks reach given,
    fun k c room => ?_,
    fun k c v full hv first => ⟨k.takeFresh_displaces c full hv first, k.takeFresh_drops c full hv first⟩,
    ?_⟩
  · have fresh := mem_freshCandidates_iff mMin candidates tracks c
    refine ⟨fun clear free => fresh.2 ⟨i, hc, free, clear⟩, fun suspect left => ?_, fun distinct used left => ?_⟩
    · obtain ⟨-, -, -, clear⟩ := fresh.1 left
      rw [suspect] at clear
      cases clear
    · obtain ⟨j, hj, free, -⟩ := fresh.1 left
      obtain ⟨p, hp, place⟩ := used
      exact free p hp (place.trans (place_unique candidates distinct hc hj))
  · rw [k.takeFresh_of_room c room]
    exact k.addTrack_eq c (by omega)
  · rintro mMin reach r k u rfl
    refine ⟨fun thin => ?_, fun full reached => ?_⟩
    · rw [k.ownUpdate_of_thin mMin r thin]
      exact ⟨rfl, rfl, rfl, rfl⟩
    · rw [k.ownUpdate_of_not_thin mMin r full, Tracker.beforePass, reached]
      exact ⟨Tracker.foldFresh_reach _ _, _, rfl, rfl, rfl, rfl⟩

end Sys2Proof.Machine
end

section
/-! SUPPORT. A REPORT of another station: the layers that count, the nearest track, the layer confirmed, adopted or
ignored, and the frame at the other blocks (R116, R138..R145, R160, R170). -/

namespace Sys2Proof.Machine

/-! ## The layers that count (R139) -/

theorem heightOf_eq (w : BitVec 16) : heightOf w = if w = 0xFFFF then none else some w.toNat :=
  if_congr (by bv_omega) rfl rfl

theorem LayerFields.usable_iff (l : LayerFields) : LayerFields.usable l = true ↔
    l.peerOnly = false ∧ 3 ≤ l.base.toNat ∧ l.base.toNat ≤ 11995 ∧ l.cover.toNat ≤ 8 ∧
      (l.top = 0xFFFF ∨ (l.base.toNat ≤ l.top.toNat ∧ l.top.toNat ≤ 11995)) := by
  have absent : l.top = 0xFFFF ↔ l.top.toNat = 65535 := by bv_omega
  simp only [usable, Bool.and_eq_true, Bool.not_eq_true', decide_eq_true_eq, absent, and_assoc]
  refine and_congr_right fun _ => ?_
  omega

/-! ## The nearest track (R140) -/

theorem nearerThan_iff (base : Nat) (t u : Nat × Track × Bool) : nearerThan base t u = true ↔
    distance base t.2.1.base < distance base u.2.1.base ∨
      (distance base t.2.1.base = distance base u.2.1.base ∧ t.2.1.base ≤ u.2.1.base) :=
  decide_eq_true_iff

theorem nearerThan_total (base : Nat) (t u : Nat × Track × Bool) :
    nearerThan base t u = true ∨ nearerThan base u t = true := by
  simp only [nearerThan_iff]
  omega

theorem nearerThan_trans (base : Nat) (t u v : Nat × Track × Bool) :
    nearerThan base t u = true → nearerThan base u v = true → nearerThan base t v = true := by
  simp only [nearerThan_iff]
  omega

/-- A sorted list begins with the one element that no other comes before. -/
theorem head?_sortBy {α : Type} {b : α → α → Bool} (total : ∀ x y, b x y = true ∨ b y x = true)
    (trans : ∀ x y z, b x y = true → b y z = true → b x z = true) {l : List α} {x : α} (hx : x ∈ l)
    (first : ∀ y ∈ l, y ≠ x → ¬b y x = true) : (sortBy b l).head? = some x := by
  have sort := sortBy_perm b l
  have order := sortBy_pairwise b total trans l
  have place := sort.mem_iff.2 hx
  cases sorted : sortBy b l with
  | nil => rw [sorted] at place; cases place
  | cons y rest =>
    rw [sorted] at sort order place
    refine congrArg some (by_contra fun other : y ≠ x => ?_)
    have later := (List.mem_cons.1 place).resolve_left (Ne.symm other)
    exact first y (sort.mem_iff.1 List.mem_cons_self) other ((List.pairwise_cons.1 order).1 x later)

/-- What stands at another place than the middle of a list stands before it or after it. -/
theorem mem_of_getElem?_ne_length {α : Type} {before after : List α} {x y : α} {i : Nat}
    (at_i : (before ++ x :: after)[i]? = some y) (other : i ≠ before.length) : y ∈ before ++ after := by
  rcases Nat.lt_or_gt_of_ne other with low | high
  · rw [List.getElem?_append_left low] at at_i
    exact List.mem_append_left _ (List.mem_of_getElem? at_i)
  · obtain ⟨j, rfl⟩ := Nat.exists_eq_add_of_lt high
    rw [List.getElem?_append_right (by omega), Nat.add_assoc, Nat.add_sub_cancel_left, List.getElem?_cons_succ] at at_i
    exact List.mem_append_right _ (List.mem_of_getElem? at_i)

section
variable (mMin base : Nat)

theorem mem_within_iff (l : List (Track × Bool)) (i : Nat) (x : Track × Bool) :
    (i, x) ∈ (placed 0 l).filter (fun t => t.2.1.within mMin base) ↔ l[i]? = some x ∧ x.1.within mMin base = true := by
  rw [List.mem_filter, mem_placed_iff]

theorem nearestTrack_of_nearestOf {before after : List (Track × Bool)} {t : Track} (seen : Bool)
    (near : t.NearestOf mMin base ((before ++ after).map Prod.fst)) :
    nearestTrack mMin base (before ++ (t, seen) :: after) = some (before.length, t, seen) := by
  obtain ⟨within, nearest⟩ := near
  refine head?_sortBy (nearerThan_total base) (nearerThan_trans base)
    ((mem_within_iff mMin base _ _ _).2 ⟨by simp, within⟩) ?_
  rintro ⟨i, u⟩ hu differ comes
  obtain ⟨place, inside⟩ := (mem_within_iff mMin base _ i u).1 hu
  by_cases same : i = before.length
  · subst same
    rw [List.getElem?_append_right (le_refl _), Nat.sub_self, List.getElem?_cons_zero] at place
    exact differ (congrArg _ (Option.some.inj place).symm)
  · have farther := nearest u.1 (List.mem_map_of_mem (mem_of_getElem?_ne_length place same)) inside
    rw [nearerThan_iff] at comes
    dsimp only at comes
    omega

theorem nearestTrack_of_outside (l : List (Track × Bool)) (outside : ∀ t ∈ l, t.1.within mMin base = false) :
    nearestTrack mMin base l = none := by
  have empty : (placed 0 l).filter (fun t => t.2.1.within mMin base) = [] := by
    refine List.eq_nil_iff_forall_not_mem.2 ?_
    rintro ⟨i, u⟩ hu
    obtain ⟨place, inside⟩ := (mem_within_iff mMin base l i u).1 hu
    rw [outside u (List.mem_of_getElem? place)] at inside
    cases inside
  rw [nearestTrack, empty]
  rfl

end

/-! ## A layer that matches a track (R141, R142, R144) -/

theorem Track.confirmedBy_own (n : StationNo) (base : Nat) (t : Track) (own : t.origin = .own) :
    t.confirmedBy n base = { t with peers := setInsert n.val t.peers } := by
  rw [confirmedBy, own]

theorem Track.confirmedBy_peerOnly (n : StationNo) (base : Nat) (t : Track) (peerOnly : t.origin = .peerOnly) :
    t.confirmedBy n base =
      { t with peers := setInsert n.val t.peers, base := (3 * t.base + base + 2) / 4, lapse := some 3 } := by
  rw [confirmedBy, peerOnly]
  rfl

section
variable (mMin : Nat) (reach : Option Nat) (n : StationNo) (l : LayerFields) (p : PeerPass)

section
variable {before after : List (Track × Bool)} {t : Track}
  (near : t.NearestOf mMin l.base.toNat ((before ++ after).map Prod.fst))
include near

/-- A track that this report has matched already leaves the layer ignored. -/
theorem PeerPass.take_of_seen (split : p.tracks = before ++ (t, true) :: after) : p.take mMin reach n l = p := by
  rw [take, split, nearestTrack_of_nearestOf mMin _ true near]
  exact if_pos rfl

theorem PeerPass.take_of_unseen (split : p.tracks = before ++ (t, false) :: after) :
    p.take mMin reach n l =
      { p with
        tracks := before ++ (t.confirmedBy n l.base.toNat, true) :: after
        changed := p.changed || t.origin == .peerOnly } := by
  have confirmed : (before ++ (t, false) :: after).set before.length (t.confirmedBy n l.base.toNat, true) =
      before ++ (t.confirmedBy n l.base.toNat, true) :: after := by
    rw [List.set_append_right _ _ (le_refl _), Nat.sub_self, List.set_cons_zero]
  rw [take, split, nearestTrack_of_nearestOf mMin _ false near]
  dsimp only
  rw [confirmed, if_neg Bool.false_ne_true]

theorem PeerPass.take_confirms_own (split : p.tracks = before ++ (t, false) :: after) (own : t.origin = .own) :
    p.take mMin reach n l =
      { p with tracks := before ++ ({ t with peers := setInsert n.val t.peers }, true) :: after } := by
  have unchanged : (p.changed || t.origin == .peerOnly) = p.changed := by rw [own]; exact Bool.or_false _
  rw [p.take_of_unseen mMin reach n l near split, t.confirmedBy_own n _ own, unchanged]

theorem PeerPass.take_confirms_peerOnly (split : p.tracks = before ++ (t, false) :: after)
    (peerOnly : t.origin = .peerOnly) :
    p.take mMin reach n l =
      { p with
        changed := true
        tracks := before ++
          ({ t with
             peers := setInsert n.val t.peers, base := (3 * t.base + l.base.toNat + 2) / 4, lapse := some 3 },
           true) :: after } := by
  have changes : (p.changed || t.origin == .peerOnly) = true := by rw [peerOnly]; exact Bool.or_true _
  rw [p.take_of_unseen mMin reach n l near split, t.confirmedBy_peerOnly n _ peerOnly, changes]

end

/-! ## A layer that matches no track (R143, R144) -/

theorem aboveReach_iff (base : Nat) : aboveReach reach base = true ↔ ∀ h, reach = some h → h < base := by
  cases reach <;> simp [aboveReach]

section
variable (outside : ∀ t ∈ p.tracks, t.1.within mMin l.base.toNat = false)
include outside

/-- A layer adopted takes the next free id, and the counter goes on behind it. -/
theorem PeerPass.take_adopts (above : ∀ h, reach = some h → h < l.base.toNat) (cover : 3 ≤ l.cover.toNat)
    (room : p.tracks.length < 5) :
    ∃ id, NextFreeId (p.tracks.map Prod.fst) p.nextId id ∧
      p.take mMin reach n l =
        { tracks := p.tracks ++
            [({ id := id, origin := .peerOnly, base := l.base.toNat,
                top := if l.top = 0xFFFF then none else some l.top.toNat, peak := none, history := [], age := 0,
                unseen := 0, peers := setInsert n.val 0, lapse := some 3 }, true)]
          nextId := id + 1
          changed := true } := by
  have free := ({ Tracker.reset with tracks := p.tracks.map Prod.fst, nextId := p.nextId } : Tracker).freeId_nextFree
    (by rw [List.length_map]; omega)
  rw [Tracker.freeId, List.length_map] at free
  refine ⟨_, free, ?_⟩
  rw [take, nearestTrack_of_outside mMin _ _ outside, ← heightOf_eq]
  exact if_pos ⟨(aboveReach_iff reach _).2 above, cover, room⟩

/-- A layer at or below the last reach height, of a small cover, or without room in the table is ignored. -/
theorem PeerPass.take_ignores
    (fails : (∃ h, reach = some h ∧ l.base.toNat ≤ h) ∨ l.cover.toNat < 3 ∨ 5 ≤ p.tracks.length) :
    p.take mMin reach n l = p := by
  rw [take, nearestTrack_of_outside mMin _ _ outside]
  refine if_neg ?_
  rintro ⟨above, cover, room⟩
  rcases fails with ⟨h, reached, low⟩ | thin | full
  · exact absurd ((aboveReach_iff reach _).1 above h reached) low.not_gt
  · exact absurd cover thin.not_ge
  · exact absurd room full.not_gt

end

end

/-! ## A report of one layer (R139..R145) -/

/-- The first of no tracks takes the id at the counter. -/
theorem NextFreeId.eq_counter {counter id : Byte} (h : NextFreeId [] counter id) : id = counter := by
  obtain ⟨-, d, small, rfl, -⟩ := h
  obtain rfl := Nat.le_zero.1 small
  exact BitVec.add_zero counter

theorem orderingPass_singleton (mMin : Nat) (t : Track) : orderingPass mMin [t] = [t] := rfl

section
variable (mMin : Nat) (n : StationNo) (l : LayerFields) (k : Tracker) (usable : LayerFields.usable l = true)
include usable

/-- A report of one usable layer takes it against the table as it stands. -/
theorem Tracker.peerReport_single {p : PeerPass}
    (taken : PeerPass.take mMin k.reach n ⟨k.tracks.map (fun t => (t, false)), k.nextId, false⟩ l = p) :
    k.peerReport mMin n [l] =
      { k with
        nextId := p.nextId
        tracks := if p.changed = true then orderingPass mMin (p.tracks.map Prod.fst) else p.tracks.map Prod.fst } := by
  subst taken
  rw [peerReport, List.filter_cons_of_pos usable]
  rfl

theorem Tracker.peerReport_confirms_own {t : Track} (only : k.tracks = [t]) (own : t.origin = .own)
    (within : t.within mMin l.base.toNat = true) :
    k.peerReport mMin n [l] = { k with tracks := [{ t with peers := setInsert n.val t.peers }] } := by
  have near : t.NearestOf mMin l.base.toNat (([] ++ [] : List (Track × Bool)).map Prod.fst) := ⟨within, nofun⟩
  have split : k.tracks.map (fun t => (t, false)) = [] ++ [(t, false)] := by rw [only]; rfl
  exact k.peerReport_single mMin n l usable (PeerPass.take_confirms_own mMin k.reach n l _ near split own)

section
variable (empty : k.tracks = [])
include empty

theorem Tracker.peerReport_adopts (above : ∀ h, k.reach = some h → h < l.base.toNat) (cover : 3 ≤ l.cover.toNat) :
    k.peerReport mMin n [l] =
      { k with
        nextId := k.nextId + 1
        tracks :=
          [{ id := k.nextId, origin := .peerOnly, base := l.base.toNat,
             top := if l.top = 0xFFFF then none else some l.top.toNat, peak := none, history := [], age := 0,
             unseen := 0, peers := setInsert n.val 0, lapse := some 3 }] } := by
  obtain ⟨id, free, adopted⟩ := PeerPass.take_adopts mMin k.reach n l
    ⟨k.tracks.map (fun t => (t, false)), k.nextId, false⟩ (by simp [empty]) above cover (by simp [empty])
  rw [k.peerReport_single mMin n l usable adopted]
  simp only [empty, List.map_nil] at free ⊢
  obtain rfl := free.eq_counter
  rfl

theorem Tracker.peerReport_ignores (fails : (∃ h, k.reach = some h ∧ l.base.toNat ≤ h) ∨ l.cover.toNat < 3) :
    k.peerReport mMin n [l] = k := by
  have ignored := PeerPass.take_ignores mMin k.reach n l ⟨k.tracks.map (fun t => (t, false)), k.nextId, false⟩
    (by simp [empty]) (fails.imp_right .inl)
  rw [k.peerReport_single mMin n l usable ignored]
  simp [Function.comp_def]

end

end

/-! ## The frame at its blocks (R138, R160, R170) -/

theorem exec_report (n : StationNo) (f : ReportFields) (s : State) (few : f.layers.length ≤ 5) :
    exec (.report (senderOf n) f) s = .next (takeReport n f (dispatched s)) := by
  change execReport (senderOf n) f s = _
  rw [execReport, if_neg few.not_gt, stationOf_senderOf]

section
variable (n : StationNo) (f : ReportFields) (s : State)

theorem takesReport_iff : takesReport n f s = true ↔
    s.num.own ≠ some n ∧ f.flags.halted = false ∧ s.loader.station ≠ .loading ∧ s.loader.station ≠ .unconfigured := by
  cases station : s.loader.station <;> simp [takesReport, station]

theorem trackerTakesReport_of_taken (own : s.num.own ≠ some n) (live : f.flags.halted = false)
    (loaded : s.loader.station ≠ .loading) (configured : s.loader.station ≠ .unconfigured) :
    trackerTakesReport n f s = s.mapTracker (Tracker.peerReport (s.cfgNat StationConfig.mMin) n f.layers) :=
  if_pos ((takesReport_iff n f s).2 ⟨own, live, loaded, configured⟩)

theorem trackerTakesReport_of_refused (refused : s.num.own = some n ∨ f.flags.halted = true ∨
    s.loader.station = .loading ∨ s.loader.station = .unconfigured) : trackerTakesReport n f s = s := by
  refine if_neg fun takes => ?_
  obtain ⟨own, live, loaded, configured⟩ := (takesReport_iff n f s).1 takes
  simp [own, live, loaded, configured] at refused

theorem trackerTakesReport_eq : ∃ k, trackerTakesReport n f s = { s with tracker := k } := by
  unfold trackerTakesReport
  split
  · exact ⟨_, rfl⟩
  · exact ⟨s.tracker, rfl⟩

/-- A number named by a frame without a serial is noted at LISTEN and CLAIMING, makes a CLAIMING unit that wants it
choose again, and concerns no NUMBERED unit (R166..R168, R170). -/
theorem numberingTakes_none_cases :
    (s.num.state = .numbered ∧ numberingTakes n none s = s) ∨
    (s.num.state ≠ .numbered ∧
      (numberingTakes n none s = joinTaken n s ∨ numberingTakes n none s = choose (joinTaken n s))) := by
  cases state : s.num.state with
  | listen => exact .inr ⟨nofun, .inl (by simp only [numberingTakes, state])⟩
  | claiming =>
    refine .inr ⟨nofun, ?_⟩
    simp only [numberingTakes, state]
    split
    · split <;> exact .inr rfl
    · exact .inl rfl
  | numbered => exact .inl ⟨rfl, by simp only [numberingTakes, state]⟩

theorem choose_eq : ∃ u l, choose s = { s with num := u, line := l } ∧
    l.counters.dispatched = s.line.counters.dispatched := by
  unfold choose
  split
  · refine ⟨_, _, rfl, ?_⟩
    simp only [Line.queueClaim, countSuperseded]
    split <;> rfl
  · exact ⟨_, s.line, rfl, rfl⟩

/-- A frame without a serial changes the numbering unit and the line alone, a NUMBERED unit's not at all. -/
theorem numberingTakes_none_eq : ∃ u l, numberingTakes n none s = { s with num := u, line := l } ∧
    l.counters.dispatched = s.line.counters.dispatched ∧ (s.num.state = .numbered → u = s.num ∧ l = s.line) := by
  rcases numberingTakes_none_cases n s with ⟨-, same⟩ | ⟨numbering, joined | chosen⟩
  · exact ⟨s.num, s.line, same, rfl, fun _ => ⟨rfl, rfl⟩⟩
  · exact ⟨_, s.line, joined, rfl, fun numbered => absurd numbered numbering⟩
  · obtain ⟨u, l, chooses, counted⟩ := choose_eq (joinTaken n s)
    exact ⟨u, l, chosen.trans chooses, counted, fun numbered => absurd numbered numbering⟩

/-- At a NUMBERED unit a REPORT reaches the layer tracker alone. -/
theorem exec_report_of_numbered (few : f.layers.length ≤ 5) (numbered : s.num.state = .numbered) :
    exec (.report (senderOf n) f) s = .next (trackerTakesReport n f (dispatched s)) := by
  obtain ⟨-, same⟩ | ⟨numbering, -⟩ := numberingTakes_none_cases n (trackerTakesReport n f (dispatched s))
  · rw [exec_report n f s few, takeReport, same]
  · exact absurd numbered (by simpa using numbering)

end

/-- Settles O34: the frame at its blocks, and its layers one by one. -/
theorem reportConfirmsOrAdoptsALayer : Obligations.ReportConfirmsOrAdoptsALayer := by
  refine ⟨fun n f s few => ?_, fun n f l t s numbered single => ?_, ?_, fun mMin n layers k => ⟨_, rfl, rfl⟩,
    LayerFields.usable_iff, ?_,
    fun mMin reach n l p outside => ⟨p.take_adopts mMin reach n l outside, p.take_ignores mMin reach n l outside⟩⟩
  · obtain ⟨k, tracked⟩ := trackerTakesReport_eq n f (dispatched s)
    obtain ⟨u, l, taken, counted, still⟩ := numberingTakes_none_eq n (trackerTakesReport n f (dispatched s))
    have tracker : k = (trackerTakesReport n f (dispatched s)).tracker := (congrArg State.tracker tracked).symm
    refine ⟨_, exec_report n f s few, ?_⟩
    rw [takeReport, taken]
    rw [tracked] at counted still ⊢
    refine ⟨counted, fun refused => ?_, fun own live loaded configured => ?_, fun numbered => ?_,
      rfl, rfl, rfl, rfl, rfl, rfl, rfl, rfl, rfl⟩
    · rw [trackerTakesReport_of_refused n f (dispatched s) refused] at tracker
      exact tracker
    · rw [trackerTakesReport_of_taken n f (dispatched s) own live loaded configured] at tracker
      exact tracker
    · obtain ⟨rfl, rfl⟩ := still numbered
      rfl
  · have few : f.layers.length ≤ 5 := by simp [single]
    rw [exec_report_of_numbered n f s few numbered]
    refine ⟨fun refused => ?_, fun own live station origin low high noTop cover only ownTrack within => ?_⟩
    · rw [trackerTakesReport_of_refused n f (dispatched s) refused]
      rfl
    · have loaded : (dispatched s).loader.station ≠ .loading := by simp [station]
      have configured : (dispatched s).loader.station ≠ .unconfigured := by simp [station]
      have confirmed := s.tracker.peerReport_confirms_own (s.cfgNat StationConfig.mMin) n l
        ((LayerFields.usable_iff l).2 ⟨origin, low, high, cover, .inl noTop⟩) only ownTrack within
      rw [trackerTakesReport_of_taken n f (dispatched s) own live loaded configured, single]
      exact congrArg (fun k => Host.Outcome.next { s with line := s.lineAfterFrame, tracker := k }) confirmed
  · intro mMin n l k empty origin low high cover top
    have usable := (LayerFields.usable_iff l).2 ⟨origin, low, high, cover, or_iff_not_imp_left.2 top⟩
    exact ⟨k.peerReport_adopts mMin n l usable empty, k.peerReport_ignores mMin n l usable empty⟩
  · intro mMin reach n l p before after t seen split near
    refine ⟨?_, ?_, ?_⟩
    · rintro rfl
      exact p.take_of_seen mMin reach n l near split
    · rintro rfl own
      exact p.take_confirms_own mMin reach n l near split own
    · rintro rfl peerOnly
      exact p.take_confirms_peerOnly mMin reach n l near split peerOnly

end Sys2Proof.Machine
end

section
/-! SUPPORT. The frames of the station line on their way through the bits: bytes and words, the layout of each payload,
the head of a frame and the receive checks over the whole of it (R151, R152, R158, R159; 09 section 9.6). -/

namespace Sys2Proof.Machine

/-! ## Bits, bytes and words -/

theorem byteBits_length (b : Byte) : (byteBits b).length = 8 := rfl

theorem bytesBits_cons (b : Byte) (bytes : List Byte) : bytesBits (b :: bytes) = byteBits b ++ bytesBits bytes :=
  List.flatMap_cons

theorem bytesBits_append (x y : List Byte) : bytesBits (x ++ y) = bytesBits x ++ bytesBits y := List.flatMap_append

theorem bytesBits_length (bytes : List Byte) : (bytesBits bytes).length = 8 * bytes.length := by
  induction bytes with
  | nil => rfl
  | cons b bytes ih =>
    rw [bytesBits_cons, List.length_append, ih, byteBits_length, List.length_cons]
    omega

/-- The bits of a byte spell it after what was spelt before. -/
theorem foldl_byteBits (n : Nat) (b : Byte) :
    (byteBits b).foldl (fun n b => 2 * n + b.toNat) n = 256 * n + b.toNat := by
  have small := b.isLt
  simp only [byteBits, List.foldl, BitVec.getLsbD, Nat.toNat_testBit]
  omega

theorem bitsNat_byteBits (b : Byte) : bitsNat (byteBits b) = b.toNat := by
  rw [bitsNat, foldl_byteBits, Nat.mul_zero, Nat.zero_add]

theorem bitsNat_bytesBits (bytes : List Byte) : bitsNat (bytesBits bytes) = bytesNat bytes := by
  simp only [bitsNat, bytesBits, bytesNat, List.foldl_flatMap, foldl_byteBits]

/-- Bytes read back as themselves, whatever bits follow. -/
theorem takeBytes_bytesBits (bytes : List Byte) (rest : List Bool) :
    takeBytes bytes.length (bytesBits bytes ++ rest) = bytes := by
  induction bytes with
  | nil => rfl
  | cons b bytes ih =>
    rw [bytesBits_cons, List.append_assoc, List.length_cons, takeBytes, List.take_left' (byteBits_length b),
      List.drop_left' (byteBits_length b), ih, bitsNat_byteBits, BitVec.ofNat_toNat, BitVec.setWidth_eq]

theorem ofNat_bytesNat_byte (b : Byte) : BitVec.ofNat 8 (bytesNat [b]) = b := by
  simp [bytesNat]

theorem bytesNat_word16 (w : BitVec 16) : bytesNat (word16 w) = w.toNat := by
  have small := w.isLt
  simp only [bytesNat, word16, List.foldl, BitVec.extractLsb'_toNat, Nat.shiftRight_eq_div_pow]
  omega

theorem bytesNat_word32 (w : BitVec 32) : bytesNat (word32 w) = w.toNat := by
  have small := w.isLt
  simp only [bytesNat, word32, List.foldl, BitVec.extractLsb'_toNat, Nat.shiftRight_eq_div_pow]
  omega

theorem ofNat_bytesNat_word16 (w : BitVec 16) : BitVec.ofNat 16 (bytesNat (word16 w)) = w := by
  rw [bytesNat_word16, BitVec.ofNat_toNat, BitVec.setWidth_eq]

theorem ofNat_bytesNat_word32 (w : BitVec 32) : BitVec.ofNat 32 (bytesNat (word32 w)) = w := by
  rw [bytesNat_word32, BitVec.ofNat_toNat, BitVec.setWidth_eq]

/-! ## The payloads of a NOTICE and a REPORT (09 section 9.6) -/

theorem parseNotice_noticePayload (f : NoticeFields) : parseNotice (noticePayload f) = f := by
  have read : parseNotice (noticePayload f) =
      { serial := BitVec.ofNat 32 (bytesNat (word32 f.serial)), slot := BitVec.ofNat 8 (bytesNat [f.slot]),
        phase := BitVec.ofNat 16 (bytesNat (word16 f.phase)), claimed := BitVec.ofNat 32 (bytesNat (word32 f.claimed)),
        settled := BitVec.ofNat 32 (bytesNat (word32 f.settled)), level := BitVec.ofNat 8 (bytesNat [f.level]),
        shots := BitVec.ofNat 8 (bytesNat [f.shots]) } := rfl
  simp only [read, ofNat_bytesNat_byte, ofNat_bytesNat_word16, ofNat_bytesNat_word32]

theorem layerPayload_length (l : LayerFields) : (layerPayload l).length = 7 := rfl

theorem toNat_layerByte (l : LayerFields) :
    (layerByte l).toNat = 16 * l.cover.toNat + 8 * l.peerOnly.toNat + l.spare.toNat := by
  have cover := l.cover.isLt
  have origin := l.peerOnly.toNat_lt
  have spare := l.spare.isLt
  rw [layerByte, BitVec.toNat_ofNat]
  omega

theorem layerByte_origin (l : LayerFields) : (layerByte l).getLsbD 3 = l.peerOnly := by
  have spare := l.spare.isLt
  have origin := l.peerOnly.toNat_lt
  have third : (layerByte l).toNat / 2 ^ 3 % 2 = l.peerOnly.toNat := by rw [toNat_layerByte]; omega
  rw [BitVec.getLsbD, Nat.testBit_eq_decide_div_mod_eq, third]
  cases l.peerOnly <;> rfl

theorem parseLayer_layerPayload (l : LayerFields) : parseLayer (layerPayload l) = l := by
  have origin := l.peerOnly.toNat_lt
  have spare := l.spare.isLt
  have high : (layerByte l).toNat / 16 = l.cover.toNat := by rw [toNat_layerByte]; omega
  have low : (layerByte l).toNat % 8 = l.spare.toNat := by rw [toNat_layerByte]; omega
  have read : parseLayer (layerPayload l) =
      { id := BitVec.ofNat 8 (bytesNat [l.id]), base := BitVec.ofNat 16 (bytesNat (word16 l.base)),
        top := BitVec.ofNat 16 (bytesNat (word16 l.top)), cover := BitVec.ofNat 4 (bytesNat [layerByte l] / 16),
        peerOnly := (BitVec.ofNat 8 (bytesNat [layerByte l])).getLsbD 3,
        spare := BitVec.ofNat 3 (bytesNat [layerByte l] % 8), peers := BitVec.ofNat 8 (bytesNat [l.peers]) } := rfl
  have packed : bytesNat [layerByte l] = (layerByte l).toNat := by simp [bytesNat]
  simp only [read, ofNat_bytesNat_byte, ofNat_bytesNat_word16, packed, high, low, layerByte_origin, BitVec.ofNat_toNat,
    BitVec.setWidth_eq]

theorem parseLayers_flatMap (layers : List LayerFields) :
    parseLayers layers.length (layers.flatMap layerPayload) = layers := by
  induction layers with
  | nil => rfl
  | cons l layers ih =>
    rw [List.flatMap_cons, List.length_cons, parseLayers, List.take_left' (layerPayload_length l),
      List.drop_left' (layerPayload_length l), ih, parseLayer_layerPayload]

theorem byteOfFlags_bits (b7 b6 b5 b4 b3 b2 b1 b0 : Bool) :
    byteBits (byteOfFlags b7 b6 b5 b4 b3 b2 b1 b0) = [b7, b6, b5, b4, b3, b2, b1, b0] := by
  revert b7 b6 b5 b4 b3 b2 b1 b0
  decide

theorem reportFlagsOf_reportFlagsByte (f : ReportFlags) : reportFlagsOf (reportFlagsByte f) = f := by
  have bits := byteOfFlags_bits f.thin f.obscured f.fullyObscured f.slip f.more f.saturated f.overflow f.halted
  simp only [byteBits, List.cons.injEq, and_true] at bits
  obtain ⟨thin, obscured, fully, slip, more, saturated, overflow, halted⟩ := bits
  simp only [reportFlagsOf, reportFlagsByte, thin, obscured, fully, slip, more, saturated, overflow, halted]

/-- The layer count byte of a REPORT. -/
theorem field_reportPayload_count (f : ReportFields) (few : f.layers.length ≤ 5) :
    field (reportPayload f) 3 1 = f.layers.length := by
  have read : field (reportPayload f) 3 1 = bytesNat [BitVec.ofNat 8 f.layers.length] := rfl
  rw [read]
  simp only [bytesNat, List.foldl, BitVec.toNat_ofNat]
  omega

theorem flatMap_layerPayload_length (layers : List LayerFields) :
    (layers.flatMap layerPayload).length = 7 * layers.length := by
  induction layers with
  | nil => rfl
  | cons l layers ih =>
    rw [List.flatMap_cons, List.length_append, ih, layerPayload_length, List.length_cons]
    omega

theorem reportPayload_length (f : ReportFields) : (reportPayload f).length = 10 + 7 * f.layers.length := by
  rw [reportPayload, List.length_append, flatMap_layerPayload_length]
  rfl

theorem parseReport_reportPayload (f : ReportFields) (few : f.layers.length ≤ 5) :
    parseReport (reportPayload f) = f := by
  have read : parseReport (reportPayload f) =
      { seq := BitVec.ofNat 16 (bytesNat (word16 f.seq)),
        flags := reportFlagsOf (BitVec.ofNat 8 (bytesNat [reportFlagsByte f.flags])),
        visibility := BitVec.ofNat 16 (bytesNat (word16 f.visibility)),
        ceiling := BitVec.ofNat 16 (bytesNat (word16 f.ceiling)), reach := BitVec.ofNat 16 (bytesNat (word16 f.reach)),
        layers := parseLayers (field (reportPayload f) 3 1) (f.layers.flatMap layerPayload) } := rfl
  simp only [read, ofNat_bytesNat_byte, ofNat_bytesNat_word16, reportFlagsOf_reportFlagsByte,
    field_reportPayload_count f few, parseLayers_flatMap]

/-! ## The head of a frame (R151) -/

/-- The arbitration field of a frame of any kind: the header, and the serial after that of kind 0. -/
def frameHead (kind : Nat) (sender : Sender) (serial : Serial) : List Byte :=
  if kind = 0 then headerByte 0 sender :: word32 serial else [headerByte kind sender]

/-- The bits of the arbitration field. -/
def leadOf (kind : Nat) : Nat := if kind = 0 then 40 else 8

section
variable {kind : Nat} (sender : Sender) (serial : Serial)

theorem frameHead_eq_cons : ∃ more, frameHead kind sender serial = headerByte kind sender :: more := by
  by_cases claim : kind = 0
  · exact ⟨word32 serial, by rw [frameHead, if_pos claim, claim]⟩
  · exact ⟨[], if_neg claim⟩

theorem frameHead_length : (bytesBits (frameHead kind sender serial)).length = leadOf kind := by
  rw [bytesBits_length, frameHead, leadOf]
  split <;> rfl

theorem toNat_headerByte (known : kind < 8) : (headerByte kind sender).toNat = 32 * kind + sender.toNat := by
  have small := sender.isLt
  rw [headerByte, BitVec.toNat_ofNat]
  omega

/-- The three leading bits of a header spell the kind, and the five after them the sender. -/
theorem header_bits (known : kind < 8) (rest : List Bool) :
    bitsNat ((byteBits (headerByte kind sender) ++ rest).take 3) = kind ∧
    bitsNat (((byteBits (headerByte kind sender) ++ rest).drop 3).take 5) = sender.toNat := by
  have small := sender.isLt
  have header := toNat_headerByte sender known
  constructor <;>
  · simp only [byteBits, List.cons_append, List.nil_append, List.take_succ_cons, List.take_zero, List.drop_succ_cons,
      List.drop_zero, bitsNat, List.foldl, BitVec.getLsbD, Nat.toNat_testBit, header]
    omega

variable (rest : List Bool)

theorem kind_of_head (known : kind < 8) :
    bitsNat ((bytesBits (frameHead kind sender serial) ++ rest).take 3) = kind := by
  obtain ⟨more, head⟩ := frameHead_eq_cons (kind := kind) sender serial
  rw [head, bytesBits_cons, List.append_assoc]
  exact (header_bits sender known _).1

theorem sender_of_head (known : kind < 8) :
    BitVec.ofNat 5 (bitsNat (((bytesBits (frameHead kind sender serial) ++ rest).drop 3).take 5)) = sender := by
  obtain ⟨more, head⟩ := frameHead_eq_cons (kind := kind) sender serial
  rw [head, bytesBits_cons, List.append_assoc, (header_bits sender known _).2, BitVec.ofNat_toNat, BitVec.setWidth_eq]

theorem serial_of_head :
    BitVec.ofNat 32 (bitsNat (((bytesBits (frameHead 0 sender serial) ++ rest).drop 8).take 32)) = serial := by
  have read : bytesBits (frameHead 0 sender serial) = byteBits (headerByte 0 sender) ++ bytesBits (word32 serial) := rfl
  have length : (bytesBits (word32 serial)).length = 32 := bytesBits_length _
  rw [read, List.append_assoc, List.drop_left' (byteBits_length _), List.take_left' length, bitsNat_bytesBits,
    ofNat_bytesNat_word32]

/-- The size byte stands behind the head. -/
theorem size_of_head (size : Byte) :
    bitsNat (((bytesBits (frameHead kind sender serial) ++ (byteBits size ++ rest)).drop (leadOf kind)).take 8) =
      size.toNat := by
  rw [List.drop_left' (frameHead_length sender serial), List.take_left' (byteBits_length size), bitsNat_byteBits]

end

/-! ## A size byte above 48 (R152, R158) -/

section
variable {kind : Nat} {size : Byte} (sender : Sender) (serial : Serial) (rest : List Bool) (known : kind < 8)
  (long : 48 < size.toNat)

theorem lead_lt_length :
    ¬(bytesBits (frameHead kind sender serial) ++ (byteBits size ++ rest)).length < leadOf kind + 8 := by
  rw [List.length_append, frameHead_length, List.length_append, byteBits_length]
  omega

include known long

theorem checkFrame_of_long :
    checkFrame (bytesBits (frameHead kind sender serial) ++ (byteBits size ++ rest)) = .error .length := by
  have whole := lead_lt_length (kind := kind) (size := size) sender serial rest
  have read := size_of_head (kind := kind) sender serial rest size
  rw [leadOf] at whole read
  simp only [checkFrame, kind_of_head sender serial _ known, read, if_neg whole, if_pos long]

theorem delimiterHeard_of_long :
    delimiterHeard (bytesBits (frameHead kind sender serial) ++ (byteBits size ++ rest)) = 0 := by
  have read := size_of_head (kind := kind) sender serial rest size
  rw [leadOf] at read
  simp only [delimiterHeard, kind_of_head sender serial _ known, read, long, or_true, if_true]

end

/-! ## A frame of a whole length (R152, R158, R159) -/

/-- What the CRC of a frame covers. -/
def framed (kind : Nat) (sender : Sender) (serial : Serial) (payload : List Byte) : List Bool :=
  bytesBits (frameHead kind sender serial ++ BitVec.ofNat 8 payload.length :: payload)

/-- The receive checks behind that of the CRC, over the fields of a frame. -/
def judged (kind : Nat) (sender : Sender) (serial : Serial) (payload : List Byte) : Except Discard Frame :=
  if lengthAgrees kind payload = false then .error .length
  else
    match parseFrame kind sender serial payload with
    | none => .error .kind
    | some f => if senderAgrees kind sender then .ok f else .error .sender

section
variable (kind : Nat) (sender : Sender) (serial : Serial) (payload : List Byte)

theorem judged_length (fails : lengthAgrees kind payload = false) :
    judged kind sender serial payload = .error .length := if_pos fails

theorem judged_parsed {f : Frame} (length : lengthAgrees kind payload = true)
    (parsed : parseFrame kind sender serial payload = some f) :
    judged kind sender serial payload = if senderAgrees kind sender then .ok f else .error .sender := by
  rw [judged, if_neg (by rw [length]; decide), parsed]

/-- Kind 7 agrees with every length and has no layout (R151, R158). -/
theorem judged_seven : judged 7 sender serial payload = .error .kind := rfl

/-- Every other kind has a layout. -/
theorem parseFrame_isSome (known : kind < 8) (other : kind ≠ 7) :
    ∃ f, parseFrame kind sender serial payload = some f := by
  have laidOut : kind < 7 := by omega
  interval_cases kind <;> exact ⟨_, rfl⟩

/-- Only kind 0 holds a serial. -/
theorem judged_serial (x : Serial) (other : kind ≠ 0) :
    judged kind sender x payload = judged kind sender serial payload := by
  have same : parseFrame kind sender x payload = parseFrame kind sender serial payload := by
    unfold parseFrame
    split
    · exact absurd rfl other
    all_goals rfl
  rw [judged, judged, same]

end

section
variable {kind : Nat} (sender : Sender) (serial : Serial) (payload : List Byte) (rest : List Bool) (known : kind < 8)
  (short : payload.length ≤ 48)

theorem framed_append : framed kind sender serial payload ++ rest = bytesBits (frameHead kind sender serial) ++
    (byteBits (BitVec.ofNat 8 payload.length) ++ (bytesBits payload ++ rest)) := by
  rw [framed, bytesBits_append, bytesBits_cons, List.append_assoc, List.append_assoc]

theorem framed_length : (framed kind sender serial payload).length = leadOf kind + 8 + 8 * payload.length := by
  rw [framed, bytesBits_append, List.length_append, frameHead_length, bytesBits_length, List.length_cons]
  omega

include short in
theorem toNat_sizeByte : (BitVec.ofNat 8 payload.length).toNat = payload.length := by
  rw [BitVec.toNat_ofNat]
  omega

include known in
theorem framed_fields :
    bitsNat ((framed kind sender serial payload ++ rest).take 3) = kind ∧
    BitVec.ofNat 5 (bitsNat (((framed kind sender serial payload ++ rest).drop 3).take 5)) = sender := by
  rw [framed_append]
  exact ⟨kind_of_head sender serial _ known, sender_of_head sender serial _ known⟩

include short in
theorem framed_sizes :
    bitsNat (((framed kind sender serial payload ++ rest).drop (leadOf kind)).take 8) = payload.length ∧
    takeBytes payload.length ((framed kind sender serial payload ++ rest).drop (leadOf kind + 8)) = payload := by
  rw [framed_append]
  refine ⟨(size_of_head sender serial _ _).trans (toNat_sizeByte payload short), ?_⟩
  rw [← List.drop_drop, List.drop_left' (frameHead_length sender serial), List.drop_left' (byteBits_length _),
    takeBytes_bytesBits]

theorem framed_split :
    (framed kind sender serial payload ++ rest).take (leadOf kind + 8 + 8 * payload.length) =
      framed kind sender serial payload ∧
    (framed kind sender serial payload ++ rest).drop (leadOf kind + 8 + 8 * payload.length) = rest :=
  ⟨List.take_left' (framed_length sender serial payload), List.drop_left' (framed_length sender serial payload)⟩

/-- The serial field is read where kind 0 has it, and is not looked at in any other kind. -/
theorem judged_framed_serial :
    judged kind sender (BitVec.ofNat 32 (bitsNat (((framed kind sender serial payload ++ rest).drop 8).take 32)))
      payload = judged kind sender serial payload := by
  by_cases claim : kind = 0
  · subst claim
    rw [framed_append, serial_of_head]
  · exact judged_serial kind sender serial payload _ claim

theorem bytesBits_word16_inj (v w : BitVec 16) : bytesBits (word16 v) = bytesBits (word16 w) ↔ v = w := by
  refine ⟨fun same => ?_, fun same => by rw [same]⟩
  have number := congrArg bitsNat same
  rw [bitsNat_bytesBits, bitsNat_bytesBits, bytesNat_word16, bytesNat_word16] at number
  exact BitVec.eq_of_toNat_eq number

section
include known short
variable (crc : BitVec 16) (tail : List Bool)

/-- The receive checks over a frame: the CRC word and the end delimiter first, then what the fields say. -/
theorem checkFrame_framed :
    checkFrame (framed kind sender serial payload ++ (bytesBits (word16 crc) ++ tail)) =
      if crc ≠ crc16 (framed kind sender serial payload) ∨ tail ≠ endDelimiter then .error .crc
      else judged kind sender serial payload := by
  have word : (bytesBits (word16 crc)).length = 16 := bytesBits_length _
  have whole : ¬(framed kind sender serial payload ++ (bytesBits (word16 crc) ++ tail)).length < leadOf kind + 8 := by
    rw [List.length_append, framed_length]
    omega
  obtain ⟨kindRead, senderRead⟩ := framed_fields sender serial payload (bytesBits (word16 crc) ++ tail) known
  obtain ⟨sizeRead, payloadRead⟩ :=
    framed_sizes (kind := kind) sender serial payload (bytesBits (word16 crc) ++ tail) short
  obtain ⟨front, behind⟩ := framed_split (kind := kind) sender serial payload (bytesBits (word16 crc) ++ tail)
  rw [← judged_framed_serial sender serial payload (bytesBits (word16 crc) ++ tail)]
  rw [leadOf] at whole sizeRead payloadRead front behind
  simp only [checkFrame, kindRead, senderRead, if_neg whole, sizeRead, if_neg (Nat.not_lt.2 short), payloadRead, front,
    behind, List.take_left' word, List.drop_left' word, ne_eq, bytesBits_word16_inj]
  rfl

/-- The bits of the end delimiter heard, behind a frame of a whole length. -/
theorem delimiterHeard_framed (eight : tail.length = 8) :
    delimiterHeard (framed kind sender serial payload ++ (bytesBits (word16 crc) ++ tail)) =
      min 8 ((tail.takeWhile id).length + 1) := by
  have word : (bytesBits (word16 crc)).length = 16 := bytesBits_length _
  have whole : ¬((framed kind sender serial payload ++ (bytesBits (word16 crc) ++ tail)).length < leadOf kind + 8 ∨
      48 < payload.length) := by
    rw [List.length_append, framed_length]
    omega
  obtain ⟨kindRead, -⟩ := framed_fields sender serial payload (bytesBits (word16 crc) ++ tail) known
  obtain ⟨sizeRead, -⟩ := framed_sizes (kind := kind) sender serial payload (bytesBits (word16 crc) ++ tail) short
  obtain ⟨-, behind⟩ := framed_split (kind := kind) sender serial payload (bytesBits (word16 crc) ++ tail)
  have delimiter : (framed kind sender serial payload ++ (bytesBits (word16 crc) ++ tail)).drop
      (leadOf kind + 8 + 8 * payload.length + 16) = tail := by
    rw [← List.drop_drop, behind, List.drop_left' word]
  rw [leadOf] at whole sizeRead delimiter
  simp only [delimiterHeard, kindRead, sizeRead, if_neg whole, delimiter, eight]
  omega

end

end

/-! ## Legal frames -/

/-- The serial of a frame of kind 0; 0 for the others, which have none in their head. -/
def Frame.headSerial : Frame → Serial
  | .claim _ serial => serial
  | _ => 0

theorem Frame.bits_eq (f : Frame) : f.bits = framed f.kind f.sender f.headSerial f.payload ++
    (bytesBits (word16 (crc16 (framed f.kind f.sender f.headSerial f.payload))) ++ endDelimiter) := by
  have covered : bytesBits f.coveredBytes = framed f.kind f.sender f.headSerial f.payload := by cases f <;> rfl
  rw [Frame.bits, covered, List.append_assoc]

theorem Frame.kind_lt (f : Frame) : f.kind < 8 := by cases f <;> exact Nat.le_of_ble_eq_true rfl

/-- The lengths a STATUS payload can have (R159). -/
theorem statusLengthAgrees_le (payload : List Byte) (agrees : statusLengthAgrees payload = true) :
    payload.length ≤ 48 := by
  unfold statusLengthAgrees at agrees
  split at agrees
  case h_5 => cases agrees
  all_goals simp only [Bool.and_eq_true, decide_eq_true_eq, beq_iff_eq] at agrees; omega

section
variable (f : Frame) (legal : f.Legal)
include legal

theorem Frame.Legal.length_le : f.payload.length ≤ 48 := by
  cases f with
  | claim n x => exact Nat.zero_le 48
  | notice n x => exact Nat.le_of_ble_eq_true rfl
  | report n x =>
    have few := legal.2
    rw [Frame.payload, reportPayload_length]
    omega
  | query n target item => exact Nat.le_of_ble_eq_true rfl
  | status n payload => exact statusLengthAgrees_le payload legal.2
  | quiet n target seconds => exact Nat.le_of_ble_eq_true rfl
  | restart n target scope => exact Nat.le_of_ble_eq_true rfl

theorem Frame.Legal.lengthAgrees : lengthAgrees f.kind f.payload = true := by
  cases f with
  | report n x =>
    have few := legal.2
    show reportLengthAgrees (reportPayload x) = true
    rw [reportLengthAgrees, field_reportPayload_count x few, reportPayload_length, beq_self_eq_true, Bool.and_true,
      decide_eq_true few]
  | status n payload => exact legal.2
  | claim | notice | query | quiet | restart => rfl

theorem Frame.Legal.senderAgrees : senderAgrees f.kind f.sender = true := by
  cases f with
  | report n x => exact legal.1
  | status n payload => exact legal.1
  | claim | notice | query | quiet | restart => exact legal

theorem Frame.Legal.parses : parseFrame f.kind f.sender f.headSerial f.payload = some f := by
  cases f with
  | claim n x => rfl
  | notice n x => exact congrArg (fun x => some (Frame.notice n x)) (parseNotice_noticePayload x)
  | report n x => exact congrArg (fun x => some (Frame.report n x)) (parseReport_reportPayload x legal.2)
  | status n payload => rfl
  | query n x y =>
    exact congrArg₂ (fun x y => some (Frame.query n x y)) (ofNat_bytesNat_byte x) (ofNat_bytesNat_byte y)
  | quiet n x y =>
    exact congrArg₂ (fun x y => some (Frame.quiet n x y)) (ofNat_bytesNat_byte x) (ofNat_bytesNat_byte y)
  | restart n x y =>
    exact congrArg₂ (fun x y => some (Frame.restart n x y)) (ofNat_bytesNat_byte x) (ofNat_bytesNat_byte y)

end

/-- Settles O49: the checks find the CRC, the length and the sender of the frame, and the fields read back. -/
theorem everyLegalFrameReadsBack : Obligations.EveryLegalFrameReadsBack := by
  intro f legal
  have whole : ¬(crc16 (framed f.kind f.sender f.headSerial f.payload) ≠
      crc16 (framed f.kind f.sender f.headSerial f.payload) ∨ endDelimiter ≠ endDelimiter) := by simp
  rw [Frame.bits_eq, checkFrame_framed _ _ _ f.kind_lt legal.length_le, if_neg whole,
    judged_parsed _ _ _ _ legal.lengthAgrees legal.parses, if_pos legal.senderAgrees]

end Sys2Proof.Machine
end

section
/-! SUPPORT. A frame heard to its end: discarded under the first receive check it fails, or dispatched as the command of
its kind does it (R152, R158, R159, R160, R172; log 14, log 15, log 27, log 28). -/

namespace Sys2Proof.Machine

theorem exec_frameDiscard (bits tail : List Bool) (s : State) :
    exec (.frameDiscard bits tail) s = .next (hearFrame (bits ++ tail) s) := rfl

/-! ## A frame heard while RECEIVING (R158, R160) -/

section
variable (s : State) (receiving : s.line.state = .receiving) (bits : List Bool)
include receiving

/-- The receive buffer of a frame is cleared at its end. -/
theorem discarded_of_rx (r : Discard) : discarded r (s.mapLine fun l => { l with rx := bits }) = discarded r s := by
  simp only [discarded, State.mapLine, Line.discard, Line.receiveEnd, receiving, reduceCtorEq, if_false, Line.frameEnd]

theorem dispatched_of_rx : dispatched (s.mapLine fun l => { l with rx := bits }) = dispatched s := by
  simp only [dispatched, State.lineAfterFrame, State.mapLine, Line.countDispatched, Line.receiveEnd, receiving,
    reduceCtorEq, if_false, Line.frameEnd]

/-- A frame cut off before its end delimiter is discarded with no position latched. -/
theorem hearFrame_unlatched {r : Discard} (fails : checkFrame bits = .error r) (unheard : delimiterHeard bits = 0) :
    hearFrame bits s = discarded r s := by
  simp only [hearFrame, receiving, State.line_mapLine, fails, if_pos unheard]
  exact discarded_of_rx s receiving bits r

/-- A frame that fails a check behind its end delimiter is discarded with the position of the delimiter's start. -/
theorem hearFrame_latched {r : Discard} (fails : checkFrame bits = .error r) (heard : delimiterHeard bits ≠ 0) :
    hearFrame bits s = discarded r (latchAt (4 * delimiterHeard bits) s) := by
  simp only [hearFrame, receiving, State.line_mapLine, fails, if_neg heard]
  exact discarded_of_rx (latchAt (4 * delimiterHeard bits) s) receiving bits r

theorem hearFrame_passes {f : Frame} (passes : checkFrame bits = .ok f) :
    hearFrame bits s = takeFrame f (dispatched s) := by
  simp only [hearFrame, receiving, State.line_mapLine, passes]
  rw [dispatched_of_rx s receiving bits]

/-- A discard ends the frame and counts it, and changes nothing else (R158, R161). -/
theorem discarded_eq (r : Discard) : discarded r s =
    { s with
      line :=
        { s.line with
          state := .waitIdle, run := 0, bitPhase := 0, rx := [], counters := s.line.counters.countDiscard r } } := by
  simp only [discarded, State.mapLine, Line.discard, Line.receiveEnd, receiving, reduceCtorEq, if_false, Line.frameEnd]

end

/-! ## A frame of a whole length, and one with a size byte above 48 -/

section
variable {kind : Nat} {sender : Sender} {serial : Serial} {payload : List Byte} {tail : List Bool} {s : State}
  (known : kind < 8) (short : payload.length ≤ 48) (eight : tail.length = 8) (receiving : s.line.state = .receiving)
  (crc : BitVec 16)
include known short eight receiving

/-- A wrong CRC word or end delimiter discards the frame, with the position of the delimiter's start latched. -/
theorem hearFrame_of_broken
    (broken : crc ≠ crc16 (framed kind sender serial payload) ∨ tail ≠ endDelimiter) :
    hearFrame (framed kind sender serial payload ++ (bytesBits (word16 crc) ++ tail)) s =
      discarded .crc (latchAt (4 * min 8 ((tail.takeWhile id).length + 1)) s) := by
  have fails := checkFrame_framed sender serial payload known short crc tail
  have heard := delimiterHeard_framed sender serial payload known short crc tail eight
  rw [if_pos broken] at fails
  rw [hearFrame_latched s receiving _ fails (by omega), heard]

end

/-- The judgement of its fields decides about a frame with its CRC word and end delimiter right. -/
theorem hearFrame_of_judged {kind : Nat} {sender : Sender} {serial : Serial} {payload : List Byte} {s : State}
    {r : Discard} (known : kind < 8) (short : payload.length ≤ 48) (receiving : s.line.state = .receiving)
    (fails : judged kind sender serial payload = .error r) :
    hearFrame (framed kind sender serial payload ++
      (bytesBits (word16 (crc16 (framed kind sender serial payload))) ++ endDelimiter)) s =
      discarded r (latchAt 32 s) := by
  have checked := checkFrame_framed sender serial payload known short (crc16 (framed kind sender serial payload))
    endDelimiter
  have heard := delimiterHeard_framed sender serial payload known short (crc16 (framed kind sender serial payload))
    endDelimiter rfl
  rw [if_neg (by simp), fails] at checked
  rw [hearFrame_latched s receiving _ checked (by omega), heard]
  rfl

/-- A size byte above 48 ends the frame there, whatever follows it. -/
theorem hearFrame_of_long {kind : Nat} {sender : Sender} {serial : Serial} {size : Byte} {s : State} (known : kind < 8)
    (long : 48 < size.toNat) (receiving : s.line.state = .receiving) (rest : List Bool) :
    hearFrame (bytesBits (frameHead kind sender serial ++ [size]) ++ rest) s = discarded .length s := by
  have head : bytesBits (frameHead kind sender serial ++ [size]) ++ rest =
      bytesBits (frameHead kind sender serial) ++ (byteBits size ++ rest) := by
    rw [bytesBits_append, List.append_assoc]
    rfl
  rw [head]
  exact hearFrame_unlatched s receiving _ (checkFrame_of_long sender serial rest known long)
    (delimiterHeard_of_long sender serial rest known long)

/-! ## A legal frame dispatched -/

theorem stationOf_of_isStation (n : Sender) (station : isStation n = true) : ∃ m, stationOf n = some m :=
  Option.isSome_iff_exists.1 station

section
variable (s : State) (n : Sender)

/-- The command of each kind dispatches its frame to the blocks that take it (R160). -/
theorem exec_claim_frame (x : Serial) (legal : (Frame.claim n x).Legal) :
    exec (.claim n x) s = .next (takeFrame (.claim n x) (dispatched s)) := by
  obtain ⟨m, station⟩ := stationOf_of_isStation n legal
  show execClaim n x s = _
  simp only [execClaim, takeFrame, station]

theorem exec_notice_frame (x : NoticeFields) (legal : (Frame.notice n x).Legal) :
    exec (.notice n x.serial x.toNoticeBody) s = .next (takeFrame (.notice n x) (dispatched s)) := by
  obtain ⟨m, station⟩ := stationOf_of_isStation n legal
  show execNotice n x.serial x.toNoticeBody s = _
  simp only [execNotice, takeFrame, station]

theorem exec_report_frame (x : ReportFields) (legal : (Frame.report n x).Legal) :
    exec (.report n x) s = .next (takeFrame (.report n x) (dispatched s)) := by
  obtain ⟨isStation, few⟩ := legal
  obtain ⟨m, station⟩ := stationOf_of_isStation n isStation
  show execReport n x s = _
  simp only [execReport, takeFrame, if_neg (Nat.not_lt.2 few), station]

theorem exec_status_frame (x : List Byte) (legal : (Frame.status n x).Legal) :
    exec (.status n x) s = .next (takeFrame (.status n x) (dispatched s)) := by
  obtain ⟨station, length⟩ := legal
  exact (if_pos length).trans (if_pos station)

theorem exec_query_frame (x y : Byte) (legal : (Frame.query n x y).Legal) :
    exec (.query n x y) s = .next (takeFrame (.query n x y) (dispatched s)) := if_pos legal

theorem exec_quiet_frame (x y : Byte) (legal : (Frame.quiet n x y).Legal) :
    exec (.quiet n x y) s = .next (takeFrame (.quiet n x y) (dispatched s)) := if_pos legal

/-- The three scopes of a RESTART have a command each (R172). -/
theorem exec_restart_frame (x : Byte) (recorder : isRecorder n = true) :
    exec (.restartTracking n x) s = .next (takeFrame (.restart n x 0) (dispatched s)) ∧
    exec (.restartFiring n x) s = .next (takeFrame (.restart n x 1) (dispatched s)) ∧
    exec (.restartStation n x) s = .next (takeFrame (.restart n x 2) (dispatched s)) :=
  ⟨if_pos recorder, if_pos recorder, if_pos recorder⟩

/-- A RESTART of an unknown scope is ignored by the request handler (R172; log 27). -/
theorem takeRestart_of_unknown (x scope : Byte) (unknown : 2 < scope.toNat) : takeRestart x scope s = s := by
  unfold takeRestart
  split
  · split
    case h_4 => rfl
    all_goals omega
  · rfl

end

/-- The bits of a legal frame are that frame dispatched. -/
theorem exec_frameDiscard_legal (f : Frame) (s : State) (legal : f.Legal) (receiving : s.line.state = .receiving)
    {bits tail : List Bool} (split : bits ++ tail = f.bits) :
    exec (.frameDiscard bits tail) s = .next (takeFrame f (dispatched s)) := by
  rw [exec_frameDiscard, split, hearFrame_passes s receiving _ (everyLegalFrameReadsBack f legal)]

/-- Settles O50: the checks in their order, the dispatch of a frame that passes them, and the other line states. -/
theorem receiveChecksDiscardInOrder : Obligations.ReceiveChecksDiscardInOrder := by
  refine ⟨fun kind sender serial payload crc tail covered bits s known short eight receiving cov all => ?_,
    fun f bits tail s receiving legal split => ?_, fun bits tail s => ⟨?_, fun sending => ?_⟩⟩
  · have framing : covered = framed kind sender serial payload := cov
    subst framing
    subst all
    simp only [exec_frameDiscard, List.append_assoc]
    refine ⟨fun broken => ?_, fun right delimiter => ?_, fun size more long => ?_, fun n r => ?_⟩
    · rw [hearFrame_of_broken known short eight receiving crc broken]
    · subst right
      obtain rfl : tail = endDelimiter := delimiter
      refine ⟨fun length => ?_, fun length seven => ?_, fun length other wrong => ?_⟩
      · rw [hearFrame_of_judged known short receiving (judged_length kind sender serial payload length)]
      · subst seven
        rw [hearFrame_of_judged known short receiving (judged_seven sender serial payload)]
      · obtain ⟨f, parsed⟩ := parseFrame_isSome kind sender serial payload known other
        have judgement := judged_parsed kind sender serial payload length parsed
        rw [if_neg (by rw [wrong]; decide)] at judgement
        rw [hearFrame_of_judged known short receiving judgement]
    · exact congrArg Host.Outcome.next (hearFrame_of_long known long receiving (more ++ tail))
    · refine ⟨_, discarded_eq (latchAt n s) receiving r, rfl, rfl, rfl, rfl, rfl, ?_⟩
      cases r <;> rfl
  · rw [exec_frameDiscard_legal f s legal receiving split]
    refine ⟨?_, ?_, ?_, ?_, ?_, ?_, ?_, ?_, ?_, ?_⟩
    · rintro n x rfl
      exact (exec_claim_frame s n x legal).symm
    · rintro n x rfl
      exact (exec_notice_frame s n x legal).symm
    · rintro n x rfl
      exact (exec_report_frame s n x legal).symm
    · rintro n x y rfl
      exact (exec_query_frame s n x y legal).symm
    · rintro n x rfl
      exact (exec_status_frame s n x legal).symm
    · rintro n x y rfl
      exact (exec_quiet_frame s n x y legal).symm
    · rintro n x rfl
      obtain ⟨tracking, -, -⟩ := exec_restart_frame s n x legal
      exact tracking.symm
    · rintro n x rfl
      obtain ⟨-, firing, -⟩ := exec_restart_frame s n x legal
      exact firing.symm
    · rintro n x rfl
      obtain ⟨-, -, station⟩ := exec_restart_frame s n x legal
      exact station.symm
    · rintro n x scope rfl unknown
      exact congrArg Host.Outcome.next (takeRestart_of_unknown (dispatched s) x scope unknown)
  · rintro (waits | idle)
    · rw [exec_frameDiscard, hearFrame, waits]
    · rw [exec_frameDiscard, hearFrame, idle]
  · rw [exec_frameDiscard, hearFrame, sending]
    rfl

end Sys2Proof.Machine
end

section
/-! SUPPORT. The recorder's QUERY and QUIET frames and the STATUS of another station (R160, R172, R173, R174;
log 32). -/

namespace Sys2Proof.Machine

/-! ## Acceptance (R172) -/

theorem targetsUs_iff (target : Byte) (s : State) :
    targetsUs target s = true ↔ s.isOwnTarget target = true ∨ target = 31 := by
  have all : (target.toNat == 31) = true ↔ target = 31 := by
    rw [beq_iff_eq, ← BitVec.toNat_inj]
    rfl
  rw [targetsUs, Bool.or_eq_true, all]

section
variable (sender : Sender) (target x : Byte) (s : State) (recorder : isRecorder sender = true)
include recorder

theorem exec_query_accepted (ours : s.isOwnTarget target = true ∨ target = 31) (item : x.toNat ≤ 3) :
    exec (.query sender target x) s = .next (acceptQuery sender x (dispatched s)) :=
  (if_pos recorder).trans (congrArg Host.Outcome.next (if_pos ⟨(targetsUs_iff target (dispatched s)).2 ours, item⟩))

theorem exec_query_ignored (ignored : ¬((s.isOwnTarget target = true ∨ target = 31) ∧ x.toNat ≤ 3)) :
    exec (.query sender target x) s = .next (dispatched s) := by
  rw [← targetsUs_iff] at ignored
  exact (if_pos recorder).trans (congrArg Host.Outcome.next (if_neg ignored))

theorem exec_quiet_accepted (ours : s.isOwnTarget target = true ∨ target = 31) :
    exec (.quiet sender target x) s = .next (acceptQuiet x (dispatched s)) :=
  (if_pos recorder).trans (congrArg Host.Outcome.next (if_pos ((targetsUs_iff target (dispatched s)).2 ours)))

theorem exec_quiet_ignored (others : ¬(s.isOwnTarget target = true ∨ target = 31)) :
    exec (.quiet sender target x) s = .next (dispatched s) := by
  rw [← targetsUs_iff] at others
  exact (if_pos recorder).trans (congrArg Host.Outcome.next (if_neg others))

end

/-- The STATUS of a station is counted and acts on no block (R160). -/
theorem exec_status_dispatched (n : StationNo) (payload : List Byte) (s : State)
    (agrees : statusLengthAgrees payload = true) : exec (.status (senderOf n) payload) s = .next (dispatched s) := by
  have station : isStation (senderOf n) = true := by rw [isStation, stationOf_senderOf]; rfl
  exact (if_pos agrees).trans (if_pos station)

/-! ## The content of a reply (R173; 09 section 9.6) -/

section
variable (asker : Sender) (s : State)

/-- The items a QUERY may ask for. -/
theorem item_cases (x : Byte) (item : x.toNat ≤ 3) : x = 0 ∨ x = 1 ∨ x = 2 ∨ x = 3 := by
  bv_omega

/-- Every reply begins with its asker and its item. -/
theorem statusPayload_begins (x : Byte) : ∃ more, statusPayload asker x s = askerByte asker :: x :: more := by
  unfold statusPayload
  split <;> exact ⟨_, rfl⟩

theorem trackBytes_length (t : Track) : (trackBytes t).length = 8 := rfl

theorem tableItem_length (tracks : List Track) : (tableItem asker 1 tracks).length = 3 + 8 * tracks.length := by
  rw [tableItem, List.length_append, List.length_flatMap]
  simp only [trackBytes_length, List.map_const', List.sum_replicate, smul_eq_mul, List.length_cons, List.length_nil]
  omega

theorem tableItem_agrees (tracks : List Track) (few : tracks.length ≤ 5) :
    statusLengthAgrees (tableItem asker 1 tracks) = true := by
  have item : field (tableItem asker 1 tracks) 1 1 = 1 := rfl
  have read : field (tableItem asker 1 tracks) 2 1 = bytesNat [BitVec.ofNat 8 tracks.length] := rfl
  have count : bytesNat [BitVec.ofNat 8 tracks.length] = tracks.length := by
    simp only [bytesNat, List.foldl, BitVec.toNat_ofNat]
    omega
  simp only [statusLengthAgrees, item, read, count, tableItem_length, few, decide_true, Bool.true_and, beq_self_eq_true]

/-- The reply to every item has the length its item byte says (R159). -/
theorem statusPayload_agrees (x : Byte) (item : x.toNat ≤ 3) (few : s.tracker.tracks.length ≤ 5) :
    statusLengthAgrees (statusPayload asker x s) = true := by
  obtain rfl | rfl | rfl | rfl := item_cases x item
  · rfl
  · exact tableItem_agrees asker s.tracker.tracks few
  · rfl
  · rfl

end

/-- Settles O51: a QUERY and a QUIET accepted, each ignored, and a STATUS. -/
theorem queryQuietAndStatusFrames : Obligations.QueryQuietAndStatusFrames := by
  intro sender target x s recorder
  refine ⟨fun ours item => ?_, exec_quiet_accepted sender target x s recorder, fun other one => ?_, fun beyond => ?_,
    fun n payload agrees => exec_status_dispatched n payload s agrees⟩
  · obtain ⟨more, begins⟩ := statusPayload_begins sender (dispatched s) x
    exact ⟨statusPayload sender x (dispatched s), _, exec_query_accepted sender target x s recorder ours item, rfl, rfl,
      by rintro rfl; rfl, by rintro rfl; rfl, by rintro rfl; rfl, by rintro rfl; rfl, by rw [begins]; rfl,
      by rw [begins]; rfl, statusPayload_agrees sender (dispatched s) x item⟩
  · have others : ¬(s.isOwnTarget target = true ∨ target = 31) := by
      rw [other]
      exact not_or.2 ⟨Bool.false_ne_true, one⟩
    exact ⟨exec_query_ignored sender target x s recorder (fun accepted => others accepted.1),
      exec_quiet_ignored sender target x s recorder others⟩
  · exact exec_query_ignored sender target x s recorder (fun accepted => Nat.not_le.2 beyond accepted.2)

end Sys2Proof.Machine
end

section
/-! SUPPORT. The idle gap and start bits (R150, R153; log 25). -/

namespace Sys2Proof.Machine

/-- No frame may be sent: no CLAIM waits, and the other kinds have no number or do not wait (R153). -/
theorem nextAttempt_eq_none_iff (s : State) : nextAttempt s = none ↔ s.line.set.claim = none ∧
    (s.num.own = none ∨ (s.line.set.notice = none ∧ s.line.set.report = none ∧ s.line.set.status = none)) := by
  unfold nextAttempt
  cases s.line.set.claim with
  | some q => simp
  | none =>
    cases s.num.own with
    | none => simp
    | some n =>
      cases s.line.set.notice with
      | some q => simp
      | none =>
        cases s.line.set.report with
        | some q => simp
        | none => cases s.line.set.status <;> simp

section
variable (s : State)

theorem exec_lineIdle_waiting (waits : s.line.state = .waitIdle) :
    exec .lineIdle s = .next { s with line := { s.line with state := .idle, run := 11 } } := by
  have line : s.line.becomeIdle = { s.line with state := .idle, run := 11 } := if_pos waits
  exact congrArg (fun l => Host.Outcome.next { s with line := l }) line

theorem exec_lineIdle_other (other : s.line.state ≠ .waitIdle) : exec .lineIdle s = .next s := by
  have line : s.line.becomeIdle = s.line := if_neg other
  exact congrArg (fun l => Host.Outcome.next { s with line := l }) line

theorem exec_startBit_waiting (waits : s.line.state = .waitIdle) :
    exec .startBit s = .next (s.mapLine Line.dominantBit) := by
  refine congrArg Host.Outcome.next ?_
  rw [otherStartBit, waits]

theorem exec_startBit_heard (idle : s.line.state = .idle) (nothing : nextAttempt s = none) :
    exec .startBit s = .next (s.mapLine Line.startReceiving) := by
  refine congrArg Host.Outcome.next ?_
  rw [otherStartBit, idle, nothing]
  exact if_neg fun joins => Bool.false_ne_true joins.2

theorem exec_startBit_joined (idle : s.line.state = .idle) (free : s.line.attempt = none)
    (waits : nextAttempt s ≠ none) : exec .startBit s = exec .attemptStart s := by
  refine congrArg Host.Outcome.next ?_
  rw [otherStartBit, idle]
  exact if_pos ⟨free, Option.isSome_iff_ne_none.2 waits⟩

theorem exec_startBit_busy (busy : s.line.state = .sending ∨ s.line.state = .receiving) :
    exec .startBit s = .next s := by
  refine congrArg Host.Outcome.next ?_
  rcases busy with sending | receiving
  · rw [otherStartBit, sending]
  · rw [otherStartBit, receiving]

end

/-- Settles O44: both commands in every line state. -/
theorem idleGapAndStartBit : Obligations.IdleGapAndStartBit := by
  intro s
  refine ⟨fun waits =>
      ⟨exec_lineIdle_waiting s waits, _, exec_startBit_waiting s waits, waits, rfl, rfl, rfl, rfl, rfl⟩,
    exec_lineIdle_other s, fun idle free => ⟨fun claim others => ?_, fun waiting => ?_⟩, exec_startBit_busy s⟩
  · exact ⟨_, exec_startBit_heard s idle ((nextAttempt_eq_none_iff s).2 ⟨claim, others⟩), rfl, rfl, rfl, rfl, rfl, free,
      rfl⟩
  · refine exec_startBit_joined s idle free fun nothing => ?_
    obtain ⟨claim, others⟩ := (nextAttempt_eq_none_iff s).1 nothing
    rcases waiting with waits | ⟨number, waits⟩
    · exact waits claim
    · rcases others with unnumbered | ⟨notice, report, status⟩
      · exact number unnumbered
      · rcases waits with waits | waits | waits
        · exact waits notice
        · exact waits report
        · exact waits status

end Sys2Proof.Machine
end

section
/-! SUPPORT. The ends of an own attempt without transmission: lost, broken or dropped (R39, R154..R157, R167, R168,
R170, R173; log 16, log 17, log 18, log 36). -/

namespace Sys2Proof.Machine

/-! ## What queuing and returning a frame leave of the line (R156) -/

/-- The line as it was but for its transmit set and the count of supersessions. -/
def Line.Requeued (l m : Line) : Prop :=
  ∃ set n, m = { l with set := set, counters := { l.counters with superseded := n } }

theorem Line.Requeued.refl (l : Line) : l.Requeued l := ⟨l.set, l.counters.superseded, rfl⟩

/-- What stays of the line when a frame is requeued. -/
theorem Line.Requeued.fields {l m : Line} (h : l.Requeued m) :
    m.state = l.state ∧ m.attempt = l.attempt ∧ m.run = l.run ∧ m.rx = l.rx ∧
    m.counters.arbitrationLosses = l.counters.arbitrationLosses ∧
    m.counters.collisionErrors = l.counters.collisionErrors ∧ m.counters.dropped = l.counters.dropped ∧
    m.counters.sent = l.counters.sent ∧ m.counters.discardOwn = l.counters.discardOwn := by
  obtain ⟨set, n, rfl⟩ := h
  exact ⟨rfl, rfl, rfl, rfl, rfl, rfl, rfl, rfl, rfl⟩

theorem countSuperseded_eq (b : Bool) (c : LineCounters) :
    countSuperseded b c = { c with superseded := if b then bump c.superseded else c.superseded } := by
  cases b <;> rfl

theorem Line.queueClaim_requeued (n : StationNo) (l : Line) : l.Requeued (l.queueClaim n) :=
  ⟨_, _, by rw [Line.queueClaim, countSuperseded_eq]⟩

theorem Line.queueNotice_requeued (l : Line) : l.Requeued l.queueNotice :=
  ⟨_, _, by rw [Line.queueNotice, countSuperseded_eq]⟩

theorem Line.returnFrame_requeued (a : Attempt) (l : Line) : l.Requeued (l.returnFrame a) := by
  obtain ⟨frame, collisions, withdrawn⟩ := a
  cases withdrawn with
  | true => exact .refl l
  | false =>
    simp only [Line.returnFrame, Bool.false_eq_true, if_false]
    cases frame <;> dsimp only <;> split <;> exact ⟨_, _, rfl⟩

/-- What becomes of the frame of an attempt that ended without transmission (R156, log 16). -/
theorem Line.returnFrame_returned (a : Attempt) (l : Line) : a.Returned a.collisions l (l.returnFrame a) := by
  obtain ⟨frame, collisions, withdrawn⟩ := a
  cases withdrawn with
  | true => exact ⟨nofun, nofun, fun _ => ⟨rfl, rfl⟩⟩
  | false =>
    simp only [Attempt.Returned, Sending.Awaited, Sending.HeldIn, Line.returnFrame]
    cases frame with
    | claim n x => cases queued : l.set.claim <;> simp [countSuperseded, queued]
    | notice n x => cases queued : l.set.notice <;> simp [countSuperseded, queued]
    | report n x => cases queued : l.set.report <;> simp [countSuperseded, queued]
    | status n x => cases queued : l.set.status <;> simp [countSuperseded, queued]

/-! ## What a block does when it is told of a drop (R157) -/

section
variable (s : State)

/-- RELEASING ends with the claiming procedure and a NOTICE queued (R39). -/
theorem releasingEnds_calendar : (releasingEnds s).calendar =
    { s.calendar with state := .active, claims := claimedList s, countdown := some 64 } := rfl

theorem replyEnded_req : (s.line.set.status = none → (replyEnded s).req = { s.req with reply := none }) ∧
    (s.line.set.status ≠ none → (replyEnded s).req = s.req) := by
  rw [replyEnded]
  cases s.line.set.status with
  | none => exact ⟨fun _ => rfl, fun newer => absurd rfl newer⟩
  | some q => exact ⟨nofun, fun _ => rfl⟩

/-- A drop requeues a frame at most. -/
theorem tellDropped_line (f : Sending) : s.line.Requeued (tellDropped f s).line := by
  cases f with
  | claim n x =>
    simp only [tellDropped, claimDropped]
    split
    · exact .refl _
    · split
      · exact Line.queueClaim_requeued _ _
      · exact .refl _
    · split
      · exact Line.queueClaim_requeued _ _
      · exact .refl _
  | notice n f =>
    simp only [tellDropped, noticeDropped]
    split
    · exact Line.queueNotice_requeued _
    · exact .refl _
  | report n r => exact .refl _
  | status n r =>
    have same : (replyEnded s).line = s.line := by simp
    exact ⟨_, _, same⟩

/-- A dropped CLAIM is queued again for the wanted number of a CLAIMING unit (R167, R168). -/
theorem tellDropped_claim_claiming (n w : StationNo) (x : Serial) (claiming : s.num.state = .claiming)
    (wanted : s.num.wanted = some w) : tellDropped (.claim n x) s = sendClaim w s := by
  simp only [tellDropped, claimDropped, claiming, wanted]

/-- A NUMBERED unit queues a dropped CLAIM again while it holds its number (R170; log 36). -/
theorem tellDropped_claim_held (n : StationNo) (x : Serial) (numbered : s.num.state = .numbered)
    (own : s.num.own = some n) : tellDropped (.claim n x) s = sendClaim n s := by
  simp only [tellDropped, claimDropped, numbered, if_pos own]

theorem tellDropped_claim_given_up (n : StationNo) (x : Serial) (numbered : s.num.state = .numbered)
    (other : s.num.own ≠ some n) : tellDropped (.claim n x) s = s := by
  simp only [tellDropped, claimDropped, numbered, if_neg other]

/-- A dropped NOTICE with empty sets ends RELEASING (R39), and any other drop of one changes nothing. -/
theorem tellDropped_notice_ends (n : StationNo) (f : NoticeFields) (releasing : s.calendar.state = .releasing)
    (claimed : f.claimed = 0) (settled : f.settled = 0) : tellDropped (.notice n f) s = releasingEnds s :=
  if_pos ⟨releasing, claimed, settled⟩

theorem tellDropped_notice_nothing (n : StationNo) (f : NoticeFields)
    (other : s.calendar.state ≠ .releasing ∨ f.claimed ≠ 0 ∨ f.settled ≠ 0) : tellDropped (.notice n f) s = s :=
  if_neg fun ⟨releasing, claimed, settled⟩ => other.elim (fun no => no releasing)
    fun others => others.elim (fun no => no claimed) fun no => no settled

end

/-! ## Attempts lost or broken (R154, R155, R156) -/

theorem exec_arbitrationLoss (bit : Nat) (s : State) (a : Attempt) (trying : s.line.attempt = some a)
    (recessive : a.frame.frame.arbitrationBits[bit]? = some true) :
    exec (.arbitrationLoss bit) s = .next (s.mapLine (Line.loseArbitration bit a)) := by
  refine congrArg Host.Outcome.next ?_
  rw [loseArbitration, trying]
  exact if_pos (by rw [Attempt.losesAt, recessive]; rfl)

theorem collidesAt_of (bit : Nat) (a : Attempt)
    (wrong : bit = 0 ∨ a.frame.frame.arbitrationBits[bit - 1]? = some false ∨
      (a.frame.frame.arbitrationBits.length < bit ∧ bit ≤ a.frame.frame.bits.length)) :
    a.collidesAt bit = true := by
  cases bit with
  | zero => rfl
  | succ k =>
    rcases wrong with start | dominant | ⟨behind, inside⟩
    · cases start
    · obtain ⟨within, -⟩ := List.getElem?_eq_some_iff.1 dominant
      rw [Nat.add_sub_cancel] at dominant within
      rw [Attempt.collidesAt, if_pos within, dominant]
      rfl
    · rw [Attempt.collidesAt, if_neg (by omega), decide_eq_true_eq]
      omega

/-- The state at a drop, before its block is told of it. -/
def droppedAt (bit : Nat) (a : Attempt) (s : State) : State := s.mapLine fun l => (l.stopSending bit a).countDropped

section
variable (bit : Nat) (s : State) (a : Attempt) (trying : s.line.attempt = some a) (wrong : a.collidesAt bit = true)
include trying wrong

/-- Below 8 collision errors the frame returns with one more. -/
theorem exec_collisionError_returns (below : a.collisions + 1 < 8) :
    exec (.collisionError bit) s = .next (s.mapLine fun l =>
      (l.stopSending bit a).returnFrame { a with collisions := a.collisions + 1 }) := by
  refine congrArg Host.Outcome.next ?_
  rw [collide, trying]
  exact (if_pos wrong).trans (if_neg (Nat.not_le.2 below))

/-- The eighth collision error drops the frame, and its block is told. -/
theorem exec_collisionError_drops (eighth : a.collisions + 1 = 8) (stands : a.withdrawn = false) :
    exec (.collisionError bit) s = .next (tellDropped a.frame (droppedAt bit a s)) := by
  refine congrArg Host.Outcome.next ?_
  rw [collide, trying]
  exact (if_pos wrong).trans ((if_pos (Nat.le_of_eq eighth.symm)).trans (if_neg (by rw [stands]; decide)))

end

/-- Settles O47: the loss, the errors below 8, and the drop by the kind of its frame. -/
theorem lostAndBrokenAttempts : Obligations.LostAndBrokenAttempts := by
  refine ⟨fun bit s a trying recessive => ?_, fun bit s a trying place => ?_⟩
  · have kept : Line.Requeued _ (s.line.loseArbitration bit a) := Line.returnFrame_requeued a _
    have returned : a.Returned a.collisions _ (s.line.loseArbitration bit a) := Line.returnFrame_returned a _
    obtain ⟨state, attempt, -, rx, losses, errors, drops, -⟩ := kept.fields
    exact ⟨_, exec_arbitrationLoss bit s a trying recessive, state, attempt, rx, losses, errors, drops, returned, rfl⟩
  · have wrong := collidesAt_of bit a place
    refine ⟨fun below => ?_, fun eighth stands => ?_⟩
    · have kept := Line.returnFrame_requeued { a with collisions := a.collisions + 1 } (s.line.stopSending bit a)
      have returned := Line.returnFrame_returned { a with collisions := a.collisions + 1 } (s.line.stopSending bit a)
      obtain ⟨state, attempt, -, -, -, errors, drops, -⟩ := kept.fields
      exact ⟨_, exec_collisionError_returns bit s a trying wrong below, state, attempt, errors, drops, returned, rfl⟩
    · have kept := tellDropped_line (droppedAt bit a s) a.frame
      obtain ⟨state, attempt, -, -, -, errors, drops, -⟩ := kept.fields
      refine ⟨_, exec_collisionError_drops bit s a trying wrong eighth stands, state, attempt, errors, drops, ?_, ?_,
        ?_, ?_, ?_, ?_, ?_, ?_⟩
      · rintro n r report
        rw [report]
        exact ⟨rfl, rfl⟩
      · rintro n r status
        obtain ⟨ended, stays⟩ := replyEnded_req (droppedAt bit a s)
        have line : (tellDropped (.status n r) (droppedAt bit a s)).line = (droppedAt bit a s).line := by
          simp [tellDropped]
        rw [status, line]
        exact ⟨rfl, fun empty => congrArg Request.reply (ended empty), stays⟩
      · rintro n x claim numbered own
        rw [claim, tellDropped_claim_held (droppedAt bit a s) n x numbered own]
        rfl
      · rintro n x claim numbered other
        rw [claim, tellDropped_claim_given_up (droppedAt bit a s) n x numbered other]
        rfl
      · rintro n x w claim claiming wanted
        rw [claim, tellDropped_claim_claiming (droppedAt bit a s) n w x claiming wanted]
        rfl
      · rintro n f notice active
        have other : s.calendar.state ≠ .releasing := by rw [active]; nofun
        rw [notice, tellDropped_notice_nothing (droppedAt bit a s) n f (.inl other)]
        exact ⟨rfl, rfl⟩
      · rintro n f notice releasing claimed settled
        rw [notice, tellDropped_notice_ends (droppedAt bit a s) n f releasing claimed settled]
        exact ⟨releasingEnds_calendar (droppedAt bit a s), rfl⟩
      · rintro n f notice releasing holds
        rw [notice, tellDropped_notice_nothing (droppedAt bit a s) n f (.inr holds)]
        exact ⟨rfl, rfl⟩

end Sys2Proof.Machine
end

section
/-! SUPPORT. A transmission and what its block makes of it (R32, R39, R157, R158, R167, R170, R173; log 15, log 18,
log 26). -/

namespace Sys2Proof.Machine

/-- The state at a transmission, before its block is told of it. -/
def transmittedAt (s : State) : State := (latch s).mapLine Line.transmitted

theorem exec_frameTransmitted (s : State) (a : Attempt) (trying : s.line.attempt = some a) :
    exec .frameTransmitted s = .next (tellTransmitted a.frame s.line.recalled (transmittedAt s)) := by
  refine congrArg Host.Outcome.next ?_
  rw [ownFrameEnds, trying]
  rfl

section
variable (s : State)

theorem claimTransmitted_starts (n : StationNo) (claiming : s.num.state = .claiming) (wanted : s.num.wanted = some n)
    (free : s.num.holdOff = none) :
    claimTransmitted n s = s.mapNum fun u => { u with holdOff := some 64 } := if_pos ⟨claiming, wanted, free⟩

theorem claimTransmitted_nothing (n : StationNo)
    (other : s.num.state ≠ .claiming ∨ s.num.wanted ≠ some n ∨ s.num.holdOff ≠ none) : claimTransmitted n s = s :=
  if_neg fun ⟨claiming, wanted, free⟩ => other.elim (fun no => no claiming)
    fun others => others.elim (fun no => no wanted) fun no => no free

/-- A slot counts that the NOTICE claimed and that stayed on the list (R32; log 26). -/
theorem carriedSlot_iff (claimed recalled : SlotSet) (slot : Slot) : (claimed &&& ~~~recalled).getLsbD slot.val = true ↔
    claimed.getLsbD slot.val = true ∧ recalled.getLsbD slot.val = false := by
  have inside := slot.isLt
  simp [inside]

/-- A TENTATIVE entry so carried counts once more, and is SETTLED at 2 (R32). -/
theorem Claim.carried_eq (claimed recalled : SlotSet) (c : Claim) (ok : c.Ok) :
    c.carried (claimed &&& ~~~recalled) =
      if c.state = .tentative ∧ claimed.getLsbD c.slot.val = true ∧ recalled.getLsbD c.slot.val = false then
        { c with count := c.count + 1, state := if c.count = 0 then .tentative else .settled }
      else c := by
  simp only [Claim.carried, carriedSlot_iff]
  by_cases counts : c.state = .tentative ∧ claimed.getLsbD c.slot.val = true ∧ recalled.getLsbD c.slot.val = false
  · rw [if_pos counts, if_pos counts]
    obtain ⟨tentative, -⟩ := counts
    rcases ok with ⟨-, young⟩ | ⟨settled, -⟩
    · rcases Nat.le_one_iff_eq_zero_or_eq_one.1 young with zero | one
      · simp [zero, tentative]
      · simp [one]
    · cases tentative.symm.trans settled
  · rw [if_neg counts, if_neg counts]

theorem Claim.settles_iff (claimed recalled : SlotSet) (c : Claim) : c.settles (claimed &&& ~~~recalled) = true ↔
    c.state = .tentative ∧ claimed.getLsbD c.slot.val = true ∧ recalled.getLsbD c.slot.val = false ∧ 1 ≤ c.count := by
  rw [Claim.settles, Bool.and_eq_true, Bool.and_eq_true, carriedSlot_iff, beq_iff_eq, decide_eq_true_eq, ge_iff_le,
    Nat.succ_le_succ_iff, and_assoc, and_assoc]

/-- Some entry becomes SETTLED by a NOTICE with this claimed set. -/
def State.Settles (claimed recalled : SlotSet) : Prop :=
  ∃ c, some c ∈ s.calendar.claims ∧ c.settles (claimed &&& ~~~recalled) = true

variable (f : NoticeFields) (recalled : SlotSet)

/-- The entries counted by a NOTICE transmitted (R32). -/
def State.counted : State := s.mapCalendar fun c =>
  { c with claims := c.claims.map (Option.map (Claim.carried (f.claimed &&& ~~~recalled))) }

theorem noticeTransmitted_inactive (inactive : s.calendar.state = .inactive) : noticeTransmitted f recalled s = s := by
  simp only [noticeTransmitted, inactive]

theorem noticeTransmitted_releasing (releasing : s.calendar.state = .releasing) : noticeTransmitted f recalled s =
    if f.claimed = 0 ∧ f.settled = 0 then releasingEnds s else s := by
  simp only [noticeTransmitted, releasing]

/-- In ACTIVE the entries are counted, and a NOTICE is queued where one of them becomes SETTLED (R29, R32). -/
theorem noticeTransmitted_active (active : s.calendar.state = .active) :
    (s.Settles f.claimed recalled → noticeTransmitted f recalled s = queueNotice (s.counted f recalled)) ∧
    (¬s.Settles f.claimed recalled → noticeTransmitted f recalled s = s.counted f recalled) := by
  simp only [noticeTransmitted, active]
  refine ⟨fun ⟨c, listed, settles⟩ => if_pos (List.any_eq_true.2 ⟨some c, listed, settles⟩),
    fun still => if_neg fun settling => ?_⟩
  obtain ⟨x, listed, settles⟩ := List.any_eq_true.1 settling
  cases x with
  | none => cases settles
  | some c => exact still ⟨c, listed, settles⟩

/-- What a NOTICE transmitted can do (R32, R39). -/
theorem noticeTransmitted_cases : noticeTransmitted f recalled s = s ∨
    noticeTransmitted f recalled s = s.counted f recalled ∨
    noticeTransmitted f recalled s = queueNotice (s.counted f recalled) ∨
    noticeTransmitted f recalled s = releasingEnds s := by
  cases state : s.calendar.state with
  | inactive => exact .inl (noticeTransmitted_inactive s f recalled state)
  | active =>
    obtain ⟨queues, counts⟩ := noticeTransmitted_active s f recalled state
    by_cases settles : s.Settles f.claimed recalled
    · exact .inr (.inr (.inl (queues settles)))
    · exact .inr (.inl (counts settles))
  | releasing =>
    rw [noticeTransmitted_releasing s f recalled state]
    split
    · exact .inr (.inr (.inr rfl))
    · exact .inl rfl

theorem noticeTransmitted_peers : (noticeTransmitted f recalled s).calendar.peers = s.calendar.peers := by
  rcases noticeTransmitted_cases s f recalled with same | same | same | same <;> rw [same] <;> rfl

/-- The list after a NOTICE transmitted in ACTIVE, whether or not another one is queued (R32). -/
theorem noticeTransmitted_claims (active : s.calendar.state = .active) :
    (noticeTransmitted f recalled s).calendar.claims =
      s.calendar.claims.map (Option.map (Claim.carried (f.claimed &&& ~~~recalled))) := by
  obtain ⟨queues, counts⟩ := noticeTransmitted_active s f recalled active
  by_cases settles : s.Settles f.claimed recalled
  · rw [queues settles]
    rfl
  · rw [counts settles]
    rfl

/-- A transmission requeues a NOTICE at most. -/
theorem tellTransmitted_line (a : Sending) : s.line.Requeued (tellTransmitted a recalled s).line := by
  cases a with
  | notice n f =>
    show s.line.Requeued (noticeTransmitted f recalled s).line
    rcases noticeTransmitted_cases s f recalled with same | same | same | same <;> rw [same]
    · exact .refl _
    · exact .refl _
    · exact Line.queueNotice_requeued _
    · exact Line.queueNotice_requeued _
  | report n r => exact .refl _
  | claim n x =>
    have same : (claimTransmitted n s).line = s.line := by simp
    exact ⟨_, _, same⟩
  | status n r =>
    have same : (replyEnded s).line = s.line := by simp
    exact ⟨_, _, same⟩

end

/-- Settles O48: the line, the blocks that are not told, and the block of each kind of frame. -/
theorem transmissionTellsTheQueuingBlock : Obligations.TransmissionTellsTheQueuingBlock := by
  intro s a trying
  obtain ⟨state, attempt, run, -, -, -, -, sent, own⟩ :=
    (tellTransmitted_line (transmittedAt s) s.line.recalled a.frame).fields
  obtain ⟨timer, laser, expo, -, banks, -, tracker, loader, -⟩ :=
    tellTransmitted_frame (transmittedAt s) a.frame s.line.recalled
  refine ⟨_, exec_frameTransmitted s a trying, state, run, attempt, sent, own, laser, expo, banks, tracker, loader,
    timer, ?_, ?_, ?_, ?_, ?_, ?_, ?_, ?_, ?_⟩
  · rintro n r report
    rw [report]
    exact ⟨rfl, rfl, rfl, rfl⟩
  · rintro n x claim claiming wanted free
    rw [claim, tellTransmitted, claimTransmitted_starts (transmittedAt s) n claiming wanted free]
    rfl
  · rintro n x claim other
    rw [claim, tellTransmitted, claimTransmitted_nothing (transmittedAt s) n other]
    rfl
  · rintro n x claim
    obtain ⟨-, calendar, -, -, -, -, -, -, line, -, req, -⟩ := claimTransmitted_frame (transmittedAt s) n
    rw [claim, tellTransmitted, line]
    exact ⟨calendar, req, rfl⟩
  · rintro n r status empty
    obtain ⟨ended, -⟩ := replyEnded_req (transmittedAt s)
    rw [status]
    exact ended empty
  · rintro n r status
    obtain ⟨-, calendar, -, -, -, -, -, -, line, -, num, -⟩ := replyEnded_frame (transmittedAt s)
    obtain ⟨-, stays⟩ := replyEnded_req (transmittedAt s)
    rw [status, tellTransmitted, line]
    exact ⟨calendar, num, rfl, stays⟩
  · rintro n f notice
    obtain ⟨-, -, -, -, -, -, -, -, num, req, -⟩ := noticeTransmitted_frame (transmittedAt s) f s.line.recalled
    rw [notice, tellTransmitted]
    refine ⟨num, req, noticeTransmitted_peers _ f _, fun inactive => ?_, fun releasing holds => ?_⟩
    · rw [noticeTransmitted_inactive (transmittedAt s) f _ inactive]
      rfl
    · rw [noticeTransmitted_releasing (transmittedAt s) f _ releasing, if_neg fun ⟨claimed, settled⟩ =>
        holds.elim (fun no => no claimed) fun no => no settled]
      exact ⟨rfl, rfl⟩
  · rintro n f notice active
    have claims := noticeTransmitted_claims (transmittedAt s) f s.line.recalled active
    obtain ⟨queues, -⟩ := noticeTransmitted_active (transmittedAt s) f s.line.recalled active
    rw [notice, tellTransmitted, claims]
    refine ⟨List.length_map _, fun i c listed ok => ?_, fun ⟨c, listed, tentative, one, claimed, stayed⟩ => ?_⟩
    · have before : (transmittedAt s).calendar.claims[i]? = some (some c) := listed
      rw [List.getElem?_map, before, ← Claim.carried_eq f.claimed s.line.recalled c ok]
      rfl
    · rw [queues ⟨c, listed, (c.settles_iff f.claimed s.line.recalled).2 ⟨tentative, claimed, stayed, one.ge⟩⟩]
      exact ⟨rfl, rfl⟩
  · rintro n f notice releasing claimed settled
    rw [notice, tellTransmitted, noticeTransmitted_releasing (transmittedAt s) f _ releasing, if_pos ⟨claimed, settled⟩]
    exact ⟨releasingEnds_calendar (transmittedAt s), rfl⟩

end Sys2Proof.Machine
end

section
/-! SUPPORT. The configuration record: the ranges of its fields, S, the number byte, and the crossing entries, judged one
after the other (R18, R164). -/

namespace Sys2Proof.Machine

/-! ## The fields of a record (R164) -/

theorem clamp_value (lo hi v : Nat) (ordered : lo ≤ hi) : (clamp lo hi v).1 = max lo (min hi v) := by
  unfold clamp
  (repeat' split) <;> omega

/-- A value is flagged where it is changed. -/
theorem clamp_unflagged_iff (lo hi v : Nat) : (clamp lo hi v).2 = false ↔ (clamp lo hi v).1 = v := by
  unfold clamp
  (repeat' split) <;> simp <;> omega

theorem clampShots_unflagged_iff (v : Nat) : (clampShots v).2 = false ↔ (clampShots v).1 = v := by
  unfold clampShots
  (repeat' split) <;> simp <;> omega

theorem clampShots_of_large (v : Nat) (large : 8 < v) : (clampShots v).1 = 8 := by
  unfold clampShots
  rw [if_neg (by omega), if_neg (by omega), if_pos large]

/-- S is allowed, and the greatest allowed value that is not above the record's, if that is not 0. -/
theorem clampShots_greatest (v : Nat) :
    ((clampShots v).1 = 1 ∨ (clampShots v).1 = 2 ∨ (clampShots v).1 = 4 ∨ (clampShots v).1 = 8) ∧
    (1 ≤ v → (clampShots v).1 ≤ v) ∧
    ∀ k, k = 1 ∨ k = 2 ∨ k = 4 ∨ k = 8 → k ≤ v → k ≤ (clampShots v).1 := by
  unfold clampShots
  (repeat' split) <;> refine ⟨by omega, by omega, fun k allowed below => ?_⟩ <;> omega

theorem numberByte_of_auto (v : Nat) (auto : 128 ≤ v) : numberByte v = (.auto, 0, false) := if_pos auto

theorem numberByte_of_fixed (v : Nat) (fixed : v < 128) :
    (numberByte v).1 = .fixed ∧ (numberByte v).2.1.val = min 15 v := by
  unfold numberByte
  rw [if_neg (by omega)]
  split
  · exact ⟨rfl, by simp only; omega⟩
  · exact ⟨rfl, by simp only [Fin.isValue]; omega⟩

theorem numberByte_auto_iff (v : Nat) : (numberByte v).1 = .auto ↔ 128 ≤ v := by
  refine ⟨fun auto => ?_, fun auto => by rw [numberByte_of_auto v auto]⟩
  by_contra fixed
  rw [(numberByte_of_fixed v (Nat.lt_of_not_le fixed)).1] at auto
  cases auto

theorem numberByte_unflagged_iff (v : Nat) : (numberByte v).2.2 = false ↔ 128 ≤ v ∨ v < 16 := by
  unfold numberByte
  (repeat' split) <;> simp <;> omega

/-! ## The crossing entries (R18, R164) -/

/-- The crossing entry `j` of a record as it stands there. -/
def crossingEntry (r : List Byte) (j : Nat) : PeerEntry :=
  builtEntry (Fin.ofNat 16 (field r (22 + 5 * j) 1)) (field r (23 + 5 * j) 2) (field r (25 + 5 * j) 2)

/-- The crossing entry `j` of a record needs no change and no accepted entry: its peer is a station number, its bins are
bins of a profile, in order. -/
def CrossingFits (r : List Byte) (j : Nat) : Prop :=
  field r (22 + 5 * j) 1 < 16 ∧ field r (23 + 5 * j) 2 ≤ field r (25 + 5 * j) 2 ∧ field r (25 + 5 * j) 2 ≤ 799

/-- The peer of the crossing entry `j` is new to the entries accepted before it. -/
def CrossingFresh (r : List Byte) (j : Nat) (accepted : List PeerEntry) : Prop :=
  ∀ e ∈ accepted, e.peer.val ≠ field r (22 + 5 * j) 1

/-- The `n` crossing entries from `j` on fit, of distinct peers, new to those accepted before them. -/
def CrossingClear (r : List Byte) (n j : Nat) (accepted : List PeerEntry) : Prop :=
  (∀ i, j ≤ i → i < j + n → CrossingFits r i ∧ CrossingFresh r i accepted) ∧
    ∀ i k, j ≤ i → i < k → k < j + n → field r (22 + 5 * i) 1 ≠ field r (22 + 5 * k) 1

section
variable (r : List Byte) (n j : Nat)

theorem crossingEntry_peer (fits : CrossingFits r j) : (crossingEntry r j).peer.val = field r (22 + 5 * j) 1 :=
  Nat.mod_eq_of_lt fits.1

/-- A bin of the profile is not clamped, and any other one is flagged. -/
theorem clamp_bin (v : Nat) (inside : v ≤ 799) : clamp 0 799 v = (v, false) := by
  rw [clamp, if_neg (Nat.not_lt_zero v), if_neg (by omega)]

theorem clamp_bin_flagged (v : Nat) (outside : ¬ v ≤ 799) : clamp 0 799 v = (799, true) := by
  rw [clamp, if_neg (Nat.not_lt_zero v), if_pos (by omega)]

theorem crossingFresh_iff (peer : field r (22 + 5 * j) 1 < 16) (accepted : List PeerEntry) :
    CrossingFresh r j accepted ↔ ¬ accepted.any (fun e => e.peer == ⟨field r (22 + 5 * j) 1, peer⟩) = true := by
  simp [CrossingFresh, Fin.ext_iff]

theorem crossingFresh_append (accepted : List PeerEntry) (e : PeerEntry) :
    CrossingFresh r j (accepted ++ [e]) ↔ CrossingFresh r j accepted ∧ e.peer.val ≠ field r (22 + 5 * j) 1 := by
  simp only [CrossingFresh, List.mem_append, List.mem_singleton, or_imp, forall_and, forall_eq]

/-- A crossing entry that fits, of a new peer, is accepted as it stands. -/
theorem crossingEntries_accepts (acc : List PeerEntry × Bool) (fits : CrossingFits r j)
    (fresh : CrossingFresh r j acc.1) :
    crossingEntries r (n + 1) j acc = crossingEntries r n (j + 1) (acc.1 ++ [crossingEntry r j], acc.2) := by
  obtain ⟨peer, ordered, inside⟩ := fits
  have entry : builtEntry ⟨field r (22 + 5 * j) 1, peer⟩ (field r (23 + 5 * j) 2) (field r (25 + 5 * j) 2) =
      crossingEntry r j := congrArg (builtEntry · _ _) (Fin.ext (Nat.mod_eq_of_lt peer).symm)
  have taken : ¬ (field r (23 + 5 * j) 2 > field r (25 + 5 * j) 2 ∨
      acc.1.any (fun e => e.peer == ⟨field r (22 + 5 * j) 1, peer⟩) = true) :=
    not_or.2 ⟨Nat.not_lt.2 ordered, (crossingFresh_iff r j peer _).1 fresh⟩
  simp only [crossingEntries, dif_pos peer, clamp_bin _ inside, clamp_bin _ (ordered.trans inside), if_neg taken, entry,
    Bool.or_false]

/-- A crossing entry that does not fit, or of a peer accepted before, is changed or ignored, and flagged. -/
theorem crossingEntries_flags (acc : List PeerEntry × Bool)
    (refused : ¬ (CrossingFits r j ∧ CrossingFresh r j acc.1)) :
    ∃ es, crossingEntries r (n + 1) j acc = crossingEntries r n (j + 1) (es, true) := by
  by_cases peer : field r (22 + 5 * j) 1 < 16
  · simp only [crossingEntries, dif_pos peer]
    split
    · exact ⟨_, rfl⟩
    · rename_i taken
      obtain ⟨ordered, unseen⟩ := not_or.1 taken
      have fresh : CrossingFresh r j acc.1 := (crossingFresh_iff r j peer _).2 unseen
      by_cases high : field r (25 + 5 * j) 2 ≤ 799
      · have low : ¬ field r (23 + 5 * j) 2 ≤ 799 := fun low => by
          rw [clamp_bin _ low, clamp_bin _ high] at ordered
          exact refused ⟨⟨peer, Nat.not_lt.1 ordered, high⟩, fresh⟩
        exact ⟨_, by rw [clamp_bin_flagged _ low, Bool.or_true, Bool.true_or]⟩
      · exact ⟨_, by rw [clamp_bin_flagged _ high, Bool.or_true]⟩
  · exact ⟨acc.1, by simp only [crossingEntries, dif_neg peer]⟩

/-- A flag once set stays. -/
theorem crossingEntries_flagged (es : List PeerEntry) : (crossingEntries r n j (es, true)).2 = true := by
  induction n generalizing j es with
  | zero => rfl
  | succ n ih =>
    by_cases taken : CrossingFits r j ∧ CrossingFresh r j es
    · rw [crossingEntries_accepts r n j _ taken.1 taken.2]
      exact ih _ _
    · obtain ⟨rest, flags⟩ := crossingEntries_flags r n j (es, true) taken
      rw [flags]
      exact ih _ _

theorem crossingClear_succ (es : List PeerEntry) : CrossingClear r (n + 1) j es ↔
    CrossingFits r j ∧ CrossingFresh r j es ∧ CrossingClear r n (j + 1) (es ++ [crossingEntry r j]) := by
  simp only [CrossingClear, crossingFresh_append]
  constructor
  · rintro ⟨each, distinct⟩
    obtain ⟨fits, fresh⟩ := each j le_rfl (by omega)
    refine ⟨fits, fresh, fun i from_next inside => ?_, fun i k from_next later inside =>
      distinct i k (by omega) later (by omega)⟩
    obtain ⟨fits_i, fresh_i⟩ := each i (by omega) (by omega)
    rw [crossingEntry_peer r j fits]
    exact ⟨fits_i, fresh_i, distinct j i le_rfl from_next (by omega)⟩
  · rintro ⟨fits, fresh, each, distinct⟩
    rw [crossingEntry_peer r j fits] at each
    refine ⟨fun i start inside => ?_, fun i k start later inside => ?_⟩
    · rcases Nat.eq_or_lt_of_le start with rfl | next
      · exact ⟨fits, fresh⟩
      · obtain ⟨fits_i, fresh_i, -⟩ := each i next (by omega)
        exact ⟨fits_i, fresh_i⟩
    · rcases Nat.eq_or_lt_of_le start with rfl | next
      · obtain ⟨-, -, other⟩ := each k later (by omega)
        exact other
      · exact distinct i k next later (by omega)

theorem crossingClear_iff : CrossingClear r n 0 [] ↔
    (∀ j, j < n → CrossingFits r j) ∧ ∀ i j, i < j → j < n → field r (22 + 5 * i) 1 ≠ field r (22 + 5 * j) 1 := by
  simp [CrossingClear, CrossingFresh]

/-- Clear entries are accepted as they stand, with no flag. -/
theorem crossingEntries_of_clear (es : List PeerEntry) (clear : CrossingClear r n j es) :
    crossingEntries r n j (es, false) = (es ++ (List.range' j n).map (crossingEntry r), false) := by
  induction n generalizing j es with
  | zero => simp [crossingEntries]
  | succ n ih =>
    obtain ⟨fits, fresh, rest⟩ := (crossingClear_succ r n j es).1 clear
    rw [crossingEntries_accepts r n j _ fits fresh, ih _ _ rest, List.range'_succ, List.map_cons, List.append_assoc]
    rfl

/-- The flag stays clear exactly where every entry is clear. -/
theorem crossingEntries_unflagged_iff (es : List PeerEntry) :
    (crossingEntries r n j (es, false)).2 = false ↔ CrossingClear r n j es := by
  refine ⟨fun unflagged => ?_, fun clear => by rw [crossingEntries_of_clear r n j es clear]⟩
  induction n generalizing j es with
  | zero => exact ⟨fun i _ _ => by omega, fun i k _ _ _ => by omega⟩
  | succ n ih =>
    by_cases taken : CrossingFits r j ∧ CrossingFresh r j es
    · obtain ⟨fits, fresh⟩ := taken
      rw [crossingEntries_accepts r n j _ fits fresh] at unflagged
      exact (crossingClear_succ r n j es).2 ⟨fits, fresh, ih _ _ unflagged⟩
    · obtain ⟨rest, flags⟩ := crossingEntries_flags r n j (es, false) taken
      rw [flags, crossingEntries_flagged] at unflagged
      cases unflagged

end

/-! ## The record (R18, R164) -/

section
variable (r : List Byte)

/-- The crossing peer table of a record holds accepted entries alone: as many as the record has at most, of distinct
peers, each as it is built (R18). -/
theorem loadRecord_peers :
    (loadRecord r).peers.length ≤ min 8 (field r 21 1) ∧
    (loadRecord r).peers.Pairwise (fun x y => x.peer ≠ y.peer) ∧
    ∀ e ∈ (loadRecord r).peers, e.lo ≤ e.hi ∧ e.hi ≤ 799 ∧ e.age = none ∧ e.claimed = 0 ∧ e.settled = 0 ∧
      e.serial = none := by
  obtain ⟨distinct, built, few⟩ := crossing_ok r (clamp 0 8 (field r 21 1)).1 0 ([], false) ⟨.nil, nofun⟩
  refine ⟨few.trans ?_, distinct, built⟩
  rw [clamp_value 0 8 _ (by decide), List.length_nil]
  omega

/-- Nothing is flagged where no field is changed, the number byte and the count of crossing entries are in range, and the
crossing entries are clear. -/
theorem loadRecord_unflagged_iff : (loadRecord r).clamped = false ↔
    ((loadRecord r).cfg.elevation = field r 3 2 ∧ (loadRecord r).cfg.tilt = field r 5 2 ∧
      (loadRecord r).cfg.shots = field r 7 1 ∧ (loadRecord r).cfg.exponent = field r 8 1 ∧
      (loadRecord r).cfg.period = field r 9 1 ∧ (loadRecord r).cfg.level = field r 10 1 ∧
      (loadRecord r).cfg.limit = field r 11 4 ∧ (loadRecord r).cfg.overlap = field r 15 1 ∧
      (loadRecord r).cfg.tMin = field r 16 4 ∧ (loadRecord r).cfg.mMin = field r 20 1) ∧
    (128 ≤ field r 2 1 ∨ field r 2 1 < 16) ∧ field r 21 1 ≤ 8 ∧ CrossingClear r (field r 21 1) 0 [] := by
  have count : (clamp 0 8 (field r 21 1)).1 = field r 21 1 ↔ field r 21 1 ≤ 8 := by
    rw [clamp_value 0 8 _ (by decide)]
    omega
  simp only [loadRecord, Bool.or_eq_false_iff, clamp_unflagged_iff, clampShots_unflagged_iff, numberByte_unflagged_iff,
    crossingEntries_unflagged_iff]
  constructor
  · rintro ⟨⟨⟨⟨⟨⟨⟨⟨⟨⟨⟨⟨number, elevation⟩, tilt⟩, shots⟩, exponent⟩, period⟩, level⟩, limit⟩, overlap⟩, tMin⟩, mMin⟩,
      few⟩, clear⟩
    rw [few] at clear
    exact ⟨⟨elevation, tilt, shots, exponent, period, level, limit, overlap, tMin, mMin⟩, number, count.1 few, clear⟩
  · rintro ⟨⟨elevation, tilt, shots, exponent, period, level, limit, overlap, tMin, mMin⟩, number, few, clear⟩
    rw [← count.2 few] at clear
    exact ⟨⟨⟨⟨⟨⟨⟨⟨⟨⟨⟨⟨number, elevation⟩, tilt⟩, shots⟩, exponent⟩, period⟩, level⟩, limit⟩, overlap⟩, tMin⟩, mMin⟩,
      count.2 few⟩, clear⟩

/-- The crossing peer table of a record with nothing flagged is the record's, entry by entry. -/
theorem loadRecord_peers_of_unflagged (unflagged : (loadRecord r).clamped = false) :
    (loadRecord r).peers = (List.range (field r 21 1)).map (crossingEntry r) := by
  obtain ⟨-, -, few, clear⟩ := (loadRecord_unflagged_iff r).1 unflagged
  have count : (clamp 0 8 (field r 21 1)).1 = field r 21 1 := by
    rw [clamp_value 0 8 _ (by decide)]
    omega
  have accepted := congrArg Prod.fst (crossingEntries_of_clear r _ 0 [] clear)
  rw [← count] at accepted
  rw [List.range_eq_range']
  simpa [loadRecord, count] using accepted

end

/-- Settles O42: the range of each field, and the clamped flag with the crossing entries it says to be the record's. -/
theorem loadedRecordIsInRange : Obligations.LoadedRecordIsInRange := by
  rintro r c rfl
  obtain ⟨few, distinct, built⟩ := loadRecord_peers r
  obtain ⟨allowed, below, greatest⟩ := clampShots_greatest (field r 7 1)
  have unflagged := loadRecord_unflagged_iff r
  refine ⟨?_, clamp_value _ _ _ (by decide), clamp_value _ _ _ (by decide), clamp_value _ _ _ (by decide),
    clamp_value _ _ _ (by decide), clamp_value _ _ _ (by decide), clamp_value _ _ _ (by decide),
    clamp_value _ _ _ (by decide), clamp_value _ _ _ (by decide), allowed, fun _ => below, ?_, clampShots_of_large _,
    greatest, numberByte_auto_iff _, fun fixed => (numberByte_of_fixed _ fixed).2, few, distinct, built,
    ?_, fun clear => ?_⟩
  · exact (clamp_value 0 4000 _ (by decide)).trans (Nat.zero_max _)
  · intro zero
    exact congrArg (fun v => (clampShots v).1) zero
  · rw [unflagged, crossingClear_iff]
    simp only [and_assoc]
    exact Iff.rfl
  · rw [loadRecord_peers_of_unflagged r clear]
    refine ⟨by simp, fun j inside => ⟨crossingEntry r j, by simp [inside], ?_, rfl, rfl⟩⟩
    obtain ⟨-, -, -, each, -⟩ := unflagged.1 clear
    exact crossingEntry_peer r j (each j (Nat.zero_le j) (by omega)).1

end Sys2Proof.Machine
end

section
/-! SUPPORT. The numbering unit: the number chosen, a number heard before one is held, the number taken with what it
changes elsewhere, and the station entering RUNNING (R7, R8, R18, R24, R42, R75, R146, R165..R168). -/

namespace Sys2Proof.Machine

/-! ## The number chosen (R166, R167) -/

theorem allStations_eq : allStations = List.finRange 16 := rfl

/-- The lowest free number is free, and every number below it is taken. -/
theorem lowestFree_of_lowest (taken : StationSet) (w : StationNo) (free : taken.getLsbD w.val = false)
    (below : ∀ n : StationNo, n < w → taken.getLsbD n.val = true) : lowestFree taken = some w := by
  rw [lowestFree, allStations_eq, List.find?_eq_some_iff_getElem]
  refine ⟨by rw [free]; rfl, w.val, by simp, by simp, fun n lower => ?_⟩
  simpa using below ⟨n, lower.trans w.isLt⟩ lower

theorem lowestFree_of_full (taken : StationSet) (full : ∀ n : StationNo, taken.getLsbD n.val = true) :
    lowestFree taken = none := by
  rw [lowestFree, List.find?_eq_none]
  intro n _
  simp only [full n, Bool.not_true, Bool.false_eq_true, not_false_eq_true]

section
variable (s : State)

/-- With a number free, the unit is CLAIMING and queues a CLAIM for the lowest one (R167). -/
theorem choose_of_lowest (w : StationNo) (free : s.num.taken.getLsbD w.val = false)
    (below : ∀ n : StationNo, n < w → s.num.taken.getLsbD n.val = true) : choose s =
      { s with
        num := { s.num with state := .claiming, wanted := some w, listen := none, holdOff := none }
        line := Line.queueClaim w s.line } := by
  rw [choose, lowestFree_of_lowest _ w free below]
  rfl

/-- With every number taken, the unit listens again (R167). -/
theorem choose_of_full (full : ∀ n : StationNo, s.num.taken.getLsbD n.val = true) : choose s =
      { s with num := { s.num with state := .listen, taken := 0, wanted := none, listen := some 250, holdOff := none } } := by
  rw [choose, lowestFree_of_full _ full]
  rfl

end

/-- Settles O14: the unit chooses. -/
theorem listenExpiryChoosesTheLowestFreeNumber : Obligations.ListenExpiryChoosesTheLowestFreeNumber := by
  intro s last
  have chooses : exec .listenCountdownExpiry s = .next (choose s) := if_pos last
  exact ⟨fun w free below => chooses.trans (congrArg _ (choose_of_lowest s w free below)),
    fun full => chooses.trans (congrArg _ (choose_of_full s full))⟩

/-! ## A number heard at a unit that holds none (R166..R168) -/

section
variable (n : StationNo) (serial : Option Serial) (s : State)

/-- A number other than the wanted one is noted. -/
theorem numberingTakes_joins (other : s.num.state = .listen ∨ (s.num.state = .claiming ∧ s.num.wanted ≠ some n)) :
    numberingTakes n serial s = joinTaken n s := by
  rcases other with listens | ⟨claims, other⟩
  · simp only [numberingTakes, listens]
  · simp only [numberingTakes, claims, if_neg other]

/-- The wanted number, heard before the own CLAIM is transmitted, without a serial or with a lower one, is given up for
another choice. -/
theorem numberingTakes_chooses (claims : s.num.state = .claiming) (wanted : s.num.wanted = some n)
    (loses : s.num.holdOff = none ∨ ∀ x, serial = some x → x < s.num.serial) :
    numberingTakes n serial s = choose (joinTaken n s) := by
  simp only [numberingTakes, claims, if_pos wanted]
  split
  · rfl
  · rename_i k holds
    have lower := loses.resolve_left (by rw [holds]; nofun)
    cases serial with
    | none => rfl
    | some x => exact if_pos (lower x rfl)

/-- The number chosen in place of the wanted one is the lowest that is free beside it. -/
theorem numberingTakes_chooses_lowest (claims : s.num.state = .claiming) (wanted : s.num.wanted = some n)
    (loses : s.num.holdOff = none ∨ ∀ x, serial = some x → x < s.num.serial) (w : StationNo)
    (free : (setInsert n.val s.num.taken).getLsbD w.val = false)
    (below : ∀ m : StationNo, m < w → (setInsert n.val s.num.taken).getLsbD m.val = true) :
    numberingTakes n serial s =
      { s with
        line := s.line.queueClaim w
        num := { s.num with taken := setInsert n.val s.num.taken, wanted := some w, listen := none, holdOff := none } } := by
  rw [numberingTakes_chooses n serial s claims wanted loses, choose_of_lowest (joinTaken n s) w free below, ← claims]
  rfl

/-- The wanted number, heard with a higher serial in the hold-off, is kept with another CLAIM. -/
theorem numberingTakes_keeps (x : Serial) (claims : s.num.state = .claiming) (wanted : s.num.wanted = some n)
    (holds : s.num.holdOff ≠ none) (higher : s.num.serial < x) : numberingTakes n (some x) s = sendClaim n s := by
  simp only [numberingTakes, claims, if_pos wanted]
  split
  · rename_i free
    exact absurd free holds
  · rw [if_neg (BitVec.lt_asymm higher), if_pos higher]

end

/-- The two states hold the same numbering unit, and the same CLAIM in the transmit set. -/
def SameClaimant (s t : State) : Prop := t.num = s.num ∧ t.line.set.claim = s.line.set.claim

theorem choose_sameClaimant {s t : State} (same : SameClaimant s t) : SameClaimant (choose s) (choose t) := by
  obtain ⟨num, claim⟩ := same
  unfold choose
  rw [num]
  split
  · exact ⟨by simp only [State.num_mapLine, State.num_mapNum, num], rfl⟩
  · exact ⟨by simp only [State.num_mapNum, num], claim⟩

theorem joinTaken_sameClaimant (n : StationNo) {s t : State} (same : SameClaimant s t) :
    SameClaimant (joinTaken n s) (joinTaken n t) :=
  ⟨by simp only [joinTaken, State.num_mapNum, same.1], same.2⟩

theorem sendClaim_sameClaimant (n : StationNo) {s t : State} (same : SameClaimant s t) :
    SameClaimant (sendClaim n s) (sendClaim n t) := ⟨same.1, rfl⟩

/-- What a number heard makes of a unit that holds none depends on the unit alone. -/
theorem numberingTakes_sameClaimant (n : StationNo) (serial : Option Serial) {s t : State} (same : SameClaimant s t)
    (unnumbered : s.num.state ≠ .numbered) : SameClaimant (numberingTakes n serial s) (numberingTakes n serial t) := by
  have joined := joinTaken_sameClaimant n same
  have chosen := choose_sameClaimant joined
  obtain ⟨num, -⟩ := id same
  cases state : s.num.state with
  | listen => simpa only [numberingTakes, num, state] using joined
  | claiming =>
    simp only [numberingTakes, num, state]
    split
    · split
      · exact chosen
      · split
        · exact chosen
        · split
          · exact chosen
          · split
            · exact sendClaim_sameClaimant n same
            · exact same
    · exact joined
  | numbered => exact absurd state unnumbered

theorem Line.recall_claim (set : SlotSet) (l : Line) : (l.recall set).set.claim = l.set.claim := by
  rw [Line.recall_eq]

theorem releaseConflicts_claim (j : Nat) (n : StationNo) (set : SlotSet) (s : State) :
    (releaseConflicts j n set s).line.set.claim = s.line.set.claim := by
  simp only [releaseConflicts]
  repeat' split
  · rfl
  · simp [Line.recall_claim]
  · rfl

theorem queueNotice_claim (s : State) : (queueNotice s).line.set.claim = s.line.set.claim := rfl

/-- The calendar's part of a NOTICE queues no CLAIM and withdraws none. -/
theorem calendarTakesNotice_sameClaimant (n : StationNo) (f : NoticeFields) (s : State) :
    SameClaimant s (calendarTakesNotice n f s) := by
  refine ⟨by simp, ?_⟩
  simp only [calendarTakesNotice]
  split
  · rfl
  · split
    · rfl
    · split
      · rfl
      · simp only [activeAfterNotice]
        (repeat' split) <;> simp [queueNotice_claim, releaseConflicts_claim]
      · split <;> rfl

/-- A NOTICE that does not step the timer reaches the numbering unit with the unit and its CLAIM as they were. -/
theorem measure_sameClaimant (n : StationNo) (f : NoticeFields) (s : State)
    (unstepped : referenceOf s.num.own (s.timer.heard.set n.val (some 0)) ≠ some n ∨ 31 < f.slot.toNat ∨
      249 < f.phase.toNat ∨
      (offset (250 * f.slot.toNat + f.phase.toNat) (positionNumber (s.timer.behind 32))).natAbs ≤ 20) :
    SameClaimant (dispatched s) (measure n f (calendarTakesNotice n f (hearNotice n (dispatched s)))) := by
  obtain ⟨num, claim⟩ := calendarTakesNotice_sameClaimant n f (hearNotice n (dispatched s))
  obtain ⟨g, measured⟩ := measure_unstepped n f (calendarTakesNotice n f (hearNotice n (dispatched s))) (by
    rw [(calendarTakesNotice_frame _ n f).1, calendarTakesNotice_latched]
    exact unstepped)
  rw [measured]
  exact ⟨num, claim⟩

/-- Settles O40: the number noted, kept and given up, and the NOTICE and the REPORT beside the CLAIM. -/
theorem claimAtAUnitWithoutANumber : Obligations.ClaimAtAUnitWithoutANumber := by
  intro n serial s
  have taken := exec_claim n serial s
  have lower : ∀ x, some serial = some x → serial < s.num.serial → x < s.num.serial := by
    rintro x ⟨⟩ lower
    exact lower
  refine ⟨fun other => ?_, fun claims wanted holds higher => ?_, fun claims wanted loses w free below => ?_,
    fun claims wanted loses full => ?_, fun body p unnumbered hp unstepped => ?_, fun f few unnumbered => ?_⟩
  · rw [taken, numberingTakes_joins n _ (dispatched s) other]
    rfl
  · rw [taken, numberingTakes_keeps n (dispatched s) serial claims wanted holds higher]
    rfl
  · rw [taken, numberingTakes_chooses_lowest n _ (dispatched s) claims wanted
      (loses.imp_right fun less x same => lower x same less) w free below]
    rfl
  · rw [taken, numberingTakes_chooses n _ (dispatched s) claims wanted
      (loses.imp_right fun less x same => lower x same less), choose_of_full (joinTaken n (dispatched s)) full]
    rfl
  · subst hp
    exact ⟨_, _, exec_notice n serial body s, taken, numberingTakes_sameClaimant n (some serial)
      (measure_sameClaimant n ⟨body, serial⟩ s unstepped) unnumbered⟩
  · obtain ⟨k, tracked⟩ := trackerTakesReport_eq n f (dispatched s)
    replace tracked : _ = (dispatched s).mapTracker fun _ => k := tracked
    refine ⟨_, exec_report n f s few, fun other => ?_, fun claims wanted w free below => ?_⟩
    · have notes : s.num.state = .listen ∨ (s.num.state = .claiming ∧ s.num.wanted ≠ some n) := by
        cases state : s.num.state with
        | listen => exact .inl rfl
        | claiming => exact .inr ⟨rfl, other.resolve_left (by rw [state]; nofun)⟩
        | numbered => exact absurd state unnumbered
      rw [takeReport, tracked, numberingTakes_joins n none ((dispatched s).mapTracker fun _ => k) notes]
      exact ⟨rfl, rfl⟩
    · rw [takeReport, tracked, numberingTakes_chooses_lowest n none ((dispatched s).mapTracker fun _ => k) claims wanted
        (.inr nofun) w free below]
      exact ⟨rfl, rfl⟩

end Sys2Proof.Machine
end

section
/-! SUPPORT. The station number taken, with what it changes elsewhere, and the station entering RUNNING: at the end of the
hold-off, and as a load judges its record (R7, R8, R18, R24, R42, R75, R146, R163, R165, R168..R170). -/

namespace Sys2Proof.Machine

/-! ## The number taken (R7, R8, R18, R146) -/

/-- The entry of the number taken is inactive, and silent from now on (R18; log 33). -/
theorem PeerEntry.silenced_eq (w : StationNo) (e : PeerEntry) :
    (if e.active (some w) then e else e.silence) =
      if e.peer = w then { e with age := none, claimed := 0, settled := 0, serial := none } else e := by
  by_cases own : e.peer = w
  · simp [PeerEntry.active, PeerEntry.silence, own]
  · simp [PeerEntry.active, own, Ne.symm own]

/-- The number forgotten leaves every peer set, and changes nothing else of the table (R146). -/
theorem Tracker.forget_tracks (w : StationNo) (k : Tracker) : ∃ tracks, k.forget w = { k with tracks := tracks } ∧
    tracks.length = k.tracks.length ∧ ∀ (j : Nat) (x : Track), k.tracks[j]? = some x →
      ∃ peers, tracks[j]? = some { x with peers := peers } ∧
        ∀ i : Nat, i < 16 → peers.getLsbD i = (x.peers.getLsbD i && decide (i ≠ w.val)) := by
  refine ⟨_, rfl, List.length_map _, fun j x track => ⟨setErase w.val x.peers, ?_, fun i inside => ?_⟩⟩
  · rw [List.getElem?_map, track]
    rfl
  · rw [getLsbD_setErase w.val i _ inside, decide_not]

/-- A number taken, at every block it reaches. -/
theorem setOwnNumber_some (w : StationNo) (s : State) : setOwnNumber (some w) s =
    recomputeReference { s with
      num := { s.num with own := some w }
      calendar :=
        { s.calendar with
          peers := s.calendar.peers.map fun e =>
            if e.peer = w then { e with age := none, claimed := 0, settled := 0, serial := none } else e }
      tracker := s.tracker.forget w } := by
  simp only [setOwnNumber, PeerEntry.silenced_eq]
  rfl

/-! ## The station enters RUNNING (R24, R42, R75) -/

section
variable (s : State)

theorem enterRunning_loader : (enterRunning s).loader = { s.loader with station := .running } := by
  simp [enterRunning, setStation]

/-- The calendar is ACTIVE and has claimed, and its notice countdown starts (R24, R26, R29). -/
theorem enterRunning_calendar : (enterRunning s).calendar =
    { s.calendar with state := .active, claims := claimedList s, countdown := some 64 } := by
  simp only [enterRunning, banksEnterLive_frame, driverEntersRunning_frame]
  rfl

theorem enterRunning_notice : (enterRunning s).line.set.notice = some ⟨(), 0⟩ := by
  simp only [enterRunning, banksEnterLive_frame, driverEntersRunning_frame]
  rfl

/-- An IDLE driver charges to Lt unless the band is INHIBIT (R42, R45). -/
theorem enterRunning_laser :
    (s.laser.driver = .idle → s.laser.band ≠ .inhibit →
      (enterRunning s).laser = { s.laser with driver := .charging, level := some s.laser.lt, timeout := 2 }) ∧
    (s.laser.driver ≠ .idle ∨ s.laser.band = .inhibit → (enterRunning s).laser = s.laser) := by
  have driver : (enterRunning s).laser = (driverEntersRunning (calendarEntersRunning (setStation .running s))).laser := by
    simp [enterRunning]
  rw [driver, driverEntersRunning]
  refine ⟨fun idle charges => ?_, fun waits => ?_⟩
  · rw [if_pos ⟨idle, charges⟩]
    rfl
  · rw [if_neg fun ⟨idle, charges⟩ => waits.elim (fun no => no idle) charges]
    rfl

theorem enterRunning_enteredLive : s.banks.EnteredLive (s.cfgNat StationConfig.period) (enterRunning s).banks := by
  have opened := banksEnterLive_enteredLive (driverEntersRunning (calendarEntersRunning (setStation .running s)))
  have cfg : (driverEntersRunning (calendarEntersRunning (setStation .running s))).cfgNat StationConfig.period =
      s.cfgNat StationConfig.period := by simp [State.cfgNat, setStation]
  have banks : (driverEntersRunning (calendarEntersRunning (setStation .running s))).banks = s.banks := by simp
  rw [cfg, banks] at opened
  exact opened

end

/-! ## The hold-off ends (R165, R168) -/

/-- The unit NUMBERED under its number, before the station moves (R165, R168). -/
def State.numberedAs (w : StationNo) (s : State) : State :=
  setOwnNumber (some w) (s.mapNum fun u => { u with state := .numbered, holdOff := none })

theorem holdOffEnds_of_wanted (w : StationNo) (s : State) (wanted : s.num.wanted = some w) :
    holdOffEnds s = if s.loader.station = .numbering then enterRunning (s.numberedAs w) else s.numberedAs w := by
  simp only [holdOffEnds, wanted]
  rfl

theorem numberedAs_eq (w : StationNo) (s : State) : s.numberedAs w =
    recomputeReference { s with
      num := { s.num with state := .numbered, own := some w, holdOff := none }
      calendar :=
        { s.calendar with
          peers := s.calendar.peers.map fun e =>
            if e.peer = w then { e with age := none, claimed := 0, settled := 0, serial := none } else e }
      tracker := s.tracker.forget w } := setOwnNumber_some w _

/-- Settles O15: the number taken, and the station entering RUNNING from NUMBERING. -/
theorem holdOffExpiryNumbersTheStation : Obligations.HoldOffExpiryNumbersTheStation := by
  intro s w last wanted
  have ends : exec .holdOffExpiry s = .next (holdOffEnds s) := if_pos last
  rw [holdOffEnds_of_wanted w s wanted] at ends
  by_cases numbering : s.loader.station = .numbering
  · rw [if_pos numbering] at ends
    obtain ⟨timer, expo, front, red, tracker, num, req, -⟩ := enterRunning_frame (s.numberedAs w)
    obtain ⟨charges, waits⟩ := enterRunning_laser (s.numberedAs w)
    have opened := enterRunning_enteredLive (s.numberedAs w)
    refine ⟨_, ends, ?_⟩
    rw [timer, expo, front, red, tracker, num, req, enterRunning_calendar, enterRunning_loader, enterRunning_notice]
    rw [numberedAs_eq] at charges waits opened ⊢
    exact ⟨rfl, ⟨_, rfl, rfl⟩, rfl, rfl, rfl, rfl, rfl, s.tracker.forget_tracks w, fun other => absurd numbering other,
      fun _ => ⟨rfl, rfl, rfl, rfl, charges, waits, opened, rfl, rfl⟩⟩
  · rw [if_neg numbering, numberedAs_eq] at ends
    exact ⟨_, ends, rfl, ⟨_, rfl, rfl⟩, rfl, rfl, rfl, rfl, rfl, s.tracker.forget_tracks w,
      fun _ => ⟨rfl, rfl, rfl, rfl, rfl, rfl⟩, fun other => absurd other numbering⟩

/-! ## Load complete (R163, R165, R169, R170) -/

theorem recordBytes_of_full (r : List Byte) (full : r.length = 64) : recordBytes r = r := List.take_left' full

section
variable (r : List Byte) (s : State)

section
variable (full : r.length = 64) (loading : s.loader.station = .loading)
include full loading

theorem exec_loadComplete_invalid (invalid : recordValid r = false) :
    exec (.loadComplete r) s = .next (loadInvalid s) := by
  refine (if_pos loading).trans (congrArg _ ?_)
  simp only [loadDone, recordBytes_of_full r full, invalid, Bool.false_eq_true, if_false]

theorem exec_loadComplete_auto (valid : recordValid r = true) (auto : (loadRecord r).cfg.mode = .auto) :
    exec (.loadComplete r) s = .next (loadAuto (takeRecord (loadRecord r) s)) := by
  refine (if_pos loading).trans (congrArg _ ?_)
  simp only [loadDone, recordBytes_of_full r full, valid, if_true, auto]

theorem exec_loadComplete_fixed (valid : recordValid r = true) (fixed : (loadRecord r).cfg.mode = .fixed) :
    exec (.loadComplete r) s = .next (loadFixed (loadRecord r).cfg.fixedNo (takeRecord (loadRecord r) s)) := by
  refine (if_pos loading).trans (congrArg _ ?_)
  simp only [loadDone, recordBytes_of_full r full, valid, if_true, fixed]

end

/-- The unit under the fixed number of a record, before the station moves (R165, R169). -/
def State.fixedAs (w : StationNo) : State :=
  setOwnNumber (some w) (s.mapNum fun u =>
    { u with state := .numbered, mode := .fixed, yieldMark := false, listen := none, holdOff := none })

theorem loadFixed_of_free (w : StationNo) (free : s.num.yieldMark = false ∨ s.num.own ≠ some w) :
    loadFixed w s = enterRunning (s.fixedAs w) :=
  if_neg fun ⟨mark, own⟩ => free.elim (fun clear => by rw [clear] at mark; cases mark) fun other => other own

/-- A station that was not live enters HALTED-DUPLICATE, and a bank opens (R75, R170). -/
theorem loadFixed_of_mark (w : StationNo) (mark : s.num.yieldMark = true) (own : s.num.own = some w)
    (loading : s.loader.station = .loading) :
    loadFixed w s = banksEnterLive (setStation .haltedDuplicate (s.fixedAs w)) := by
  have dark : (s.fixedAs w).live = false := by simp [State.live, State.fixedAs, loading]
  exact (if_pos ⟨mark, own⟩).trans (if_neg (ne_true_of_eq_false dark))

/-- The entries of a record are built silent, so the number taken changes none of them (R18). -/
theorem loadRecord_peers_silent (w : StationNo) : (loadRecord r).peers.map (fun e =>
    if e.peer = w then { e with age := none, claimed := 0, settled := 0, serial := none } else e) =
      (loadRecord r).peers := by
  obtain ⟨-, -, built⟩ := loadRecord_peers r
  refine (List.map_congr_left fun e listed => ?_).trans (List.map_id _)
  obtain ⟨peer, lo, hi, age, claimed, settled, serial⟩ := e
  obtain ⟨-, -, rfl, rfl, rfl, rfl⟩ := built _ listed
  exact ite_self _

/-- The values of a valid record taken, and the unit under its fixed number. -/
def State.loadedFixed : State := (takeRecord (loadRecord r) s).fixedAs (loadRecord r).cfg.fixedNo

/-- What a record in fixed mode gives the blocks, before the station moves (R18, R23, R43, R61, R163, R169). -/
theorem loadedFixed_eq : s.loadedFixed r =
    recomputeReference { s with
      loader := { s.loader with cfg := some (loadRecord r).cfg, valid := true, clamped := (loadRecord r).clamped }
      laser := { s.laser with lt := min (loadRecord r).cfg.level (bandCap s.laser.band) }
      expo := { s.expo with limit := (loadRecord r).cfg.limit }
      calendar :=
        { s.calendar with
          claims := List.replicate (loadRecord r).cfg.shots none, peers := (loadRecord r).peers }
      num :=
        { s.num with
          state := .numbered, own := some (loadRecord r).cfg.fixedNo, mode := .fixed, yieldMark := false, listen := none
          holdOff := none }
      tracker := s.tracker.forget (loadRecord r).cfg.fixedNo } := by
  rw [State.loadedFixed, State.fixedAs, setOwnNumber_some]
  simp only [takeRecord, State.calendar_mapNum, State.calendar_mapCalendar, Calendar.configure, loadRecord_peers_silent]
  rfl

end

/-- Settles O43: a record that is not valid, and a valid one in each mode. -/
theorem loadCompleteJudgesTheRecord : Obligations.LoadCompleteJudgesTheRecord := by
  intro r s full loading
  refine ⟨fun invalid => ?_, fun valid auto => ?_, fun valid fixed free => ?_, fun valid fixed mark own => ?_⟩
  · refine ⟨_, exec_loadComplete_invalid r s full loading invalid, ?_⟩
    rw [loadInvalid, setOwnNumber_none]
    refine ⟨rfl, rfl, rfl, rfl, rfl, rfl, rfl, rfl, rfl, rfl, nofun, rfl, ?_⟩
    exact congrArg (fun lt => { s.laser with lt := lt }) (Nat.zero_min _)
  · refine ⟨_, exec_loadComplete_auto r s full loading valid auto, ?_⟩
    rw [loadAuto, setOwnNumber_none]
    exact ⟨rfl, rfl, rfl, rfl, rfl, rfl, rfl, rfl, rfl⟩
  · have runs : exec (.loadComplete r) s = .next (enterRunning (s.loadedFixed r)) :=
      (exec_loadComplete_fixed r s full loading valid fixed).trans
        (congrArg _ (loadFixed_of_free (takeRecord (loadRecord r) s) _ free))
    obtain ⟨timer, expo, -, -, -, num, -⟩ := enterRunning_frame (s.loadedFixed r)
    obtain ⟨charges, waits⟩ := enterRunning_laser (s.loadedFixed r)
    have length := claimedList_length (s.loadedFixed r)
    have opened := enterRunning_enteredLive (s.loadedFixed r)
    refine ⟨_, runs, ?_⟩
    rw [timer, expo, num, enterRunning_calendar, enterRunning_loader, enterRunning_notice]
    rw [loadedFixed_eq] at charges waits length opened ⊢
    exact ⟨rfl, rfl, rfl, rfl, rfl, length.trans List.length_replicate, rfl, rfl, rfl, opened,
      ⟨_, rfl, charges, waits⟩, rfl, rfl, fun alone => if_neg fun ⟨_, other⟩ => other alone⟩
  · have halts : exec (.loadComplete r) s =
        .next (banksEnterLive (setStation .haltedDuplicate (s.loadedFixed r))) :=
      (exec_loadComplete_fixed r s full loading valid fixed).trans
        (congrArg _ (loadFixed_of_mark (takeRecord (loadRecord r) s) _ mark own loading))
    have opened := banksEnterLive_enteredLive (setStation .haltedDuplicate (s.loadedFixed r))
    refine ⟨_, halts, ?_⟩
    simp only [banksEnterLive_frame]
    rw [loadedFixed_eq] at opened ⊢
    exact ⟨rfl, rfl, own.symm, rfl, rfl, rfl, rfl, opened⟩

end Sys2Proof.Machine
end

section
/-! SUPPORT. The request handler at resets and restarts, and the cycle boundary block by block: the driver, the crossing
peers and the notice countdown, the deadline, the numbering unit (R18, R21, R30, R47, R70, R73, R80, R165..R168, R174,
R176; log 5). -/

namespace Sys2Proof.Machine

/-! ## The request handler at resets and restarts (R172, R175, R176) -/

/-- Settles O4: both resets and the station scope give the handler its reset values, and the other scopes keep it. -/
theorem resetAndRestartOfTheRequestHandler : Obligations.ResetAndRestartOfTheRequestHandler := by
  intro s
  refine ⟨fun band => ⟨resetAll band s, rfl, rfl, rfl, rfl⟩, fun sender target recorder own => ?_⟩
  obtain ⟨tracking, firing, station⟩ := exec_restart_of_own sender target s recorder own
  refine ⟨⟨_, tracking, by simp⟩, ⟨_, firing, ?_⟩, ⟨_, station, rfl, rfl⟩⟩
  split
  · simp
  · rfl

/-! ## An expiry command is its block's share of the boundary (log 6) -/

section
variable (s : State)

theorem exec_noticeCountdownExpiry_share (last : s.calendar.countdown = some 1) :
    exec .noticeCountdownExpiry s = .next (countdownBoundary s) := if_pos last

theorem exec_deadlineExpiry_share (i : BankId) (accepting : s.banks.accepting = some i)
    (last : (s.banks.get i).deadline = 1) : exec .deadlineExpiry s = .next (banksBoundary s) := by
  change execDeadlineExpiry s = _
  simp only [execDeadlineExpiry, accepting, if_pos last]

theorem exec_listenCountdownExpiry_share (last : s.num.listen = some 1) :
    exec .listenCountdownExpiry s = .next (numberingBoundary s) := by
  refine (if_pos last).trans ?_
  rw [numberingBoundary, last]
  rfl

theorem exec_holdOffExpiry_share (stopped : s.num.listen = none) (last : s.num.holdOff = some 1) :
    exec .holdOffExpiry s = .next (numberingBoundary s) := by
  refine (if_pos last).trans ?_
  rw [numberingBoundary, stopped, last]
  rfl

end

/-- A command has one answer; so a share of the boundary is what its expiry command is known to answer. -/
theorem next_unique {c : Instr} {s t u : State} (ht : exec c s = .next t) (hu : exec c s = .next u) : t = u :=
  Host.Outcome.next.inj (ht.symm.trans hu)

/-! ## The blocks in the order of the boundary (R3; log 5) -/

section
variable (s : State)

/-- The boundary as it reaches the notice countdown: the timer, the driver, the exposure monitor and the crossing peers
have taken it. -/
def boundaryAtCountdown : State :=
  (((timerBoundary s).mapLaser Laser.boundary).mapExpo Exposure.rotate).mapCalendar fun c =>
    { c with peers := c.peers.map PeerEntry.boundary }

/-- The boundary as it reaches the banks. -/
def boundaryAtBanks : State := countdownBoundary (boundaryAtCountdown s)

/-- The boundary as it reaches the numbering unit. -/
def boundaryAtNumbering : State := banksBoundary (boundaryAtBanks s)

theorem cycleBoundary_eq :
    cycleBoundary s = (numberingBoundary (boundaryAtNumbering s)).mapReq Request.boundary := rfl

@[simp] theorem boundaryAtCountdown_frame :
    (boundaryAtCountdown s).calendar = { s.calendar with peers := s.calendar.peers.map PeerEntry.boundary } ∧
    (boundaryAtCountdown s).laser = s.laser.boundary ∧ (boundaryAtCountdown s).banks = s.banks ∧
    (boundaryAtCountdown s).red = s.red ∧ (boundaryAtCountdown s).line = s.line ∧
    (boundaryAtCountdown s).loader = s.loader ∧ (boundaryAtCountdown s).num = s.num ∧
    (boundaryAtCountdown s).req = s.req := by
  simp [boundaryAtCountdown]

/-- The notice countdown leaves the crossing peer table as it was. -/
theorem countdownBoundary_peers : (countdownBoundary s).calendar.peers = s.calendar.peers := by
  simp only [countdownBoundary, countdownExpires]
  (repeat' split) <;> rfl

@[simp] theorem boundaryAtBanks_frame :
    (boundaryAtBanks s).calendar.peers = s.calendar.peers.map PeerEntry.boundary ∧
    (boundaryAtBanks s).laser = s.laser.boundary ∧ (boundaryAtBanks s).banks = s.banks ∧
    (boundaryAtBanks s).red = s.red ∧ (boundaryAtBanks s).loader = s.loader ∧ (boundaryAtBanks s).num = s.num ∧
    (boundaryAtBanks s).req = s.req := by
  simp [boundaryAtBanks, countdownBoundary_peers]

@[simp] theorem boundaryAtNumbering_frame :
    (boundaryAtNumbering s).calendar = (boundaryAtBanks s).calendar ∧
    (boundaryAtNumbering s).line = (boundaryAtBanks s).line ∧ (boundaryAtNumbering s).laser = s.laser.boundary ∧
    (boundaryAtNumbering s).loader = s.loader ∧ (boundaryAtNumbering s).num = s.num ∧
    (boundaryAtNumbering s).req = s.req := by
  simp [boundaryAtNumbering]

end

/-! ## The numbering unit at a boundary (R166..R168) -/

section
variable (s : State)

/-- What the numbering unit can do at a boundary: it chooses, counts, or takes its number, with which a NUMBERING
station enters RUNNING. -/
theorem numberingBoundary_cases :
    numberingBoundary s = choose s ∨ (∃ u, numberingBoundary s = s.mapNum u) ∨
      ∃ w, s.num.wanted = some w ∧ numberingBoundary s =
        if s.loader.station = .numbering then enterRunning (s.numberedAs w) else s.numberedAs w := by
  unfold numberingBoundary
  split
  · split
    · exact .inl rfl
    · exact .inr (.inl ⟨_, rfl⟩)
  · split
    · split
      · cases wanted : s.num.wanted with
        | none => exact .inr (.inl ⟨fun u => { u with holdOff := none }, by simp only [holdOffEnds, wanted]⟩)
        | some w => exact .inr (.inr ⟨w, rfl, holdOffEnds_of_wanted w s wanted⟩)
      · exact .inr (.inl ⟨_, rfl⟩)
    · exact .inr (.inl ⟨id, rfl⟩)

theorem choose_notice : (choose s).line.set.notice = s.line.set.notice := by
  unfold choose
  split <;> rfl

/-- The unit leaves the entry of every crossing peer whose number it does not take. -/
theorem numberingBoundary_peer (j : Nat) (e : PeerEntry) (entry : s.calendar.peers[j]? = some e)
    (other : s.num.wanted ≠ some e.peer) : (numberingBoundary s).calendar.peers[j]? = some e := by
  rcases numberingBoundary_cases s with chooses | ⟨u, counts⟩ | ⟨w, wanted, takes⟩
  · rw [chooses]
    simpa using entry
  · rw [counts, State.calendar_mapNum, entry]
  · have kept : (s.numberedAs w).calendar.peers[j]? = some e := by
      have stranger : ¬ e.peer = w := fun same => other (wanted.trans (congrArg some same.symm))
      rw [numberedAs_eq]
      exact (List.getElem?_map ..).trans (by rw [entry, Option.map_some, if_neg stranger])
    rw [takes]
    split
    · rw [enterRunning_calendar]
      exact kept
    · exact kept

/-- Where the station does not enter RUNNING, the unit leaves the own claim list, the notice countdown and the queued
NOTICE. -/
theorem numberingBoundary_calendar (unmoved : s.loader.station ≠ .numbering) :
    (numberingBoundary s).calendar.countdown = s.calendar.countdown ∧
      (numberingBoundary s).calendar.claims = s.calendar.claims ∧
      (numberingBoundary s).line.set.notice = s.line.set.notice := by
  rcases numberingBoundary_cases s with chooses | ⟨u, counts⟩ | ⟨w, -, takes⟩
  · rw [chooses]
    exact ⟨by simp, by simp, choose_notice s⟩
  · rw [counts]
    exact ⟨rfl, rfl, rfl⟩
  · rw [takes, if_neg unmoved, numberedAs_eq]
    exact ⟨rfl, rfl, rfl⟩

/-- Beside an ACCEPTING bank, or a CLOSED one behind a REDUCING one, the station opens none (R75). -/
theorem numberingBoundary_banks_kept (i : BankId) (kept : (s.banks.get i).state = .accepting ∨
    ((s.banks.get i).state = .closed ∧ (s.banks.get i.other).state = .reducing)) :
    (numberingBoundary s).banks = s.banks := by
  rcases numberingBoundary_cases s with chooses | ⟨u, counts⟩ | ⟨w, -, takes⟩
  · rw [chooses]
    simp
  · rw [counts, State.banks_mapNum]
  · rw [takes]
    split
    · exact (enterRunning_enteredLive (s.numberedAs w)).2 i kept
    · rfl

end

/-! ## The request handler and the driver at a boundary (R47, R55, R174) -/

theorem Laser.boundary_counts (l : Laser) (charging : l.driver = .charging) (counts : 2 ≤ l.timeout) :
    l.boundary = { l with timeout := l.timeout - 1 } := by
  rw [Laser.boundary, if_pos charging, if_neg (by omega)]

/-- A charge in progress goes on or ends in FAULT, so that an entry into RUNNING finds the driver busy. -/
theorem Laser.boundary_busy (l : Laser) (charging : l.driver = .charging) : l.boundary.driver ≠ .idle := by
  rw [Laser.boundary, if_pos charging]
  split
  · nofun
  · rw [charging]
    nofun

section
variable (s : State)

theorem cycleBoundary_req : (cycleBoundary s).req = s.req.boundary := by
  simp [cycleBoundary_eq]

theorem cycleBoundary_laser (charging : s.laser.driver = .charging) : (cycleBoundary s).laser = s.laser.boundary := by
  have busy : (boundaryAtNumbering s).laser.driver ≠ .idle := by
    simpa using s.laser.boundary_busy charging
  rw [cycleBoundary_eq, State.laser_mapReq, numberingBoundary_laser _ busy]
  simp

end

/-! ## The banks at a boundary (R70, R73, R80) -/

/-- A deadline above its last count loses one. -/
theorem banksBoundary_counts_down (i : BankId) (s : State) (accepts : (s.banks.get i).state = .accepting)
    (other : (s.banks.get i.other).state ≠ .accepting) (counts : 2 ≤ (s.banks.get i).deadline) :
    banksBoundary s =
      { s with banks := s.banks.put i { s.banks.get i with deadline := (s.banks.get i).deadline - 1 } } := by
  have runs : (s.banks.get i).deadline ≠ 0 := by omega
  have more : (s.banks.get i).deadline ≠ 1 := by omega
  simp only [banksBoundary, s.banks.accepting_eq i accepts other, if_neg runs, if_neg more]
  rfl

theorem cycleBoundary_red (s : State) : (cycleBoundary s).red = (boundaryAtNumbering s).red := by
  simp [cycleBoundary_eq]

theorem cycleBoundary_banks_kept (i : BankId) (s : State)
    (kept : ((boundaryAtNumbering s).banks.get i).state = .accepting ∨
      (((boundaryAtNumbering s).banks.get i).state = .closed ∧
        ((boundaryAtNumbering s).banks.get i.other).state = .reducing)) :
    (cycleBoundary s).banks = (boundaryAtNumbering s).banks := by
  rw [cycleBoundary_eq, State.banks_mapReq, numberingBoundary_banks_kept _ i kept]

section
variable (i : BankId) (s : State) (accepts : (s.banks.get i).state = .accepting)
  (other : (s.banks.get i.other).state ≠ .accepting)
include accepts other

theorem cycleBoundary_deadline_counts (counts : 2 ≤ (s.banks.get i).deadline) :
    (cycleBoundary s).banks = s.banks.put i { s.banks.get i with deadline := (s.banks.get i).deadline - 1 } ∧
      (cycleBoundary s).red = s.red := by
  have share : boundaryAtNumbering s = _ := banksBoundary_counts_down i (boundaryAtBanks s) (by simpa using accepts)
    (by simpa using other) (by simpa using counts)
  have reached : (boundaryAtNumbering s).banks =
      s.banks.put i { s.banks.get i with deadline := (s.banks.get i).deadline - 1 } := by rw [share]; simp
  refine ⟨(cycleBoundary_banks_kept i s (.inl ?_)).trans reached, ?_⟩
  · rw [reached, Banks.get_put]
    exact accepts
  · rw [cycleBoundary_red, share]
    simp

variable (last : (s.banks.get i).deadline = 1)
include last

/-- At the last count the banks take what the expiry of the deadline gives them. -/
theorem boundaryAtNumbering_of_expiry (t : State) (expires : exec .deadlineExpiry (boundaryAtBanks s) = .next t) :
    boundaryAtNumbering s = t :=
  next_unique (exec_deadlineExpiry_share (boundaryAtBanks s) i (by simpa using s.banks.accepting_eq i accepts other)
    (by simpa using last)) expires

theorem cycleBoundary_deadline_pends (flies : (s.banks.get i).inFlight = 1) :
    (cycleBoundary s).red = s.red ∧
      (cycleBoundary s).banks = s.banks.put i { s.banks.get i with deadline := 0, closePending := true } := by
  obtain ⟨pends, -, -⟩ := deadlineExpiryClosesTheBank (boundaryAtBanks s) i (by simpa using accepts)
    (by simpa using other) (by simpa using last)
  have share := boundaryAtNumbering_of_expiry i s accepts other last _ (pends (by simpa using flies))
  have reached : (boundaryAtNumbering s).banks =
      s.banks.put i { s.banks.get i with deadline := 0, closePending := true } := by rw [share]; simp
  refine ⟨?_, (cycleBoundary_banks_kept i s (.inl ?_)).trans reached⟩
  · rw [cycleBoundary_red, share]
    simp
  · rw [reached, Banks.get_put]
    exact accepts

theorem cycleBoundary_deadline_waits (lands : (s.banks.get i).inFlight = 0)
    (reduces : (s.banks.get i.other).state = .reducing) :
    (cycleBoundary s).red = s.red ∧ (cycleBoundary s).banks =
      s.banks.put i { s.banks.get i with state := .closed, deadline := 0, closePending := false } := by
  obtain ⟨-, waits, -⟩ := deadlineExpiryClosesTheBank (boundaryAtBanks s) i (by simpa using accepts)
    (by simpa using other) (by simpa using last)
  have share := boundaryAtNumbering_of_expiry i s accepts other last _
    (waits (by simpa using lands) (by simpa using reduces))
  have reached : (boundaryAtNumbering s).banks =
      s.banks.put i { s.banks.get i with state := .closed, deadline := 0, closePending := false } := by
    rw [share]; simp
  refine ⟨?_, (cycleBoundary_banks_kept i s (.inr ?_)).trans reached⟩
  · rw [cycleBoundary_red, share]
    simp
  · rw [reached, Banks.get_put, Banks.get_put_other]
    exact ⟨rfl, reduces⟩

/-- The reduction begins under the crossing peers as this boundary leaves them, and the other bank opens. -/
theorem cycleBoundary_deadline_reduces (lands : (s.banks.get i).inFlight = 0)
    (empty : (s.banks.get i.other).state = .empty) (live : s.live = true) :
    (cycleBoundary s).red =
        some (reduce s.loader.cfg (s.calendar.peers.map PeerEntry.boundary) i (s.banks.get i)) ∧
      (cycleBoundary s).banks.get i = { s.banks.get i with state := .reducing, deadline := 0, closePending := false } ∧
      (cycleBoundary s).banks.get i.other = Bank.opened s.banks.seq (s.cfgNat StationConfig.period) := by
  obtain ⟨-, -, begins⟩ := deadlineExpiryClosesTheBank (boundaryAtBanks s) i (by simpa using accepts)
    (by simpa using other) (by simpa using last)
  obtain ⟨t, r, expires, red, -, -, reduction, record, -, opens, -⟩ :=
    begins (by simpa using lands) (by simpa using empty)
  obtain ⟨opened, -⟩ := opens (by simpa [State.live] using live)
  have share := boundaryAtNumbering_of_expiry i s accepts other last t expires
  simp only [boundaryAtBanks_frame, State.cfgNat] at reduction record opened
  have kept := cycleBoundary_banks_kept i.other s (.inl (by rw [share, opened]))
  rw [cycleBoundary_red, kept, share]
  exact ⟨red.trans (congrArg some reduction), record, opened⟩

end

/-! ## The calendar at a boundary (R18, R21, R30) -/

theorem PeerEntry.boundary_silent (e : PeerEntry) (silent : e.age = none) : e.boundary = e := by
  rw [PeerEntry.boundary, silent]

theorem PeerEntry.boundary_young (e : PeerEntry) (k : Nat) (age : e.age = some k) (young : k < 199) :
    e.boundary = { e with age := some (k + 1) } := by
  rw [PeerEntry.boundary, age]
  exact if_neg (by simp only [Config.lapseAge]; omega)

theorem PeerEntry.boundary_old (e : PeerEntry) (k : Nat) (age : e.age = some k) (old : 199 ≤ k) :
    e.boundary = { e with age := none, claimed := 0, settled := 0, serial := none } := by
  rw [PeerEntry.boundary, age]
  exact if_pos (by simp only [Config.lapseAge]; omega)

theorem PeerEntry.boundary_peer (e : PeerEntry) : e.boundary.peer = e.peer := by
  unfold PeerEntry.boundary
  (repeat' split) <;> rfl

theorem cycleBoundary_peer (j : Nat) (e : PeerEntry) (s : State) (entry : s.calendar.peers[j]? = some e)
    (other : s.num.wanted ≠ some e.peer) : (cycleBoundary s).calendar.peers[j]? = some e.boundary := by
  rw [cycleBoundary_eq, State.calendar_mapReq]
  refine numberingBoundary_peer _ j e.boundary (by simp [entry]) ?_
  rw [e.boundary_peer]
  simpa using other

/-- A notice countdown above its last count loses one. -/
theorem countdownBoundary_counts_down (k : Nat) (s : State) (works : s.calendar.state ≠ .inactive)
    (count : s.calendar.countdown = some k) (counts : 2 ≤ k) :
    countdownBoundary s = s.mapCalendar fun c => { c with countdown := some (k - 1) } := by
  simp only [countdownBoundary, if_neg works, count]
  exact if_neg (by omega)

section
variable (s : State) (unmoved : s.loader.station ≠ .numbering)
include unmoved

/-- In a station that does not enter RUNNING the calendar's own share decides. -/
theorem cycleBoundary_calendar :
    (cycleBoundary s).calendar.countdown = (boundaryAtBanks s).calendar.countdown ∧
      (cycleBoundary s).calendar.claims = (boundaryAtBanks s).calendar.claims ∧
      (cycleBoundary s).line.set.notice = (boundaryAtBanks s).line.set.notice := by
  have kept := numberingBoundary_calendar (boundaryAtNumbering s) (by simpa using unmoved)
  rw [cycleBoundary_eq]
  simpa using kept

variable (works : s.calendar.state ≠ .inactive)
include works

theorem cycleBoundary_countdown_counts (k : Nat) (count : s.calendar.countdown = some k) (counts : 2 ≤ k) :
    (cycleBoundary s).calendar.countdown = some (k - 1) ∧ (cycleBoundary s).calendar.claims = s.calendar.claims := by
  obtain ⟨countdown, claims, -⟩ := cycleBoundary_calendar s unmoved
  have share : boundaryAtBanks s = _ := countdownBoundary_counts_down k (boundaryAtCountdown s)
    (by simpa using works) (by simpa using count) counts
  rw [countdown, claims, share]
  simp

theorem cycleBoundary_countdown_expires (last : s.calendar.countdown = some 1) :
    (cycleBoundary s).calendar.countdown = some 64 ∧ (cycleBoundary s).line.set.notice = some ⟨(), 0⟩ ∧
      (cycleBoundary s).calendar.claims =
        if s.calendar.state = .active ∧ none ∈ s.calendar.claims then
          claimedList { s with calendar := { s.calendar with peers := s.calendar.peers.map PeerEntry.boundary } }
        else s.calendar.claims := by
  obtain ⟨countdown, claims, notice⟩ := cycleBoundary_calendar s unmoved
  have last' : (boundaryAtCountdown s).calendar.countdown = some 1 := by simpa using last
  have share : boundaryAtBanks s = _ := next_unique (exec_noticeCountdownExpiry_share (boundaryAtCountdown s) last')
    (noticeCountdownExpiryQueuesANotice (boundaryAtCountdown s) (by simpa using works) last')
  have claimed := claimedList_congr
    { s with calendar := { s.calendar with peers := s.calendar.peers.map PeerEntry.boundary } }
    (boundaryAtCountdown s) (by simp) (by simp) (by simp) (by simp)
  rw [countdown, claims, notice, share]
  simp [claimed]

end

/-! ## The listen countdown and the hold-off at a boundary (R165..R168) -/

section
variable (s : State)

theorem cycleBoundary_unit : (cycleBoundary s).num = (numberingBoundary (boundaryAtNumbering s)).num ∧
    (cycleBoundary s).loader = (numberingBoundary (boundaryAtNumbering s)).loader ∧
    (cycleBoundary s).line = (numberingBoundary (boundaryAtNumbering s)).line := ⟨rfl, rfl, rfl⟩

theorem numberingBoundary_listen_counts (k : Nat) (listen : s.num.listen = some k) (counts : 2 ≤ k) :
    numberingBoundary s = s.mapNum fun u => { u with listen := some (k - 1) } := by
  simp only [numberingBoundary, listen]
  exact if_neg (by omega)

theorem numberingBoundary_holdOff_counts (k : Nat) (stopped : s.num.listen = none) (hold : s.num.holdOff = some k)
    (counts : 2 ≤ k) : numberingBoundary s = s.mapNum fun u => { u with holdOff := some (k - 1) } := by
  simp only [numberingBoundary, stopped, hold]
  exact if_neg (by omega)

theorem numberingBoundary_chooses (w : StationNo) (last : s.num.listen = some 1)
    (free : s.num.taken.getLsbD w.val = false) (below : ∀ n : StationNo, n < w → s.num.taken.getLsbD n.val = true) :
    numberingBoundary s =
      { s with
        num := { s.num with state := .claiming, wanted := some w, listen := none, holdOff := none }
        line := Line.queueClaim w s.line } := by
  obtain ⟨chooses, -⟩ := listenExpiryChoosesTheLowestFreeNumber s last
  exact next_unique (exec_listenCountdownExpiry_share s last) (chooses w free below)

/-- At the end of the hold-off the unit is NUMBERED, and a NUMBERING station RUNNING. -/
theorem numberingBoundary_numbers (w : StationNo) (stopped : s.num.listen = none) (last : s.num.holdOff = some 1)
    (wanted : s.num.wanted = some w) :
    (numberingBoundary s).num = { s.num with state := .numbered, own := some w, holdOff := none } ∧
      (numberingBoundary s).loader.station =
        (if s.loader.station = .numbering then .running else s.loader.station) := by
  obtain ⟨t, expires, num, -, -, -, -, -, -, -, stays, enters⟩ := holdOffExpiryNumbersTheStation s w last wanted
  rw [next_unique (exec_holdOffExpiry_share s stopped last) expires]
  refine ⟨num, ?_⟩
  by_cases numbering : s.loader.station = .numbering
  · obtain ⟨loader, -⟩ := enters numbering
    rw [if_pos numbering, loader]
  · obtain ⟨loader, -⟩ := stays numbering
    rw [if_neg numbering, loader]

end

section
variable (s : State)

theorem cycleBoundary_listen_counts (k : Nat) (listen : s.num.listen = some k) (counts : 2 ≤ k) :
    (cycleBoundary s).num = { s.num with listen := some (k - 1) } := by
  rw [(cycleBoundary_unit s).1, numberingBoundary_listen_counts _ k (by simpa using listen) counts]
  simp

theorem cycleBoundary_chooses (w : StationNo) (last : s.num.listen = some 1)
    (free : s.num.taken.getLsbD w.val = false) (below : ∀ n : StationNo, n < w → s.num.taken.getLsbD n.val = true) :
    (cycleBoundary s).line.set.claim = some ⟨w, 0⟩ ∧
      (cycleBoundary s).num = { s.num with state := .claiming, wanted := some w, listen := none, holdOff := none } := by
  obtain ⟨num, -, line⟩ := cycleBoundary_unit s
  rw [num, line, numberingBoundary_chooses (boundaryAtNumbering s) w (by simpa using last) (by simpa using free)
    (by simpa using below)]
  exact ⟨rfl, by simp⟩

theorem cycleBoundary_holdOff_counts (k : Nat) (stopped : s.num.listen = none) (hold : s.num.holdOff = some k)
    (counts : 2 ≤ k) : (cycleBoundary s).num = { s.num with holdOff := some (k - 1) } := by
  rw [(cycleBoundary_unit s).1,
    numberingBoundary_holdOff_counts _ k (by simpa using stopped) (by simpa using hold) counts]
  simp

theorem cycleBoundary_numbers (w : StationNo) (stopped : s.num.listen = none) (last : s.num.holdOff = some 1)
    (wanted : s.num.wanted = some w) :
    (cycleBoundary s).num = { s.num with state := .numbered, own := some w, holdOff := none } ∧
      (cycleBoundary s).loader.station =
        (if s.loader.station = .numbering then .running else s.loader.station) := by
  obtain ⟨num, loader, -⟩ := cycleBoundary_unit s
  have numbers := numberingBoundary_numbers (boundaryAtNumbering s) w (by simpa using stopped) (by simpa using last)
    (by simpa using wanted)
  rw [num, loader]
  simpa using numbers

end

/-! ## The statement -/

/-- Settles O10: block by block, each countdown above its last count and at it. -/
theorem cycleBoundaryCountsAtTheOtherBlocks : Obligations.CycleBoundaryCountsAtTheOtherBlocks := by
  intro s due
  have raised := exec_cycleBoundary_due s due
  refine ⟨⟨_, raised, ?_⟩, fun charging => ⟨fun counts => ⟨_, raised, ?_⟩, fun last => ⟨_, raised, ?_⟩⟩,
    fun i accepts other => ⟨fun counts => ⟨_, raised, ?_⟩, fun last flies => ⟨_, raised, ?_⟩,
      fun last lands reduces => ⟨_, raised, ?_⟩, fun last lands empty live => ?_⟩,
    fun k works count unmoved => ⟨fun counts => ⟨_, raised, ?_⟩, fun last => ⟨_, raised, ?_⟩⟩,
    fun j e entry other => ⟨_, raised, ?_⟩,
    fun k listen => ⟨fun counts => ⟨_, raised, ?_⟩, fun w last free below => ⟨_, raised, ?_⟩⟩,
    fun k stopped hold => ⟨fun counts => ⟨_, raised, ?_⟩, fun w last wanted => ⟨_, raised, ?_⟩⟩⟩
  · rw [cycleBoundary_req]
    exact ⟨rfl, rfl⟩
  · exact (cycleBoundary_laser (s.mapTimer (Timer.arrive 0)) charging).trans (s.laser.boundary_counts charging counts)
  · exact (cycleBoundary_laser (s.mapTimer (Timer.arrive 0)) charging).trans (s.laser.boundary_last charging last)
  · rw [cycleBoundary_req]
    exact ⟨rfl, rfl, cycleBoundary_deadline_counts i _ accepts other counts⟩
  · exact cycleBoundary_deadline_pends i _ accepts other last flies
  · exact cycleBoundary_deadline_waits i _ accepts other last lands reduces
  · obtain ⟨red, record, opened⟩ := cycleBoundary_deadline_reduces i (s.mapTimer (Timer.arrive 0)) accepts other last
      lands empty live
    refine ⟨_, _, raised, red, reduce_bank _ _ _ _, rfl, record, ?_⟩
    rw [opened]
    exact ⟨rfl, rfl, rfl⟩
  · exact cycleBoundary_countdown_counts (s.mapTimer (Timer.arrive 0)) unmoved works k count counts
  · subst last
    exact cycleBoundary_countdown_expires _ unmoved works count
  · have aged := cycleBoundary_peer j e (s.mapTimer (Timer.arrive 0)) entry other
    refine ⟨fun silent => ?_, fun k age young => ?_, fun k age old => ?_⟩
    · rw [aged, e.boundary_silent silent]
    · rw [aged, e.boundary_young k age young]
    · rw [aged, e.boundary_old k age old]
  · exact cycleBoundary_listen_counts _ k listen counts
  · subst last
    exact cycleBoundary_chooses _ w listen free below
  · exact cycleBoundary_holdOff_counts _ k stopped hold counts
  · subst last
    exact cycleBoundary_numbers _ w stopped hold wanted

end Sys2Proof.Machine
end

section
/-! SUPPORT. Every command answers a next state and leaves the queue alone (log 1, log 23): what the receive checks and
the tests of the events answer, and the queue at every operation a command comes to. -/

namespace Sys2Proof.Machine

/-! ## The queue at the operations of the commands -/

/-- No operation of a block reaches the queue: each has a frame lemma that says so, and the resets carry it over. -/
theorem CommandStep.pending_eq {s t : State} (made : CommandStep s t) : t.pending = s.pending := by
  cases made with
  | nothing | reset => rfl
  | slotStart | boundary | heardLapse | suppressionEnd | peerLapse => simp
  | countdown | chargeTimeout | deadline | listenEnd | holdOffEnd | quietEnd => simp
  | chargeDone | bandChange | reading | windowEnd | capture | reduced | load => simp
  | lineIdle | attempt | loss | collision | transmitted | startBit => simp
  | frame f rx => simp
  | discard r rx p => simp

/-! ## The answers of the commands (log 1, log 23) -/

/-- The outcome is a next state, neither a fault nor a refusal. -/
def Answers (o : Host.Outcome State Fault Refusal) : Prop := ∃ t, o = .next t

theorem answers_next (t : State) : Answers (.next t) := ⟨t, rfl⟩

theorem Answers.ite {p : Prop} [Decidable p] {a b : Host.Outcome State Fault Refusal} (ha : Answers a)
    (hb : Answers b) : Answers (if p then a else b) := by
  split
  · exact ha
  · exact hb

/-- A command that makes one of two states, by a test of its event or of its sender. -/
theorem answers_tested (p : Prop) [Decidable p] (a b : State) : Answers (if p then .next a else .next b) :=
  (answers_next a).ite (answers_next b)

section
variable (s : State)

theorem execHeardEntryLapse_answers (n : StationNo) : Answers (execHeardEntryLapse n s) := by
  unfold execHeardEntryLapse
  split
  · exact answers_tested _ _ _
  · exact answers_next s

theorem execCrossingPeerLapse_answers (j : Fin 8) : Answers (execCrossingPeerLapse j s) := by
  unfold execCrossingPeerLapse
  split
  · exact answers_tested _ _ _
  · exact answers_next s

theorem execDeadlineExpiry_answers : Answers (execDeadlineExpiry s) := by
  unfold execDeadlineExpiry
  split
  · exact answers_tested _ _ _
  · exact answers_next s

theorem execReductionComplete_answers : Answers (execReductionComplete s) := by
  unfold execReductionComplete
  split
  · exact answers_next _
  · exact answers_next s

theorem execNotice_answers (sender : Sender) (serial : Serial) (body : NoticeBody) :
    Answers (execNotice sender serial body s) := by
  unfold execNotice
  split
  · exact answers_next _
  · exact answers_next _

theorem execClaim_answers (sender : Sender) (serial : Serial) : Answers (execClaim sender serial s) := by
  unfold execClaim
  split
  · exact answers_next _
  · exact answers_next _

/-- Too many layers are discarded before the sender is looked at (R158, R159). -/
theorem execReport_answers (sender : Sender) (fields : ReportFields) : Answers (execReport sender fields s) := by
  refine Answers.ite (answers_next _) ?_
  split
  · exact answers_next _
  · exact answers_next _

/-- A length that does not agree is discarded before the sender is looked at (R158, R159). -/
theorem execStatus_answers (sender : Sender) (payload : List Byte) : Answers (execStatus sender payload s) :=
  (answers_tested _ _ _).ite (answers_next _)

/-- No command faults or is refused, in any state and with any operands. -/
theorem exec_answers (c : Instr) : Answers (exec c s) := by
  cases c with
  | powerOn | pinReset => exact answers_next _
  | slotStart | cycleBoundary => exact answers_tested _ _ _
  | heardEntryLapse n => exact execHeardEntryLapse_answers s n
  | crossingPeerLapse j => exact execCrossingPeerLapse_answers s j
  | deadlineExpiry => exact execDeadlineExpiry_answers s
  | suppressionEnd | noticeCountdownExpiry | chargeTimeout | listenCountdownExpiry | holdOffExpiry | quietEnd =>
    exact answers_tested _ _ _
  | chargeDone | bandChange | energyReading | shotWindowEnd | rangeCaptureComplete => exact answers_next _
  | reductionComplete => exact execReductionComplete_answers s
  | loadComplete => exact answers_tested _ _ _
  | lineIdle | attemptStart | arbitrationLoss | collisionError | frameTransmitted | frameDiscard | startBit =>
    exact answers_next _
  | notice sender serial body => exact execNotice_answers s sender serial body
  | claim sender serial => exact execClaim_answers s sender serial
  | report sender fields => exact execReport_answers s sender fields
  | status sender payload => exact execStatus_answers s sender payload
  | query | quiet | restartTracking | restartFiring | restartStation => exact answers_tested _ _ _

end

/-! ## The statement -/

/-- Settles O2: every command has an answer, and what it answers is an operation of a block, which leaves the queue. -/
theorem everyCommandCompletesAndKeepsTheQueue : Obligations.EveryCommandCompletesAndKeepsTheQueue := by
  intro c s
  obtain ⟨t, answer⟩ := exec_answers s c
  exact ⟨t, answer, (exec_step s t c answer).pending_eq⟩

end Sys2Proof.Machine
end
